-- ==== Sys2Proof/Word.lean ====
section
/-!
DEFINITION. The word types of the GH28 model: only what the manual treats as bits is a bit vector.
-/

namespace Sys2Proof

/-- One byte of a record or of parcel memory. -/
abbrev Byte := BitVec 8

/-- A 64-bit system address (0.6, R60). -/
abbrev Addr := BitVec 64

/-- A channel key (R29): any 32-bit value. -/
abbrev Key := BitVec 32

/-- A tally or wrapping counter (0.6): a 32-bit count that runs freely. -/
abbrev Tally := BitVec 32

/-- A client set (0.6): bit n stands for client n. -/
abbrev ClientSet := BitVec 8

/-- The 16-bit name of a parcel (R5): generation × 1024 + index. -/
abbrev Handle := BitVec 16

/-- A client number, 0 to 7 (0.1). Client 0 is the supervisor. -/
abbrev ClientId := Fin 8

/-- A work slot's number, 0 to 3 (section 4.3). -/
abbrev SlotId := Fin 4

end Sys2Proof
end

