-- ==== Sys2Proof/Config.lean ====
section
/-!
DEFINITION. The constants the manual fixes for revision 3 of the part, and the one value it leaves open.
-/

namespace Sys2Proof.Config

/-- Records of the parcel table (section 1.2). -/
def parcels : Nat := 1024

/-- The greatest length of any parcel in bytes (section 1.1). -/
def maxLength : Nat := 65535

/-- The greatest holder count of one client on one parcel (R7). -/
def maxHolder : Nat := 15

/-- Ways of a bucket of the exact table (section 2.2). -/
def ways : Nat := 4

/-- Places of the pattern list (R32). -/
def patterns : Nat := 16

/-- Places of one pending list (R119). -/
def pendingList : Nat := 32

/-- Places of the notice list (R172). -/
def notices : Nat := 8

/-- Where the lost count stops (R172). -/
def maxLost : Nat := 65535

/-- REFCLK periods in one tick (R190). -/
def tickPeriods : Nat := 25000

/-- What IDENT reads (R175): part 0x28, vendor 0x57, revision 3. -/
def ident : BitVec 32 := 0x28570003#32

/-- The greatest total length for which AUTO chooses SHORT (R106). -/
def autoShort : Nat := 512

/-- A bus transaction never crosses a multiple of this in system addresses (R143). -/
def busBlock : Nat := 256

/-- The grants to others after which a waiting fetcher goes first (R189). -/
def fetcherPatience : Nat := 4

/-- Bytes of a client descriptor (R152) and of a query report (R153). -/
def descriptorBytes : Nat := 192

/-- Bytes of a query report (R153). -/
def reportBytes : Nat := 64

/-- FREE VALUE (DESIGN CHOICE, log entry 2): the address put on the bus for a ring slot that would lie at or beyond
2^64. The descriptor tests of R156 admit a ring base so near the top, and no rule says which address is used then. -/
opaque addressPastTop : Nat → Addr

end Sys2Proof.Config
end

