-- ==== Sys2Proof/Syntax.lean ====
section
/-!
DEFINITION. The commands of the GH28: one constructor of `Instr` per row of spec/opcode_table.json. A row is one whole and
indivisible step of the part (spec/95_what_each_step_holds.md). The table gives the rows no operand fields, so the operands
here are what a step needs from outside its own state: the slot or client it is the step of, the outcome of a bus
transaction, the value of a register access.
-/

namespace Sys2Proof

/-- How a read transaction of the part ends (0.4): with the bytes memory held, or with a bus error. -/
inductive ReadOutcome where
  | data (bytes : List Byte)
  | busError
  deriving DecidableEq, Repr

/-- How a write transaction of the part ends (0.4). -/
inductive WriteOutcome where
  | done
  | busError
  deriving DecidableEq, Repr

/-- The width of an access to the register window (R175). -/
inductive AccessWidth where
  | byte | half | word | double
  deriving DecidableEq, Repr

/-- An access to the register window. -/
inductive AccessKind where
  | read
  | write (value : BitVec 32)
  deriving DecidableEq, Repr

/-- An access to the 32-byte register window (R175): its byte offset, its width, and a value if it writes. -/
structure PortAccess where
  offset : BitVec 5
  width : AccessWidth
  kind : AccessKind
  deriving DecidableEq, Repr

/-- The steps of the part, one constructor per row of the opcode table, in the table's order. The rows that are steps of
a command name the work slot that holds it. The rows that complete a bus transaction name no transaction, since the port
carries one at a time (section 9.6). -/
inductive Instr where
  | postReadComplete (r : ReadOutcome)
  | openParcel (i : SlotId)
  | append (i : SlotId)
  | cut (i : SlotId)
  | dispatch (i : SlotId)
  | send (i : SlotId)
  | forward (i : SlotId)
  | fetch (i : SlotId)
  | release (i : SlotId)
  | subscribe (i : SlotId)
  | unsubscribe (i : SlotId)
  | pin (i : SlotId)
  | unpin (i : SlotId)
  | attach (i : SlotId)
  | detach (i : SlotId)
  | query (i : SlotId)
  | gatherPieceComplete (r : ReadOutcome)
  | scatterPieceComplete (w : WriteOutcome)
  | lookup (i : SlotId)
  | admission (i : SlotId)
  | settlement (i : SlotId)
  | handOver (i : SlotId)
  | releaseAfterDrop (i : SlotId)
  | clientHalfReadComplete (r : ReadOutcome)
  | deliveryClaim (c : ClientId)
  | returnClaim (c : ClientId)
  | recordWriteComplete (w : WriteOutcome)
  | writeBackComplete (w : WriteOutcome)
  | signalWriteComplete (w : WriteOutcome)
  | grant
  | tick
  | sweep
  | lingerExpiry (c : ClientId)
  | directoryPurge (i : SlotId)
  | pendingPurge (i : SlotId)
  | referenceWalkVisit (i : SlotId)
  | teardownCompletion (i : SlotId)
  | attachDescriptorPieceComplete (r : ReadOutcome)
  | attachCxbReadComplete (r : ReadOutcome)
  | attachWriteBackComplete (w : WriteOutcome)
  | countRead (i : SlotId)
  | reportRead (i : SlotId)
  | reportWritePieceComplete (w : WriteOutcome)
  | go
  | halt
  | restart
  | attend (value : BitVec 32)
  | setupAddressWrite (high : Bool) (value : BitVec 32)
  | registerWrite (a : PortAccess)
  | setupReadComplete (r : ReadOutcome)
  | setupDescriptorPieceComplete (r : ReadOutcome)
  | setupCxbReadComplete (r : ReadOutcome)
  | setupWriteBackComplete (w : WriteOutcome)
  | resetPinAssert
  | resetPinRelease
  deriving DecidableEq, Repr

end Sys2Proof
end

