-- ==== Sys2Proof/WellFormed.lean ====
section
/-!
DEFINITION. Which commands can occur at all: a read that completes without bus error brings exactly the bytes of its
transaction (R76, R77, R143, R183), so a post read brings 64 and a client-half read 32, and a piece brings 1 to 256.
-/

namespace Sys2Proof

/-- The outcome of a read of exactly n bytes. -/
def ReadOutcome.hasLength (n : Nat) : ReadOutcome → Bool
  | .data bs => bs.length == n
  | .busError => true

/-- The outcome of the read of one piece, which has 1 to 256 bytes (R143). -/
def ReadOutcome.isPiece : ReadOutcome → Bool
  | .data bs => 1 ≤ bs.length && bs.length ≤ Config.busBlock
  | .busError => true

/-- Well-formed commands. The operands that are numbers carry their range in their type; the bytes a read brings are
checked here. -/
def WellFormed : Instr → Bool
  | .postReadComplete r => r.hasLength 64
  | .clientHalfReadComplete r => r.hasLength 32
  | .attachCxbReadComplete r => r.hasLength 32
  | .setupReadComplete r => r.hasLength 64
  | .setupCxbReadComplete r => r.hasLength 32
  | .gatherPieceComplete r => r.isPiece
  | .attachDescriptorPieceComplete r => r.isPiece
  | .setupDescriptorPieceComplete r => r.isPiece
  | .openParcel _ | .append _ | .cut _ | .dispatch _ | .send _ | .forward _ | .fetch _ | .release _ => true
  | .subscribe _ | .unsubscribe _ | .pin _ | .unpin _ | .attach _ | .detach _ | .query _ => true
  | .scatterPieceComplete _ | .lookup _ | .admission _ | .settlement _ | .handOver _ | .releaseAfterDrop _ => true
  | .deliveryClaim _ | .returnClaim _ | .recordWriteComplete _ | .writeBackComplete _ | .signalWriteComplete _ => true
  | .grant | .tick | .sweep | .lingerExpiry _ | .directoryPurge _ | .pendingPurge _ | .referenceWalkVisit _ => true
  | .teardownCompletion _ | .attachWriteBackComplete _ | .countRead _ | .reportRead _ | .reportWritePieceComplete _ => true
  | .go | .halt | .restart | .attend _ | .setupAddressWrite _ _ | .registerWrite _ | .setupWriteBackComplete _ => true
  | .resetPinAssert | .resetPinRelease => true

end Sys2Proof
end

