-- ==== Sys2Proof/Decode.lean ====
section
/-!
DEFINITION. The commands that a word of the opcode table spells. The table gives no row any bits (spec/98_reader.md: no row
has "fixed" or "fields"), so no word spells a command. The encodings the part does read, those of its records, are in
Machine/Records.lean, and the register window's is in Machine/Control.lean.
-/

namespace Sys2Proof

/-- The command a word of `nbits` bits spells by the table's bits: none, since the table gives none. -/
def decodeTableWord (_nbits _w : Nat) : Option Instr := none

end Sys2Proof
end

