-- ==== Sys2Proof/Machine/State.lean ====
section
/-!
DEFINITION. The state of the GH28, block by block (section 0.3), as plain data, and its values after the reset pin.
-/

namespace Sys2Proof.Machine

/-! ### Why a step can stop -/

/-- Why the machine stops with a fault. -/
inductive Fault where
  /-- Raised by a grant, gather or scatter step whose piece lies at a chain position that has no segment. R17 keeps the
  chain long enough for every growth and length, so no run from reset raises it. SAFE: the model stops. -/
  | outsideChain
  deriving DecidableEq, Repr

/-- Why a command is refused. -/
inductive Refusal where
  /-- Raised by the arm of a command that has no meaning yet. SAFE. -/
  | notModelled (mnemonic : String)
  /-- Raised by the completion of a read whose bytes are not as many as its transaction asks for. Such a completion is
  not well formed (`WellFormed`, R143). SAFE. -/
  | wrongLength
  deriving DecidableEq, Repr

/-! ### Names of the manual -/

/-- Device states (R176, section 9.2). -/
inductive DeviceState where
  | off | loading | running | halting | halted | failed
  deriving DecidableEq, Repr

/-- Device fault codes (section 9.1). -/
inductive DeviceFault where
  | none | setupRead | setupInvalid | supervisorFault | noticeWrite
  deriving DecidableEq, Repr

/-- Client states (R55). -/
inductive ClientState where
  | absent | attached | faulted | draining
  deriving DecidableEq, Repr

/-- Client fault reasons (R59). -/
inductive FaultReason where
  | postRead | cxbRead | recordWrite | signalWrite | tally
  deriving DecidableEq, Repr

/-- The two classes of segment (section 1.1). -/
inductive SegClass where
  | short | long
  deriving DecidableEq, Repr

/-- Stages of a parcel record's life (section 1.2). -/
inductive ParcelState where
  | free | building | closed
  deriving DecidableEq, Repr

/-- The statuses of a completion (R82). -/
inductive Status where
  | ok | badCommand | notPermitted | badHandle | notHeld | badState | badRange | tooLong | noQuota | noSpace
  | aperture | busError | noRoute | refused | tableFull | keyInUse | notFound | badDescriptor
  deriving DecidableEq, Repr

/-- The two rings the part writes (section 3.3). -/
inductive OutRingName where
  | ret | del
  deriving DecidableEq, Repr

/-! ### The Parcel Store (chapter 1) -/

/-- One value for each class of segment. -/
structure PerClass (α : Type) where
  short : α
  long : α
  deriving DecidableEq, Repr

/-- The pool of one class: its set of free segments (R2), as the segments returned to it and all numbers from `fresh` up,
which no claim has taken since reset. Which free segment a claim takes cannot be observed (R2). -/
structure Pool where
  returned : List Nat
  fresh : Nat
  deriving DecidableEq, Repr

/-- One record of the parcel table (section 1.2). -/
structure Parcel where
  state : ParcelState
  generation : BitVec 6
  cls : SegClass
  length : Nat
  headOffset : Nat
  growth : Option Nat
  chain : List Nat
  charged : Option ClientId
  holders : Vector Nat 8
  refCount : Nat
  deriving DecidableEq, Repr

/-- A FREE record at generation 0, as every record is after reset (section 1.9). -/
def Parcel.initial : Parcel :=
  { state := .free, generation := 0, cls := .short, length := 0, headOffset := 0, growth := none, chain := [],
    charged := none, holders := Vector.replicate 8 0, refCount := 0 }

/-- What the store keeps for one client (R9, R11): its held total and its charged counts. -/
structure Account where
  held : Nat
  charged : PerClass Nat
  deriving DecidableEq, Repr

/-- The Parcel Store. `records` lists the records that differ from `Parcel.initial`, and `memory` the bytes of parcel
memory that differ from 0, both with rising keys. -/
structure Store where
  records : List (Nat × Parcel)
  pools : PerClass Pool
  accounts : Vector Account 8
  reserves : PerClass Nat
  arms : PerClass Bool
  memory : List Host.Cell
  deriving DecidableEq, Repr

/-! ### The Channel Directory (chapter 2) -/

/-- The kind of an exact entry with what belongs to it (R30): only a RETURN entry has a life and a once flag, and it has
exactly one client. -/
inductive ExactKind where
  | pinned (set : ClientSet)
  | joined (set : ClientSet)
  | ret (client : ClientId) (life : Nat) (once : Bool)
  deriving DecidableEq, Repr

/-- An entry of the exact table (section 2.2). -/
structure ExactEntry where
  key : Key
  kind : ExactKind
  deriving DecidableEq, Repr

/-- The kind of a pattern (R32): no pattern is a RETURN entry. -/
inductive PatternKind where
  | pinned | joined
  deriving DecidableEq, Repr

/-- An entry of the pattern list (section 2.3); `key` is stored ANDed with the mask. -/
structure Pattern where
  key : Key
  mask : BitVec 32
  kind : PatternKind
  set : ClientSet
  deriving DecidableEq, Repr

/-- The Channel Directory. `exact` lists the ways in use, keyed by bucket × 4 + way, with rising keys. `sweepsDue` is the
model's own: the sweeps the aging timer has called for that have not been taken (log entry 6). -/
structure Directory where
  exact : List (Nat × ExactEntry)
  patterns : List Pattern
  agingPeriod : Nat
  agingLimit : Nat
  timer : Nat
  sweepsDue : Nat
  learned : Tally
  learnSkipped : Tally
  agedOut : Tally
  consumed : Tally
  deriving DecidableEq, Repr

/-! ### The Client Table (chapter 3) -/

/-- An aperture (section 7.1). The two flags are its rights. -/
structure Aperture where
  base : BitVec 64
  length : BitVec 64
  system : Addr
  readRight : Bool
  writeRight : Bool
  deriving DecidableEq, Repr

/-- The post ring as the context holds it: geometry, post taken (R61) and the last-read post tally. -/
structure PostRing where
  base : Addr
  size : Nat
  taken : Tally
  lastPost : Tally
  deriving DecidableEq, Repr

/-- A return or delivery ring as the context holds it: geometry, the part's tallies (R61), the last-read taken value and
wake mark, the signalled mark (R72), and whether a write of the ring is in flight (R69). -/
structure OutRing where
  base : Addr
  size : Nat
  claimed : Tally
  written : Tally
  lastTaken : Tally
  lastWake : Tally
  signalled : Tally
  inFlight : Bool
  deriving DecidableEq, Repr

/-- A client context (section 3.1). `finalDue` says that the final write-back of R68 is owed and not yet issued. -/
structure Client where
  state : ClientState
  reason : Option FaultReason
  post : PostRing
  ret : OutRing
  del : OutRing
  cxb : Addr
  signalAddr : Addr
  signalValue : BitVec 32
  refLimit : Nat
  segLimit : PerClass Nat
  learning : Bool
  apertures : List Aperture
  sequence : Tally
  sent : Tally
  placed : Tally
  refused : Tally
  expired : Tally
  finalDue : Bool
  deriving DecidableEq, Repr

/-- An out ring with every field 0 (R54). -/
def OutRing.initial : OutRing :=
  { base := 0, size := 0, claimed := 0, written := 0, lastTaken := 0, lastWake := 0, signalled := 0, inFlight := false }

/-- The context of an ABSENT client (R54). -/
def Client.initial : Client :=
  { state := .absent, reason := none, post := { base := 0, size := 0, taken := 0, lastPost := 0 },
    ret := OutRing.initial, del := OutRing.initial, cxb := 0, signalAddr := 0, signalValue := 0, refLimit := 0,
    segLimit := { short := 0, long := 0 }, learning := false, apertures := [], sequence := 0,
    sent := 0, placed := 0, refused := 0, expired := 0, finalDue := false }

/-! ### Records (chapter 10) -/

/-- A fragment entry of a post record (section 10.2). -/
structure Fragment where
  addr : BitVec 48
  len : BitVec 16
  deriving DecidableEq, Repr

/-- A post record, field by field (section 10.2), nothing left out: the record as it was read (R79). -/
structure PostRecord where
  kind : Byte
  flags : Byte
  cls : Byte
  count : Byte
  tag : BitVec 32
  handle : Handle
  subject : Byte
  reserved : Byte
  key : Key
  auxA : BitVec 32
  auxB : BitVec 32
  reserved2 : BitVec 64
  frag0 : Fragment
  frag1 : Fragment
  frag2 : Fragment
  frag3 : Fragment
  deriving DecidableEq, Repr

/-- A valid client descriptor (section 10.6), what ATTACH and the setup load take from its 192 bytes. -/
structure Descriptor where
  postBase : Addr
  retBase : Addr
  delBase : Addr
  postSize : Nat
  retSize : Nat
  delSize : Nat
  learning : Bool
  cxb : Addr
  signalAddr : Addr
  signalValue : BitVec 32
  refLimit : Nat
  segLimit : PerClass Nat
  apertures : List Aperture
  deriving DecidableEq, Repr

/-- The five values recorded from a client half (R65, section 10.5). -/
structure ClientHalf where
  postTally : Tally
  retTaken : Tally
  delTaken : Tally
  retWake : Tally
  delWake : Tally
  deriving DecidableEq, Repr

/-- A valid setup block (section 10.7). -/
structure Settings where
  agingPeriod : Nat
  agingLimit : Nat
  linger : Nat
  reserves : PerClass Nat
  descriptor : Addr
  deriving DecidableEq, Repr

/-- A completion (R83, section 10.3): all of its record but the kind byte and the lap flag. -/
structure Completion where
  kind : Byte
  status : Status
  tag : BitVec 32
  detail : Nat
  handle : Handle
  length : Nat
  routed : ClientSet
  refused : ClientSet
  copied : Nat
  subject : Byte
  subscribers : ClientSet
  holderAfter : Nat
  freed : Bool
  aborted : Bool
  cleared : Bool
  refsDropped : Nat
  parcelsFreed : Nat
  pendingDropped : Nat
  deriving DecidableEq, Repr

/-- A notice (section 8.5). -/
inductive Notice where
  | clientFault (c : ClientId) (reason : FaultReason)
  | poolLow (cls : SegClass) (free : Nat)
  deriving DecidableEq, Repr

/-- A notice in the notice list, with the tick count at which it was queued (R172). -/
structure QueuedNotice where
  notice : Notice
  tick : Tally
  deriving DecidableEq, Repr

/-- An entry of a pending list (section 6.2). -/
structure PendingEntry where
  handle : Handle
  key : Key
  sender : ClientId
  cls : BitVec 2
  reply : Option Key
  tick : Tally
  deriving DecidableEq, Repr

/-! ### Bus transactions (section 9.6) -/

/-- What a record write carries (section 3.5): the completion of a slot, a notice, or a delivery. -/
inductive RecordKind where
  | completion (i : SlotId)
  | notice
  | delivery
  deriving DecidableEq, Repr

/-- What a transaction of the part is for. -/
inductive TxnOp where
  | clientHalf (c : ClientId)
  | postRead (c : ClientId) (i : SlotId)
  | setupRead
  | setupDescriptor
  | setupHalf
  | gather (i : SlotId)
  | scatter (i : SlotId)
  | attachDescriptor (i : SlotId)
  | attachHalf (i : SlotId)
  | report (i : SlotId)
  | record (c : ClientId) (ring : OutRingName) (what : RecordKind)
  | writeBack (c : ClientId) (ring : OutRingName)
  | finalWriteBack (c : ClientId)
  | signal (c : ClientId) (ring : OutRingName)
  | attachWriteBack (i : SlotId)
  | setupWriteBack
  deriving DecidableEq, Repr

/-- One transaction: its purpose, system address, number of bytes, and for a write the bytes. -/
structure Txn where
  op : TxnOp
  addr : Addr
  len : Nat
  data : List Byte
  deriving DecidableEq, Repr

/-- The transaction on the bus. `stale` says that a RESTART or an assertion of the reset pin has been taken since its grant,
so that its result is discarded when it completes (R181, R151; log entry 16). -/
structure BusTxn where
  txn : Txn
  stale : Bool
  deriving DecidableEq, Repr

/-- The bus-master arbiter (R188). -/
structure Arbiter where
  slotPointer : SlotId
  waitCount : Nat
  bus : Option BusTxn
  deriving DecidableEq, Repr

/-! ### Work slots (chapter 4) -/

/-- Slot states (R79). -/
inductive SlotState where
  | free | bound | performing | held | writing
  deriving DecidableEq, Repr

/-- One piece of a transfer (R143): its fragment's index, its system address, its length, and the place of its first
byte in the run. -/
structure Piece where
  fragment : Nat
  addr : Addr
  len : Nat
  run : Nat
  deriving DecidableEq, Repr

/-- The undo information of a slot (R79): a growth claim not yet committed, with the segments it appended and whether
it is a SEND's, whose undo also drops the builder's reference (R19). -/
structure GrowthClaim where
  index : Nat
  client : ClientId
  segments : Nat
  isSend : Bool
  deriving DecidableEq, Repr

/-- A data movement between client memory and a parcel: the parcel's handle, the parcel position of the run's first byte,
the pieces not yet completed, and for the completion the parcel's length at the check and the total length. -/
structure Movement where
  handle : Handle
  base : Nat
  pieces : List Piece
  length : Nat
  total : Nat
  deriving DecidableEq, Repr

/-- The routing stage of a slot (R97 to R100): what the lookup returned, the members not yet offered, the two sets of
R99, and which of the last two requests have been answered. -/
structure Routing where
  handle : Handle
  length : Nat
  routeSet : ClientSet
  toOffer : List ClientId
  routed : ClientSet
  refused : ClientSet
  candidate : Option ClientId
  settled : Bool
  handedOver : Bool
  deriving DecidableEq, Repr

/-- The stages of a teardown that come after its state stage (section 8.3). -/
inductive TeardownStage where
  | abort
  | directory
  | pending
  | walk (next : Nat)
  | complete
  deriving DecidableEq, Repr

/-- A teardown as client 0's slot holds it (R161 to R165). -/
structure Teardown where
  subject : ClientId
  stage : TeardownStage
  aborted : Bool
  entries : Nat
  purgeFreed : Nat
  walkDropped : Nat
  walkFreed : Nat
  deriving DecidableEq, Repr

/-- What the first read of a CLIENT report gives (R169). -/
structure ContextReport where
  state : ClientState
  reason : Option FaultReason
  refLimit : Nat
  segLimit : PerClass Nat
  sent : Tally
  placed : Tally
  refused : Tally
  expired : Tally
  deriving DecidableEq, Repr

/-- The stages of a QUERY before its report is written (R168 to R170). `clientUnit` carries the held total and the
charged counts of the store's read. -/
inductive QueryStage where
  | pool
  | clientStore (c : ClientId) (ctx : ContextReport)
  | clientUnit (c : ClientId) (ctx : ContextReport) (account : Account)
  | directory
  deriving DecidableEq, Repr

/-- The stage reached by the command of a slot. -/
inductive Progress where
  /-- No command, or a command that has ended. -/
  | none
  /-- The command has been taken and has passed common validation; its kind's own step is next. -/
  | taken
  /-- A gather or scatter is being moved, piece by piece. -/
  | moving (m : Movement)
  /-- The lookup is next: DISPATCH has closed, SEND has committed, FORWARD has checked. -/
  | toLookup (handle : Handle) (length : Nat)
  /-- Deliveries are being offered. -/
  | offering (r : Routing)
  /-- The settlement and the hand-over have been sent. -/
  | settling (r : Routing)
  /-- The release-after drop of a FETCH is next; the parcel's length at the check and the bytes copied. -/
  | dropAfter (handle : Handle) (length : Nat) (copied : Nat)
  /-- ATTACH reads its descriptor: the pieces not yet completed and the bytes read. -/
  | attachDescriptor (pieces : List Piece) (bytes : List Byte)
  /-- ATTACH reads the new client's client half. -/
  | attachHalf (d : Descriptor)
  /-- ATTACH waits for its attach write-back. -/
  | attachWriteBack (d : Descriptor) (h : ClientHalf)
  /-- DETACH: a teardown. -/
  | teardown (t : Teardown)
  /-- QUERY forms its report; the system address of its region. -/
  | query (addr : Addr) (q : QueryStage)
  /-- QUERY writes its report. -/
  | reporting (pieces : List Piece) (bytes : List Byte)
  deriving DecidableEq, Repr

/-- A work slot (section 4.3). -/
structure Slot where
  state : SlotState
  client : Option ClientId
  command : Option PostRecord
  progress : Progress
  undo : Option GrowthClaim
  abortRequested : Bool
  completion : Option Completion
  deriving DecidableEq, Repr

/-- A FREE slot, every field absent or clear (R79). -/
def Slot.initial : Slot :=
  { state := .free, client := none, command := none, progress := .none, undo := none, abortRequested := false,
    completion := none }

/-! ### The Intake (chapter 4) and the Delivery Unit (chapter 6, section 8.5) -/

/-- The Intake: its two sets (section 3.4), the rotating pointer, and its one fetcher transaction, waiting or granted
(R76). In LOADING the fetcher carries the setup reads. -/
structure Intake where
  attendSet : ClientSet
  refreshSet : ClientSet
  pointer : ClientId
  fetch : Option Txn
  deriving DecidableEq, Repr

/-- The Delivery Unit: pending lists, linger limit, notice list and lost count, and the record writer's transactions in
the order of the events that made them ready (R188). `expiryDue` names the lists a tick has called to an expiry event
not yet taken (log entry 6). `noticesAhead` is how many notices of the list became ready before client 0's held
completion (R85). -/
structure DeliveryUnit where
  lists : Vector (List PendingEntry) 8
  lingerLimit : Nat
  expiryDue : ClientSet
  notices : List QueuedNotice
  lost : Nat
  noticesAhead : Nat
  writer : List Txn
  deriving DecidableEq, Repr

/-! ### The System Port (chapter 9) -/

/-- What the slave side last answered (R175). The model's own observation. -/
inductive PortAnswer where
  | none
  | written
  | value (v : BitVec 32)
  | busError
  deriving DecidableEq, Repr

/-- The System Port: setup address, device state and fault fields, tick, pins. -/
structure Port where
  setupLo : BitVec 32
  setupHi : BitVec 32
  device : DeviceState
  faultCode : DeviceFault
  client0Reason : Option FaultReason
  tickDivider : Nat
  tickCount : Tally
  tickRuns : Bool
  faultPin : Bool
  resetAsserted : Bool
  answer : PortAnswer
  deriving DecidableEq, Repr

/-- The progress of a setup load (section 9.4). -/
inductive Load where
  | idle
  | setupRead (addr : Addr)
  | descriptor (settings : Settings) (pieces : List Piece) (bytes : List Byte)
  | half (d : Descriptor)
  | writeBack (d : Descriptor) (h : ClientHalf)
  deriving DecidableEq, Repr

/-! ### The whole part -/

/-- The state of the GH28. `pending` is the model's queue of commands that are waiting, first in first out. -/
structure State where
  pending : List Instr
  port : Port
  load : Load
  arb : Arbiter
  store : Store
  dir : Directory
  clients : Vector Client 8
  intake : Intake
  slots : Vector Slot 4
  unit : DeliveryUnit
  deriving DecidableEq, Repr

/-- The store after the reset pin (section 1.9). -/
def Store.initial : Store :=
  { records := [], pools := { short := { returned := [], fresh := 0 }, long := { returned := [], fresh := 0 } },
    accounts := Vector.replicate 8 { held := 0, charged := { short := 0, long := 0 } },
    reserves := { short := 0, long := 0 }, arms := { short := true, long := true }, memory := [] }

/-- The directory after the reset pin (section 2.11). -/
def Directory.initial : Directory :=
  { exact := [], patterns := [], agingPeriod := 0, agingLimit := 1, timer := 0, sweepsDue := 0, learned := 0,
    learnSkipped := 0, agedOut := 0, consumed := 0 }

/-- The Intake after the reset pin (R76, R63). -/
def Intake.initial : Intake := { attendSet := 0, refreshSet := 0, pointer := 0, fetch := none }

/-- The Delivery Unit after the reset pin (R136, R174). -/
def DeliveryUnit.initial : DeliveryUnit :=
  { lists := Vector.replicate 8 [], lingerLimit := 0, expiryDue := 0, notices := [], lost := 0, noticesAhead := 0,
    writer := [] }

/-- The arbiter after the reset pin (R188). -/
def Arbiter.initial : Arbiter := { slotPointer := 3, waitCount := 0, bus := none }

/-- The System Port after the reset pin is released (section 9.1, R182, R190, R191). -/
def Port.initial : Port :=
  { setupLo := 0, setupHi := 0, device := .off, faultCode := .none, client0Reason := none, tickDivider := 0,
    tickCount := 0, tickRuns := false, faultPin := false, resetAsserted := false, answer := .none }

/-- The part right after the reset pin is released (R182): OFF, every block at its reset values, nothing waiting. -/
def State.reset : State :=
  { pending := [], port := Port.initial, load := .idle, arb := Arbiter.initial, store := Store.initial,
    dir := Directory.initial, clients := Vector.replicate 8 Client.initial, intake := Intake.initial,
    slots := Vector.replicate 4 Slot.initial, unit := DeliveryUnit.initial }

end Sys2Proof.Machine
end

