-- ==== Sys2Proof/Machine/Sparse.lean ====
section
/-!
DEFINITION. Tables with few places in use: a list of keys and values with rising keys. The parcel table, the exact table and
parcel memory are held this way.
-/

namespace Sys2Proof.Machine

/-- The value at a key, if the key is listed. -/
def sparseGet {α : Type} : List (Nat × α) → Nat → Option α
  | [], _ => none
  | (k, v) :: rest, a => if k = a then some v else sparseGet rest a

/-- The table with the value put at a key, the keys still rising. -/
def sparsePut {α : Type} : List (Nat × α) → Nat → α → List (Nat × α)
  | [], a, v => [(a, v)]
  | (k, w) :: rest, a, v =>
    if a < k then (a, v) :: (k, w) :: rest else if a = k then (a, v) :: rest else (k, w) :: sparsePut rest a v

/-- The table without a key. -/
def sparseDrop {α : Type} : List (Nat × α) → Nat → List (Nat × α)
  | [], _ => []
  | (k, w) :: rest, a => if k = a then sparseDrop rest a else (k, w) :: sparseDrop rest a

/-- Every key of the table is above a bound. -/
def keysAbove {α : Type} (b : Nat) : List (Nat × α) → Bool
  | [] => true
  | (k, _) :: rest => decide (b < k) && keysAbove b rest

/-- The keys of the table rise strictly. -/
def keysRise {α : Type} : List (Nat × α) → Bool
  | [] => true
  | (k, _) :: rest => keysAbove k rest && keysRise rest

/-! ### Parcel memory -/

/-- What a byte of parcel memory that no gather has written reads as. The manual gives parcel memory no contents after
power-up and says they cannot be observed (R1); DESIGN CHOICE 0 (log entry 3). -/
def Memory.unlisted : Byte := 0

/-- One byte of parcel memory. -/
def Memory.read (m : List Host.Cell) (a : Nat) : Byte := (sparseGet m a).getD Memory.unlisted

/-- Parcel memory with one byte written. -/
def Memory.write (m : List Host.Cell) (a : Nat) (b : Byte) : List Host.Cell :=
  if b = Memory.unlisted then sparseDrop m a else sparsePut m a b

/-- The one canonical form: rising addresses, and no byte listed that is what an unlisted address reads as. -/
def Memory.wf (m : List Host.Cell) : Bool := keysRise m && m.all (fun c => c.2 != Memory.unlisted)

/-! ### The parcel table -/

/-- The record at an index of the parcel table. -/
def Store.parcel (t : Store) (i : Nat) : Parcel := (sparseGet t.records i).getD Parcel.initial

/-- The store with one record replaced; a record equal to `Parcel.initial` is not listed. -/
def Store.setParcel (t : Store) (i : Nat) (p : Parcel) : Store :=
  { t with records := if p = Parcel.initial then sparseDrop t.records i else sparsePut t.records i p }

/-- The canonical form of the parcel table. -/
def Store.recordsWf (t : Store) : Bool := keysRise t.records && t.records.all (fun r => r.2 != Parcel.initial)

end Sys2Proof.Machine
end

