-- ==== Sys2Proof/Machine/Flags.lean ====
section
/-!
DEFINITION. Flags, codes and the comparisons that decide them: the flag bits of a post record, the codes of section 9.1 and
chapter 10, tallies and marks, the lap flag, the signal test and the tally check.
-/

namespace Sys2Proof.Machine

/-! ### Client sets (0.6) -/

/-- The set of one client. -/
def only (c : ClientId) : ClientSet := BitVec.twoPow 8 c.val

/-- Membership in a client set. -/
def has (set : ClientSet) (c : ClientId) : Bool := set.getLsbD c.val

/-- A set with a client added. -/
def withClient (set : ClientSet) (c : ClientId) : ClientSet := set ||| only c

/-- A set with a client removed. -/
def without (set : ClientSet) (c : ClientId) : ClientSet := set &&& ~~~ (only c)

/-- The members of a set in ascending client number (R97). -/
def members (set : ClientSet) : List ClientId := (List.finRange 8).filter (fun c => has set c)

/-! ### Flags of a post record (section 10.2) -/

/-- SELF, bit 0 of the flags. -/
def PostRecord.self (r : PostRecord) : Bool := r.flags.getLsbD 0
/-- RELEASE_AFTER, bit 1. -/
def PostRecord.releaseAfter (r : PostRecord) : Bool := r.flags.getLsbD 1
/-- REPLY_PRESENT, bit 2. -/
def PostRecord.replyPresent (r : PostRecord) : Bool := r.flags.getLsbD 2
/-- REPLY_ONCE, bit 3. -/
def PostRecord.replyOnce (r : PostRecord) : Bool := r.flags.getLsbD 3
/-- MASK_PRESENT, bit 4. -/
def PostRecord.maskPresent (r : PostRecord) : Bool := r.flags.getLsbD 4
/-- CLEAR, bit 5. -/
def PostRecord.clear (r : PostRecord) : Bool := r.flags.getLsbD 5
/-- TAIL, bit 6. -/
def PostRecord.tail (r : PostRecord) : Bool := r.flags.getLsbD 6

/-- The parcel class part of the class field, bits 1:0 (R91): 0 SHORT, 1 LONG, 2 AUTO, 3 no class. -/
def PostRecord.parcelClass (r : PostRecord) : BitVec 2 := r.cls.extractLsb' 0 2
/-- The delivery class part, bits 3:2 (R91). -/
def PostRecord.deliveryClass (r : PostRecord) : BitVec 2 := r.cls.extractLsb' 2 2
/-- The reply key of a routing command (R101). -/
def PostRecord.replyKey (r : PostRecord) : Option Key := if r.replyPresent then some r.auxA else none

/-! ### Codes -/

/-- The codes of the command kinds (section 10.2). -/
def kindCodes : List Nat := [1, 2, 3, 4, 5, 6, 7, 8, 9, 10, 16, 17, 18, 19, 20]

/-- The supervisor kinds, codes 16 to 20 (section 10.2). -/
def supervisorKind (k : Nat) : Bool := 16 ≤ k && k ≤ 20

/-- Status codes (R82). -/
def Status.code : Status → Nat
  | .ok => 0 | .badCommand => 1 | .notPermitted => 2 | .badHandle => 3 | .notHeld => 4 | .badState => 5
  | .badRange => 6 | .tooLong => 7 | .noQuota => 8 | .noSpace => 9 | .aperture => 10 | .busError => 11
  | .noRoute => 12 | .refused => 13 | .tableFull => 14 | .keyInUse => 15 | .notFound => 16 | .badDescriptor => 17

/-- The detail of NO_QUOTA and NO_SPACE that names a class (R82). -/
def SegClass.detail : SegClass → Nat
  | .short => 2 | .long => 3

/-- Fault reason codes (sections 9.1, 10.3): 0 none. -/
def reasonCode : Option FaultReason → Nat
  | none => 0 | some .postRead => 1 | some .cxbRead => 2 | some .recordWrite => 3 | some .signalWrite => 4
  | some .tally => 5

/-- Client state codes (sections 10.5, 10.8). -/
def ClientState.code : ClientState → Nat
  | .absent => 0 | .attached => 1 | .faulted => 2 | .draining => 3

/-- Device state codes (section 9.1). -/
def DeviceState.code : DeviceState → Nat
  | .off => 0 | .loading => 1 | .running => 2 | .halting => 3 | .halted => 4 | .failed => 5

/-- Device fault codes (section 9.1). -/
def DeviceFault.code : DeviceFault → Nat
  | .none => 0 | .setupRead => 1 | .setupInvalid => 2 | .supervisorFault => 3 | .noticeWrite => 4

/-- Class codes of a POOL_LOW notice (section 10.3). -/
def SegClass.code : SegClass → Nat
  | .short => 0 | .long => 1

/-- 1 for a set flag, 0 for a clear one. -/
def flagBit (b : Bool) : Nat := if b then 1 else 0

/-! ### Tallies (0.6) -/

/-- A tally has reached a mark: their difference modulo 2^32 is less than 2^31. -/
def reached (tally mark : Tally) : Bool := decide ((tally - mark).toNat < 2 ^ 31)

/-- The occupancy of a return or delivery ring (R61). -/
def OutRing.occupancy (r : OutRing) : Nat := (r.claimed - r.lastTaken).toNat

/-- The lap flag of a position (R62): 1 when floor(position / size) is even. -/
def lapFlag (size : Nat) (t : Tally) : Byte := if t.toNat / size % 2 = 0 then 1 else 0

/-- The signal test of a ring (R72). -/
def OutRing.signalDue (r : OutRing) : Bool := reached r.written r.lastWake && r.lastWake != r.signalled

/-- The tally check of a client half (R65) against the part's tallies and the ring sizes. -/
def tallyCheck (h : ClientHalf) (postTaken retClaimed delClaimed : Tally) (postSize retSize delSize : Nat) : Bool :=
  decide ((h.postTally - postTaken).toNat ≤ postSize) && decide ((retClaimed - h.retTaken).toNat ≤ retSize)
    && decide ((delClaimed - h.delTaken).toNat ≤ delSize)

/-- The tally check of a client half read during an attach (R157): every part-side tally is 0. -/
def attachTallyCheck (h : ClientHalf) (d : Descriptor) : Bool :=
  tallyCheck h 0 0 0 d.postSize d.retSize d.delSize

/-! ### Common validation (R81, R91, R192) -/

/-- The class field holds a value that the kind does not allow. Bits 7:4 name no class of any kind (R192). -/
def PostRecord.badClass (r : PostRecord) : Bool :=
  r.cls.extractLsb' 4 4 != 0#4
    || (r.kind.toNat == 1 && (r.parcelClass == 2#2 || r.parcelClass == 3#2))
    || (r.kind.toNat == 5 && r.parcelClass == 3#2)

/-- A malformed record (R81, check 1). -/
def PostRecord.malformed (r : PostRecord) : Bool :=
  !(kindCodes.contains r.kind.toNat) || r.reserved != 0 || r.reserved2 != 0 || r.flags.getLsbD 7
    || decide (4 < r.count.toNat) || r.badClass

/-- The common validation of a record taken from a client (R81): the status of the first failed check, if any. -/
def PostRecord.validate (r : PostRecord) (c : ClientId) : Option Status :=
  if r.malformed then some .badCommand
  else if supervisorKind r.kind.toNat && c != 0 then some .notPermitted
  else none

end Sys2Proof.Machine
end

