-- ==== Sys2Proof/Machine/Records.lean ====
section
/-!
DEFINITION. The byte layouts of chapter 10: reading post records, client halves, descriptors and setup blocks, and writing
completions, notices, delivery records, part halves and query reports. Every multi-byte field is little-endian (0.6).
The encoders of what software writes stand beside the readers.
-/

namespace Sys2Proof.Machine

/-! ### Little-endian fields -/

/-- The value of bytes, the first the least significant. -/
def leNat : List Byte → Nat
  | [] => 0
  | b :: bs => b.toNat + 256 * leNat bs

/-- A value as n bytes, the least significant first. -/
def leBytes : Nat → Nat → List Byte
  | 0, _ => []
  | n + 1, v => BitVec.ofNat 8 v :: leBytes n (v / 256)

/-- The field of n bytes at an offset. -/
def field (bs : List Byte) (off n : Nat) : Nat := leNat ((bs.drop off).take n)

/-- The n bytes at an offset are all zero. -/
def zeroBytes (bs : List Byte) (off n : Nat) : Bool := ((bs.drop off).take n).all (fun b => b == 0)

/-! ### The post record (section 10.2) -/

/-- Entry k of the fragment list, at offset 32 + 8 × k. -/
def readFragment (bs : List Byte) (k : Nat) : Fragment :=
  { addr := BitVec.ofNat 48 (field bs (32 + 8 * k) 6), len := BitVec.ofNat 16 (field bs (32 + 8 * k + 6) 2) }

/-- A post record read from its 64 bytes. -/
def readPost (bs : List Byte) : PostRecord :=
  { kind := BitVec.ofNat 8 (field bs 0 1), flags := BitVec.ofNat 8 (field bs 1 1),
    cls := BitVec.ofNat 8 (field bs 2 1), count := BitVec.ofNat 8 (field bs 3 1),
    tag := BitVec.ofNat 32 (field bs 4 4), handle := BitVec.ofNat 16 (field bs 8 2),
    subject := BitVec.ofNat 8 (field bs 10 1), reserved := BitVec.ofNat 8 (field bs 11 1),
    key := BitVec.ofNat 32 (field bs 12 4), auxA := BitVec.ofNat 32 (field bs 16 4),
    auxB := BitVec.ofNat 32 (field bs 20 4), reserved2 := BitVec.ofNat 64 (field bs 24 8),
    frag0 := readFragment bs 0, frag1 := readFragment bs 1, frag2 := readFragment bs 2, frag3 := readFragment bs 3 }

/-- The 8 bytes of a fragment entry. -/
def writeFragment (f : Fragment) : List Byte := leBytes 6 f.addr.toNat ++ leBytes 2 f.len.toNat

/-- The 64 bytes of a post record, as a client writes it. -/
def writePost (r : PostRecord) : List Byte :=
  leBytes 1 r.kind.toNat ++ leBytes 1 r.flags.toNat ++ leBytes 1 r.cls.toNat ++ leBytes 1 r.count.toNat
    ++ leBytes 4 r.tag.toNat ++ leBytes 2 r.handle.toNat ++ leBytes 1 r.subject.toNat ++ leBytes 1 r.reserved.toNat
    ++ leBytes 4 r.key.toNat ++ leBytes 4 r.auxA.toNat ++ leBytes 4 r.auxB.toNat ++ leBytes 8 r.reserved2.toNat
    ++ writeFragment r.frag0 ++ writeFragment r.frag1 ++ writeFragment r.frag2 ++ writeFragment r.frag3

/-- The fragments within the fragment count, with their indices (R91, R192). -/
def PostRecord.fragments (r : PostRecord) : List (Nat × Fragment) :=
  [(0, r.frag0), (1, r.frag1), (2, r.frag2), (3, r.frag3)].take r.count.toNat

/-- The total length of a command (R91): the sum of the lengths of its fragments within the count. -/
def PostRecord.totalLength (r : PostRecord) : Nat := (r.fragments.map (fun f => f.2.len.toNat)).sum

/-! ### The exchange block (section 10.5) -/

/-- The five values a client-half read records; bytes 20 to 31 are ignored (R193). -/
def readHalf (bs : List Byte) : ClientHalf :=
  { postTally := BitVec.ofNat 32 (field bs 0 4), retTaken := BitVec.ofNat 32 (field bs 4 4),
    delTaken := BitVec.ofNat 32 (field bs 8 4), retWake := BitVec.ofNat 32 (field bs 12 4),
    delWake := BitVec.ofNat 32 (field bs 16 4) }

/-- The first 20 bytes of a client half, as a client writes them. -/
def writeHalf (h : ClientHalf) : List Byte :=
  leBytes 4 h.postTally.toNat ++ leBytes 4 h.retTaken.toNat ++ leBytes 4 h.delTaken.toNat ++ leBytes 4 h.retWake.toNat
    ++ leBytes 4 h.delWake.toNat

/-- The 32 bytes of a part half, bytes 32 to 63 of the exchange block (R68, R193). -/
def partHalf (postTaken retWritten delWritten : Tally) (state : ClientState) (reason : Option FaultReason) : List Byte :=
  leBytes 4 postTaken.toNat ++ leBytes 4 retWritten.toNat ++ leBytes 4 delWritten.toNat ++ leBytes 1 state.code
    ++ leBytes 1 (reasonCode reason) ++ leBytes 18 0

/-- The part half of a client as it stands (R68). -/
def Client.partHalf (x : Client) : List Byte :=
  Sys2Proof.Machine.partHalf x.post.taken x.ret.written x.del.written x.state x.reason

/-- The part half of an attach write-back (R158). -/
def attachHalfBytes : List Byte := partHalf 0 0 0 .attached none

/-! ### The client descriptor (section 10.6) -/

/-- A ring size is a power of two from 16 to 4096 (R60). -/
def ringSize (n : Nat) : Bool := [16, 32, 64, 128, 256, 512, 1024, 2048, 4096].contains n

/-- The raw values of aperture entry k, at 64 + 32 × k. -/
def readAperture (bs : List Byte) (k : Nat) : Aperture :=
  { base := BitVec.ofNat 64 (field bs (64 + 32 * k) 8), length := BitVec.ofNat 64 (field bs (64 + 32 * k + 8) 8),
    system := BitVec.ofNat 64 (field bs (64 + 32 * k + 16) 8),
    readRight := (field bs (64 + 32 * k + 24) 1).testBit 0, writeRight := (field bs (64 + 32 * k + 24) 1).testBit 1 }

/-- The range tests of an aperture (R137). -/
def Aperture.valid (a : Aperture) : Bool :=
  1 ≤ a.length.toNat && a.base.toNat + a.length.toNat ≤ 2 ^ 48 && a.system.toNat + a.length.toNat ≤ 2 ^ 64
    && (a.readRight || a.writeRight)

/-- Aperture entry k is valid (R137, R194): its ranges, its rights byte 1, 2 or 3, its reserved bytes zero. -/
def apertureValid (bs : List Byte) (k : Nat) : Bool :=
  (readAperture bs k).valid && field bs (64 + 32 * k + 24) 1 ≤ 3 && zeroBytes bs (64 + 32 * k + 25) 7

/-- The descriptor's own fields, aperture entries at positions below the count (R156). -/
def rawDescriptor (bs : List Byte) : Descriptor :=
  { postBase := BitVec.ofNat 64 (field bs 0 8), retBase := BitVec.ofNat 64 (field bs 8 8),
    delBase := BitVec.ofNat 64 (field bs 16 8), postSize := field bs 24 2, retSize := field bs 26 2,
    delSize := field bs 28 2, learning := field bs 30 1 == 1, cxb := BitVec.ofNat 64 (field bs 32 8),
    signalAddr := BitVec.ofNat 64 (field bs 40 8), signalValue := BitVec.ofNat 32 (field bs 48 4),
    refLimit := field bs 52 2, segLimit := { short := field bs 54 2, long := field bs 56 2 },
    apertures := (List.range (field bs 31 1)).map (readAperture bs) }

/-- The tests of R156 on the fields, those of the apertures apart. -/
def Descriptor.fieldsValid (d : Descriptor) : Bool :=
  ringSize d.postSize && ringSize d.retSize && ringSize d.delSize
    && d.postBase.toNat % 64 == 0 && d.retBase.toNat % 64 == 0 && d.delBase.toNat % 64 == 0 && d.cxb.toNat % 64 == 0
    && d.signalAddr.toNat % 4 == 0
    && 1 ≤ d.refLimit && d.refLimit ≤ 1024 && d.segLimit.short ≤ 2048 && d.segLimit.long ≤ 192

/-- A valid descriptor (R156, R137). -/
def Descriptor.valid (d : Descriptor) : Bool :=
  d.fieldsValid && d.apertures.length ≤ 4 && d.apertures.all Aperture.valid

/-- The descriptor read from its 192 bytes, if it passes every test of R156 and R194. -/
def readDescriptor (bs : List Byte) : Option Descriptor :=
  if (rawDescriptor bs).fieldsValid && field bs 30 1 ≤ 1 && field bs 31 1 ≤ 4 && zeroBytes bs 58 6
      && (List.range (field bs 31 1)).all (apertureValid bs)
  then some (rawDescriptor bs) else none

/-- The rights byte of an aperture (R194). -/
def Aperture.rights (a : Aperture) : Nat := flagBit a.readRight + 2 * flagBit a.writeRight

/-- The 32 bytes of an aperture entry. -/
def writeAperture (a : Aperture) : List Byte :=
  leBytes 8 a.base.toNat ++ leBytes 8 a.length.toNat ++ leBytes 8 a.system.toNat ++ leBytes 1 a.rights ++ leBytes 7 0

/-- The aperture entries of a descriptor: the list's, then entries that are not read, up to four. -/
def writeApertures : Nat → List Aperture → List Byte
  | 0, _ => []
  | n + 1, [] => leBytes 32 0 ++ writeApertures n []
  | n + 1, a :: rest => writeAperture a ++ writeApertures n rest

/-- The 192 bytes of a descriptor, as client 0 writes it. -/
def writeDescriptor (d : Descriptor) : List Byte :=
  leBytes 8 d.postBase.toNat ++ leBytes 8 d.retBase.toNat ++ leBytes 8 d.delBase.toNat ++ leBytes 2 d.postSize
    ++ leBytes 2 d.retSize ++ leBytes 2 d.delSize ++ leBytes 1 (flagBit d.learning) ++ leBytes 1 d.apertures.length
    ++ leBytes 8 d.cxb.toNat ++ leBytes 8 d.signalAddr.toNat ++ leBytes 4 d.signalValue.toNat ++ leBytes 2 d.refLimit
    ++ leBytes 2 d.segLimit.short ++ leBytes 2 d.segLimit.long ++ leBytes 6 0 ++ writeApertures 4 d.apertures

/-! ### The setup block (section 10.7) -/

/-- The settings of a setup block. -/
def rawSettings (bs : List Byte) : Settings :=
  { agingPeriod := field bs 6 2, agingLimit := field bs 8 1, linger := field bs 10 2,
    reserves := { short := field bs 12 2, long := field bs 14 1 }, descriptor := BitVec.ofNat 64 (field bs 16 8) }

/-- The ranges of R184. -/
def Settings.valid (g : Settings) : Bool :=
  g.agingPeriod ≤ 65535 && 1 ≤ g.agingLimit && g.agingLimit ≤ 255 && g.linger ≤ 65535 && g.reserves.short ≤ 512
    && g.reserves.long ≤ 48 && g.descriptor.toNat + Config.descriptorBytes ≤ 2 ^ 64

/-- The settings read from the 64 bytes of a setup block, if it passes every test of R184 and R194. -/
def readSettings (bs : List Byte) : Option Settings :=
  if field bs 0 4 == 0x38324847 && field bs 4 2 == 1 && (rawSettings bs).valid && zeroBytes bs 9 1 && zeroBytes bs 15 1
      && zeroBytes bs 24 40
  then some (rawSettings bs) else none

/-- The 64 bytes of a setup block, as client 0 writes it. -/
def writeSettings (g : Settings) : List Byte :=
  leBytes 4 0x38324847 ++ leBytes 2 1 ++ leBytes 2 g.agingPeriod ++ leBytes 1 g.agingLimit ++ leBytes 1 0
    ++ leBytes 2 g.linger ++ leBytes 2 g.reserves.short ++ leBytes 1 g.reserves.long ++ leBytes 1 0
    ++ leBytes 8 g.descriptor.toNat ++ leBytes 40 0

/-! ### Return ring records (section 10.3) -/

/-- The result flags byte of a completion. -/
def Completion.resultFlags (x : Completion) : Nat := flagBit x.freed + 2 * flagBit x.aborted + 4 * flagBit x.cleared

/-- The 32 bytes of a completion record with its lap flag. -/
def Completion.bytes (x : Completion) (lap : Byte) : List Byte :=
  leBytes 1 1 ++ [lap] ++ leBytes 1 x.kind.toNat ++ leBytes 1 x.status.code ++ leBytes 4 x.tag.toNat
    ++ leBytes 1 x.detail ++ leBytes 1 0 ++ leBytes 2 x.handle.toNat ++ leBytes 2 x.length ++ leBytes 1 x.routed.toNat
    ++ leBytes 1 x.refused.toNat ++ leBytes 4 x.copied ++ leBytes 1 x.subject.toNat ++ leBytes 1 x.subscribers.toNat
    ++ leBytes 1 x.holderAfter ++ leBytes 1 x.resultFlags ++ leBytes 2 x.refsDropped ++ leBytes 2 x.parcelsFreed
    ++ leBytes 1 x.pendingDropped ++ leBytes 3 0

/-- The 32 bytes of a notice record with its lap flag and the lost count at its claim (R173). -/
def QueuedNotice.bytes (q : QueuedNotice) (lap : Byte) (lost : Nat) : List Byte :=
  match q.notice with
  | .clientFault c reason =>
    leBytes 1 2 ++ [lap] ++ leBytes 1 1 ++ leBytes 1 0 ++ leBytes 4 q.tick.toNat ++ leBytes 1 c.val
      ++ leBytes 1 (reasonCode (some reason)) ++ leBytes 2 0 ++ leBytes 2 lost ++ leBytes 18 0
  | .poolLow cls free =>
    leBytes 1 2 ++ [lap] ++ leBytes 1 2 ++ leBytes 1 0 ++ leBytes 4 q.tick.toNat ++ leBytes 1 cls.code ++ leBytes 1 0
      ++ leBytes 2 free ++ leBytes 2 lost ++ leBytes 18 0

/-! ### The delivery record (section 10.4) -/

/-- The wait of a delivery record (R122). -/
def waitField (now admitted : Tally) : Nat := min (now - admitted).toNat 65535

/-- The 32 bytes of a delivery record (R122). -/
def PendingEntry.bytes (e : PendingEntry) (lap : Byte) (length : Nat) (sequence now : Tally) : List Byte :=
  leBytes 1 3 ++ [lap] ++ leBytes 1 e.sender.val ++ leBytes 1 (e.cls.toNat + 16 * flagBit e.reply.isSome)
    ++ leBytes 2 e.handle.toNat ++ leBytes 2 length ++ leBytes 4 e.key.toNat ++ leBytes 4 ((e.reply.getD 0).toNat)
    ++ leBytes 4 sequence.toNat ++ leBytes 2 (waitField now e.tick) ++ leBytes 10 0

/-! ### The query reports (section 10.8) -/

/-- The POOL report (R168). -/
def poolReport (freeShort freeLong live : Nat) (reserves : PerClass Nat) (arms : PerClass Bool) : List Byte :=
  leBytes 1 0 ++ leBytes 3 0 ++ leBytes 2 freeShort ++ leBytes 2 freeLong ++ leBytes 2 live ++ leBytes 2 reserves.short
    ++ leBytes 1 reserves.long ++ leBytes 1 (flagBit arms.short + 2 * flagBit arms.long) ++ leBytes 50 0

/-- The CLIENT report (R169). -/
def clientReport (c : ClientId) (x : ContextReport) (a : Account) (pendingLength : Nat) : List Byte :=
  leBytes 1 1 ++ leBytes 1 c.val ++ leBytes 1 x.state.code ++ leBytes 1 (reasonCode x.reason) ++ leBytes 2 a.held
    ++ leBytes 2 a.charged.short ++ leBytes 1 a.charged.long ++ leBytes 1 pendingLength ++ leBytes 2 x.refLimit
    ++ leBytes 2 x.segLimit.short ++ leBytes 1 x.segLimit.long ++ leBytes 1 0 ++ leBytes 4 x.sent.toNat
    ++ leBytes 4 x.placed.toNat ++ leBytes 4 x.refused.toNat ++ leBytes 4 x.expired.toNat ++ leBytes 32 0

/-- The KEY report (R52, R170). -/
def keyReport (key : Key) (kind : Nat) (set : ClientSet) (life : Nat) (once : Bool) (route : ClientSet) : List Byte :=
  leBytes 1 2 ++ leBytes 3 0 ++ leBytes 4 key.toNat ++ leBytes 1 kind ++ leBytes 1 set.toNat ++ leBytes 1 life
    ++ leBytes 1 (flagBit once) ++ leBytes 1 route.toNat ++ leBytes 51 0

/-- The DIRECTORY report (R52, R170). -/
def directoryReport (pinned joined ret patterns : Nat) (learned skipped aged consumed : Tally) : List Byte :=
  leBytes 1 3 ++ leBytes 3 0 ++ leBytes 2 pinned ++ leBytes 2 joined ++ leBytes 2 ret ++ leBytes 1 patterns ++ leBytes 1 0
    ++ leBytes 4 learned.toNat ++ leBytes 4 skipped.toNat ++ leBytes 4 aged.toNat ++ leBytes 4 consumed.toNat
    ++ leBytes 36 0

end Sys2Proof.Machine
end

