-- ==== Sys2Proof/Machine/Operands.lean ====
section
/-!
DEFINITION. The operand forms of the commands: handles (R5), classes of segment, apertures and fragments (section 7.2), the
pieces of a transfer (section 7.3), and the bytes of a record read field by field.
-/

namespace Sys2Proof.Machine

/-! ### Handles (R5) -/

/-- The record index of a handle, bits 9:0. -/
def handleIndex (h : Handle) : Nat := (h.extractLsb' 0 10).toNat

/-- The generation of a handle, bits 15:10. -/
def handleGeneration (h : Handle) : BitVec 6 := h.extractLsb' 10 6

/-- The handle of a record: generation × 1024 + index. -/
def makeHandle (generation : BitVec 6) (index : Nat) : Handle := BitVec.ofNat 16 (generation.toNat * 1024 + index)

/-! ### Classes (section 1.1) -/

/-- The value of a class. -/
def PerClass.get {α : Type} (p : PerClass α) : SegClass → α
  | .short => p.short
  | .long => p.long

/-- The pair with one class's value replaced. -/
def PerClass.set {α : Type} (p : PerClass α) (k : SegClass) (v : α) : PerClass α :=
  match k with
  | .short => { p with short := v }
  | .long => { p with long := v }

/-- Segment size in bytes. -/
def SegClass.size : SegClass → Nat
  | .short => 64 | .long => 2048

/-- Segments of the class. -/
def SegClass.segments : SegClass → Nat
  | .short => 2048 | .long => 192

/-- Greatest number of segments of one parcel. -/
def SegClass.maxChain : SegClass → Nat
  | .short => 64 | .long => 32

/-- The address in parcel memory of the first byte of a segment: the SHORT segments lie first
(DESIGN CHOICE, log entry 3). -/
def SegClass.segmentBase : SegClass → Nat → Nat
  | .short, n => 64 * n
  | .long, n => 131072 + 2048 * n

/-- The segments that hold n bytes of a class, 0 for none (R15, R17). -/
def SegClass.segmentsFor (k : SegClass) (n : Nat) : Nat := (n + k.size - 1) / k.size

/-- The parcel class a SEND chooses (R106); common validation has refused the fourth value. -/
def PostRecord.sendClass (r : PostRecord) : SegClass :=
  if r.parcelClass = 0#2 then .short
  else if r.parcelClass = 1#2 then .long
  else if r.totalLength ≤ Config.autoShort then .short else .long

/-- The parcel class of an OPEN (R91): SHORT or LONG. -/
def PostRecord.openClass (r : PostRecord) : SegClass := if r.parcelClass = 0#2 then .short else .long

/-! ### Apertures and fragments (section 7.2) -/

/-- The right a fragment needs (R140). -/
inductive Right where
  | read | write
  deriving DecidableEq, Repr

/-- An aperture carries a right. -/
def Aperture.carries (a : Aperture) : Right → Bool
  | .read => a.readRight
  | .write => a.writeRight

/-- A range of client memory lies within an aperture, reckoned without wrapping (R139). -/
def Aperture.contains (a : Aperture) (start n : Nat) : Bool :=
  decide (a.base.toNat ≤ start) && decide (start + n ≤ a.base.toNat + a.length.toNat) && decide (start + n ≤ 2 ^ 48)

/-- The system address of a range through its serving aperture, the lowest-numbered one that contains it and carries the
right (R139, R141), or none if it is refused. -/
def translate (apertures : List Aperture) (right : Right) (start n : Nat) : Option Addr :=
  match apertures.find? (fun a => a.contains start n && a.carries right) with
  | some a => some (a.system + BitVec.ofNat 64 (start - a.base.toNat))
  | none => none

/-- An accepted fragment: its index, its system address and its length. -/
structure Accepted where
  fragment : Nat
  addr : Addr
  len : Nat
  deriving DecidableEq, Repr

/-- The aperture check of fragments in order of their index (R142): the accepted fragments of nonzero length, or the
index of the first that is refused. -/
def checkFragments (apertures : List Aperture) (right : Right) : List (Nat × Fragment) → Except Nat (List Accepted)
  | [] => .ok []
  | (k, f) :: rest =>
    if f.len.toNat = 0 then checkFragments apertures right rest
    else
      match translate apertures right f.addr.toNat f.len.toNat with
      | none => .error k
      | some a =>
        match checkFragments apertures right rest with
        | .error j => .error j
        | .ok more => .ok ({ fragment := k, addr := a, len := f.len.toNat } :: more)

/-- The aperture check of the fixed region of ATTACH or QUERY at fragment 0 (R140, R142). -/
def checkRegion (apertures : List Aperture) (right : Right) (r : PostRecord) (n : Nat) : Option Addr :=
  if r.count.toNat = 0 then none else translate apertures right r.frag0.addr.toNat n

/-! ### Pieces (R143) -/

/-- A range of system addresses cut at every multiple of 256. The first argument bounds the number of pieces. -/
def cutRange : Nat → Nat → Addr → Nat → Nat → List Piece
  | 0, _, _, _, _ => []
  | fuel + 1, fragment, addr, n, run =>
    if n = 0 then []
    else
      let here := min n (Config.busBlock - addr.toNat % Config.busBlock)
      { fragment := fragment, addr := addr, len := here, run := run } ::
        cutRange fuel fragment (addr + BitVec.ofNat 64 here) (n - here) (run + here)

/-- The pieces of one range whose first byte is at a place of the run. -/
def cutPieces (fragment : Nat) (addr : Addr) (n run : Nat) : List Piece :=
  cutRange (n / Config.busBlock + 2) fragment addr n run

/-- The pieces of a run: fragment 0's first, each fragment's in ascending address order. -/
def runPieces : List Accepted → Nat → List Piece
  | [], _ => []
  | a :: rest, run => cutPieces a.fragment a.addr a.len run ++ runPieces rest (run + a.len)

/-! ### System addresses -/

/-- A sum that is a system address, or, at or beyond 2^64, the value the manual does not give (log entry 2). -/
def sysAddr (n : Nat) : Addr := if n < 2 ^ 64 then BitVec.ofNat 64 n else Config.addressPastTop n

/-- The system address of a ring position (R60): base + (t modulo size) × slot size. -/
def ringAddr (base : Addr) (size slotBytes : Nat) (t : Tally) : Addr := sysAddr (base.toNat + t.toNat % size * slotBytes)

end Sys2Proof.Machine
end

