-- ==== Sys2Proof/Machine/Ops.lean ====
section
/-!
DEFINITION. The shared operations of the part: the named updates of the state, the record writer's queue, the notice list,
the Intake's choice of a read, slots and their completions, client faults and device failure.
-/

namespace Sys2Proof.Machine

/-- What a step answers. -/
abbrev Result := Host.Outcome State Fault Refusal

/-! ### Named updates and accessors -/

/-- The state with another System Port. -/
def State.setPort (s : State) (v : Port) : State := { s with port := v }
/-- The state with another setup load. -/
def State.setLoad (s : State) (v : Load) : State := { s with load := v }
/-- The state with another arbiter. -/
def State.setArb (s : State) (v : Arbiter) : State := { s with arb := v }
/-- The state with another Parcel Store. -/
def State.setStore (s : State) (v : Store) : State := { s with store := v }
/-- The state with another Channel Directory. -/
def State.setDir (s : State) (v : Directory) : State := { s with dir := v }
/-- The state with another Intake. -/
def State.setIntake (s : State) (v : Intake) : State := { s with intake := v }
/-- The state with another Delivery Unit. -/
def State.setUnit (s : State) (v : DeliveryUnit) : State := { s with unit := v }
/-- The state with one client's context replaced. -/
def State.setClient (s : State) (c : ClientId) (v : Client) : State := { s with clients := s.clients.set c.val v }
/-- The state with one slot replaced. -/
def State.setSlot (s : State) (i : SlotId) (v : Slot) : State := { s with slots := s.slots.set i.val v }
/-- The state with another queue of waiting commands. -/
def State.setPending (s : State) (q : List Instr) : State := { s with pending := q }

/-- A client's context. -/
def State.client (s : State) (c : ClientId) : Client := s.clients[c.val]
/-- A work slot. -/
def State.slot (s : State) (i : SlotId) : Slot := s.slots[i.val]
/-- A client's pending list. -/
def State.list (s : State) (c : ClientId) : List PendingEntry := s.unit.lists[c.val]
/-- The state with one pending list replaced. -/
def State.setList (s : State) (c : ClientId) (v : List PendingEntry) : State :=
  s.setUnit { s.unit with lists := s.unit.lists.set c.val v }

/-- A context's return or delivery ring. -/
def Client.ring (x : Client) : OutRingName → OutRing
  | .ret => x.ret
  | .del => x.del
/-- A context with its return or delivery ring replaced. -/
def Client.setRing (x : Client) (n : OutRingName) (r : OutRing) : Client :=
  match n with
  | .ret => { x with ret := r }
  | .del => { x with del := r }

/-- The device state. -/
def State.device (s : State) : DeviceState := s.port.device

/-- The device is RUNNING, HALTING or HALTED and the reset pin is released: the states in which clients are served. -/
def State.active (s : State) : Bool :=
  !s.port.resetAsserted && (s.port.device == .running || s.port.device == .halting || s.port.device == .halted)

/-- The device is RUNNING or HALTING and the reset pin is released: the states in which the tick runs (R190). -/
def State.ticking (s : State) : Bool :=
  !s.port.resetAsserted && (s.port.device == .running || s.port.device == .halting)

/-- A command whose step no rule lets happen in this state: the part takes no such step, and is as it was (log entry 7). -/
def noStep (s : State) : Result := .next s

/-! ### The record writer's queue (R188) -/

/-- The state with a transaction made ready for the record writer, behind those made ready before it. -/
def State.enqueue (s : State) (t : Txn) : State := s.setUnit { s.unit with writer := s.unit.writer ++ [t] }

/-- The write-back of a client after a record of a ring (R68). It waits without its bytes, which are taken at its grant
(`State.issued`). -/
def writeBackTxn (s : State) (c : ClientId) (n : OutRingName) : Txn :=
  { op := .writeBack c n, addr := (s.client c).cxb + 32, len := 32, data := [] }

/-- The final write-back of a faulted client (R68), which waits without its bytes too. -/
def finalWriteBackTxn (s : State) (c : ClientId) : Txn :=
  { op := .finalWriteBack c, addr := (s.client c).cxb + 32, len := 32, data := [] }

/-- A transaction of the record writer as it is issued: a write-back carries the part half of its client as it stands then
(R68, log entry 12). -/
def State.issued (s : State) (t : Txn) : Txn :=
  match t.op with
  | .writeBack c _ | .finalWriteBack c => { t with data := (s.client c).partHalf }
  | _ => t

/-- The signal of a ring (R73): the client's signal value to its signal address. -/
def signalTxn (s : State) (c : ClientId) (n : OutRingName) : Txn :=
  { op := .signal c n, addr := (s.client c).signalAddr, len := 4, data := leBytes 4 (s.client c).signalValue.toNat }

/-- The write in flight of a ring has ended (R69). -/
def State.endRing (s : State) (c : ClientId) (n : OutRingName) : State :=
  s.setClient c ((s.client c).setRing n { (s.client c).ring n with inFlight := false })

/-! ### Device failure and notices -/

/-- The device becomes FAILED (R187): fault code and client-0 reason, the FAULT pin asserted, the tick stopped. -/
def State.failDevice (s : State) (code : DeviceFault) (reason : Option FaultReason) : State :=
  s.setPort { s.port with device := .failed, faultCode := code, client0Reason := reason, faultPin := true, tickRuns := false }

/-- A notice is queued at the notice list, or the lost count advances when the list is full (R172). -/
def State.queueNotice (s : State) (n : Notice) : State :=
  if s.unit.notices.length < Config.notices then
    s.setUnit { s.unit with notices := s.unit.notices ++ [{ notice := n, tick := s.port.tickCount }] }
  else s.setUnit { s.unit with lost := min (s.unit.lost + 1) Config.maxLost }

/-! ### The Intake's choice of a read (R76) -/

/-- The slot a client occupies, if any. -/
def State.slotOf (s : State) (c : ClientId) : Option SlotId :=
  (List.finRange 4).find? (fun i => (s.slot i).state != .free && (s.slot i).client == some c)

/-- The lowest-numbered FREE slot. -/
def State.freeSlotIndex (s : State) : Option SlotId := (List.finRange 4).find? (fun i => (s.slot i).state == .free)

/-- Every slot is FREE. -/
def State.allFree (s : State) : Bool := (List.finRange 4).all (fun i => (s.slot i).state == .free)

/-- A client has an eligible client-half read (R63). -/
def State.halfEligible (s : State) (c : ClientId) : Bool :=
  (s.client c).state == .attached
    && ((has s.intake.attendSet c && s.port.device == .running) || has s.intake.refreshSet c)

/-- A client has an eligible post read (R77). -/
def State.postEligible (s : State) (c : ClientId) : Bool :=
  s.port.device == .running && (s.client c).state == .attached
    && (s.client c).post.lastPost - (s.client c).post.taken != 0
    && (s.slotOf c).isNone && s.freeSlotIndex.isSome

/-- The clients in rotating order from the pointer, wrapping from 7 to 0 (R76). -/
def rotation (p : ClientId) : List ClientId := (List.finRange 8).map (fun k => p + k)

/-- The client-half read of a client: 32 bytes at its CXB address (R76). -/
def halfTxn (s : State) (c : ClientId) : Txn := { op := .clientHalf c, addr := (s.client c).cxb, len := 32, data := [] }

/-- The post read of a client for a slot: the 64 bytes at position post taken (R77). -/
def postTxn (s : State) (c : ClientId) (i : SlotId) : Txn :=
  { op := .postRead c i, addr := ringAddr (s.client c).post.base (s.client c).post.size 64 (s.client c).post.taken,
    len := 64, data := [] }

/-- The read of a chosen client is issued and the pointer moves past it: its client-half read when it has one, which
takes it out of both sets (R63), or else its post read, which binds the lowest FREE slot (R77). -/
def State.issueRead (s : State) (c : ClientId) : State :=
  if s.halfEligible c then
    s.setIntake { attendSet := without s.intake.attendSet c, refreshSet := without s.intake.refreshSet c, pointer := c + 1,
                  fetch := some (halfTxn s c) }
  else
    match s.freeSlotIndex with
    | some i =>
      (s.setSlot i { Slot.initial with state := .bound, client := some c }).setIntake
        { s.intake with pointer := c + 1, fetch := some (postTxn s c i) }
    | none => s

/-- The Intake chooses its next read (R76), when no fetcher transaction is in flight and the device state allows one. -/
def State.readChoice (s : State) : State :=
  if !s.active || s.intake.fetch.isSome then s
  else
    match (rotation s.intake.pointer).find? (fun c => s.halfEligible c || s.postEligible c) with
    | some c => s.issueRead c
    | none => s

/-- A client is added to the refresh set (R64), only while it is ATTACHED. -/
def State.addRefresh (s : State) (c : ClientId) : State :=
  if (s.client c).state = .attached then s.setIntake { s.intake with refreshSet := withClient s.intake.refreshSet c }
  else s

/-- A client leaves the pending-attend set and the refresh set (R56, R58). -/
def State.leaveSets (s : State) (c : ClientId) : State :=
  s.setIntake { s.intake with attendSet := without s.intake.attendSet c, refreshSet := without s.intake.refreshSet c }

/-! ### Slots (R79, R88, R89) -/

/-- The abort stage of the teardown of a client ends with its aborted flag (R162). -/
def endAbort (c : ClientId) (aborted : Bool) (sl : Slot) : Slot :=
  match sl.progress with
  | .teardown t =>
    if t.subject = c ∧ t.stage = .abort then { sl with progress := .teardown { t with stage := .directory, aborted := aborted } }
    else sl
  | _ => sl

/-- The freeing of a torn-down client's slot is reported to the teardown (R88). -/
def State.reportFreed (s : State) (c : ClientId) (aborted : Bool) : State :=
  { s with slots := s.slots.map (endAbort c aborted) }

/-- The device passes from HALTING to HALTED when no slot is occupied (R89); the tick is paused (R190). -/
def State.settleHalt (s : State) : State :=
  if s.port.device = .halting ∧ s.allFree then s.setPort { s.port with device := .halted, tickRuns := false } else s

/-- A slot becomes FREE. The freeing of a DRAINING client's slot is reported to its teardown, with whether its command
was stopped at an abort point (R88). Then the device may be HALTED (R89), and the Intake chooses again (R76). -/
def State.freeSlot (s : State) (i : SlotId) (aborted : Bool) : State :=
  let freed : State := s.setSlot i Slot.initial
  let told : State :=
    match (s.slot i).client with
    | some c => if (s.client c).state = .draining then freed.reportFreed c aborted else freed
    | none => freed
  told.settleHalt.readChoice

/-- The slot with another progress. -/
def State.setProgress (s : State) (i : SlotId) (p : Progress) : State := s.setSlot i { s.slot i with progress := p }

/-! ### Completions (R83, R87) -/

/-- A completion with a status and detail and no result field but the subject, which ATTACH and DETACH fill for every
status (R82, R83, section 10.3). -/
def PostRecord.completion (r : PostRecord) (status : Status) (detail : Nat) : Completion :=
  { kind := r.kind, status := status, tag := r.tag, detail := detail, handle := 0, length := 0, routed := 0, refused := 0,
    copied := 0, subject := if r.kind.toNat = 16 ∨ r.kind.toNat = 17 then r.subject else 0, subscribers := 0,
    holderAfter := 0, freed := false, aborted := false, cleared := false, refsDropped := 0, parcelsFreed := 0,
    pendingDropped := 0 }

/-- A completion forms in a slot (R83): it is held, and ready for the return ring of the slot's client. The completion of
a DRAINING client is discarded and the slot becomes FREE (R87). Client 0's is ready behind the notices now in the list
(R85). -/
def State.formCompletion (s : State) (i : SlotId) (x : Completion) : State :=
  match (s.slot i).client with
  | none => s
  | some c =>
    if (s.client c).state = .draining then s.freeSlot i false
    else
      let held := s.setSlot i { s.slot i with state := .held, progress := .none, undo := none, completion := some x }
      if c = 0 then held.setUnit { held.unit with noticesAhead := held.unit.notices.length } else held

/-- The command of a slot has been taken, has this kind and waits for its own step: its client and its record. -/
def State.takenCommand (s : State) (i : SlotId) (kind : Nat) : Option (ClientId × PostRecord) :=
  let sl := s.slot i
  if s.active && sl.state == .performing && sl.progress == .taken then
    match sl.client, sl.command with
    | some c, some r => if r.kind.toNat = kind then some (c, r) else none
    | _, _ => none
  else none

/-- The client and the record of a slot that performs a command. -/
def State.performing (s : State) (i : SlotId) : Option (ClientId × PostRecord) :=
  let sl := s.slot i
  if s.active && sl.state == .performing then
    match sl.client, sl.command with
    | some c, some r => some (c, r)
    | _, _ => none
  else none

/-! ### Client faults (R56, R71, R188) -/

/-- The transaction is a write-back or signal of a ring of a client, which a fault of the client withdraws. -/
def TxnOp.isTail (c : ClientId) (n : OutRingName) (o : TxnOp) : Bool := o == .writeBack c n || o == .signal c n

/-- A write-back or signal of a ring that waits for its grant is withdrawn, and the write in flight of its ring ends. -/
def State.withdrawTail (s : State) (c : ClientId) (n : OutRingName) : State :=
  if s.unit.writer.any (fun t => t.op.isTail c n) then
    (s.endRing c n).setUnit { s.unit with writer := s.unit.writer.filter (fun t => !(t.op.isTail c n)) }
  else s

/-- The final write-back follows when it is owed and no write of the client is in flight (R68). -/
def State.requestFinal (s : State) (c : ClientId) : State :=
  let x := s.client c
  if x.finalDue && !x.ret.inFlight && !x.del.inFlight then
    (s.enqueue (finalWriteBackTxn s c)).setClient c { x with finalDue := false }
  else s

/-- The reasons after which a final write-back is due (R68). -/
def FaultReason.callsForFinal : FaultReason → Bool
  | .postRead | .cxbRead | .tally => true
  | .recordWrite | .signalWrite => false

/-- A client fault (R56). -/
def State.clientFault (s : State) (c : ClientId) (reason : FaultReason) : State :=
  if (s.client c).state = .attached then
    if c = 0 then
      (((s.setClient c { s.client c with state := .faulted, reason := some reason }).failDevice .supervisorFault
        (some reason)).withdrawTail c .ret).withdrawTail c .del
    else
      (((((s.setClient c { s.client c with state := .faulted, reason := some reason, finalDue := reason.callsForFinal }).leaveSets
        c).queueNotice (.clientFault c reason)).withdrawTail c .ret).withdrawTail c .del).requestFinal c
  else s

/-! ### The bus (section 9.6) -/

/-- How a completion finds the bus, with what its transaction is for. -/
inductive BusView (α : Type) where
  /-- No transaction of that kind is in flight. -/
  | none
  /-- It is in flight, but its result is discarded: a RESTART has been taken or the reset pin asserted since its grant, or the device
  is FAILED. -/
  | discarded
  /-- It is in flight. -/
  | live (a : α) (t : Txn)
  deriving DecidableEq, Repr

/-- The transaction on the bus, if it is of the kind a completion reports (R90, R151, R181, R187). -/
def State.onBus {α : Type} (s : State) (kind : TxnOp → Option α) : BusView α :=
  match s.arb.bus with
  | none => .none
  | some b =>
    match kind b.txn.op with
    | some a => if b.stale || s.port.device == .failed then .discarded else .live a b.txn
    | none => .none

/-! ### What a completion asks for, one for each row that completes a transaction -/

/-- The transaction is a piece of ATTACH's descriptor: its slot. -/
def TxnOp.attachDescriptorOf : TxnOp → Option SlotId
  | .attachDescriptor i => some i
  | _ => none

/-- The transaction is ATTACH's client-half read: its slot. -/
def TxnOp.attachHalfOf : TxnOp → Option SlotId
  | .attachHalf i => some i
  | _ => none

/-- The transaction is an attach write-back: its slot. -/
def TxnOp.attachWriteBackOf : TxnOp → Option SlotId
  | .attachWriteBack i => some i
  | _ => none

/-- The transaction is the setup read. -/
def TxnOp.setupReadOf : TxnOp → Option Unit
  | .setupRead => some ()
  | _ => none

/-- The transaction is a piece of client 0's descriptor. -/
def TxnOp.setupDescriptorOf : TxnOp → Option Unit
  | .setupDescriptor => some ()
  | _ => none

/-- The transaction is client 0's client-half read of a setup load. -/
def TxnOp.setupHalfOf : TxnOp → Option Unit
  | .setupHalf => some ()
  | _ => none

/-- The transaction is client 0's attach write-back. -/
def TxnOp.setupWriteBackOf : TxnOp → Option Unit
  | .setupWriteBack => some ()
  | _ => none

/-- The transaction is a post read: its client and slot. -/
def TxnOp.postReadOf : TxnOp → Option (ClientId × SlotId)
  | .postRead c i => some (c, i)
  | _ => none

/-- The transaction is a client-half read: its client. -/
def TxnOp.clientHalfOf : TxnOp → Option ClientId
  | .clientHalf c => some c
  | _ => none

/-- The transaction is a gather piece: its slot. -/
def TxnOp.gatherOf : TxnOp → Option SlotId
  | .gather i => some i
  | _ => none

/-- The transaction is a scatter piece: its slot. -/
def TxnOp.scatterOf : TxnOp → Option SlotId
  | .scatter i => some i
  | _ => none

/-- The transaction is a piece of QUERY's report: its slot. -/
def TxnOp.reportOf : TxnOp → Option SlotId
  | .report i => some i
  | _ => none

/-- The transaction is a record write: its ring and its record. -/
def TxnOp.recordOf : TxnOp → Option (ClientId × OutRingName × RecordKind)
  | .record c n what => some (c, n, what)
  | _ => none

/-- The transaction is a signal: its ring. -/
def TxnOp.signalOf : TxnOp → Option (ClientId × OutRingName)
  | .signal c n => some (c, n)
  | _ => none

/-- The bus is free again. -/
def State.clearBus (s : State) : State := s.setArb { s.arb with bus := none }

/-- The bus is free and the fetcher has no transaction in flight. -/
def State.endFetch (s : State) : State := s.clearBus.setIntake { s.intake with fetch := none }

/-! ### Claims of ring slots (R69) -/

/-- A slot of a client's ring may be claimed, a record being ready. -/
def State.canClaim (s : State) (c : ClientId) (n : OutRingName) : Bool :=
  s.active && (s.client c).state == .attached && decide (((s.client c).ring n).occupancy < ((s.client c).ring n).size)
    && !((s.client c).ring n).inFlight

/-- The claim of a ring's next position for a record, whose bytes are given from its lap flag: the claimed tally
advances, the write of the ring is in flight, the record is ready for the record writer, and the client joins the refresh
set if the ring is now full (R64). -/
def State.claimRing (s : State) (c : ClientId) (n : OutRingName) (what : RecordKind) (bytes : Byte → List Byte) : State :=
  let r := (s.client c).ring n
  let claimed : OutRing := { r with claimed := r.claimed + 1, inFlight := true }
  let made := (s.setClient c ((s.client c).setRing n claimed)).enqueue
    { op := .record c n what, addr := ringAddr r.base r.size 32 r.claimed, len := 32, data := bytes (lapFlag r.size r.claimed) }
  if claimed.occupancy = r.size then made.addRefresh c else made

end Sys2Proof.Machine
end

