-- ==== Sys2Proof/Machine/StoreOps.lean ====
section
/-!
DEFINITION. The requests of the Parcel Store (chapter 1): resolution, claims, commit and undo, close and reopen, cuts,
references and their drops, freeing, the low-water arms.
-/

namespace Sys2Proof.Machine

/-! ### Pools (R2) -/

/-- The free count of a class. -/
def Store.freeCount (t : Store) (k : SegClass) : Nat :=
  (t.pools.get k).returned.length + (k.segments - (t.pools.get k).fresh)

/-- The segments a claim of n takes: returned ones first, then fresh ones (unobservable, R2; log entry 1). -/
def Pool.pick (p : Pool) (n : Nat) : List Nat := p.returned.take n ++ List.range' p.fresh (n - p.returned.length)

/-- The pool after a claim of n. -/
def Pool.taken (p : Pool) (n : Nat) : Pool := { returned := p.returned.drop n, fresh := p.fresh + (n - p.returned.length) }

/-- The pool with segments returned to it. -/
def Pool.give (p : Pool) (segs : List Nat) : Pool := { p with returned := p.returned ++ segs }

/-! ### Accounts (R9, R11) -/

/-- What the store keeps for a client. -/
def Store.account (t : Store) (c : ClientId) : Account := t.accounts[c.val]

/-- The store with one account replaced. -/
def Store.setAccount (t : Store) (c : ClientId) (a : Account) : Store := { t with accounts := t.accounts.set c.val a }

/-- A client's charged count of a class rises by n. -/
def Store.charge (t : Store) (c : ClientId) (k : SegClass) (n : Nat) : Store :=
  let a := t.account c
  t.setAccount c { a with charged := a.charged.set k (a.charged.get k + n) }

/-- The charged client's charged count of a class falls by n; no count falls while it is absent (R11, R12). -/
def Store.uncharge (t : Store) (c : Option ClientId) (k : SegClass) (n : Nat) : Store :=
  match c with
  | none => t
  | some c =>
    let a := t.account c
    t.setAccount c { a with charged := a.charged.set k (a.charged.get k - n) }

/-- The client's held total is replaced. -/
def Store.setHeld (t : Store) (c : ClientId) (n : Nat) : Store := t.setAccount c { t.account c with held := n }

/-! ### The low-water arm (R26) -/

/-- The test at an event that raises a free count. -/
def Store.raiseTest (t : Store) (k : SegClass) : Store :=
  if !(t.arms.get k) && t.reserves.get k ≤ t.freeCount k then { t with arms := t.arms.set k true } else t

/-- Segments return to their pool: the free count rises, the charged count falls, and the arm is tested. Nothing is
tested when no segment returns. -/
def Store.giveBack (t : Store) (k : SegClass) (charged : Option ClientId) (segs : List Nat) : Store :=
  let u := ({ t with pools := t.pools.set k ((t.pools.get k).give segs) }).uncharge charged k segs.length
  if segs.isEmpty then u else u.raiseTest k

/-- The test at an event that lowers a free count: the arm clears and a POOL_LOW notice goes to the Delivery Unit. -/
def State.lowerTest (s : State) (k : SegClass) : State :=
  if s.store.arms.get k && s.store.freeCount k < s.store.reserves.get k then
    (s.setStore { s.store with arms := s.store.arms.set k false }).queueNotice (.poolLow k (s.store.freeCount k))
  else s

/-! ### Resolution (R5) and free references (R120) -/

/-- A client's holder count on a record. -/
def Parcel.holder (p : Parcel) (c : ClientId) : Nat := p.holders[c.val]

/-- A handle resolves to a live parcel. -/
def Store.live (t : Store) (h : Handle) : Bool :=
  (t.parcel (handleIndex h)).state != .free && (t.parcel (handleIndex h)).generation == handleGeneration h

/-- The resolution of a handle for a client: the failing status, or none. -/
def Store.resolve (t : Store) (h : Handle) (c : ClientId) : Option Status :=
  if !t.live h then some .badHandle
  else if (t.parcel (handleIndex h)).holder c = 0 then some .notHeld
  else none

/-- The entries of a pending list that name a parcel. -/
def naming (entries : List PendingEntry) (h : Handle) : Nat := entries.countP (fun e => e.handle == h)

/-- A client's free references on a parcel (R120). -/
def State.freeRefs (s : State) (c : ClientId) (h : Handle) : Nat :=
  (s.store.parcel (handleIndex h)).holder c - naming (s.list c) h

/-! ### References (R7, R8, R10) -/

/-- The record is freed (R10): its segments return, its charge falls, its generation advances. -/
def Store.freeParcel (t : Store) (i : Nat) : Store :=
  let p := t.parcel i
  (t.setParcel i { Parcel.initial with generation := p.generation + 1, cls := p.cls }).giveBack p.cls p.charged p.chain

/-- A reference drop of n references of a client on a record (R8), and whether it freed the record. With a holder count
below n the drop is refused and changes nothing. -/
def Store.drop (t : Store) (i : Nat) (c : ClientId) (n : Nat) : Store × Bool :=
  let p := t.parcel i
  if p.holder c < n then (t, false)
  else
    let q := { p with holders := p.holders.set c.val (p.holder c - n), refCount := p.refCount - n }
    let u := (t.setParcel i q).setHeld c ((t.account c).held - n)
    if q.refCount = 0 then (u.freeParcel i, true) else (u, false)

/-- A reference is created for a client (R7). -/
def Store.createRef (t : Store) (i : Nat) (c : ClientId) : Store :=
  let p := t.parcel i
  (t.setParcel i { p with holders := p.holders.set c.val (p.holder c + 1), refCount := p.refCount + 1 }).setHeld c
    ((t.account c).held + 1)

/-! ### Claims (R13 to R17) -/

/-- The FREE record of lowest index, looked for from an index on. -/
def Store.findFree (t : Store) : Nat → Nat → Option Nat
  | 0, _ => none
  | fuel + 1, i => if (t.parcel i).state = .free then some i else Store.findFree t fuel (i + 1)

/-- The FREE record of lowest index. -/
def Store.lowestFree (t : Store) : Option Nat := t.findFree Config.parcels 0

/-- Checks 1 and 2 of R14: the index of the record a record claim takes, or the failing status and detail. -/
def Store.recordChecks (t : Store) (c : ClientId) (refLimit : Nat) : Except (Status × Nat) Nat :=
  match t.lowestFree with
  | none => .error (.noSpace, 1)
  | some i => if (t.account c).held < refLimit then .ok i else .error (.noQuota, 1)

/-- The segments a parcel needs for a head offset, a length and a growth (R15). -/
def chainNeeded (k : SegClass) (headOffset length growth : Nat) : Nat :=
  if length + growth = 0 then 0 else k.segmentsFor (headOffset + length + growth)

/-- Checks 3 to 6 of R14 for a claim of a client: the failing status and detail, or none. -/
def Store.segmentChecks (t : Store) (c : ClientId) (segLimit : PerClass Nat) (k : SegClass)
    (chainAfter lengthAfter needed : Nat) : Option (Status × Nat) :=
  if k.maxChain < chainAfter ∨ Config.maxLength < lengthAfter then some (.tooLong, 0)
  else if needed = 0 then none
  else if segLimit.get k < (t.account c).charged.get k + needed then some (.noQuota, k.detail)
  else if c ≠ 0 ∧ t.freeCount k < needed + t.reserves.get k then some (.noSpace, k.detail)
  else if t.freeCount k < needed then some (.noSpace, k.detail)
  else none

/-- A record is set up as a BUILDING parcel of a client (R3). -/
def Store.openRecord (t : Store) (i : Nat) (k : SegClass) (c : ClientId) : Store :=
  (t.setParcel i { Parcel.initial with
    state := .building, generation := (t.parcel i).generation, cls := k, charged := some c,
    holders := Parcel.initial.holders.set c.val 1, refCount := 1 }).setHeld c ((t.account c).held + 1)

/-- The segments of a successful claim are taken and appended, and the growth length is set (R17). -/
def Store.grow (t : Store) (i : Nat) (c : ClientId) (needed growth : Nat) : Store :=
  let p := t.parcel i
  let u := { t with pools := t.pools.set p.cls ((t.pools.get p.cls).taken needed) }
  (u.setParcel i { p with chain := p.chain ++ (t.pools.get p.cls).pick needed, growth := some growth }).charge c p.cls needed

/-- A claim's segments are taken and the lowered free count is tested (R17, R26). -/
def State.claimSegments (s : State) (i : Nat) (c : ClientId) (needed growth : Nat) : State :=
  let u := s.setStore (s.store.grow i c needed growth)
  if needed = 0 then u else u.lowerTest (s.store.parcel i).cls

/-! ### The end of a growth (R18, R19, R107) -/

/-- The growth commit; the commit of a SEND closes the parcel. -/
def Store.commit (t : Store) (i : Nat) (close : Bool) : Store :=
  let p := t.parcel i
  t.setParcel i { p with length := p.length + p.growth.getD 0, growth := none,
                         state := if close then .closed else p.state }

/-- The growth undo; the undo of a SEND drops the builder's reference. -/
def Store.undo (t : Store) (g : GrowthClaim) : Store :=
  let p := t.parcel g.index
  let keep := p.chain.length - g.segments
  let u := (t.setParcel g.index { p with chain := p.chain.take keep, growth := none }).giveBack p.cls p.charged
    (p.chain.drop keep)
  if g.isSend then (u.drop g.index g.client 1).1 else u

/-- The parcel's state is replaced: the close and the reopen of a DISPATCH (R4). -/
def Store.setParcelState (t : Store) (i : Nat) (st : ParcelState) : Store := t.setParcel i { t.parcel i with state := st }

/-! ### Cuts (R22 to R24) -/

/-- A head cut of n bytes. -/
def Store.cutHead (t : Store) (i n : Nat) : Store :=
  let p := t.parcel i
  let k := (p.headOffset + n) / p.cls.size
  if p.length - n = 0 then
    (t.setParcel i { p with chain := [], headOffset := 0, length := 0 }).giveBack p.cls p.charged p.chain
  else
    (t.setParcel i { p with chain := p.chain.drop k, headOffset := p.headOffset + n - k * p.cls.size, length := p.length - n }).giveBack
      p.cls p.charged (p.chain.take k)

/-- A tail cut of n bytes. -/
def Store.cutTail (t : Store) (i n : Nat) : Store :=
  let p := t.parcel i
  if p.length - n = 0 then
    (t.setParcel i { p with chain := [], headOffset := 0, length := 0 }).giveBack p.cls p.charged p.chain
  else
    let keep := p.cls.segmentsFor (p.headOffset + p.length - n)
    (t.setParcel i { p with chain := p.chain.take keep, length := p.length - n }).giveBack p.cls p.charged (p.chain.drop keep)

/-- A cut (R22): n = 0 changes nothing. -/
def Store.cut (t : Store) (i n : Nat) (tail : Bool) : Store :=
  if n = 0 then t else if tail then t.cutTail i n else t.cutHead i n

/-! ### Parcel memory (R94, R131) -/

/-- The address in parcel memory of a chain byte, counted from the start of the first segment. -/
def Parcel.byteAddr (p : Parcel) (at_ : Nat) : Option Nat :=
  match p.chain[at_ / p.cls.size]? with
  | some seg => some (p.cls.segmentBase seg + at_ % p.cls.size)
  | none => none

/-- Bytes written from a parcel position on, or none where the chain has no such byte. -/
def writeRun (p : Parcel) : List Host.Cell → Nat → List Byte → Option (List Host.Cell)
  | m, _, [] => some m
  | m, pos, b :: bs =>
    match p.byteAddr (p.headOffset + pos) with
    | some a => writeRun p (Memory.write m a b) (pos + 1) bs
    | none => none

/-- Bytes read from a parcel position on, or none where the chain has no such byte. -/
def readRun (p : Parcel) (m : List Host.Cell) : Nat → Nat → Option (List Byte)
  | _, 0 => some []
  | pos, n + 1 =>
    match p.byteAddr (p.headOffset + pos) with
    | some a =>
      match readRun p m (pos + 1) n with
      | some bs => some (Memory.read m a :: bs)
      | none => none
    | none => none

/-! ### The reference walk (R27) -/

/-- What one visit of the walk does: the store after it, the references it dropped, and whether a drop freed the
record. -/
def Store.visit (t : Store) (c : ClientId) (i : Nat) : Store × Nat × Bool :=
  let p := t.parcel i
  if p.state = .free then (t, 0, false)
  else
    let h := p.holder c
    let dropped := if h = 0 then (t, false) else t.drop i c h
    let q := dropped.1.parcel i
    if q.state ≠ .free ∧ q.charged = some c then
      ((dropped.1.setParcel i { q with charged := none }).uncharge (some c) q.cls q.chain.length, h, dropped.2)
    else (dropped.1, h, dropped.2)

/-- The number of live parcels (R168). -/
def Store.liveCount (t : Store) : Nat := t.records.countP (fun r => r.2.state != .free)

/-! ### A command stopped at an abort point (R88) -/

/-- The undo information of a slot is sent to the store, if there is any. -/
def State.sendUndo (s : State) (i : SlotId) : State :=
  match (s.slot i).undo with
  | some g => s.setStore (s.store.undo g)
  | none => s

/-- The command of a slot is stopped at an abort point: its growth is undone, no completion forms, the slot is FREE. -/
def State.abortSlot (s : State) (i : SlotId) : State := (s.sendUndo i).freeSlot i true

end Sys2Proof.Machine
end

