-- ==== Sys2Proof/Machine/DirectoryOps.lean ====
section
/-!
DEFINITION. The requests of the Channel Directory (chapter 2): lookup, settlement, subscriptions, pins, sweep, purge, reports.
-/

namespace Sys2Proof.Machine

/-! ### Buckets and ways (R29, R31) -/

/-- The bucket of a key (R29): the exclusive OR of its four bytes. -/
def bucket (k : Key) : Nat :=
  (k.extractLsb' 0 8 ^^^ k.extractLsb' 8 8 ^^^ k.extractLsb' 16 8 ^^^ k.extractLsb' 24 8).toNat

/-- The place of way j of a key's bucket. -/
def place (k : Key) (j : Nat) : Nat := bucket k * Config.ways + j

/-- The exact entry of a key with its place. -/
def Directory.find (d : Directory) (k : Key) : Option (Nat × ExactEntry) :=
  (List.range Config.ways).findSome? (fun j =>
    match sparseGet d.exact (place k j) with
    | some e => if e.key = k then some (place k j, e) else none
    | none => none)

/-- The exact entry of a key. -/
def Directory.entry (d : Directory) (k : Key) : Option ExactEntry := (d.find k).map (fun x => x.2)

/-- The lowest free way of a key's bucket (R31). -/
def Directory.freeWay (d : Directory) (k : Key) : Option Nat :=
  ((List.range Config.ways).find? (fun j => (sparseGet d.exact (place k j)).isNone)).map (place k)

/-- The directory with an entry put in a way. -/
def Directory.put (d : Directory) (at_ : Nat) (e : ExactEntry) : Directory := { d with exact := sparsePut d.exact at_ e }

/-- The directory with a way freed. -/
def Directory.clearWay (d : Directory) (at_ : Nat) : Directory := { d with exact := sparseDrop d.exact at_ }

/-- The subscriber set of an entry (section 2.2). -/
def ExactKind.set : ExactKind → ClientSet
  | .pinned x => x
  | .joined x => x
  | .ret c _ _ => only c

/-- Entry kind codes of a KEY report (section 10.8). -/
def ExactKind.code : ExactKind → Nat
  | .pinned _ => 1 | .joined _ => 2 | .ret .. => 3

/-! ### Patterns (R32) -/

/-- A key matches a pattern. -/
def Pattern.matches (p : Pattern) (k : Key) : Bool := k &&& p.mask == p.key

/-- The pattern that a mask and key name. -/
def Pattern.named (p : Pattern) (mask : BitVec 32) (k : Key) : Bool := p.mask == mask && p.key == (k &&& mask)

/-- The identical pattern in the list, if there is one. -/
def Directory.pattern (d : Directory) (mask : BitVec 32) (k : Key) : Option Pattern := d.patterns.find? (fun p => p.named mask k)

/-- The named pattern with another kind and set, in its place. -/
def Directory.changePattern (d : Directory) (mask : BitVec 32) (k : Key) (kind : PatternKind) (set : ClientSet) : Directory :=
  { d with patterns := d.patterns.map (fun p => if p.named mask k then { p with kind := kind, set := set } else p) }

/-- A new pattern at the end of the list, its key stored ANDed with its mask. -/
def Directory.addPattern (d : Directory) (mask : BitVec 32) (k : Key) (kind : PatternKind) (set : ClientSet) : Directory :=
  { d with patterns := d.patterns ++ [{ key := k &&& mask, mask := mask, kind := kind, set := set }] }

/-- The named pattern leaves the list. -/
def Directory.removePattern (d : Directory) (mask : BitVec 32) (k : Key) : Directory :=
  { d with patterns := d.patterns.filter (fun p => !(p.named mask k)) }

/-! ### Lookup (R33, R34) -/

/-- The union of the exact entry's set and the sets of every pattern the key matches (R33, R52). -/
def Directory.union (d : Directory) (k : Key) : ClientSet :=
  ((d.patterns.filter (fun p => p.matches k)).map Pattern.set).foldl (· ||| ·)
    (match d.entry k with | some e => e.kind.set | none => 0)

/-- The route set of a lookup (R33). -/
def Directory.route (d : Directory) (k : Key) (sender : ClientId) (self : Bool) : ClientSet :=
  if self then d.union k else without (d.union k) sender

/-- The one-shot candidate of a lookup (R34). -/
def Directory.candidate (d : Directory) (k : Key) (route : ClientSet) : Option ClientId :=
  match d.entry k with
  | some { kind := .ret c _ true, .. } => if has route c then some c else none
  | _ => none

/-! ### Settlement (R35 to R37) -/

/-- The consumption part: the candidate whose admission was accepted, if any. -/
def Directory.consume (d : Directory) (k : Key) (accepted : Option ClientId) : Directory :=
  match accepted, d.find k with
  | some c, some (at_, { kind := .ret e _ true, .. }) =>
    if e = c then { d.clearWay at_ with consumed := d.consumed + 1 } else d
  | _, _ => d

/-- The learning part for a reply key, when it acts (R37). -/
def Directory.learn (d : Directory) (k : Key) (sender : ClientId) (once : Bool) : Directory :=
  match d.find k with
  | some (at_, { kind := .ret .., .. }) =>
    { d.put at_ { key := k, kind := .ret sender d.agingLimit once } with learned := d.learned + 1 }
  | some _ => { d with learnSkipped := d.learnSkipped + 1 }
  | none =>
    match d.freeWay k with
    | some at_ => { d.put at_ { key := k, kind := .ret sender d.agingLimit once } with learned := d.learned + 1 }
    | none => { d with learnSkipped := d.learnSkipped + 1 }

/-- A settlement: consumption first, then learning when a reply key is carried and learning is permitted. -/
def Directory.settle (d : Directory) (k : Key) (accepted : Option ClientId) (sender : ClientId) (reply : Option Key)
    (once permitted : Bool) : Directory :=
  match reply with
  | some r => if permitted then (d.consume k accepted).learn r sender once else d.consume k accepted
  | none => d.consume k accepted

/-! ### Subscriptions and pins (R42 to R49) -/

/-- A directory command's answer: the status, the set for the completion (0 unless OK), and the directory after it. -/
structure DirAnswer where
  status : Status
  set : ClientSet
  dir : Directory
  deriving DecidableEq, Repr

/-- A refusal: nothing changes and no set is carried. -/
def Directory.refuse (d : Directory) (st : Status) : DirAnswer := { status := st, set := 0, dir := d }

/-- An exact SUBSCRIBE (R42). -/
def Directory.subscribeExact (d : Directory) (c : ClientId) (k : Key) : DirAnswer :=
  match d.find k with
  | some (at_, { kind := .joined x, .. }) =>
    { status := .ok, set := withClient x c, dir := d.put at_ { key := k, kind := .joined (withClient x c) } }
  | some (_, { kind := .pinned _, .. }) => d.refuse .notPermitted
  | some (_, { kind := .ret .., .. }) => d.refuse .keyInUse
  | none =>
    match d.freeWay k with
    | some at_ => { status := .ok, set := only c, dir := d.put at_ { key := k, kind := .joined (only c) } }
    | none => d.refuse .tableFull

/-- A pattern SUBSCRIBE (R43). -/
def Directory.subscribePattern (d : Directory) (c : ClientId) (m : BitVec 32) (k : Key) : DirAnswer :=
  match d.pattern m k with
  | some p =>
    match p.kind with
    | .joined => { status := .ok, set := withClient p.set c, dir := d.changePattern m k .joined (withClient p.set c) }
    | .pinned => d.refuse .notPermitted
  | none =>
    if d.patterns.length < Config.patterns then { status := .ok, set := only c, dir := d.addPattern m k .joined (only c) }
    else d.refuse .tableFull

/-- An exact UNSUBSCRIBE (R44). -/
def Directory.unsubscribeExact (d : Directory) (c : ClientId) (k : Key) : DirAnswer :=
  match d.find k with
  | some (at_, { kind := .joined x, .. }) =>
    if has x c then
      { status := .ok, set := without x c,
        dir := if without x c = 0 then d.clearWay at_ else d.put at_ { key := k, kind := .joined (without x c) } }
    else d.refuse .notFound
  | some (_, { kind := .pinned _, .. }) => d.refuse .notPermitted
  | some (_, { kind := .ret .., .. }) => d.refuse .notFound
  | none => d.refuse .notFound

/-- A pattern UNSUBSCRIBE (R45). -/
def Directory.unsubscribePattern (d : Directory) (c : ClientId) (m : BitVec 32) (k : Key) : DirAnswer :=
  match d.pattern m k with
  | some p =>
    match p.kind with
    | .joined =>
      if has p.set c then
        { status := .ok, set := without p.set c,
          dir := if without p.set c = 0 then d.removePattern m k else d.changePattern m k .joined (without p.set c) }
      else d.refuse .notFound
    | .pinned => d.refuse .notPermitted
  | none => d.refuse .notFound

/-- An exact PIN that has passed R46 (R47). -/
def Directory.pinExact (d : Directory) (k : Key) (set : ClientSet) : DirAnswer :=
  match d.find k with
  | some (at_, _) => { status := .ok, set := set, dir := d.put at_ { key := k, kind := .pinned set } }
  | none =>
    match d.freeWay k with
    | some at_ => { status := .ok, set := set, dir := d.put at_ { key := k, kind := .pinned set } }
    | none => d.refuse .tableFull

/-- A pattern PIN that has passed R46 (R48). -/
def Directory.pinPattern (d : Directory) (m : BitVec 32) (k : Key) (set : ClientSet) : DirAnswer :=
  match d.pattern m k with
  | some _ => { status := .ok, set := set, dir := d.changePattern m k .pinned set }
  | none =>
    if d.patterns.length < Config.patterns then { status := .ok, set := set, dir := d.addPattern m k .pinned set }
    else d.refuse .tableFull

/-- An exact UNPIN (R49). -/
def Directory.unpinExact (d : Directory) (k : Key) : DirAnswer :=
  match d.find k with
  | some (at_, { kind := .pinned _, .. }) => { status := .ok, set := 0, dir := d.clearWay at_ }
  | some _ => d.refuse .badState
  | none => d.refuse .notFound

/-- A pattern UNPIN (R49). -/
def Directory.unpinPattern (d : Directory) (m : BitVec 32) (k : Key) : DirAnswer :=
  match d.pattern m k with
  | some p =>
    match p.kind with
    | .pinned => { status := .ok, set := 0, dir := d.removePattern m k }
    | .joined => d.refuse .badState
  | none => d.refuse .notFound

/-! ### Aging (R39, R40) -/

/-- A tick reaches the directory (R39): the timer counts, and a sweep is called for at the end of each period. -/
def Directory.tick (d : Directory) : Directory :=
  if d.agingPeriod = 0 then d
  else if d.timer + 1 = d.agingPeriod then { d with timer := 0, sweepsDue := d.sweepsDue + 1 }
  else { d with timer := d.timer + 1 }

/-- What a sweep makes of an entry: none if it ages out. -/
def ExactEntry.aged (e : ExactEntry) : Option ExactEntry :=
  match e.kind with
  | .ret c life once => if life ≤ 1 then none else some { e with kind := .ret c (life - 1) once }
  | _ => some e

/-- The ways in use after each has been kept, changed or freed. -/
def keepWays (f : ExactEntry → Option ExactEntry) (t : List (Nat × ExactEntry)) : List (Nat × ExactEntry) :=
  t.filterMap (fun x => (f x.2).map (fun e => (x.1, e)))

/-- A sweep (R40). -/
def Directory.sweep (d : Directory) : Directory :=
  { d with exact := keepWays ExactEntry.aged d.exact,
           agedOut := d.agedOut + BitVec.ofNat 32 (d.exact.countP (fun x => x.2.aged.isNone)) }

/-! ### The purge (R50) -/

/-- What the purge of a client makes of an entry. -/
def ExactEntry.purged (c : ClientId) (e : ExactEntry) : Option ExactEntry :=
  match e.kind with
  | .pinned x => some { e with kind := .pinned (without x c) }
  | .joined x => if without x c = 0 then none else some { e with kind := .joined (without x c) }
  | .ret d _ _ => if d = c then none else some e

/-- What the purge of a client makes of a pattern. -/
def Pattern.purged (c : ClientId) (p : Pattern) : Option Pattern :=
  if p.kind = .joined ∧ without p.set c = 0 then none else some { p with set := without p.set c }

/-- The purge of a client. -/
def Directory.purge (d : Directory) (c : ClientId) : Directory :=
  { d with exact := keepWays (ExactEntry.purged c) d.exact, patterns := d.patterns.filterMap (Pattern.purged c) }

/-! ### Reports (R52) -/

/-- The KEY report. -/
def Directory.reportKey (d : Directory) (k : Key) : List Byte :=
  match d.entry k with
  | none => keyReport k 0 0 0 false (d.union k)
  | some e =>
    match e.kind with
    | .ret _ life once => keyReport k e.kind.code e.kind.set life once (d.union k)
    | _ => keyReport k e.kind.code e.kind.set 0 false (d.union k)

/-- The DIRECTORY report. -/
def Directory.reportAll (d : Directory) : List Byte :=
  directoryReport (d.exact.countP (fun x => x.2.kind.code == 1)) (d.exact.countP (fun x => x.2.kind.code == 2))
    (d.exact.countP (fun x => x.2.kind.code == 3)) d.patterns.length d.learned d.learnSkipped d.agedOut d.consumed

end Sys2Proof.Machine
end

