-- ==== Sys2Proof/Machine/Building.lean ====
section
/-!
DEFINITION. The first steps of the building and sending commands (chapter 5): OPEN, APPEND, CUT, DISPATCH, SEND, FORWARD.
-/

namespace Sys2Proof.Machine

/-- The command of a slot ends with a status and detail and no result field (R83). -/
def State.endWith (s : State) (i : SlotId) (r : PostRecord) (status : Status) (detail : Nat) : State :=
  s.formCompletion i (r.completion status detail)

/-- The command of a slot ends with OK, a handle and a length (R114). -/
def State.endParcel (s : State) (i : SlotId) (r : PostRecord) (h : Handle) (length : Nat) : State :=
  s.formCompletion i { r.completion .ok 0 with handle := h, length := length }

/-- OPEN's record claim (R92). -/
def State.openStep (s : State) (i : SlotId) (c : ClientId) (r : PostRecord) : State :=
  match s.store.recordChecks c (s.client c).refLimit with
  | .error (st, d) => s.endWith i r st d
  | .ok k =>
    (s.setStore (s.store.openRecord k r.openClass c)).endParcel i r (makeHandle (s.store.parcel k).generation k) 0

/-- OPEN (R92); before its record claim it has an abort point (R113). -/
def execOpen (i : SlotId) (s : State) : Result :=
  match s.takenCommand i 1 with
  | none => noStep s
  | some (c, r) => if (s.slot i).abortRequested then .next (s.abortSlot i) else .next (s.openStep i c r)

/-- A slot begins a gather: its pieces and its undo information. -/
def State.startGather (s : State) (i : SlotId) (m : Movement) (g : GrowthClaim) : State :=
  s.setSlot i { s.slot i with progress := .moving m, undo := some g }

/-- A growth of no bytes takes a claim and a commit with no data movement between them (R18). -/
def State.commitGrowth (s : State) (k : Nat) (close : Bool) : State := s.setStore (s.store.commit k close)

/-- APPEND's segment claim, its fragments having passed (R93). -/
def State.appendClaim (s : State) (i : SlotId) (c : ClientId) (r : PostRecord) (fr : List Accepted) : State :=
  let k := handleIndex r.handle
  let p := s.store.parcel k
  let g := r.totalLength
  let chainAfter := chainNeeded p.cls p.headOffset p.length g
  let needed := chainAfter - p.chain.length
  match s.store.resolve r.handle c with
  | some st => s.endWith i r st 0
  | none =>
    if p.state = .closed then s.endWith i r .badState 0
    else
      match s.store.segmentChecks c (s.client c).segLimit p.cls chainAfter (p.length + g) needed with
      | some (st, d) => s.endWith i r st d
      | none =>
        if g = 0 then ((s.claimSegments k c needed g).commitGrowth k false).endParcel i r r.handle p.length
        else
          (s.claimSegments k c needed g).startGather i
            { handle := r.handle, base := p.length, pieces := runPieces fr 0, length := p.length, total := g }
            { index := k, client := c, segments := needed, isSend := false }

/-- APPEND (R93): the aperture check, then the abort point before the claim (R113), then the claim. -/
def execAppend (i : SlotId) (s : State) : Result :=
  match s.takenCommand i 2 with
  | none => noStep s
  | some (c, r) =>
    match checkFragments (s.client c).apertures .read r.fragments with
    | .error k => .next (s.endWith i r .aperture k)
    | .ok fr => if (s.slot i).abortRequested then .next (s.abortSlot i) else .next (s.appendClaim i c r fr)

/-- CUT's one request (R22, R96). -/
def State.cutStep (s : State) (i : SlotId) (c : ClientId) (r : PostRecord) : State :=
  let k := handleIndex r.handle
  let p := s.store.parcel k
  let n := r.auxA.toNat
  match s.store.resolve r.handle c with
  | some st => s.endWith i r st 0
  | none =>
    if p.holder c ≠ p.refCount ∨ p.holder c ≠ 1 then s.endWith i r .badState 0
    else if p.length < n then s.endWith i r .badRange 0
    else (s.setStore (s.store.cut k n r.tail)).endParcel i r r.handle (p.length - n)

/-- CUT (R96). -/
def execCut (i : SlotId) (s : State) : Result :=
  match s.takenCommand i 3 with
  | none => noStep s
  | some (c, r) => if (s.slot i).abortRequested then .next (s.abortSlot i) else .next (s.cutStep i c r)

/-- DISPATCH's close (R104). -/
def State.closeStep (s : State) (i : SlotId) (c : ClientId) (r : PostRecord) : State :=
  let k := handleIndex r.handle
  match s.store.resolve r.handle c with
  | some st => s.endWith i r st 0
  | none =>
    if (s.store.parcel k).state = .closed then s.endWith i r .badState 0
    else (s.setStore (s.store.setParcelState k .closed)).setProgress i (.toLookup r.handle (s.store.parcel k).length)

/-- DISPATCH (R104). -/
def execDispatch (i : SlotId) (s : State) : Result :=
  match s.takenCommand i 4 with
  | none => noStep s
  | some (c, r) => if (s.slot i).abortRequested then .next (s.abortSlot i) else .next (s.closeStep i c r)

/-- SEND's class choice and record-and-segment claim, its fragments having passed (R106, R107). -/
def State.sendClaim (s : State) (i : SlotId) (c : ClientId) (r : PostRecord) (fr : List Accepted) : State :=
  let cls := r.sendClass
  let g := r.totalLength
  let needed := chainNeeded cls 0 0 g
  match s.store.recordChecks c (s.client c).refLimit with
  | .error (st, d) => s.endWith i r st d
  | .ok k =>
    match s.store.segmentChecks c (s.client c).segLimit cls needed g needed with
    | some (st, d) => s.endWith i r st d
    | none =>
      let h := makeHandle (s.store.parcel k).generation k
      let claimed := (s.setStore (s.store.openRecord k cls c)).claimSegments k c needed g
      if g = 0 then (claimed.commitGrowth k true).setProgress i (.toLookup h 0)
      else
        claimed.startGather i { handle := h, base := 0, pieces := runPieces fr 0, length := 0, total := g }
          { index := k, client := c, segments := needed, isSend := true }

/-- SEND (R106): the aperture check, then the abort point before the claim (R113), then the claim. -/
def execSend (i : SlotId) (s : State) : Result :=
  match s.takenCommand i 5 with
  | none => noStep s
  | some (c, r) =>
    match checkFragments (s.client c).apertures .read r.fragments with
    | .error k => .next (s.endWith i r .aperture k)
    | .ok fr => if (s.slot i).abortRequested then .next (s.abortSlot i) else .next (s.sendClaim i c r fr)

/-- The forward check (R110). -/
def State.forwardCheck (s : State) (i : SlotId) (c : ClientId) (r : PostRecord) : State :=
  let k := handleIndex r.handle
  match s.store.resolve r.handle c with
  | some st => s.endWith i r st 0
  | none =>
    if (s.store.parcel k).state ≠ .closed then s.endWith i r .badState 0
    else if s.freeRefs c r.handle < 1 then s.endWith i r .notHeld 0
    else s.setProgress i (.toLookup r.handle (s.store.parcel k).length)

/-- FORWARD (R110). -/
def execForward (i : SlotId) (s : State) : Result :=
  match s.takenCommand i 6 with
  | none => noStep s
  | some (c, r) => if (s.slot i).abortRequested then .next (s.abortSlot i) else .next (s.forwardCheck i c r)

end Sys2Proof.Machine
end

