-- ==== Sys2Proof/Machine/Attach.lean ====
section
/-!
DEFINITION. ATTACH (section 8.2): the subject check and the descriptor read, the client-half read, the attach write-back and
the attach commit, which the setup load uses too (R159).
-/

namespace Sys2Proof.Machine

/-- The client a subject field names, if it is 0 to 7. -/
def clientOf (b : Byte) : Option ClientId := if h : b.toNat < 8 then some ⟨b.toNat, h⟩ else none

/-- The context an attach commit installs (R54, R158). -/
def attachedContext (d : Descriptor) (h : ClientHalf) : Client :=
  { Client.initial with
    state := .attached,
    post := { base := d.postBase, size := d.postSize, taken := 0, lastPost := h.postTally },
    ret := { OutRing.initial with base := d.retBase, size := d.retSize, lastTaken := h.retTaken, lastWake := h.retWake },
    del := { OutRing.initial with base := d.delBase, size := d.delSize, lastTaken := h.delTaken, lastWake := h.delWake },
    cxb := d.cxb, signalAddr := d.signalAddr, signalValue := d.signalValue, refLimit := d.refLimit,
    segLimit := d.segLimit, learning := d.learning, apertures := d.apertures }

/-- The subject of an ATTACH is a client 1 to 7 that is ABSENT (R155). -/
def State.attachable (s : State) (r : PostRecord) : Option ClientId :=
  match clientOf r.subject with
  | some c => if c ≠ 0 ∧ (s.client c).state = .absent then some c else none
  | none => none

/-- ATTACH (R155, R152): the subject check, the aperture check of fragment 0, and the first piece of the descriptor. -/
def execAttach (i : SlotId) (s : State) : Result :=
  match s.takenCommand i 16 with
  | none => noStep s
  | some (c, r) =>
    match s.attachable r with
    | none => .next (s.endWith i r .badState 0)
    | some _ =>
      match checkRegion (s.client c).apertures .read r Config.descriptorBytes with
      | none => .next (s.endWith i r .aperture 0)
      | some a => .next (s.setProgress i (.attachDescriptor (cutPieces 0 a Config.descriptorBytes 0) []))

/-- A descriptor piece has been read (R152, R156). -/
def State.descriptorRead (s : State) (i : SlotId) (r : PostRecord) (rest : List Piece) (bytes : List Byte) : State :=
  if rest.isEmpty then
    match readDescriptor bytes with
    | some d => s.setProgress i (.attachHalf d)
    | none => s.endWith i r .badDescriptor 0
  else s.setProgress i (.attachDescriptor rest bytes)

/-- ATTACH_DESCRIPTOR_PIECE_COMPLETE (R152, R156). -/
def execAttachDescriptorPieceComplete (o : ReadOutcome) (s : State) : Result :=
  match s.onBus TxnOp.attachDescriptorOf with
  | .none => noStep s
  | .discarded => .next s.clearBus
  | .live i _ =>
    match s.performing i, (s.slot i).progress with
    | some (_, r), .attachDescriptor (p :: rest) bytes =>
      match o with
      | .busError => .next (s.clearBus.endWith i r .busError 0)
      | .data bs =>
        if bs.length = p.len then .next (s.clearBus.descriptorRead i r rest (bytes ++ bs)) else .refused .wrongLength
    | _, _ => .next s.clearBus

/-- The new client's client half has been read (R157, R158): a passed tally check asks for the attach write-back. -/
def State.attachHalfRead (s : State) (i : SlotId) (r : PostRecord) (d : Descriptor) (h : ClientHalf) : State :=
  if attachTallyCheck h d then
    (s.setProgress i (.attachWriteBack d h)).enqueue
      { op := .attachWriteBack i, addr := d.cxb + 32, len := 32, data := attachHalfBytes }
  else s.endWith i r .badDescriptor 0

/-- ATTACH_CXB_READ_COMPLETE (R157). -/
def execAttachCxbReadComplete (o : ReadOutcome) (s : State) : Result :=
  match s.onBus TxnOp.attachHalfOf with
  | .none => noStep s
  | .discarded => .next s.clearBus
  | .live i _ =>
    match s.performing i, (s.slot i).progress with
    | some (_, r), .attachHalf d =>
      match o with
      | .busError => .next (s.clearBus.endWith i r .busError 4)
      | .data bs =>
        if bs.length = 32 then .next (s.clearBus.attachHalfRead i r d (readHalf bs)) else .refused .wrongLength
    | _, _ => .next s.clearBus

/-- The attach commit (R158): the context is installed and the client is ATTACHED. -/
def State.attachCommit (s : State) (c : ClientId) (d : Descriptor) (h : ClientHalf) : State :=
  s.setClient c (attachedContext d h)

/-- The attach commit of an ATTACH, whose completion forms in the same event. -/
def State.attachDone (s : State) (i : SlotId) (r : PostRecord) (d : Descriptor) (h : ClientHalf) : State :=
  match clientOf r.subject with
  | some c => ((s.attachCommit c d h).endWith i r .ok 0).readChoice
  | none => s.endWith i r .badState 0

/-- ATTACH_WRITE_BACK_COMPLETE (R158). -/
def execAttachWriteBackComplete (w : WriteOutcome) (s : State) : Result :=
  match s.onBus TxnOp.attachWriteBackOf with
  | .none => noStep s
  | .discarded => .next s.clearBus
  | .live i _ =>
    match s.performing i, (s.slot i).progress with
    | some (_, r), .attachWriteBack d h =>
      match w with
      | .busError => .next (s.clearBus.endWith i r .busError 4)
      | .done => .next (s.clearBus.attachDone i r d h)
    | _, _ => .next s.clearBus

end Sys2Proof.Machine
end

