-- ==== Sys2Proof/Machine/Bus.lean ====
section
/-!
DEFINITION. The bus-master arbiter (section 9.6): GRANT.
-/

namespace Sys2Proof.Machine

/-- A transaction of a slot for a piece. -/
def pieceTxn (op : TxnOp) (p : Piece) (data : List Byte) : Txn := { op := op, addr := p.addr, len := p.len, data := data }

/-- What a slot presents to the arbiter. -/
inductive Presented where
  /-- Nothing. -/
  | nothing
  /-- A transaction. -/
  | txn (t : Txn)
  /-- A scatter piece whose bytes lie outside the parcel's chain. -/
  | outside
  deriving DecidableEq, Repr

/-- What a slot presents (R144, R188): the next piece of its data movement, of ATTACH's descriptor read or of QUERY's
report, or ATTACH's client-half read. A scatter's bytes are read from parcel memory when it is issued (R146). -/
def State.presents (s : State) (i : SlotId) : Presented :=
  let sl := s.slot i
  if sl.state = .performing then
    match sl.progress with
    | .moving m =>
      match m.pieces with
      | p :: _ =>
        if sl.undo.isSome then .txn (pieceTxn (.gather i) p [])
        else
          match readRun (s.store.parcel (handleIndex m.handle)) s.store.memory (m.base + p.run) p.len with
          | some bs => .txn (pieceTxn (.scatter i) p bs)
          | none => .outside
      | [] => .nothing
    | .attachDescriptor (p :: _) _ => .txn (pieceTxn (.attachDescriptor i) p [])
    | .attachHalf d => .txn { op := .attachHalf i, addr := d.cxb, len := 32, data := [] }
    | .reporting (p :: _) bytes => .txn (pieceTxn (.report i) p ((bytes.drop p.run).take p.len))
    | _ => .nothing
  else .nothing

/-- A slot is presenting. -/
def State.isPresenting (s : State) (i : SlotId) : Bool := s.presents i != .nothing

/-- The slots in the order of the rotation: starting after the slot pointer and wrapping from 3 to 0 (R189). -/
def slotRotation (p : SlotId) : List SlotId := (List.finRange 4).map (fun k => p + 1 + k)

/-- The slot the rotation reaches first among those presenting. -/
def State.firstPresenting (s : State) : Option SlotId := (slotRotation s.arb.slotPointer).find? s.isPresenting

/-- The wait count after a grant to the record writer or a slot (R189). -/
def State.waitAfter (s : State) : Nat := if s.intake.fetch.isSome then s.arb.waitCount + 1 else s.arb.waitCount

/-- A grant to the fetcher. -/
def State.grantFetcher (s : State) (t : Txn) : State :=
  s.setArb { s.arb with waitCount := 0, bus := some { txn := t, stale := false } }

/-- A grant to the record writer: its transaction is issued. -/
def State.grantWriter (s : State) (t : Txn) (rest : List Txn) : State :=
  (s.setArb { s.arb with waitCount := s.waitAfter, bus := some { txn := s.issued t, stale := false } }).setUnit
    { s.unit with writer := rest }

/-- A grant to a slot. -/
def State.grantSlot (s : State) (i : SlotId) (t : Txn) : State :=
  s.setArb { slotPointer := i, waitCount := s.waitAfter, bus := some { txn := t, stale := false } }

/-- A grant may be taken: nothing is in flight, the reset pin is released and the device is not FAILED (R182, R189). -/
def State.mayGrant (s : State) : Bool := s.arb.bus.isNone && !s.port.resetAsserted && s.port.device != .failed

/-- The winner when neither a patient fetcher nor the record writer goes first (R189, points 3 and 4). -/
def State.grantRest (s : State) : Result :=
  match s.firstPresenting with
  | some i =>
    match s.presents i with
    | .txn t => .next (s.grantSlot i t)
    | .outside => .fault .outsideChain
    | .nothing => noStep s
  | none =>
    match s.intake.fetch with
    | some t => .next (s.grantFetcher t)
    | none => noStep s

/-- The winner when the fetcher has not waited for four grants (R189, points 2 to 4). -/
def State.grantOther (s : State) : Result :=
  match s.unit.writer with
  | t :: rest => .next (s.grantWriter t rest)
  | [] => s.grantRest

/-- GRANT (R189). -/
def execGrant (s : State) : Result :=
  if s.mayGrant then
    match s.intake.fetch with
    | some t => if s.arb.waitCount = Config.fetcherPatience then .next (s.grantFetcher t) else s.grantOther
    | none => s.grantOther
  else noStep s

end Sys2Proof.Machine
end

