-- ==== Sys2Proof/Machine/Channels.lean ====
section
/-!
DEFINITION. The steps at the Channel Directory: SUBSCRIBE, UNSUBSCRIBE, PIN, UNPIN and the aging sweep.
-/

namespace Sys2Proof.Machine

/-- A directory command's answer reaches its slot: the directory is as answered, and the completion forms. -/
def State.endDirectory (s : State) (i : SlotId) (r : PostRecord) (a : DirAnswer) : State :=
  (s.setDir a.dir).formCompletion i { r.completion a.status 0 with subscribers := a.set }

/-- SUBSCRIBE (R42, R43). It has no abort point (log entry 9). -/
def execSubscribe (i : SlotId) (s : State) : Result :=
  match s.takenCommand i 9 with
  | none => noStep s
  | some (c, r) =>
    .next (s.endDirectory i r
      (if r.maskPresent then s.dir.subscribePattern c r.auxA r.key else s.dir.subscribeExact c r.key))

/-- UNSUBSCRIBE (R44, R45). It has no abort point (log entry 9). -/
def execUnsubscribe (i : SlotId) (s : State) : Result :=
  match s.takenCommand i 10 with
  | none => noStep s
  | some (c, r) =>
    .next (s.endDirectory i r
      (if r.maskPresent then s.dir.unsubscribePattern c r.auxA r.key else s.dir.unsubscribeExact c r.key))

/-- The set of a PIN names an ABSENT client (R46). -/
def State.namesAbsent (s : State) (set : ClientSet) : Bool := (members set).any (fun c => (s.client c).state == .absent)

/-- The client set a PIN carries in aux B (R46). -/
def PostRecord.pinSet (r : PostRecord) : ClientSet := r.auxB.extractLsb' 0 8

/-- PIN (R46 to R48). -/
def execPin (i : SlotId) (s : State) : Result :=
  match s.takenCommand i 18 with
  | none => noStep s
  | some (_, r) =>
    if 255 < r.auxB.toNat then .next (s.endWith i r .badRange 0)
    else if s.namesAbsent r.pinSet then .next (s.endWith i r .badState 0)
    else
      .next (s.endDirectory i r
        (if r.maskPresent then s.dir.pinPattern r.auxA r.key r.pinSet else s.dir.pinExact r.key r.pinSet))

/-- UNPIN (R49). -/
def execUnpin (i : SlotId) (s : State) : Result :=
  match s.takenCommand i 19 with
  | none => noStep s
  | some (_, r) =>
    .next (s.endDirectory i r (if r.maskPresent then s.dir.unpinPattern r.auxA r.key else s.dir.unpinExact r.key))

/-- SWEEP (R40): one sweep that the aging timer has called for (log entry 6). -/
def execSweep (s : State) : Result :=
  if s.ticking && decide (0 < s.dir.sweepsDue) then
    .next (s.setDir { s.dir.sweep with sweepsDue := s.dir.sweepsDue - 1 })
  else noStep s

end Sys2Proof.Machine
end

