-- ==== Sys2Proof/Machine/Taking.lean ====
section
/-!
DEFINITION. Taking delivery (chapter 6): FETCH, RELEASE, the release-after drop, the delivery claim and linger expiry.
-/

namespace Sys2Proof.Machine

/-- A FETCH ends with OK (R132). -/
def State.endFetched (s : State) (i : SlotId) (r : PostRecord) (h : Handle) (length copied : Nat) : State :=
  s.formCompletion i { r.completion .ok 0 with handle := h, length := length, copied := copied }

/-- What follows the last piece of a FETCH: the release-after drop, or its end (R132). -/
def State.scattered (s : State) (i : SlotId) (r : PostRecord) (h : Handle) (length copied : Nat) : State :=
  if r.releaseAfter then s.setProgress i (.dropAfter h length copied) else s.endFetched i r h length copied

/-- The fetch check, the fragments having passed (R130). -/
def State.fetchCheck (s : State) (i : SlotId) (c : ClientId) (r : PostRecord) (fr : List Accepted) : State :=
  let p := s.store.parcel (handleIndex r.handle)
  let total := r.totalLength
  match s.store.resolve r.handle c with
  | some st => s.endWith i r st 0
  | none =>
    if s.freeRefs c r.handle < 1 then s.endWith i r .notHeld 0
    else if p.length < r.auxA.toNat + total then s.endWith i r .badRange 0
    else if total = 0 then s.scattered i r r.handle p.length 0
    else
      s.setProgress i (.moving
        { handle := r.handle, base := r.auxA.toNat, pieces := runPieces fr 0, length := p.length, total := total })

/-- FETCH (R130): the aperture check, then the abort point before the fetch check (R132), then the check. -/
def execFetch (i : SlotId) (s : State) : Result :=
  match s.takenCommand i 7 with
  | none => noStep s
  | some (c, r) =>
    match checkFragments (s.client c).apertures .write r.fragments with
    | .error k => .next (s.endWith i r .aperture k)
    | .ok fr => if (s.slot i).abortRequested then .next (s.abortSlot i) else .next (s.fetchCheck i c r fr)

/-- RELEASE_AFTER_DROP (R132); there is an abort point before it. -/
def execReleaseAfterDrop (i : SlotId) (s : State) : Result :=
  match s.performing i with
  | none => noStep s
  | some (c, r) =>
    match (s.slot i).progress with
    | .dropAfter h length copied =>
      if (s.slot i).abortRequested then .next (s.abortSlot i)
      else .next ((s.setStore (s.store.drop (handleIndex h) c 1).1).endFetched i r h length copied)
    | _ => noStep s

/-- RELEASE's one request (R133, R134). -/
def State.releaseStep (s : State) (i : SlotId) (c : ClientId) (r : PostRecord) : State :=
  let k := handleIndex r.handle
  let n := r.auxA.toNat
  match s.store.resolve r.handle c with
  | some st => s.endWith i r st 0
  | none =>
    if s.freeRefs c r.handle < n then s.endWith i r .notHeld 0
    else
      (s.setStore (s.store.drop k c n).1).formCompletion i
        { r.completion .ok 0 with handle := r.handle, holderAfter := (s.store.parcel k).holder c - n,
                                  freed := (s.store.drop k c n).2 }

/-- RELEASE (R133): the range of n, then its one abort point (R134), then the release. -/
def execRelease (i : SlotId) (s : State) : Result :=
  match s.takenCommand i 8 with
  | none => noStep s
  | some (c, r) =>
    if r.auxA.toNat < 1 ∨ Config.maxHolder < r.auxA.toNat then .next (s.endWith i r .badRange 0)
    else if (s.slot i).abortRequested then .next (s.abortSlot i)
    else .next (s.releaseStep i c r)

/-! ### The delivery claim (R121, R122) -/

/-- The highest class in a pending list. -/
def topClass (entries : List PendingEntry) : Nat := (entries.map (fun e => e.cls.toNat)).foldl max 0

/-- The place of the entry a claim takes: of the highest class, the one admitted earliest. -/
def claimPlace (entries : List PendingEntry) : Option Nat := entries.findIdx? (fun e => e.cls.toNat == topClass entries)

/-- The delivery claim of an entry: it leaves the list as a delivery record with the current sequence, which advances. -/
def State.claimDelivery (s : State) (c : ClientId) (k : Nat) (e : PendingEntry) : State :=
  let claimed := (s.setList c ((s.list c).eraseIdx k)).claimRing c .del .delivery
    (fun lap => e.bytes lap (s.store.parcel (handleIndex e.handle)).length (s.client c).sequence s.port.tickCount)
  claimed.setClient c { claimed.client c with sequence := (s.client c).sequence + 1 }

/-- DELIVERY_CLAIM (R121, R69); the Intake chooses again, since the claim may have filled the ring (R76). -/
def execDeliveryClaim (c : ClientId) (s : State) : Result :=
  if s.canClaim c .del then
    match claimPlace (s.list c) with
    | some k =>
      match (s.list c)[k]? with
      | some e => .next (s.claimDelivery c k e).readChoice
      | none => noStep s
    | none => noStep s
  else noStep s

/-! ### Linger expiry (R125, R126) -/

/-- The age of an entry has reached the linger limit. -/
def PendingEntry.aged (e : PendingEntry) (limit : Nat) (now : Tally) : Bool := decide (limit ≤ (now - e.tick).toNat)

/-- One reference of a client is dropped for each of these entries, in their order; the records freed are counted. -/
def Store.dropEntries (t : Store) (c : ClientId) : List PendingEntry → Store × Nat
  | [] => (t, 0)
  | e :: rest =>
    let d := t.drop (handleIndex e.handle) c 1
    let more := Store.dropEntries d.1 c rest
    (more.1, more.2 + flagBit d.2)

/-- An expiry event of a list: every aged entry leaves it with its reference; expired and the sequence advance. -/
def State.expire (s : State) (c : ClientId) : State :=
  let old := (s.list c).filter (fun e => e.aged s.unit.lingerLimit s.port.tickCount)
  let kept := (s.list c).filter (fun e => !(e.aged s.unit.lingerLimit s.port.tickCount))
  let x := s.client c
  ((s.setStore (s.store.dropEntries c old).1).setList c kept).setClient c
    { x with expired := x.expired + BitVec.ofNat 32 old.length, sequence := x.sequence + BitVec.ofNat 32 old.length }

/-- LINGER_EXPIRY (R126): the event of one list that a tick has called for (log entry 6). -/
def execLingerExpiry (c : ClientId) (s : State) : Result :=
  if s.ticking && has s.unit.expiryDue c then
    .next ((s.setUnit { s.unit with expiryDue := without s.unit.expiryDue c }).expire c)
  else noStep s

end Sys2Proof.Machine
end

