-- ==== Sys2Proof/Machine/Control.lean ====
section
/-!
DEFINITION. The System Port (chapter 9): the register window, GO, HALT, RESTART, ATTEND, the setup address, the setup load,
the tick and the reset pin.
-/

namespace Sys2Proof.Machine

/-! ### The register window (section 9.1) -/

/-- The state with the slave side's answer. -/
def State.answered (s : State) (a : PortAnswer) : State := s.setPort { s.port with answer := a }

/-- The setup address (R177). -/
def State.setupAddress (s : State) : Addr := s.port.setupHi ++ s.port.setupLo

/-- What STATE reads (R176): device state in bits 2:0, fault code in 11:8, client-0 reason in 19:16. -/
def Port.stateWord (p : Port) : BitVec 32 :=
  BitVec.ofNat 32 (p.device.code + 256 * p.faultCode.code + 65536 * reasonCode p.client0Reason)

/-- What an aligned 32-bit read at an offset returns (R175). -/
def Port.readWord (p : Port) (offset : Nat) : BitVec 32 :=
  if p.resetAsserted then 0
  else if offset = 0x00 then Config.ident
  else if offset = 0x08 then p.stateWord
  else if offset = 0x10 then p.setupLo
  else if offset = 0x14 then p.setupHi
  else 0

/-- The fetcher asks for a read of the setup load. -/
def State.fetchSetup (s : State) (op : TxnOp) (addr : Addr) (len : Nat) : State :=
  s.setIntake { s.intake with fetch := some { op := op, addr := addr, len := len, data := [] } }

/-- The setup load starts (R183), or fails at once on an address that is not a multiple of 64. -/
def State.startLoad (s : State) : State :=
  if s.setupAddress.toNat % 64 = 0 then
    ((s.setPort { s.port with device := .loading }).setLoad (.setupRead s.setupAddress)).fetchSetup .setupRead
      s.setupAddress 64
  else s.failDevice .setupInvalid none

/-- GO (R179, R89). -/
def State.goEvent (s : State) : State :=
  match s.port.device with
  | .off => s.startLoad
  | .halting | .halted => (s.setPort { s.port with device := .running, tickRuns := true }).readChoice
  | _ => s

/-- HALT (R179, R89). -/
def State.haltEvent (s : State) : State :=
  match s.port.device with
  | .running =>
    if s.allFree then s.setPort { s.port with device := .halted, tickRuns := false }
    else s.setPort { s.port with device := .halting }
  | _ => s

/-- The transaction on the bus when a RESTART or an assertion of the reset pin is taken: it stays there until it completes, its
result to be discarded (R181, R151). -/
def Arbiter.abandoned (a : Arbiter) : Option BusTxn := a.bus.map (fun b => { b with stale := true })

/-- The arbiter after a RESTART or a release of the reset pin: reset values, the bus still taken by older work (R181). -/
def Arbiter.restarted (a : Arbiter) : Arbiter := { Arbiter.initial with bus := a.abandoned }

/-- RESTART (R181): every block at its values after the reset pin, the setup address and the contents of parcel memory
(R1) kept. -/
def State.restartEvent (s : State) : State :=
  { State.reset with
    pending := s.pending, arb := s.arb.restarted, store := { Store.initial with memory := s.store.memory },
    port := { Port.initial with setupLo := s.port.setupLo, setupHi := s.port.setupHi, answer := s.port.answer } }

/-- A client joins the pending-attend set if the set written names it and it is ATTACHED (R67). -/
def State.attendSet (s : State) (value : ClientSet) : ClientSet :=
  (members value).foldl (fun set c => if (s.client c).state = .attached then withClient set c else set) s.intake.attendSet

/-- ATTEND (R67): bits 7:0 of the value; ignored in OFF, LOADING and FAILED. -/
def State.attendEvent (s : State) (value : BitVec 32) : State :=
  if s.active then (s.setIntake { s.intake with attendSet := s.attendSet (value.extractLsb' 0 8) }).readChoice else s

/-- A write to SETUP_LO or SETUP_HI (R177). -/
def State.setupEvent (s : State) (high : Bool) (value : BitVec 32) : State :=
  if high then s.setPort { s.port with setupHi := value } else s.setPort { s.port with setupLo := value }

/-- A write to CONTROL (R178). -/
def State.controlEvent (s : State) (value : BitVec 32) : State :=
  if value.getLsbD 2 then s.restartEvent
  else if value.getLsbD 0 && value.getLsbD 1 then s
  else if value.getLsbD 0 then s.goEvent
  else if value.getLsbD 1 then s.haltEvent
  else s

/-- An aligned 32-bit write at an offset (R175): IDENT, STATE and the unused offsets ignore it. -/
def State.writeWord (s : State) (offset : Nat) (value : BitVec 32) : State :=
  if offset = 0x04 then s.controlEvent value
  else if offset = 0x0C then s.attendEvent value
  else if offset = 0x10 then s.setupEvent false value
  else if offset = 0x14 then s.setupEvent true value
  else s

/-- An access to the window (R175). While the reset pin is asserted reads return 0 and writes are ignored. -/
def State.access (s : State) (a : PortAccess) : State :=
  if s.port.resetAsserted then
    match a.kind with
    | .read => s.answered (.value 0)
    | .write _ => s.answered .written
  else if a.width ≠ .word ∨ a.offset.toNat % 4 ≠ 0 then s.answered .busError
  else
    match a.kind with
    | .read => s.answered (.value (s.port.readWord a.offset.toNat))
    | .write v => (s.writeWord a.offset.toNat v).answered .written

/-- A register write taken by the window; while the reset pin is asserted it is ignored (R175). -/
def State.windowWrite (s : State) (f : State → State) : State :=
  if s.port.resetAsserted then s.answered .written else (f s).answered .written

/-- GO (R178, R179): CONTROL written with GO alone. -/
def execGo (s : State) : Result := .next (s.windowWrite State.goEvent)

/-- HALT (R178, R179): CONTROL written with HALT alone. -/
def execHalt (s : State) : Result := .next (s.windowWrite State.haltEvent)

/-- RESTART (R178, R181): CONTROL written with RESTART. -/
def execRestart (s : State) : Result := .next (s.windowWrite State.restartEvent)

/-- ATTEND (R67). -/
def execAttend (value : BitVec 32) (s : State) : Result := .next (s.windowWrite (fun t => t.attendEvent value))

/-- SETUP_ADDRESS_WRITE (R177). -/
def execSetupAddressWrite (high : Bool) (value : BitVec 32) (s : State) : Result :=
  .next (s.windowWrite (fun t => t.setupEvent high value))

/-- REGISTER_WRITE (R175, R178): any access to the window. -/
def execRegisterWrite (a : PortAccess) (s : State) : Result := .next (s.access a)

/-! ### The setup load (section 9.4) -/

/-- The setup load ends and the device fails. -/
def State.failLoad (s : State) (code : DeviceFault) (reason : Option FaultReason) : State :=
  (s.setLoad .idle).failDevice code reason

/-- The next piece of client 0's descriptor is asked for (R185). -/
def State.fetchPiece (s : State) (g : Settings) (pieces : List Piece) (bytes : List Byte) : State :=
  match pieces with
  | p :: _ => (s.setLoad (.descriptor g pieces bytes)).fetchSetup .setupDescriptor p.addr p.len
  | [] => s

/-- The setup validation (R184). -/
def State.setupRead (s : State) (bs : List Byte) : State :=
  match readSettings bs with
  | some g => s.fetchPiece g (cutPieces 0 g.descriptor Config.descriptorBytes 0) []
  | none => s.failLoad .setupInvalid none

/-- SETUP_READ_COMPLETE (R183, R184). -/
def execSetupReadComplete (o : ReadOutcome) (s : State) : Result :=
  match s.onBus TxnOp.setupReadOf with
  | .none => noStep s
  | .discarded => .next s.clearBus
  | .live _ _ =>
    match o with
    | .busError => .next (s.endFetch.failLoad .setupRead none)
    | .data bs => if bs.length = 64 then .next (s.endFetch.setupRead bs) else .refused .wrongLength

/-- The settings load (R185, R25, R39, R125). -/
def State.loadSettings (s : State) (g : Settings) : State :=
  ((s.setStore { s.store with reserves := g.reserves }).setDir
    { s.dir with agingPeriod := g.agingPeriod, agingLimit := g.agingLimit, timer := 0 }).setUnit
    { s.unit with lingerLimit := g.linger }

/-- A piece of client 0's descriptor has been read (R185): after the last, validation, the settings load and the
client-half read. -/
def State.setupPiece (s : State) (g : Settings) (rest : List Piece) (bytes : List Byte) : State :=
  if rest.isEmpty then
    match readDescriptor bytes with
    | some d => ((s.loadSettings g).setLoad (.half d)).fetchSetup .setupHalf d.cxb 32
    | none => s.failLoad .setupInvalid none
  else s.fetchPiece g rest bytes

/-- SETUP_DESCRIPTOR_PIECE_COMPLETE (R185). -/
def execSetupDescriptorPieceComplete (o : ReadOutcome) (s : State) : Result :=
  match s.onBus TxnOp.setupDescriptorOf with
  | .none => noStep s
  | .discarded => .next s.clearBus
  | .live _ _ =>
    match s.load with
    | .descriptor g (p :: rest) bytes =>
      match o with
      | .busError => .next (s.endFetch.failLoad .setupRead none)
      | .data bs =>
        if bs.length = p.len then .next (s.endFetch.setupPiece g rest (bytes ++ bs)) else .refused .wrongLength
    | _ => .next s.clearBus

/-- Client 0's client half has been read (R186). -/
def State.setupHalfRead (s : State) (d : Descriptor) (h : ClientHalf) : State :=
  if attachTallyCheck h d then
    (s.setLoad (.writeBack d h)).enqueue { op := .setupWriteBack, addr := d.cxb + 32, len := 32, data := attachHalfBytes }
  else s.failLoad .supervisorFault (some .tally)

/-- SETUP_CXB_READ_COMPLETE (R186). -/
def execSetupCxbReadComplete (o : ReadOutcome) (s : State) : Result :=
  match s.onBus TxnOp.setupHalfOf with
  | .none => noStep s
  | .discarded => .next s.clearBus
  | .live _ _ =>
    match s.load with
    | .half d =>
      match o with
      | .busError => .next (s.endFetch.failLoad .supervisorFault (some .cxbRead))
      | .data bs => if bs.length = 32 then .next (s.endFetch.setupHalfRead d (readHalf bs)) else .refused .wrongLength
    | _ => .next s.clearBus

/-- The setup load ends with client 0 attached (R186): the device is RUNNING and the tick starts. -/
def State.loadDone (s : State) (d : Descriptor) (h : ClientHalf) : State :=
  (((s.attachCommit 0 d h).setLoad .idle).setPort { s.port with device := .running, tickRuns := true }).readChoice

/-- SETUP_WRITE_BACK_COMPLETE (R186). -/
def execSetupWriteBackComplete (w : WriteOutcome) (s : State) : Result :=
  match s.onBus TxnOp.setupWriteBackOf with
  | .none => noStep s
  | .discarded => .next s.clearBus
  | .live _ _ =>
    match s.load with
    | .writeBack d h =>
      match w with
      | .busError => .next (s.clearBus.failLoad .supervisorFault (some .recordWrite))
      | .done => .next (s.clearBus.loadDone d h)
    | _ => .next s.clearBus

/-! ### The tick (section 9.7) -/

/-- A client has waiting output (R64). -/
def State.waitingOutput (s : State) (c : ClientId) : Bool :=
  !(s.list c).isEmpty
    || (match s.slotOf c with | some i => (s.slot i).state == .held | none => false)
    || (c == 0 && !s.unit.notices.isEmpty)

/-- The clients that satisfy a test, as a set. -/
def clientsWhere (f : ClientId → Bool) : ClientSet :=
  (List.finRange 8).foldl (fun set c => if f c then withClient set c else set) 0

/-- The lists with an entry whose age has reached the linger limit (R126). -/
def State.agedLists (s : State) : ClientSet :=
  if s.unit.lingerLimit = 0 then 0
  else clientsWhere (fun c => (s.list c).any (fun e => e.aged s.unit.lingerLimit s.port.tickCount))

/-- The ATTACHED clients with waiting output (R64). -/
def State.outputWaiters (s : State) : ClientSet :=
  clientsWhere (fun c => (s.client c).state == .attached && s.waitingOutput c)

/-- A tick event (R190): the tick count advances and the tick reaches the Directory, the pending lists and the Client
Table. -/
def State.tickEvent (s : State) : State :=
  let counted := s.setPort { s.port with tickDivider := 0, tickCount := s.port.tickCount + 1 }
  (((counted.setDir counted.dir.tick).setUnit { s.unit with expiryDue := s.unit.expiryDue ||| counted.agedLists }).setIntake
    { s.intake with refreshSet := s.intake.refreshSet ||| s.outputWaiters }).readChoice

/-- The tick counts: it runs, and the reset pin is released (R190). -/
def State.tickOn (s : State) : Bool := s.port.tickRuns && !s.port.resetAsserted

/-- TICK (R190): the divider completes its 25,000 periods. While the tick is stopped or paused none is taken. -/
def execTick (s : State) : Result := .next (if s.tickOn then s.tickEvent else s)

/-- One REFCLK period passes with no command waiting (R190; log entry 5). -/
def State.idlePeriod (s : State) : State :=
  if s.tickOn then
    if s.port.tickDivider + 1 < Config.tickPeriods then s.setPort { s.port with tickDivider := s.port.tickDivider + 1 }
    else s.tickEvent
  else s

/-! ### The reset pin (R182, R191) -/

/-- RESET_PIN_ASSERT (R182, R191): the FAULT pin is low, and the transaction in flight is abandoned: it completes on the bus
and its result is discarded (R136, R151; log entry 16). -/
def execResetPinAssert (s : State) : Result :=
  .next ((s.setPort { s.port with resetAsserted := true, faultPin := false }).setArb { s.arb with bus := s.arb.abandoned })

/-- RESET_PIN_RELEASE (R182): every block at its values after the reset pin, but for parcel memory's contents (R1) and an
abandoned transaction that has not completed (log entry 16). With the pin already released there is no release. -/
def execResetPinRelease (s : State) : Result :=
  .next (if s.port.resetAsserted then
      { State.reset with
        pending := s.pending, arb := s.arb.restarted, store := { Store.initial with memory := s.store.memory } }
    else s)

end Sys2Proof.Machine
end

