-- ==== Sys2Proof/Machine/Detach.lean ====
section
/-!
DEFINITION. DETACH and the stages of a teardown (section 8.3).
-/

namespace Sys2Proof.Machine

/-! ### Withdrawal (R188) -/

/-- The transaction is one of a client's rings or its final write-back, on the client's memory. -/
def TxnOp.isWriteOf (c : ClientId) : TxnOp → Bool
  | .record d _ _ => d == c
  | .writeBack d _ => d == c
  | .finalWriteBack d => d == c
  | .signal d _ => d == c
  | _ => false

/-- The transaction belongs to the write in flight of a ring. -/
def TxnOp.ofRing (c : ClientId) (n : OutRingName) : TxnOp → Bool
  | .record d m _ => d == c && m == n
  | .writeBack d m => d == c && m == n
  | .signal d m => d == c && m == n
  | _ => false

/-- The write of a ring ends if its transaction waits in the record writer's queue. -/
def State.endWaiting (s : State) (c : ClientId) (n : OutRingName) : State :=
  if s.unit.writer.any (fun t => t.op.ofRing c n) then s.endRing c n else s

/-- The record writer's transactions on a client's memory that wait for their grant are withdrawn. -/
def State.withdrawWrites (s : State) (c : ClientId) : State :=
  let ended := (s.endWaiting c .ret).endWaiting c .del
  ended.setUnit { s.unit with writer := s.unit.writer.filter (fun t => !(t.op.isWriteOf c)) }

/-- A fetcher transaction is on a client's memory. -/
def TxnOp.isReadOf (c : ClientId) : TxnOp → Bool
  | .clientHalf d => d == c
  | .postRead d _ => d == c
  | _ => false

/-- The bus carries a transaction that no RESTART and no reset has made stale, with this purpose. -/
def State.carries (s : State) (p : TxnOp → Bool) : Bool :=
  match s.arb.bus with
  | some b => !b.stale && p b.txn.op
  | none => false

/-- The fetcher waits for the grant of a read of a client's memory. -/
def State.fetchWaits (s : State) (c : ClientId) : Bool :=
  match s.intake.fetch with
  | some t => t.op.isReadOf c && !(s.carries (TxnOp.isReadOf c))
  | none => false

/-- A waiting read of a client's memory is withdrawn: the fetcher has no transaction in flight. -/
def State.withdrawRead (s : State) (c : ClientId) : State :=
  if s.fetchWaits c then s.setIntake { s.intake with fetch := none } else s

/-! ### The state stage (R161) -/

/-- The record write of a slot's completion waits for its grant. -/
def State.recordWaits (s : State) (c : ClientId) (j : SlotId) : Bool :=
  s.unit.writer.any (fun t => t.op == .record c .ret (.completion j))

/-- A slot's data piece waits for its grant. -/
def State.pieceWaits (s : State) (j : SlotId) : Bool :=
  match (s.slot j).progress with
  | .moving _ => !(s.carries (fun o => o == .gather j || o == .scatter j))
  | _ => false

/-- The client is marked DRAINING and leaves the Intake's sets; no final write-back is issued for it any more. -/
def State.startDraining (s : State) (c : ClientId) : State :=
  (s.setClient c { s.client c with state := .draining, finalDue := false }).leaveSets c

/-- The abort-requested flag of a slot is set. -/
def State.requestAbort (s : State) (j : SlotId) : State := s.setSlot j { s.slot j with abortRequested := true }

/-- What the state stage does to the slot its client occupies, given the state before the withdrawals: a held completion
is discarded; a withdrawn post read or record write frees the slot, and a withdrawn data piece is an abort point (R188);
any other slot has its abort-requested flag set. -/
def State.drainSlot (s before : State) (c : ClientId) (j : SlotId) : State :=
  match (before.slot j).state with
  | .held => s.freeSlot j false
  | .bound => if before.fetchWaits c then s.freeSlot j false else s.requestAbort j
  | .writing => if before.recordWaits c j then s.freeSlot j false else s.requestAbort j
  | .performing => if before.pieceWaits j then s.abortSlot j else s.requestAbort j
  | .free => s

/-- The state stage (R161), and the end of the abort stage when the client occupies no slot (R162). -/
def State.stateStage (s : State) (c : ClientId) : State :=
  let drained := ((s.startDraining c).withdrawWrites c).withdrawRead c
  match s.slotOf c with
  | some j => (drained.drainSlot s c j).readChoice
  | none => (drained.reportFreed c false).readChoice

/-- A teardown at its start. -/
def Teardown.start (c : ClientId) : Teardown :=
  { subject := c, stage := .abort, aborted := false, entries := 0, purgeFreed := 0, walkDropped := 0, walkFreed := 0 }

/-- DETACH's subject check and state stage (R160, R161). -/
def State.detachStep (s : State) (i : SlotId) (r : PostRecord) : State :=
  match clientOf r.subject with
  | none => s.endWith i r .badState 0
  | some c =>
    if c = 0 then s.endWith i r .notPermitted 0
    else if (s.client c).state = .attached ∨ (s.client c).state = .faulted then
      (s.setProgress i (.teardown (Teardown.start c))).stateStage c
    else s.endWith i r .badState 0

/-- DETACH (R160). -/
def execDetach (i : SlotId) (s : State) : Result :=
  match s.takenCommand i 17 with
  | none => noStep s
  | some (_, r) => .next (s.detachStep i r)

/-! ### The later stages -/

/-- The teardown a slot performs. -/
def State.teardownOf (s : State) (i : SlotId) : Option (PostRecord × Teardown) :=
  match s.performing i, (s.slot i).progress with
  | some (_, r), .teardown t => some (r, t)
  | _, _ => none

/-- DIRECTORY_PURGE (R50, R163). -/
def execDirectoryPurge (i : SlotId) (s : State) : Result :=
  match s.teardownOf i with
  | none => noStep s
  | some (_, t) =>
    if t.stage = .directory then
      .next ((s.setDir (s.dir.purge t.subject)).setProgress i (.teardown { t with stage := .pending }))
    else noStep s

/-- PENDING_PURGE (R135, R163). -/
def execPendingPurge (i : SlotId) (s : State) : Result :=
  match s.teardownOf i with
  | none => noStep s
  | some (_, t) =>
    if t.stage = .pending then
      .next (((s.setStore (s.store.dropEntries t.subject (s.list t.subject)).1).setList t.subject []).setProgress i
        (.teardown { t with stage := .walk 0, entries := (s.list t.subject).length,
                            purgeFreed := (s.store.dropEntries t.subject (s.list t.subject)).2 }))
    else noStep s

/-- The stage after a visit of a record (R27): the next record, or after record 1023 the completion stage. -/
def nextVisit (k : Nat) : TeardownStage := if k + 1 < Config.parcels then .walk (k + 1) else .complete

/-- REFERENCE_WALK_VISIT (R27, R164). -/
def execReferenceWalkVisit (i : SlotId) (s : State) : Result :=
  match s.teardownOf i with
  | none => noStep s
  | some (_, t) =>
    match t.stage with
    | .walk k =>
      let v := s.store.visit t.subject k
      .next ((s.setStore v.1).setProgress i
        (.teardown { t with stage := nextVisit k, walkDropped := t.walkDropped + v.2.1, walkFreed := t.walkFreed + flagBit v.2.2 }))
    | _ => noStep s

/-- A transaction on a client's memory issued before its state stage is still in flight (R165). -/
def State.oldInFlight (s : State) (c : ClientId) : Bool :=
  s.carries (fun o => o.isWriteOf c || o == .clientHalf c)

/-- The completion of a DETACH that tore its client down (R165). -/
def Teardown.completion (t : Teardown) (r : PostRecord) : Completion :=
  { r.completion .ok 0 with
    aborted := t.aborted, refsDropped := t.entries + t.walkDropped, parcelsFreed := t.purgeFreed + t.walkFreed,
    pendingDropped := t.entries }

/-- TEARDOWN_COMPLETION (R165). R165 puts it in the event that ends the walk or the last older transaction; since the table has a
row for it, it is a step of its own here, and other steps may fall between (log entry 30). -/
def execTeardownCompletion (i : SlotId) (s : State) : Result :=
  match s.teardownOf i with
  | none => noStep s
  | some (r, t) =>
    if t.stage = .complete ∧ s.oldInFlight t.subject = false then
      .next ((s.setClient t.subject Client.initial).formCompletion i (t.completion r))
    else noStep s

end Sys2Proof.Machine
end

