-- ==== Sys2Proof/Machine/IntakeSteps.lean ====
section
/-!
DEFINITION. The steps of the Intake: the completion of a post read, with common validation, and of a client-half read.
-/

namespace Sys2Proof.Machine

/-- A command is taken into its slot (R78), and its common validation is made in the same event (R81). -/
def State.takeCommand (s : State) (c : ClientId) (i : SlotId) (r : PostRecord) : State :=
  let x := s.client c
  let taken := (s.setClient c { x with post := { x.post with taken := x.post.taken + 1 } }).setSlot i
    { Slot.initial with state := .performing, client := some c, command := some r, progress := .taken }
  match r.validate c with
  | some st => taken.formCompletion i (r.completion st 0)
  | none => taken

/-- The outcome of a post read for an ATTACHED client, and for one that has left ATTACHED (R78). -/
def State.endPostRead (s : State) (c : ClientId) (i : SlotId) (r : ReadOutcome) : State :=
  if (s.client c).state = .attached then
    match r with
    | .data bs => s.takeCommand c i (readPost bs)
    | .busError => (s.clientFault c .postRead).freeSlot i false
  else s.freeSlot i false

/-- POST_READ_COMPLETE (R78, R90). -/
def execPostReadComplete (r : ReadOutcome) (s : State) : Result :=
  match s.onBus TxnOp.postReadOf with
  | .none => noStep s
  | .discarded => .next s.clearBus
  | .live (c, i) _ =>
    if r.hasLength 64 then .next ((s.endFetch.endPostRead c i r).readChoice) else .refused .wrongLength

/-- The five values of a client half replace the last-read values (R65). -/
def Client.record (x : Client) (h : ClientHalf) : Client :=
  { x with post := { x.post with lastPost := h.postTally },
           ret := { x.ret with lastTaken := h.retTaken, lastWake := h.retWake },
           del := { x.del with lastTaken := h.delTaken, lastWake := h.delWake } }

/-- The tally check of a client against its own tallies and rings (R65). -/
def Client.tallyOk (x : Client) (h : ClientHalf) : Bool :=
  tallyCheck h x.post.taken x.ret.claimed x.del.claimed x.post.size x.ret.size x.del.size

/-- The outcome of a client-half read (R65, R66). -/
def State.endHalfRead (s : State) (c : ClientId) (r : ReadOutcome) : State :=
  if (s.client c).state = .attached then
    match r with
    | .data bs =>
      if (s.client c).tallyOk (readHalf bs) then s.setClient c ((s.client c).record (readHalf bs)) else s.clientFault c .tally
    | .busError => s.clientFault c .cxbRead
  else s

/-- CLIENT_HALF_READ_COMPLETE (R65, R66). -/
def execClientHalfReadComplete (r : ReadOutcome) (s : State) : Result :=
  match s.onBus TxnOp.clientHalfOf with
  | .none => noStep s
  | .discarded => .next s.clearBus
  | .live c _ => if r.hasLength 32 then .next ((s.endFetch.endHalfRead c r).readChoice) else .refused .wrongLength

end Sys2Proof.Machine
end

