-- ==== Sys2Proof/Machine/Movement.lean ====
section
/-!
DEFINITION. Data movement between client memory and parcels (chapter 7): the completions of gather and scatter pieces.
-/

namespace Sys2Proof.Machine

/-- The last piece of a gather has completed: the growth commit (R18), which closes the parcel of a SEND (R107). An
APPEND ends (R95); a SEND goes on to its lookup, unless it stops at the abort point before it (R150). -/
def State.gathered (s : State) (i : SlotId) (r : PostRecord) (m : Movement) (g : GrowthClaim) : State :=
  let done := (s.commitGrowth g.index g.isSend).setSlot i { s.slot i with undo := none }
  if g.isSend then
    if (s.slot i).abortRequested then done.abortSlot i else done.setProgress i (.toLookup m.handle m.total)
  else done.endParcel i r m.handle (m.length + m.total)

/-- A gather ends in a bus error: the growth undo, then the completion that names the fragment (R147). -/
def State.gatherFailed (s : State) (i : SlotId) (r : PostRecord) (p : Piece) : State :=
  (s.sendUndo i).endWith i r .busError p.fragment

/-- A gather piece's bytes are written into parcel memory (R94, R145), and the next piece is asked for or the gather
ends. -/
def State.gatherData (s : State) (i : SlotId) (r : PostRecord) (m : Movement) (g : GrowthClaim) (p : Piece)
    (rest : List Piece) (bs : List Byte) : Result :=
  match writeRun (s.store.parcel (handleIndex m.handle)) s.store.memory (m.base + p.run) bs with
  | none => .fault .outsideChain
  | some mem =>
    let written := s.setStore { s.store with memory := mem }
    if rest.isEmpty then .next (written.gathered i r m g)
    else .next (written.setProgress i (.moving { m with pieces := rest }))

/-- GATHER_PIECE_COMPLETE (R145, R147, R149, R150). -/
def execGatherPieceComplete (r : ReadOutcome) (s : State) : Result :=
  match s.onBus TxnOp.gatherOf with
  | .none => noStep s
  | .discarded => .next s.clearBus
  | .live i _ =>
    match s.performing i, (s.slot i).progress, (s.slot i).undo with
    | some (_, rec), .moving m, some g =>
      match m.pieces with
      | p :: rest =>
        if (s.slot i).abortRequested && !rest.isEmpty then .next (s.clearBus.abortSlot i)
        else
          match r with
          | .busError => .next (s.clearBus.gatherFailed i rec p)
          | .data bs =>
            if bs.length = p.len then s.clearBus.gatherData i rec m g p rest bs else .refused .wrongLength
      | [] => .next s.clearBus
    | _, _, _ => .next s.clearBus

/-- The last piece of a scatter has completed (R132, R150). -/
def State.scatterDone (s : State) (i : SlotId) (r : PostRecord) (m : Movement) : State :=
  if r.releaseAfter && (s.slot i).abortRequested then s.abortSlot i else s.scattered i r m.handle m.length m.total

/-- SCATTER_PIECE_COMPLETE (R146, R148 to R150). -/
def execScatterPieceComplete (w : WriteOutcome) (s : State) : Result :=
  match s.onBus TxnOp.scatterOf with
  | .none => noStep s
  | .discarded => .next s.clearBus
  | .live i _ =>
    match s.performing i, (s.slot i).progress with
    | some (_, rec), .moving m =>
      match m.pieces with
      | p :: rest =>
        if (s.slot i).abortRequested && !rest.isEmpty then .next (s.clearBus.abortSlot i)
        else
          match w with
          | .busError => .next (s.clearBus.endWith i rec .busError p.fragment)
          | .done =>
            if rest.isEmpty then .next (s.clearBus.scatterDone i rec m)
            else .next (s.clearBus.setProgress i (.moving { m with pieces := rest }))
      | [] => .next s.clearBus
    | _, _ => .next s.clearBus

end Sys2Proof.Machine
end

