-- ==== Sys2Proof/Machine/Query.lean ====
section
/-!
DEFINITION. QUERY (section 8.4): its checks, the reads that form its report, and the writing of the report.
-/

namespace Sys2Proof.Machine

/-- The first read of a CLIENT report, at the Client Table (R169). -/
def Client.report (x : Client) : ContextReport :=
  { state := x.state, reason := x.reason, refLimit := x.refLimit, segLimit := x.segLimit, sent := x.sent,
    placed := x.placed, refused := x.refused, expired := x.expired }

/-- The stage a QUERY that has passed its checks goes to (R168 to R170). -/
def State.queryStage (s : State) (r : PostRecord) : QueryStage :=
  if r.auxA.toNat = 0 then .pool
  else if r.auxA.toNat = 1 then
    match clientOf r.subject with
    | some c => .clientStore c (s.client c).report
    | none => .pool
  else .directory

/-- QUERY (R167): the subject code, the subject client, the aperture check; then the report's first read, if it is the
Client Table's. -/
def execQuery (i : SlotId) (s : State) : Result :=
  match s.takenCommand i 20 with
  | none => noStep s
  | some (c, r) =>
    if 3 < r.auxA.toNat then .next (s.endWith i r .badRange 0)
    else if r.auxA.toNat = 1 ∧ 7 < r.subject.toNat then .next (s.endWith i r .badRange 0)
    else
      match checkRegion (s.client c).apertures .write r Config.reportBytes with
      | none => .next (s.endWith i r .aperture 0)
      | some a => .next (s.setProgress i (.query a (s.queryStage r)))

/-- The report is formed and its write begins (R153). -/
def State.startReport (s : State) (i : SlotId) (a : Addr) (bytes : List Byte) : State :=
  s.setProgress i (.reporting (cutPieces 0 a Config.reportBytes 0) bytes)

/-- COUNT_READ (R168, R169): the store's read of a POOL report; the store's read of a CLIENT report; and, taken once
more for a CLIENT report, its read at the Delivery Unit, which has no row of its own (log entry 8). -/
def execCountRead (i : SlotId) (s : State) : Result :=
  match s.performing i, (s.slot i).progress with
  | some _, .query a .pool =>
    .next (s.startReport i a (poolReport (s.store.freeCount .short) (s.store.freeCount .long) s.store.liveCount
      s.store.reserves s.store.arms))
  | some _, .query a (.clientStore c ctx) => .next (s.setProgress i (.query a (.clientUnit c ctx (s.store.account c))))
  | some _, .query a (.clientUnit c ctx acc) => .next (s.startReport i a (clientReport c ctx acc (s.list c).length))
  | _, _ => noStep s

/-- REPORT_READ (R52, R170). -/
def execReportRead (i : SlotId) (s : State) : Result :=
  match s.performing i, (s.slot i).progress with
  | some (_, r), .query a .directory =>
    .next (s.startReport i a (if r.auxA.toNat = 2 then s.dir.reportKey r.key else s.dir.reportAll))
  | _, _ => noStep s

/-- The clear of a CLIENT report is due (R167, R169). -/
def PostRecord.clearDue (r : PostRecord) : Bool := r.auxA.toNat == 1 && r.clear

/-- The four counters of the subject client are set to 0 (R169). -/
def State.clearCounters (s : State) (r : PostRecord) : State :=
  match clientOf r.subject with
  | some c => s.setClient c { s.client c with sent := 0, placed := 0, refused := 0, expired := 0 }
  | none => s

/-- The last piece of a report has been written (R171). -/
def State.reported (s : State) (i : SlotId) (r : PostRecord) : State :=
  (if r.clearDue then s.clearCounters r else s).formCompletion i
    { r.completion .ok 0 with subject := BitVec.ofNat 8 r.auxA.toNat, cleared := r.clearDue }

/-- REPORT_WRITE_PIECE_COMPLETE (R171, R153). -/
def execReportWritePieceComplete (w : WriteOutcome) (s : State) : Result :=
  match s.onBus TxnOp.reportOf with
  | .none => noStep s
  | .discarded => .next s.clearBus
  | .live i _ =>
    match s.performing i, (s.slot i).progress with
    | some (_, r), .reporting (_ :: rest) bytes =>
      match w with
      | .busError => .next (s.clearBus.endWith i r .busError 0)
      | .done =>
        if rest.isEmpty then .next (s.clearBus.reported i r) else .next (s.clearBus.setProgress i (.reporting rest bytes))
    | _, _ => .next s.clearBus

end Sys2Proof.Machine
end

