-- ==== Sys2Proof/Machine/Routing.lean ====
section
/-!
DEFINITION. The routing stage of SEND, DISPATCH and FORWARD (section 5.5): lookup, admissions, settlement, hand-over.
-/

namespace Sys2Proof.Machine

/-- The status a routing command is fixed to (R99). -/
def Routing.status (r : Routing) : Status :=
  if r.routeSet = 0 then .noRoute else if r.routed = 0 then .refused else .ok

/-- The stage a routing command is in, members left to be offered or not. -/
def Routing.stage (r : Routing) : Progress := if r.toOffer.isEmpty then .settling r else .offering r

/-- What the lookup of a routing command leaves in its slot (R97, R33, R34). The length of a FORWARD is the length as it
stands at the lookup (R111). -/
def State.lookupStep (s : State) (i : SlotId) (c : ClientId) (r : PostRecord) (h : Handle) (length : Nat) : State :=
  let route := s.dir.route r.key c r.self
  let found : Routing :=
    { handle := h, length := if r.kind.toNat = 6 then (s.store.parcel (handleIndex h)).length else length,
      routeSet := route, toOffer := members route, routed := 0, refused := 0, candidate := s.dir.candidate r.key route,
      settled := false, handedOver := false }
  s.setProgress i found.stage

/-- LOOKUP (R33, R34, R97); the abort point before it is the last of a routing command (R113, R103). -/
def execLookup (i : SlotId) (s : State) : Result :=
  match s.performing i with
  | none => noStep s
  | some (c, r) =>
    match (s.slot i).progress with
    | .toLookup h length =>
      if (s.slot i).abortRequested then .next (s.abortSlot i) else .next (s.lookupStep i c r h length)
    | _ => noStep s

/-- The checks of an admission (R115). -/
def State.admits (s : State) (h : Handle) (t : ClientId) : Bool :=
  (s.client t).state == .attached && decide ((s.store.parcel (handleIndex h)).holder t < Config.maxHolder)
    && decide ((s.store.account t).held < (s.client t).refLimit) && decide ((s.list t).length < Config.pendingList)

/-- The pending entry an accepted offer appends (R116). -/
def State.offerEntry (s : State) (c : ClientId) (r : PostRecord) (h : Handle) : PendingEntry :=
  { handle := h, key := r.key, sender := c, cls := r.deliveryClass, reply := r.replyKey, tick := s.port.tickCount }

/-- One offer decided at its target's pending list (R115 to R117). -/
def State.offerStep (s : State) (i : SlotId) (c : ClientId) (r : PostRecord) (q : Routing) (t : ClientId)
    (rest : List ClientId) : State :=
  if s.admits q.handle t then
    ((s.setStore (s.store.createRef (handleIndex q.handle) t)).setList t (s.list t ++ [s.offerEntry c r q.handle])).setProgress i
      { q with toOffer := rest, routed := withClient q.routed t }.stage
  else
    (if (s.client t).state = .absent then s
      else s.setClient t { s.client t with refused := (s.client t).refused + 1 }).setProgress i
      { q with toOffer := rest, refused := withClient q.refused t }.stage

/-- ADMISSION (R115): the offer to the next member of the route set in ascending client number (R97). -/
def execAdmission (i : SlotId) (s : State) : Result :=
  match s.performing i with
  | none => noStep s
  | some (c, r) =>
    match (s.slot i).progress with
    | .offering q =>
      match q.toOffer with
      | t :: rest => .next (s.offerStep i c r q t rest)
      | [] => noStep s
    | _ => noStep s

/-- A FORWARD that queued nothing hands nothing over (R100). -/
def Routing.handsNothing (q : Routing) (r : PostRecord) : Bool := r.kind.toNat == 6 && q.status != .ok

/-- A routing command with the answers of its last requests: it ends when it has them all, the settlement's alone for a
FORWARD that hands nothing over, and with status OK the sender's sent counter advances (R100, R114). -/
def State.routingAnswered (s : State) (i : SlotId) (c : ClientId) (r : PostRecord) (q : Routing) : State :=
  if q.settled && (q.handedOver || q.handsNothing r) then
    (if q.status = .ok then s.setClient c { s.client c with sent := (s.client c).sent + 1 } else s).formCompletion i
      { r.completion q.status 0 with handle := q.handle, length := q.length, routed := q.routed, refused := q.refused }
  else s.setProgress i (.settling q)

/-- The one-shot candidate whose admission was accepted (R35). -/
def Routing.accepted (q : Routing) : Option ClientId :=
  match q.candidate with
  | some c => if has q.routed c then some c else none
  | none => none

/-- SETTLEMENT (R35 to R37). -/
def execSettlement (i : SlotId) (s : State) : Result :=
  match s.performing i with
  | none => noStep s
  | some (c, r) =>
    match (s.slot i).progress with
    | .settling q =>
      if q.settled then noStep s
      else
        .next ((s.setDir (s.dir.settle r.key q.accepted c r.replyKey r.replyOnce (s.client c).learning)).routingAnswered i c r
          { q with settled := true })
    | _ => noStep s

/-- The hand-over at the store (R100). -/
def State.handOverStep (s : State) (c : ClientId) (r : PostRecord) (q : Routing) : State :=
  if r.kind.toNat = 4 ∧ q.status ≠ .ok then s.setStore (s.store.setParcelState (handleIndex q.handle) .building)
  else s.setStore (s.store.drop (handleIndex q.handle) c 1).1

/-- HAND_OVER (R100); for a FORWARD that queued nothing, nothing happens. -/
def execHandOver (i : SlotId) (s : State) : Result :=
  match s.performing i with
  | none => noStep s
  | some (c, r) =>
    match (s.slot i).progress with
    | .settling q =>
      if q.handsNothing r then .next s
      else if q.handedOver then noStep s
      else .next ((s.handOverStep c r q).routingAnswered i c r { q with handedOver := true })
    | _ => noStep s

end Sys2Proof.Machine
end

