-- ==== Sys2Proof/Machine/Writing.lean ====
section
/-!
DEFINITION. The Delivery Unit's return-ring claims and the completions of its record writes, write-backs and signals
(sections 3.5 and 3.6, 4.6 and 4.7, 8.5).
-/

namespace Sys2Proof.Machine

/-! ### The return claim (R69, R84, R85, R173) -/

/-- A client's held completion, with its slot. -/
def State.heldCompletion (s : State) (c : ClientId) : Option (SlotId × Completion) :=
  match s.slotOf c with
  | some i =>
    match (s.slot i).state, (s.slot i).completion with
    | .held, some x => some (i, x)
    | _, _ => none
  | none => none

/-- The claim of a held completion: its slot becomes WRITING (R84). -/
def State.claimCompletion (s : State) (c : ClientId) (i : SlotId) (x : Completion) : State :=
  (s.setSlot i { s.slot i with state := .writing }).claimRing c .ret (.completion i) x.bytes

/-- The claim of the oldest notice (R173): it leaves the list, carrying the lost count, which becomes 0. -/
def State.claimNotice (s : State) (q : QueuedNotice) (rest : List QueuedNotice) : State :=
  (s.setUnit { s.unit with notices := rest, lost := 0, noticesAhead := s.unit.noticesAhead - 1 }).claimRing 0 .ret .notice
    (fun lap => q.bytes lap s.unit.lost)

/-- The claim for client 0's return ring: the oldest ready record among its held completion and the notices (R85). -/
def State.claimSupervisor (s : State) : Option State :=
  match s.heldCompletion 0, s.unit.notices with
  | some (i, x), [] => some (s.claimCompletion 0 i x)
  | some (i, x), q :: rest =>
    if s.unit.noticesAhead = 0 then some (s.claimCompletion 0 i x) else some (s.claimNotice q rest)
  | none, q :: rest => some (s.claimNotice q rest)
  | none, [] => none

/-- The claim for the return ring of a client 1 to 7 (R84). -/
def State.claimClient (s : State) (c : ClientId) : Option State :=
  match s.heldCompletion c with
  | some (i, x) => some (s.claimCompletion c i x)
  | none => none

/-- RETURN_CLAIM (R69, R84, R85, R173); the Intake chooses again, since the claim may have filled the ring (R76). -/
def execReturnClaim (c : ClientId) (s : State) : Result :=
  if s.canClaim c .ret then
    match (if c = 0 then s.claimSupervisor else s.claimClient c) with
    | some t => .next t.readChoice
    | none => noStep s
  else noStep s

/-! ### Record writes (R70, R71, R86, R123, R124) -/

/-- The slot of a completion whose record write has ended becomes FREE. -/
def State.releaseRecord (s : State) (what : RecordKind) : State :=
  match what with
  | .completion i => s.freeSlot i false
  | _ => s

/-- The written tally of a ring advances, and for a delivery the placed counter (R70). -/
def State.countWritten (s : State) (c : ClientId) (n : OutRingName) (what : RecordKind) : State :=
  let x := s.client c
  let y := x.setRing n { x.ring n with written := (x.ring n).written + 1 }
  s.setClient c (if what = .delivery then { y with placed := y.placed + 1 } else y)

/-- A record write ends in a bus error for an ATTACHED client (R71, R86, R124, R173). -/
def State.recordFailed (s : State) (c : ClientId) (n : OutRingName) (what : RecordKind) : State :=
  let ended := s.endRing c n
  match what with
  | .notice => ended.failDevice .noticeWrite none
  | .delivery => ended.clientFault c .recordWrite
  | .completion i => if c = 0 then ended.clientFault c .recordWrite else (ended.clientFault c .recordWrite).freeSlot i false

/-- A record write completes (R70), by the state of its client. -/
def State.endRecord (s : State) (c : ClientId) (n : OutRingName) (what : RecordKind) (w : WriteOutcome) : State :=
  match (s.client c).state, w with
  | .attached, .done =>
    let counted := s.countWritten c n what
    (counted.enqueue (writeBackTxn counted c n)).releaseRecord what
  | .attached, .busError => s.recordFailed c n what
  | .faulted, .done => (((s.countWritten c n what).endRing c n).requestFinal c).releaseRecord what
  | .faulted, .busError => ((s.endRing c n).requestFinal c).releaseRecord what
  | _, _ => (s.endRing c n).releaseRecord what

/-- RECORD_WRITE_COMPLETE (R70). -/
def execRecordWriteComplete (w : WriteOutcome) (s : State) : Result :=
  match s.onBus TxnOp.recordOf with
  | .none => noStep s
  | .discarded => .next s.clearBus
  | .live (c, n, what) _ => .next (s.clearBus.endRecord c n what w)

/-! ### Write-backs and signals (R71 to R73) -/

/-- The signal test of a ring after its write-back (R72), and the signal it raises (R73): with a signal address of 0 no
transaction is issued and the ring's write ends at once. -/
def State.signalTest (s : State) (c : ClientId) (n : OutRingName) : State :=
  let x := s.client c
  if (x.ring n).signalDue then
    let marked := s.setClient c (x.setRing n { x.ring n with signalled := (x.ring n).lastWake })
    if x.signalAddr = 0 then marked.endRing c n else marked.enqueue (signalTxn s c n)
  else s.endRing c n

/-- A write-back that follows a record of a ring completes (R70 to R72). -/
def State.endWriteBack (s : State) (c : ClientId) (n : OutRingName) (w : WriteOutcome) : State :=
  match (s.client c).state, w with
  | .attached, .done => s.signalTest c n
  | .attached, .busError => (s.endRing c n).clientFault c .recordWrite
  | _, _ => (s.endRing c n).requestFinal c

/-- What a WRITE_BACK_COMPLETE reports: the ring of a write-back, or none for a final write-back. -/
def TxnOp.writeBackOf : TxnOp → Option (ClientId × Option OutRingName)
  | .writeBack c n => some (c, some n)
  | .finalWriteBack c => some (c, none)
  | _ => none

/-- WRITE_BACK_COMPLETE (R72); a bus error on a final write-back is ignored (R68). -/
def execWriteBackComplete (w : WriteOutcome) (s : State) : Result :=
  match s.onBus TxnOp.writeBackOf with
  | .none => noStep s
  | .discarded => .next s.clearBus
  | .live (c, some n) _ => .next (s.clearBus.endWriteBack c n w)
  | .live (_, none) _ => .next s.clearBus

/-- A signal write completes (R73). -/
def State.endSignal (s : State) (c : ClientId) (n : OutRingName) (w : WriteOutcome) : State :=
  match (s.client c).state, w with
  | .attached, .done => s.endRing c n
  | .attached, .busError => (s.endRing c n).clientFault c .signalWrite
  | _, _ => (s.endRing c n).requestFinal c

/-- SIGNAL_WRITE_COMPLETE (R73). -/
def execSignalWriteComplete (w : WriteOutcome) (s : State) : Result :=
  match s.onBus TxnOp.signalOf with
  | .none => noStep s
  | .discarded => .next s.clearBus
  | .live (c, n) _ => .next (s.clearBus.endSignal c n w)

end Sys2Proof.Machine
end

