-- ==== Sys2Proof/Machine/Dispatch.lean ====
section
/-!
DEFINITION. The meaning of each command, one arm per constructor of `Instr`, in the order of the opcode table.
-/

namespace Sys2Proof.Machine

def exec (i : Instr) (s : State) : Host.Outcome State Fault Refusal :=
  match i with
  | .postReadComplete r => Sys2Proof.Machine.execPostReadComplete r s
  | .openParcel k => Sys2Proof.Machine.execOpen k s
  | .append k => Sys2Proof.Machine.execAppend k s
  | .cut k => Sys2Proof.Machine.execCut k s
  | .dispatch k => Sys2Proof.Machine.execDispatch k s
  | .send k => Sys2Proof.Machine.execSend k s
  | .forward k => Sys2Proof.Machine.execForward k s
  | .fetch k => Sys2Proof.Machine.execFetch k s
  | .release k => Sys2Proof.Machine.execRelease k s
  | .subscribe k => Sys2Proof.Machine.execSubscribe k s
  | .unsubscribe k => Sys2Proof.Machine.execUnsubscribe k s
  | .pin k => Sys2Proof.Machine.execPin k s
  | .unpin k => Sys2Proof.Machine.execUnpin k s
  | .attach k => Sys2Proof.Machine.execAttach k s
  | .detach k => Sys2Proof.Machine.execDetach k s
  | .query k => Sys2Proof.Machine.execQuery k s
  | .gatherPieceComplete r => Sys2Proof.Machine.execGatherPieceComplete r s
  | .scatterPieceComplete w => Sys2Proof.Machine.execScatterPieceComplete w s
  | .lookup k => Sys2Proof.Machine.execLookup k s
  | .admission k => Sys2Proof.Machine.execAdmission k s
  | .settlement k => Sys2Proof.Machine.execSettlement k s
  | .handOver k => Sys2Proof.Machine.execHandOver k s
  | .releaseAfterDrop k => Sys2Proof.Machine.execReleaseAfterDrop k s
  | .clientHalfReadComplete r => Sys2Proof.Machine.execClientHalfReadComplete r s
  | .deliveryClaim c => Sys2Proof.Machine.execDeliveryClaim c s
  | .returnClaim c => Sys2Proof.Machine.execReturnClaim c s
  | .recordWriteComplete w => Sys2Proof.Machine.execRecordWriteComplete w s
  | .writeBackComplete w => Sys2Proof.Machine.execWriteBackComplete w s
  | .signalWriteComplete w => Sys2Proof.Machine.execSignalWriteComplete w s
  | .grant => Sys2Proof.Machine.execGrant s
  | .tick => Sys2Proof.Machine.execTick s
  | .sweep => Sys2Proof.Machine.execSweep s
  | .lingerExpiry c => Sys2Proof.Machine.execLingerExpiry c s
  | .directoryPurge k => Sys2Proof.Machine.execDirectoryPurge k s
  | .pendingPurge k => Sys2Proof.Machine.execPendingPurge k s
  | .referenceWalkVisit k => Sys2Proof.Machine.execReferenceWalkVisit k s
  | .teardownCompletion k => Sys2Proof.Machine.execTeardownCompletion k s
  | .attachDescriptorPieceComplete r => Sys2Proof.Machine.execAttachDescriptorPieceComplete r s
  | .attachCxbReadComplete r => Sys2Proof.Machine.execAttachCxbReadComplete r s
  | .attachWriteBackComplete w => Sys2Proof.Machine.execAttachWriteBackComplete w s
  | .countRead k => Sys2Proof.Machine.execCountRead k s
  | .reportRead k => Sys2Proof.Machine.execReportRead k s
  | .reportWritePieceComplete w => Sys2Proof.Machine.execReportWritePieceComplete w s
  | .go => Sys2Proof.Machine.execGo s
  | .halt => Sys2Proof.Machine.execHalt s
  | .restart => Sys2Proof.Machine.execRestart s
  | .attend value => Sys2Proof.Machine.execAttend value s
  | .setupAddressWrite high value => Sys2Proof.Machine.execSetupAddressWrite high value s
  | .registerWrite a => Sys2Proof.Machine.execRegisterWrite a s
  | .setupReadComplete r => Sys2Proof.Machine.execSetupReadComplete r s
  | .setupDescriptorPieceComplete r => Sys2Proof.Machine.execSetupDescriptorPieceComplete r s
  | .setupCxbReadComplete r => Sys2Proof.Machine.execSetupCxbReadComplete r s
  | .setupWriteBackComplete w => Sys2Proof.Machine.execSetupWriteBackComplete w s
  | .resetPinAssert => Sys2Proof.Machine.execResetPinAssert s
  | .resetPinRelease => Sys2Proof.Machine.execResetPinRelease s

end Sys2Proof.Machine
end

