-- ==== Sys2Proof/Machine/Step.lean ====
section
/-!
DEFINITION. One step of the part: the command at the front of the queue, or with none waiting one REFCLK period.
-/

namespace Sys2Proof.Machine

/-- One step. The command at the front of the queue acts on the state whose queue is the rest. With no command waiting, one
REFCLK period passes (R190; log entry 5). -/
def step (s : State) : Host.Outcome State Fault Refusal :=
  match s.pending with
  | [] => .next s.idlePeriod
  | c :: rest => exec c (s.setPending rest)

/-- The state with the command that a word of the opcode table spells put at the front of the queue; unchanged where the
word spells none, as no word does (log entry 4). -/
def State.withFetchWord (s : State) (nbits w : Nat) : State :=
  match decodeTableWord nbits w with
  | some c => s.setPending (c :: s.pending)
  | none => s

end Sys2Proof.Machine
end

