-- ==== Sys2Proof/Safety.lean ====
section
/-!
DEFINITION. What a sound state of the part is, rule by rule: the invariants that the chapters state of the whole machine. Each
is decidable, is kept by every step from every state that has it, and holds after reset. Then the words that claims about
single commands are made of: when a command is performed, how it ends, what it leaves alone.
-/

namespace Sys2Proof.Machine

/-! ### The tables (R2, R30 to R32, and the model's canonical forms) -/

/-- An exact entry as R30 shapes it: a JOINED entry has a member, a RETURN entry a life of at least 1. -/
def ExactEntry.shaped (e : ExactEntry) : Bool :=
  match e.kind with
  | .pinned _ => true
  | .joined x => x != 0
  | .ret _ life _ => decide (1 ≤ life)

/-- The exact table: ways in rising order, each entry in its key's bucket, no key twice, each entry shaped (R29 to R31). -/
def Directory.exactSound (d : Directory) : Bool :=
  keysRise d.exact && d.exact.all (fun x => x.1 / Config.ways == bucket x.2.key && x.2.shaped)
    && decide (d.exact.map (fun x => x.2.key)).Nodup

/-- The pattern list: at most sixteen, keys stored ANDed with their masks, no two identical, a JOINED one with a member
(R30, R32). -/
def Directory.patternsSound (d : Directory) : Bool :=
  decide (d.patterns.length ≤ Config.patterns)
    && d.patterns.all (fun p => p.key &&& p.mask == p.key && (p.kind == .pinned || p.set != 0))
    && decide (d.patterns.map (fun p => (p.mask, p.key))).Nodup

/-- The settings a setup load carries between its validation and its settings load are valid (R184). -/
def Load.settingsValid : Load → Bool
  | .descriptor g _ _ => g.valid
  | _ => true

/-- The directory is sound, and every life it gives is at least 1 (R39). -/
def State.directorySound (s : State) : Bool :=
  s.dir.exactSound && s.dir.patternsSound && decide (1 ≤ s.dir.agingLimit) && s.load.settingsValid

/-- The canonical forms of the model's two sparse tables of the store. -/
def State.storeCanonical (s : State) : Bool := Memory.wf s.store.memory && s.store.recordsWf

/-! ### Segments (R2) -/

/-- The chains of a class, one after the other. -/
def Store.chainsOf (t : Store) (k : SegClass) : List Nat :=
  t.records.flatMap (fun r => if r.2.cls = k then r.2.chain else [])

/-- Every segment of a class that has ever been taken is in the pool's returned list or in one chain, once; the pool's
other free segments are the numbers from `fresh` up. -/
def Store.classWhole (t : Store) (k : SegClass) : Bool :=
  ((t.pools.get k).returned ++ t.chainsOf k).isPerm (List.range (t.pools.get k).fresh)
    && decide ((t.pools.get k).fresh ≤ k.segments)

/-- R2: every segment of a class is in that class's pool or in the chain of one live parcel of that class. -/
def Store.segmentsWhole (t : Store) : Bool :=
  keysRise t.records && t.classWhole .short && t.classWhole .long
    && t.records.all (fun r => r.2.state != .free || r.2.chain.isEmpty)

/-! ### References (R7) -/

/-- A record's reference count is the sum of its eight holder counts, each of which is at most 15 (R7). -/
def Parcel.counted (p : Parcel) : Bool :=
  p.refCount == p.holders.toList.sum && p.holders.toList.all (fun n => decide (n ≤ Config.maxHolder))

/-- R7 for every record. -/
def Store.referencesCounted (t : Store) : Bool := t.records.all (fun r => r.2.counted)

/-! ### Capacities -/

/-- The lengths and counts the chapters bound: pending lists (R119), notices and lost count (R172), patterns (R32), the fetcher
wait count (R188) and the tick divider (R190). -/
def State.withinCapacity (s : State) : Bool :=
  s.unit.lists.toList.all (fun l => decide (l.length ≤ Config.pendingList))
    && decide (s.unit.notices.length ≤ Config.notices) && decide (s.unit.lost ≤ Config.maxLost)
    && decide (s.dir.patterns.length ≤ Config.patterns) && decide (s.arb.waitCount ≤ Config.fetcherPatience)
    && decide (s.port.tickDivider < Config.tickPeriods)

/-! ### The device (R74, R89, R176, R187, R190, R191) -/

/-- The fields of the port that go with the device state: the FAULT pin is high while FAILED with the reset pin released
(R191), the tick runs in RUNNING and HALTING (R190), a fault code stands in FAILED alone and a client-0 reason with
SUPERVISOR_FAULT alone (R176). -/
def Port.sound (p : Port) : Bool :=
  p.faultPin == (p.device == .failed && !p.resetAsserted)
    && p.tickRuns == (p.device == .running || p.device == .halting)
    && (p.faultCode != .none) == (p.device == .failed)
    && p.client0Reason.isSome == (p.faultCode == .supervisorFault)

/-- No slot tears client 0 down (R55, R160). -/
def Slot.sparesSupervisor (sl : Slot) : Bool :=
  match sl.progress with
  | .teardown t => t.subject != 0
  | _ => true

/-- The device state and what it goes with in other blocks: no slot is occupied in OFF, LOADING or HALTED, and some slot is in
HALTING (R89, R180), client 0 is ATTACHED in RUNNING, HALTING and HALTED (R74), and while the reset pin is asserted the bus
carries nothing but an abandoned transaction (R182). -/
def State.deviceSound (s : State) : Bool :=
  s.port.sound
    && ((s.port.device != .off && s.port.device != .loading && s.port.device != .halted) || s.allFree)
    && (s.port.device != .halting || !s.allFree)
    && ((s.port.device != .running && s.port.device != .halting && s.port.device != .halted)
      || (s.client 0).state == .attached)
    && s.slots.toList.all Slot.sparesSupervisor
    && (!s.port.resetAsserted || s.arb.bus.all (fun b => b.stale))

/-! ### Rings (R61) -/

/-- The occupancy of a ring does not exceed its size. -/
def OutRing.fits (r : OutRing) : Bool := decide (r.occupancy ≤ r.size)

/-- An attach in progress has passed its tally check. -/
def Progress.tallyPassed : Progress → Bool
  | .attachWriteBack d h => attachTallyCheck h d
  | _ => true

/-- A setup load in progress has passed its tally check. -/
def Load.tallyPassed : Load → Bool
  | .writeBack d h => attachTallyCheck h d
  | _ => true

/-- R61: for each client and each of its return and delivery rings, the records claimed minus the last-read taken tally never
exceed the ring size. -/
def State.ringsFit (s : State) : Bool :=
  s.clients.toList.all (fun x => x.ret.fits && x.del.fits) && s.slots.toList.all (fun sl => sl.progress.tallyPassed)
    && s.load.tallyPassed

/-! ### Slots (R80) -/

/-- The fetcher's transactions (R188). -/
def TxnOp.ofFetcher : TxnOp → Bool
  | .clientHalf _ | .postRead .. | .setupRead | .setupDescriptor | .setupHalf => true
  | _ => false

/-- The record writer's transactions (R188). -/
def TxnOp.ofWriter : TxnOp → Bool
  | .record .. | .writeBack .. | .finalWriteBack _ | .signal .. | .attachWriteBack _ | .setupWriteBack => true
  | _ => false

/-- A transaction that is a post read is bound to a BOUND slot of its client (R77). -/
def State.boundFor (s : State) (t : Txn) : Bool :=
  match t.op with
  | .postRead c i => (s.slot i).state == .bound && (s.slot i).client == some c
  | _ => true

/-- The bus carries no post read but the fetcher's own. -/
def State.busFollowsFetcher (s : State) : Bool :=
  match s.arb.bus with
  | some b =>
    match b.txn.op with
    | .postRead _ _ => b.stale || s.port.device == .failed || s.intake.fetch == some b.txn
    | _ => true
  | none => true

/-- The slot whose completion a transaction carries. -/
def TxnOp.completionSlot : TxnOp → Option SlotId
  | .record _ _ (.completion i) => some i
  | _ => none

/-- The transaction on the bus, if its result will be used (R181, R187). -/
def State.liveBus (s : State) : List Txn :=
  match s.arb.bus with
  | some b => if b.stale || s.port.device == .failed then [] else [b.txn]
  | none => []

/-- The slots whose completions are being written (R84). -/
def State.writingSlots (s : State) : List SlotId := (s.liveBus ++ s.unit.writer).filterMap (fun t => t.op.completionSlot)

/-- R80: a client occupies at most one slot. The ties to the fetcher and to the record writer make this a property that every
step keeps: the fetcher's post read is bound to a slot (R77), the record of a completion is that of a WRITING slot (R84), and the
fetcher and the record writer carry their own transactions (R188). -/
def State.slotsApart (s : State) : Bool :=
  (List.finRange 4).all (fun i => (List.finRange 4).all (fun j =>
      i == j || (s.slot i).state == .free || (s.slot j).state == .free || (s.slot i).client != (s.slot j).client))
    && (List.finRange 4).all (fun i => (s.slot i).state == .free || (s.slot i).client.isSome)
    && (match s.intake.fetch with | some t => t.op.ofFetcher && s.boundFor t | none => true)
    && s.unit.writer.all (fun t => t.op.ofWriter)
    && s.busFollowsFetcher
    && decide s.writingSlots.Nodup && s.writingSlots.all (fun i => (s.slot i).state == .writing)

/-! ### Holdings: references, charges, chains, and what entries and slots stand on (R4, R9 to R12, R17, R119, R120) -/

/-- A record as its state shapes it. A FREE record is as R10 leaves it; a BUILDING parcel has one holder, its builder, who is charged
(R4, R12); a CLOSED parcel has a reference and no growth in flight; and a chain has the segments that length and growth need
(R15, R17). -/
def Parcel.shaped (p : Parcel) : Bool :=
  (match p.state with
    | .free => p.length == 0 && p.growth.isNone && p.charged.isNone && p.refCount == 0
    | .building => p.refCount == 1 && p.charged.any (fun c => p.holder c == 1)
    | .closed => 1 ≤ p.refCount && p.growth.isNone)
    && p.chain.length == chainNeeded p.cls p.headOffset p.length (p.growth.getD 0)

/-- The references a client holds, over all records (R9). -/
def Store.heldSum (t : Store) (c : ClientId) : Nat := (t.records.map (fun r => r.2.holder c)).sum

/-- The segments of a class in the chains that are charged to a client (R11). -/
def Store.chargedSum (t : Store) (c : ClientId) (k : SegClass) : Nat :=
  (t.records.map (fun r => if r.2.charged = some c ∧ r.2.cls = k then r.2.chain.length else 0)).sum

/-- Every held total and every charged count is what the records say (R9, R11). -/
def Store.accountsAgree (t : Store) : Bool :=
  (List.finRange 8).all (fun c => (t.account c).held == t.heldSum c && (t.account c).charged.short == t.chargedSum c .short
    && (t.account c).charged.long == t.chargedSum c .long)

/-- Every entry of a pending list names a CLOSED parcel, and no more entries name it than its client holds references (R119). -/
def State.entriesBacked (s : State) : Bool :=
  (List.finRange 8).all (fun c => (s.list c).all (fun e =>
    s.store.live e.handle && (s.store.parcel (handleIndex e.handle)).state == .closed
      && decide (naming (s.list c) e.handle ≤ (s.store.parcel (handleIndex e.handle)).holder c)))

/-- A client has a free reference on the live parcel that a handle names (R120). -/
def State.ownsFree (s : State) (c : ClientId) (h : Handle) : Bool :=
  s.store.live h && decide (naming (s.list c) h < (s.store.parcel (handleIndex h)).holder c)

/-- The parcel of a routing command is CLOSED with a free reference of the sender (R97, R120); while a DISPATCH has queued nothing,
that reference is the parcel's only one and the sender is charged (R100). -/
def State.routes (s : State) (c : ClientId) (r : PostRecord) (h : Handle) (queued : Bool) : Bool :=
  let p := s.store.parcel (handleIndex h)
  s.ownsFree c h && p.state == .closed && (r.kind.toNat != 4 || queued || (p.refCount == 1 && p.charged == some c))

/-- A growth claim of a slot: its parcel is BUILDING, charged to the slot's client and held by it, with the growth in flight, and the
claimed segments are those beyond what the length needs (R17, R19). -/
def State.claimStands (s : State) (c : ClientId) (m : Movement) (g : GrowthClaim) : Bool :=
  let p := s.store.parcel g.index
  g.client == c && g.index == handleIndex m.handle && s.store.live m.handle && p.state == .building && p.charged == some c
    && p.holder c == 1 && p.growth.isSome && p.chain.length == g.segments + chainNeeded p.cls p.headOffset p.length 0

/-- What the command of a performing slot stands on, by its stage. The supervisor's kinds are client 0's (R81); a teardown is of a
DRAINING client, which after the abort stage occupies no slot (R162) and after the pending purge has no entry (R163). -/
def State.commandStands (s : State) (c : ClientId) (r : PostRecord) (undo : Option GrowthClaim) : Progress → Bool
  | .taken => undo.isNone && (!(supervisorKind r.kind.toNat) || c == 0)
  | .moving m =>
    match undo with
    | some g => s.claimStands c m g
    | none => s.ownsFree c m.handle
  | .toLookup h _ => undo.isNone && s.routes c r h false
  | .offering q => undo.isNone && q.routeSet != 0 && s.routes c r q.handle (q.routed != 0)
  | .settling q => undo.isNone && (q.handedOver || q.handsNothing r || s.routes c r q.handle (q.status == .ok))
  | .dropAfter h _ _ => undo.isNone && s.ownsFree c h
  | .teardown t =>
    undo.isNone && c == 0 && (s.client t.subject).state == .draining && (t.stage == .abort || (s.slotOf t.subject).isNone)
      && (match t.stage with | .walk _ | .complete => (s.list t.subject).isEmpty | _ => true)
  | .attachDescriptor .. | .attachHalf _ | .attachWriteBack .. => undo.isNone && c == 0
  | .none | .query .. | .reporting .. => undo.isNone

/-- Every performing slot's command stands on what it needs, and no other slot has a growth claim. -/
def State.slotsBacked (s : State) : Bool :=
  s.slots.toList.all (fun sl =>
    if sl.state = .performing then
      match sl.client, sl.command with
      | some c, some r => s.commandStands c r sl.undo sl.progress
      | _, _ => false
    else sl.undo.isNone)

/-- Every growth in flight is some slot's claim (R17). -/
def State.growthsOwned (s : State) : Bool :=
  s.store.records.all (fun x => x.2.growth.isNone || s.slots.toList.any (fun sl => sl.undo.any (fun g => g.index == x.1)))

/-- A scatter piece on the bus is that of a slot that moves data with no growth claim (R146). -/
def State.scattersApart (s : State) : Bool :=
  s.liveBus.all (fun t =>
    match t.op with
    | .scatter i =>
      (s.slot i).state == .performing && (s.slot i).undo.isNone && (match (s.slot i).progress with | .moving _ => true | _ => false)
    | _ => true)

/-- The accounts agree with the records, every record is as its state shapes it, and entries, slots and growths stand on the
references and segments they need. -/
def State.holdingsSound (s : State) : Bool :=
  s.store.records.all (fun x => x.2.shaped) && s.store.accountsAgree && s.entriesBacked && s.slotsBacked && s.growthsOwned
    && s.scattersApart

/-! ### The sound states -/

/-- A state that has every property above. -/
def State.sound (s : State) : Bool :=
  s.directorySound && s.storeCanonical && s.store.segmentsWhole && s.store.referencesCounted && s.withinCapacity
    && s.deviceSound && s.ringsFit && s.slotsApart && s.holdingsSound

/-! ### When a command is performed -/

/-- A slot holds a command of a kind that has been taken and waits for its own step; no abort is requested, and the client is
not DRAINING, so that its completion is held. -/
def State.serves (s : State) (i : SlotId) (kind : Nat) (c : ClientId) (r : PostRecord) : Bool :=
  s.takenCommand i kind == some (c, r) && !(s.slot i).abortRequested && (s.client c).state != .draining

/-- A slot performs a command; no abort is requested, and the client is not DRAINING. -/
def State.works (s : State) (i : SlotId) (c : ClientId) (r : PostRecord) : Bool :=
  s.performing i == some (c, r) && !(s.slot i).abortRequested && (s.client c).state != .draining

/-- The bus carries a transaction whose result will be used. -/
def State.carriesLive (s : State) (t : Txn) : Bool :=
  s.arb.bus == some { txn := t, stale := false } && s.port.device != .failed

/-- The command is the completion of a transaction of this kind. -/
def completes : Instr → TxnOp → Bool
  | .postReadComplete _, .postRead .. => true
  | .clientHalfReadComplete _, .clientHalf _ => true
  | .gatherPieceComplete _, .gather _ => true
  | .scatterPieceComplete _, .scatter _ => true
  | .recordWriteComplete _, .record .. => true
  | .writeBackComplete _, .writeBack .. => true
  | .writeBackComplete _, .finalWriteBack _ => true
  | .signalWriteComplete _, .signal .. => true
  | .attachDescriptorPieceComplete _, .attachDescriptor _ => true
  | .attachCxbReadComplete _, .attachHalf _ => true
  | .attachWriteBackComplete _, .attachWriteBack _ => true
  | .reportWritePieceComplete _, .report _ => true
  | .setupReadComplete _, .setupRead => true
  | .setupDescriptorPieceComplete _, .setupDescriptor => true
  | .setupCxbReadComplete _, .setupHalf => true
  | .setupWriteBackComplete _, .setupWriteBack => true
  | _, _ => false

/-! ### How a command ends, and what it leaves alone -/

/-- The command of a slot ends: its completion is held, and the other slots are as before. A completion of client 0 becomes ready
behind all notices then in the list, and no other completion moves it (R85, log entry 15). -/
def State.ends (s t : State) (i : SlotId) (x : Completion) : Prop :=
  t.slot i = { s.slot i with state := .held, progress := .none, undo := none, completion := some x }
    ∧ (∀ j, j ≠ i → t.slot j = s.slot j)
    ∧ t.unit.noticesAhead = if (s.slot i).client = some 0 then t.unit.notices.length else s.unit.noticesAhead

/-- The command of a slot goes on to another stage, and the other slots are as before; so is the place of client 0's completion
among the notices. -/
def State.goesOn (s t : State) (i : SlotId) (p : Progress) : Prop :=
  t.slot i = { s.slot i with progress := p } ∧ (∀ j, j ≠ i → t.slot j = s.slot j)
    ∧ t.unit.noticesAhead = s.unit.noticesAhead

/-- The port, the setup load, the arbiter, the Intake, the queue, and the Delivery Unit but for the place of client 0's
completion among its notices (for which see `State.ends` and `State.goesOn`), are as before. -/
def State.sameRest (s t : State) : Prop :=
  t.port = s.port ∧ t.load = s.load ∧ t.arb = s.arb ∧ t.intake = s.intake ∧ t.pending = s.pending
    ∧ { t.unit with noticesAhead := s.unit.noticesAhead } = s.unit

/-- Nothing outside the slots changes. -/
def State.sameBlocks (s t : State) : Prop :=
  s.sameRest t ∧ t.store = s.store ∧ t.dir = s.dir ∧ t.clients = s.clients

/-- The write in flight of a ring of a client ends, and the final write-back follows if it is owed and no other write of the client
is in flight (R68, R71). -/
def State.endsWrite (s t : State) (c : ClientId) (n : OutRingName) : Prop :=
  ((t.client c).ring n).inFlight = false ∧
    ((s.client c).finalDue = true → (∀ m, m ≠ n → ((s.client c).ring m).inFlight = false) →
      (t.client c).finalDue = false ∧ t.unit = { s.unit with writer := s.unit.writer ++
        [{ op := .finalWriteBack c, addr := (s.client c).cxb + 32, len := 32, data := [] }] }) ∧
    ((s.client c).finalDue = false ∨ (∃ m, m ≠ n ∧ ((s.client c).ring m).inFlight = true) →
      (t.client c).finalDue = (s.client c).finalDue ∧ t.unit = s.unit)

/-- The port after the freeing of a slot: a HALTING device whose last occupied slot it is becomes HALTED, with its tick paused (R89,
R179, R190). -/
def State.portFreeing (s : State) (i : SlotId) : Port :=
  if s.port.device = .halting ∧ ∀ j, j ≠ i → (s.slot j).state = .free then { s.port with device := .halted, tickRuns := false }
  else s.port

/-- A slot becomes FREE (another client may then be bound to it), which may end HALTING. If it was not that of a DRAINING client, every
other occupied slot is as before. -/
def State.frees (s t : State) (i : SlotId) : Prop :=
  ((t.slot i).state = .free ∨ (t.slot i).state = .bound) ∧ t.port = s.portFreeing i ∧
    ((∀ c, (s.slot i).client = some c → (s.client c).state ≠ .draining) →
      ∀ j, j ≠ i → (s.slot j).state ≠ .free → t.slot j = s.slot j)

/-- The slot of a torn-down client becomes FREE and holds no completion, and the freeing is reported to the client's teardown with
the aborted flag, which ends its abort stage (R87, R88, R162). Every other occupied slot is as before. -/
def State.stops (s t : State) (i : SlotId) (c : ClientId) (aborted : Bool) : Prop :=
  (t.slot i).client ≠ some c ∧ (t.slot i).completion = none ∧ s.frees t i ∧
    ∀ j, j ≠ i → (s.slot j).state ≠ .free →
      (∀ d, (s.slot j).progress = .teardown d → d.subject = c → d.stage = .abort →
        t.slot j = { s.slot j with progress := .teardown { d with stage := .directory, aborted := aborted } }) ∧
      ((∀ d, (s.slot j).progress = .teardown d → d.subject ≠ c ∨ d.stage ≠ .abort) → t.slot j = s.slot j)

/-- The bus carries a transaction of this kind whose result will be used. -/
def State.granted (s : State) (p : TxnOp → Prop) : Prop := ∃ b, s.arb.bus = some b ∧ b.stale = false ∧ p b.txn.op

/-- The port of a failed device (R187). -/
def Port.failed (p : Port) (code : DeviceFault) (reason : Option FaultReason) : Port :=
  { p with device := .failed, faultCode := code, client0Reason := reason, faultPin := true, tickRuns := false }

/-! ### What references do to the store (R8, R10, R26) -/

/-- Segments return to the pool of a class: its free count rises, the other's stays, the charged client's count falls, and the
arm is set if it was clear and the free count has come back to the reserve. -/
def Store.returns (s t : Store) (k : SegClass) (charged : Option ClientId) (n : Nat) : Prop :=
  t.freeCount k = s.freeCount k + n
    ∧ (∀ l, l ≠ k → t.freeCount l = s.freeCount l ∧ t.arms.get l = s.arms.get l)
    ∧ (∀ d l, (t.account d).charged.get l =
        if some d = charged ∧ l = k then (s.account d).charged.get l - n else (s.account d).charged.get l)
    ∧ t.arms.get k = (s.arms.get k || (decide (0 < n) && decide (t.reserves.get k ≤ t.freeCount k)))
    ∧ t.reserves = s.reserves ∧ t.memory = s.memory

/-- A record is as R10 leaves it. -/
def Parcel.freedFrom (q p : Parcel) : Prop :=
  q.state = .free ∧ q.generation = p.generation + 1 ∧ q.length = 0 ∧ q.headOffset = 0 ∧ q.growth = none ∧ q.chain = []
    ∧ q.charged = none ∧ (∀ d, q.holder d = 0) ∧ q.refCount = 0

/-- n references of a client on a record are dropped (R8): the counts fall by n, and at 0 the record is freed (R10). -/
def Store.dropsTo (s t : Store) (i : Nat) (c : ClientId) (n : Nat) : Prop :=
  (∀ j, j ≠ i → t.parcel j = s.parcel j)
    ∧ (∀ d, (t.account d).held = if d = c then (s.account d).held - n else (s.account d).held)
    ∧ if (s.parcel i).refCount = n then
        (t.parcel i).freedFrom (s.parcel i)
          ∧ s.returns t (s.parcel i).cls (s.parcel i).charged (s.parcel i).chain.length
      else
        t.parcel i = { s.parcel i with holders := (s.parcel i).holders.set c.val ((s.parcel i).holder c - n),
                                       refCount := (s.parcel i).refCount - n }
          ∧ t.pools = s.pools ∧ t.arms = s.arms ∧ t.reserves = s.reserves ∧ t.memory = s.memory
          ∧ ∀ d, (t.account d).charged = (s.account d).charged

/-- One reference of a client is dropped for each of these entries, one after the other, and the records that a drop frees are
counted (R126, R135). -/
def Store.dropEach (t : Store) (c : ClientId) (entries : List PendingEntry) : Store × Nat :=
  entries.foldl (fun u e =>
    let d := u.1.drop (handleIndex e.handle) c 1
    (d.1, if d.2 then u.2 + 1 else u.2)) (t, 0)

/-- A claim of n segments by a client for a growth of g bytes on a record (R17, R26): the segments are appended to the chain, the
growth length is set, the free count falls, the charge rises, and the arm is cleared if the free count is then below the
reserve. -/
def Store.claimsTo (s t : Store) (i : Nat) (c : ClientId) (n g : Nat) : Prop :=
  (∃ segs : List Nat, segs.length = n ∧
      t.parcel i = { s.parcel i with chain := (s.parcel i).chain ++ segs, growth := some g })
    ∧ (∀ j, j ≠ i → t.parcel j = s.parcel j)
    ∧ t.freeCount (s.parcel i).cls + n = s.freeCount (s.parcel i).cls
    ∧ (∀ k, k ≠ (s.parcel i).cls → t.freeCount k = s.freeCount k ∧ t.arms.get k = s.arms.get k)
    ∧ (∀ d k, (t.account d).charged.get k =
        if d = c ∧ k = (s.parcel i).cls then (s.account d).charged.get k + n else (s.account d).charged.get k)
    ∧ (∀ d, (t.account d).held = (s.account d).held)
    ∧ (t.arms.get (s.parcel i).cls = (s.arms.get (s.parcel i).cls &&
        !(decide (0 < n) && decide (t.freeCount (s.parcel i).cls < s.reserves.get (s.parcel i).cls))))
    ∧ t.reserves = s.reserves ∧ t.memory = s.memory

/-- The Delivery Unit after a claim of n segments of a class: a POOL_LOW notice is queued, or counted lost when the list is full,
when the claim cleared the arm (R26, R172). -/
def State.lowWaterNotice (s t : State) (k : SegClass) (n : Nat) : Prop :=
  if 0 < n ∧ s.store.arms.get k = true ∧ t.store.freeCount k < s.store.reserves.get k then
    if s.unit.notices.length < 8 then
      t.unit = { s.unit with
        notices := s.unit.notices ++ [{ notice := .poolLow k (t.store.freeCount k), tick := s.port.tickCount }] }
    else t.unit = { s.unit with lost := min (s.unit.lost + 1) 65535 }
  else t.unit = s.unit

/-- A way of a key's bucket is free (R31). -/
def Directory.hasRoom (d : Directory) (k : Key) : Bool :=
  (List.range 4).any (fun j => (sparseGet d.exact (bucket k * 4 + j)).isNone)

/-- Two bytes of a number, the low byte first (0.6). -/
def pairBytes (n : Nat) : List Byte := [BitVec.ofNat 8 n, BitVec.ofNat 8 (n / 256)]

/-- The four bytes of a word, the lowest first (0.6). -/
def wordBytes (v : BitVec 32) : List Byte := [v.extractLsb' 0 8, v.extractLsb' 8 8, v.extractLsb' 16 8, v.extractLsb' 24 8]

/-- The eight bytes of an address, the lowest first (0.6). -/
def quadBytes (v : BitVec 64) : List Byte := wordBytes (v.extractLsb' 0 32) ++ wordBytes (v.extractLsb' 32 32)

/-- The eight bytes of a fragment entry: the client address in bytes 0 to 5, the length in bytes 6 and 7 (section 10.2). -/
def Fragment.layout (f : Fragment) : List Byte :=
  wordBytes (f.addr.extractLsb' 0 32) ++ [f.addr.extractLsb' 32 8, f.addr.extractLsb' 40 8, f.len.extractLsb' 0 8,
    f.len.extractLsb' 8 8]

/-- The 32 bytes of an aperture entry (section 10.6). -/
def Aperture.layout (a : Aperture) : List Byte :=
  quadBytes a.base ++ quadBytes a.length ++ quadBytes a.system ++
    [(if a.readRight then 1 else 0) ||| (if a.writeRight then 2 else 0), 0, 0, 0, 0, 0, 0, 0]

/-- Nothing of the directory but its exact table changes. -/
def Directory.sameButExact (d e : Directory) : Prop := { e with exact := d.exact } = d

/-- Nothing of the directory but its pattern list changes. -/
def Directory.sameButPatterns (d e : Directory) : Prop := { e with patterns := d.patterns } = d

end Sys2Proof.Machine
end

