-- ==== Sys2Proof/Certificates/Slice0/Obligations.lean ====
section
/-!
DEFINITION. The statements for the provers. Each names the rules of spec/ it formalises, or the log entry it rests on.
-/

open Sys2Proof Sys2Proof.Machine

/-! ## The step, reset and the system port (chapter 9) -/

/-- A step with a command at the front of the queue is that command on the state with the queue's rest. The queue is the
model's own (log entry 4). -/
def Obligations.StepTakesTheFrontCommand : Prop :=
  ∀ (c : Instr) (s : State), step (s.setPending (c :: s.pending)) = exec c s

/-- TICK (R190, R39, R64, R126): the tick count advances, the divider returns to 0, and the tick reaches the Directory, the
pending lists and the Client Table. A step with no command waiting counts one REFCLK period (log entry 5), and while the tick
does not run nothing happens (log entry 5). -/
def Obligations.TickReachesThreeBlocks : Prop :=
  (∀ s : State, s.port.tickRuns = true → s.port.resetAsserted = false → ∃ u : State, exec .tick s = .next u.readChoice ∧
    u.port = { s.port with tickDivider := 0, tickCount := s.port.tickCount + 1 } ∧
    u.dir = { s.dir with
      timer := if s.dir.agingPeriod = 0 then s.dir.timer
        else if s.dir.timer + 1 = s.dir.agingPeriod then 0 else s.dir.timer + 1,
      sweepsDue := if s.dir.agingPeriod ≠ 0 ∧ s.dir.timer + 1 = s.dir.agingPeriod then s.dir.sweepsDue + 1
        else s.dir.sweepsDue } ∧
    { u.unit with expiryDue := s.unit.expiryDue } = s.unit ∧
    (∀ c, has u.unit.expiryDue c = (has s.unit.expiryDue c ||
      (s.unit.lingerLimit != 0 && (s.list c).any (fun e =>
        decide (s.unit.lingerLimit ≤ (s.port.tickCount + 1 - e.tick).toNat))))) ∧
    { u.intake with refreshSet := s.intake.refreshSet } = s.intake ∧
    (∀ c, has u.intake.refreshSet c = (has s.intake.refreshSet c ||
      ((s.client c).state == .attached && (!(s.list c).isEmpty
        || (match s.slotOf c with | some i => (s.slot i).state == .held | none => false)
        || (c == 0 && !s.unit.notices.isEmpty))))) ∧
    u.store = s.store ∧ u.clients = s.clients ∧ u.slots = s.slots ∧ u.arb = s.arb ∧ u.load = s.load ∧ u.pending = s.pending) ∧
  (∀ s : State, s.pending = [] → s.port.tickRuns = true → s.port.resetAsserted = false →
    step s = if s.port.tickDivider + 1 < 25000 then
        .next { s with port := { s.port with tickDivider := s.port.tickDivider + 1 } }
      else exec .tick s) ∧
  (∀ s : State, s.port.tickRuns = false ∨ s.port.resetAsserted = true →
    exec .tick s = .next s ∧ (s.pending = [] → step s = .next s))

/-- What the reset pin leaves, as the chapters' tables of values after reset give it: sections 1.9, 2.11, 3.12 and 9.1, and
R54, R76, R79, R136, R174, R182, R188 and R190: every field of the port but the recorded answer, the arbiter, every parcel record
but its class, the pools and accounts, the directory, every field of every client context and of every slot, the Intake and the
Delivery Unit. That the model's own fields `finalDue` and `inFlight` are clear is its choice (log entry 15). -/
def Obligations.ResetLeavesTheTabledValues : Prop :=
  (State.reset.port.device = .off ∧ State.reset.port.stateWord = 0 ∧ State.reset.port.setupLo = 0 ∧
    State.reset.port.setupHi = 0 ∧ State.reset.port.faultCode = .none ∧ State.reset.port.client0Reason = none ∧
    State.reset.port.tickRuns = false ∧ State.reset.port.tickCount = 0 ∧ State.reset.port.tickDivider = 0 ∧
    State.reset.port.faultPin = false ∧ State.reset.load = .idle) ∧
  (State.reset.arb.slotPointer = 3 ∧ State.reset.arb.waitCount = 0 ∧ State.reset.arb.bus = none) ∧
  ((∀ i, State.reset.store.parcel i = {
      state := .free, generation := 0, cls := (State.reset.store.parcel i).cls, length := 0, headOffset := 0, growth := none,
      chain := [], charged := none, holders := Vector.replicate 8 0, refCount := 0 }) ∧
    State.reset.store.freeCount .short = 2048 ∧ State.reset.store.freeCount .long = 192 ∧
    (∀ c k, (State.reset.store.account c).held = 0 ∧ (State.reset.store.account c).charged.get k = 0) ∧
    (∀ k, State.reset.store.reserves.get k = 0 ∧ State.reset.store.arms.get k = true)) ∧
  (State.reset.dir.exact = [] ∧ State.reset.dir.patterns = [] ∧ State.reset.dir.agingPeriod = 0 ∧
    State.reset.dir.agingLimit = 1 ∧ State.reset.dir.timer = 0 ∧ State.reset.dir.learned = 0 ∧
    State.reset.dir.learnSkipped = 0 ∧ State.reset.dir.agedOut = 0 ∧ State.reset.dir.consumed = 0) ∧
  (∀ c, State.reset.client c = {
      state := .absent, reason := none, post := { base := 0, size := 0, taken := 0, lastPost := 0 },
      ret := { base := 0, size := 0, claimed := 0, written := 0, lastTaken := 0, lastWake := 0, signalled := 0, inFlight := false },
      del := { base := 0, size := 0, claimed := 0, written := 0, lastTaken := 0, lastWake := 0, signalled := 0, inFlight := false },
      cxb := 0, signalAddr := 0, signalValue := 0, refLimit := 0, segLimit := { short := 0, long := 0 }, learning := false,
      apertures := [], sequence := 0, sent := 0, placed := 0, refused := 0, expired := 0, finalDue := false }) ∧
  (∀ i, State.reset.slot i = {
      state := .free, client := none, command := none, progress := .none, undo := none, abortRequested := false,
      completion := none }) ∧
  (State.reset.intake.attendSet = 0 ∧ State.reset.intake.refreshSet = 0 ∧ State.reset.intake.pointer = 0 ∧
    State.reset.intake.fetch = none) ∧
  ((∀ c, State.reset.list c = []) ∧ State.reset.unit.lingerLimit = 0 ∧ State.reset.unit.notices = [] ∧
    State.reset.unit.lost = 0 ∧ State.reset.unit.writer = [])

/-- RESTART (R181): every block returns to its values after the reset pin, SETUP_LO and SETUP_HI and the contents of parcel memory
(R1) are kept, and the result of a transaction granted before is to be discarded. The answer that the port records is the model's
own (log entry 15). -/
def Obligations.RestartReturnsEveryBlock : Prop :=
  ∀ s : State, s.port.resetAsserted = false → ∃ t, exec .restart s = .next t ∧
    t.port = { State.reset.port with setupLo := s.port.setupLo, setupHi := s.port.setupHi, answer := .written } ∧
    t.load = .idle ∧ t.arb.slotPointer = 3 ∧ t.arb.waitCount = 0 ∧
    (∀ b, s.arb.bus = some b → t.arb.bus = some { txn := b.txn, stale := true }) ∧
    (s.arb.bus = none → t.arb.bus = none) ∧
    t.store = { State.reset.store with memory := s.store.memory } ∧ t.dir = State.reset.dir ∧
    t.clients = State.reset.clients ∧ t.intake = State.reset.intake ∧ t.slots = State.reset.slots ∧
    t.unit = State.reset.unit ∧ t.pending = s.pending

/-- The reset pin (R182, R191, R175, R151): asserted, the FAULT pin is low, a transaction in flight is abandoned, reads return 0 and
writes are ignored; released, every block holds its values after the reset pin, with only parcel memory's contents kept (R1). The
model's choices: that assertion leaves every other value as it is, that accesses of every width are so answered, and that an
abandoned transaction stays on the bus until it completes (log entry 16), and that the answer is recorded (log entry 15). -/
def Obligations.ResetPinReturnsEveryBlock : Prop :=
  (∀ s : State, exec .resetPinAssert s = .next { s with
    port := { s.port with resetAsserted := true, faultPin := false },
    arb := { s.arb with bus := s.arb.bus.map (fun b => { b with stale := true }) } }) ∧
  (∀ s : State, s.port.resetAsserted = true → exec .resetPinRelease s = .next { State.reset with
    pending := s.pending, store := { State.reset.store with memory := s.store.memory },
    arb := { State.reset.arb with bus := s.arb.bus.map (fun b => { b with stale := true }) } }) ∧
  (∀ (s : State) (a : PortAccess), s.port.resetAsserted = true → exec (.registerWrite a) s = .next { s with
    port := { s.port with answer := (match a.kind with | .read => .value 0 | .write _ => .written) } }) ∧
  (∀ (s : State) (v : BitVec 32) (h : Bool), s.port.resetAsserted = true →
    exec .go s = .next { s with port := { s.port with answer := .written } } ∧
    exec .halt s = .next { s with port := { s.port with answer := .written } } ∧
    exec .restart s = .next { s with port := { s.port with answer := .written } } ∧
    exec (.attend v) s = .next { s with port := { s.port with answer := .written } } ∧
    exec (.setupAddressWrite h v) s = .next { s with port := { s.port with answer := .written } })

/-- A transaction granted before a RESTART or an assertion of the reset pin, or in flight at the failure of the device, completes
on the bus and its result is discarded (R90, R151, R181, R187), whatever its outcome: the bus is free and nothing else changes.
And in FAILED no block takes a step of its own (R90, R128, R166, R174, R187): every row but the accesses of the register window, the
reset pin and the completion of the transaction in flight changes nothing. That a gather piece's bytes are not written into parcel
memory is the model's choice (log entry 17), and so is that a step which is not taken answers the state as it was (log entry 7). -/
def Obligations.OldResultsAreDiscarded : Prop :=
  (∀ (s : State) (b : BusTxn) (x : Instr), s.arb.bus = some b → (b.stale = true ∨ s.port.device = .failed) →
    completes x b.txn.op = true → exec x s = .next { s with arb := { s.arb with bus := none } }) ∧
  (∀ (s : State) (x : Instr), s.port.sound = true → s.port.device = .failed →
    (∀ b, s.arb.bus = some b → completes x b.txn.op = false) →
    match x with
    | .go | .halt | .restart | .attend _ | .setupAddressWrite .. | .registerWrite _ | .resetPinAssert | .resetPinRelease => True
    | _ => exec x s = .next s)

/-- GO and HALT (R179, R183, R89): each moves the device only from the states listed for it. A GO in OFF begins the setup load or
fails at once on a misaligned address. The answer that the port records is the model's own (log entry 15). -/
def Obligations.GoAndHaltFollowTheTable : Prop :=
  ∀ s : State, s.port.resetAsserted = false →
    (∃ u : State, exec .go s = .next (u.answered .written) ∧
      (s.port.device = .off →
        if (s.port.setupHi ++ s.port.setupLo).toNat % 64 = 0 then
          u = { s with port := { s.port with device := .loading }, load := .setupRead (s.port.setupHi ++ s.port.setupLo),
                       intake := { s.intake with fetch := some { op := .setupRead, addr := s.port.setupHi ++ s.port.setupLo,
                                                                 len := 64, data := [] } } }
        else u = { s with port := s.port.failed .setupInvalid none }) ∧
      (s.port.device = .halting ∨ s.port.device = .halted →
        u = ({ s with port := { s.port with device := .running, tickRuns := true } } : State).readChoice) ∧
      (s.port.device = .loading ∨ s.port.device = .running ∨ s.port.device = .failed → u = s)) ∧
    (∃ u : State, exec .halt s = .next (u.answered .written) ∧
      (s.port.device = .running →
        if (∀ i, (s.slot i).state = .free) then u = { s with port := { s.port with device := .halted, tickRuns := false } }
        else u = { s with port := { s.port with device := .halting } }) ∧
      (s.port.device ≠ .running → u = s))

/-- CONTROL (R178): a write to CONTROL is a RESTART when its RESTART bit is set, is ignored when both or neither of GO and HALT
are set, and otherwise is a GO or a HALT. Bits 3 to 31 play no part. That the row REGISTER_WRITE takes every access of the
window is the model's choice (log entry 28), and so is the answer that the port records (log entry 15). -/
def Obligations.ControlWritesActByTheirBits : Prop :=
  ∀ (s : State) (v : BitVec 32), s.port.resetAsserted = false →
    exec (.registerWrite { offset := 0x04, width := .word, kind := .write v }) s =
      if v.getLsbD 2 then exec .restart s
      else if v.getLsbD 0 && !v.getLsbD 1 then exec .go s
      else if v.getLsbD 1 && !v.getLsbD 0 then exec .halt s
      else .next (s.answered .written)

/-- ATTEND (R67): in RUNNING, HALTING and HALTED each named client that is ATTACHED joins the pending-attend set, and the Intake
then chooses (R76); in OFF, LOADING and FAILED the write is ignored. The answer that the port records is the model's own (log
entry 15). -/
def Obligations.AttendAddsAttachedClients : Prop :=
  ∀ (s : State) (v : BitVec 32), s.port.resetAsserted = false →
    exec (.registerWrite { offset := 0x0C, width := .word, kind := .write v }) s = exec (.attend v) s ∧
    (s.port.device = .off ∨ s.port.device = .loading ∨ s.port.device = .failed →
      exec (.attend v) s = .next (s.answered .written)) ∧
    (s.port.device = .running ∨ s.port.device = .halting ∨ s.port.device = .halted →
      ∃ set : ClientSet, exec (.attend v) s =
          .next (({ s with intake := { s.intake with attendSet := set } } : State).readChoice.answered .written) ∧
        ∀ c : ClientId, has set c =
          (has s.intake.attendSet c || (v.getLsbD c.val && (s.client c).state == .attached)))

/-- SETUP_ADDRESS_WRITE (R177): the write replaces one half of the setup address in every device state and nothing else, a load
in progress included; a read returns what was last written; the reset pin sets both to 0 and RESTART keeps them. That reads are made
through the row REGISTER_WRITE is the model's choice (log entry 28), and so is the answer that the port records (log entry 15). -/
def Obligations.SetupAddressIsReplacedByHalves : Prop :=
  (∀ (s : State) (high : Bool) (v : BitVec 32), s.port.resetAsserted = false →
    exec (.setupAddressWrite high v) s = .next { s with port := { s.port with
      setupLo := if high then s.port.setupLo else v, setupHi := if high then v else s.port.setupHi, answer := .written } } ∧
    exec (.registerWrite { offset := if high then 0x14 else 0x10, width := .word, kind := .write v }) s =
      exec (.setupAddressWrite high v) s) ∧
  (∀ s : State, s.port.resetAsserted = false →
    exec (.registerWrite { offset := 0x10, width := .word, kind := .read }) s = .next (s.answered (.value s.port.setupLo)) ∧
    exec (.registerWrite { offset := 0x14, width := .word, kind := .read }) s = .next (s.answered (.value s.port.setupHi)) ∧
    ∃ t, exec .restart s = .next t ∧ t.port.setupLo = s.port.setupLo ∧ t.port.setupHi = s.port.setupHi) ∧
  (∀ s : State, s.port.resetAsserted = true →
    ∃ t, exec .resetPinRelease s = .next t ∧ t.port.setupLo = 0 ∧ t.port.setupHi = 0)

/-- The register window (R175, R176): an access that is not an aligned word is answered with a bus error and starts nothing;
aligned reads return the registers, 0 for CONTROL, ATTEND and the unused offsets; writes to IDENT, STATE and the unused offsets
are ignored. That the row REGISTER_WRITE takes reads and accesses of every width is the model's choice (log entry 28), and so is the
answer that the port records (log entry 15). The codes that STATE shows are listed in SetupBlocksAndHalvesReadBack. -/
def Obligations.WindowAnswersAlignedWords : Prop :=
  (∀ (s : State) (a : PortAccess), s.port.resetAsserted = false → a.width ≠ .word ∨ a.offset.toNat % 4 ≠ 0 →
    exec (.registerWrite a) s = .next (s.answered .busError)) ∧
  (∀ s : State, s.port.resetAsserted = false →
    (exec (.registerWrite { offset := 0x00, width := .word, kind := .read }) s = .next (s.answered (.value 0x28570003))) ∧
    (exec (.registerWrite { offset := 0x08, width := .word, kind := .read }) s = .next (s.answered (.value
      (BitVec.ofNat 32 (s.port.device.code ||| s.port.faultCode.code <<< 8 ||| reasonCode s.port.client0Reason <<< 16))))) ∧
    (∀ o : BitVec 5, o = 0x04 ∨ o = 0x0C ∨ o = 0x18 ∨ o = 0x1C →
      exec (.registerWrite { offset := o, width := .word, kind := .read }) s = .next (s.answered (.value 0))) ∧
    (∀ (o : BitVec 5) (v : BitVec 32), o = 0x00 ∨ o = 0x08 ∨ o = 0x18 ∨ o = 0x1C →
      exec (.registerWrite { offset := o, width := .word, kind := .write v }) s = .next (s.answered .written)))

/-- The reads of a setup load (R183 to R185, R187): a valid block leads to the first piece of client 0's descriptor, and a valid
descriptor to the settings load and the client-half read. A bus error fails the device with SETUP_READ, a failed test with
SETUP_INVALID, and no setting changes then. That a failed load has no progress left is read from R187 by inference (log entry 24). -/
def Obligations.SetupReadsLeadToTheSettings : Prop :=
  (∀ (s : State) (x : Txn) (bs : List Byte), s.carriesLive x = true → x.op = .setupRead → bs.length = 64 →
    ∃ t, exec (.setupReadComplete (.data bs)) s = .next t ∧ t.store = s.store ∧ t.dir = s.dir ∧ t.unit = s.unit ∧
      t.clients = s.clients ∧ t.slots = s.slots ∧ t.arb = { s.arb with bus := none } ∧
      match readSettings bs with
      | some g => t.port = s.port ∧ t.load = .descriptor g (cutPieces 0 g.descriptor 192 0) [] ∧
          t.intake = { s.intake with fetch := some {
            op := .setupDescriptor, addr := g.descriptor, len := min 192 (256 - g.descriptor.toNat % 256), data := [] } }
      | none => t.port = s.port.failed .setupInvalid none ∧ t.load = .idle) ∧
  (∀ (s : State) (x : Txn) (bs bytes : List Byte) (g : Settings) (p : Piece) (rest : List Piece),
    s.carriesLive x = true → x.op = .setupDescriptor → s.load = .descriptor g (p :: rest) bytes → bs.length = p.len →
    ∃ t, exec (.setupDescriptorPieceComplete (.data bs)) s = .next t ∧ t.clients = s.clients ∧ t.slots = s.slots ∧
      t.arb = { s.arb with bus := none } ∧
      match rest, readDescriptor (bytes ++ bs) with
      | q :: _, _ => t.port = s.port ∧ t.load = .descriptor g rest (bytes ++ bs) ∧ t.store = s.store ∧ t.dir = s.dir ∧
          t.unit = s.unit ∧ t.intake = { s.intake with fetch := some { op := .setupDescriptor, addr := q.addr, len := q.len,
                                                                       data := [] } }
      | [], some d => t.port = s.port ∧ t.load = .half d ∧ t.store = { s.store with reserves := g.reserves } ∧
          t.dir = { s.dir with agingPeriod := g.agingPeriod, agingLimit := g.agingLimit, timer := 0 } ∧
          t.unit = { s.unit with lingerLimit := g.linger } ∧
          t.intake = { s.intake with fetch := some { op := .setupHalf, addr := d.cxb, len := 32, data := [] } }
      | [], none => t.port = s.port.failed .setupInvalid none ∧ t.load = .idle ∧ t.store = s.store ∧ t.dir = s.dir ∧
          t.unit = s.unit) ∧
  (∀ (s : State) (x : Txn), s.carriesLive x = true →
    (x.op = .setupRead → exec (.setupReadComplete .busError) s = .next { s with
      port := s.port.failed .setupRead none, load := .idle, arb := { s.arb with bus := none },
      intake := { s.intake with fetch := none } }) ∧
    (∀ g p rest bytes, x.op = .setupDescriptor → s.load = .descriptor g (p :: rest) bytes →
      exec (.setupDescriptorPieceComplete .busError) s = .next { s with
        port := s.port.failed .setupRead none, load := .idle, arb := { s.arb with bus := none },
        intake := { s.intake with fetch := none } }))

/-- The attach of client 0 in a setup load (R186, R157 to R159): a passed tally check asks for the attach write-back, its
completion makes client 0 ATTACHED and the device RUNNING with the tick started. A fault on the way fails the device with
SUPERVISOR_FAULT, the reason shown, and leaves client 0 as it was; that the failed load has no progress left is read from R187 by
inference (log entry 24). -/
def Obligations.SetupAttachMakesTheDeviceRun : Prop :=
  (∀ (s : State) (x : Txn) (bs : List Byte) (d : Descriptor), s.carriesLive x = true → x.op = .setupHalf →
    s.load = .half d → bs.length = 32 →
    ∃ t, exec (.setupCxbReadComplete (.data bs)) s = .next t ∧ t.store = s.store ∧ t.dir = s.dir ∧ t.clients = s.clients ∧
      t.slots = s.slots ∧ t.arb = { s.arb with bus := none } ∧ t.intake = { s.intake with fetch := none } ∧
      if (readHalf bs).postTally.toNat ≤ d.postSize ∧ (0 - (readHalf bs).retTaken).toNat ≤ d.retSize ∧
          (0 - (readHalf bs).delTaken).toNat ≤ d.delSize then
        t.port = s.port ∧ t.load = .writeBack d (readHalf bs) ∧ t.unit = { s.unit with writer := s.unit.writer ++
          [{ op := .setupWriteBack, addr := d.cxb + 32, len := 32, data := partHalf 0 0 0 .attached none }] }
      else t.port = s.port.failed .supervisorFault (some .tally) ∧ t.load = .idle ∧ t.unit = s.unit) ∧
  (∀ (s : State) (x : Txn) (d : Descriptor), s.carriesLive x = true → x.op = .setupHalf → s.load = .half d →
    exec (.setupCxbReadComplete .busError) s = .next { s with
      port := s.port.failed .supervisorFault (some .cxbRead), load := .idle, arb := { s.arb with bus := none },
      intake := { s.intake with fetch := none } }) ∧
  (∀ (s : State) (x : Txn) (d : Descriptor) (h : ClientHalf), s.carriesLive x = true → x.op = .setupWriteBack →
    s.load = .writeBack d h →
    exec (.setupWriteBackComplete .done) s = .next ({ s with
      clients := s.clients.set 0 (attachedContext d h), load := .idle, arb := { s.arb with bus := none },
      port := { s.port with device := .running, tickRuns := true } } : State).readChoice ∧
    exec (.setupWriteBackComplete .busError) s = .next { s with
      port := s.port.failed .supervisorFault (some .recordWrite), load := .idle, arb := { s.arb with bus := none } })

/-! ## The Intake and client faults (chapters 3 and 4) -/

/-- POST_READ_COMPLETE (R78, R81): for an ATTACHED client without bus error, post taken advances and the command is taken, or ends
at once in common validation; on a bus error the client faults with POST_READ, which for client 0 fails the device; for a client
that has left ATTACHED the record is discarded. In the last cases the client no longer has that slot, its freeing may end HALTING
(R89), every other occupied slot stays, and for a DRAINING client it ends the abort stage of its teardown with the aborted flag
clear (R88, R162). Common validation (R81, R91, R192) first judges a record malformed, with BAD_COMMAND, by its kind, its reserved
bytes, bit 7 of its flags, its fragment count, bits 7:4 of its class and the parcel class of OPEN and SEND; then the kinds 16 to
20 of clients 1 to 7 get NOT_PERMITTED. The model's choices: the subject checks of ATTACH and DETACH are made in those commands'
own steps and not in this event (log entry 10), and client 0's slot becomes FREE although the device fails (log entry 19). -/
def Obligations.PostReadTakesTheCommand : Prop :=
  (∀ (r : PostRecord) (c : ClientId) (malformed : Prop),
    (malformed ↔ ¬ (1 ≤ r.kind.toNat ∧ r.kind.toNat ≤ 10 ∨ 16 ≤ r.kind.toNat ∧ r.kind.toNat ≤ 20) ∨
      r.reserved ≠ 0 ∨ r.reserved2 ≠ 0 ∨ r.flags.getLsbD 7 = true ∨ 4 < r.count.toNat ∨ r.cls.extractLsb' 4 4 ≠ 0 ∨
      (r.kind = 1 ∧ 2 ≤ (r.cls.extractLsb' 0 2).toNat) ∨ (r.kind = 5 ∧ r.cls.extractLsb' 0 2 = 3)) →
    (malformed → r.validate c = some .badCommand) ∧
    (¬ malformed → r.validate c = if 16 ≤ r.kind.toNat ∧ c ≠ 0 then some .notPermitted else none)) ∧
  ∀ (s : State) (x : Txn) (c : ClientId) (i : SlotId), s.carriesLive x = true → x.op = .postRead c i →
    (∀ bs : List Byte, (s.client c).state = .attached → bs.length = 64 →
      ∃ u : State, exec (.postReadComplete (.data bs)) s = .next u.readChoice ∧
        u.clients = s.clients.set c.val { s.client c with
          post := { (s.client c).post with taken := (s.client c).post.taken + 1 } } ∧
        (match (readPost bs).validate c with
          | none => u.slot i = { Slot.initial with state := .performing, client := some c, command := some (readPost bs),
                                                   progress := .taken }
          | some st => u.slot i = { Slot.initial with state := .held, client := some c, command := some (readPost bs),
                                                      completion := some ((readPost bs).completion st 0) }) ∧
        (∀ j, j ≠ i → u.slot j = s.slot j) ∧ u.store = s.store ∧ u.dir = s.dir ∧ u.port = s.port ∧ u.load = s.load ∧
        u.arb = { s.arb with bus := none } ∧ u.intake = { s.intake with fetch := none } ∧ u.pending = s.pending ∧
        u.unit = { s.unit with noticesAhead := if c = 0 ∧ (readPost bs).validate c ≠ none then s.unit.notices.length
          else s.unit.noticesAhead }) ∧
    ((s.client c).state = .attached → c ≠ 0 →
      ∃ t, exec (.postReadComplete .busError) s = .next t ∧ (t.client c).state = .faulted ∧
        (t.client c).reason = some .postRead ∧ (t.client c).post.taken = (s.client c).post.taken ∧
        (t.slot i).client ≠ some c ∧ s.frees t i ∧ t.store = s.store ∧ t.dir = s.dir) ∧
    ((s.client c).state = .attached → c = 0 →
      ∃ t, exec (.postReadComplete .busError) s = .next t ∧ t.port = s.port.failed .supervisorFault (some .postRead) ∧
        (t.client 0).state = .faulted ∧ (t.client 0).reason = some .postRead ∧
        (t.client 0).post.taken = (s.client 0).post.taken ∧ t.slot i = Slot.initial ∧
        t.unit.notices = s.unit.notices ∧ t.store = s.store ∧ t.dir = s.dir) ∧
    (∀ r : ReadOutcome, (s.client c).state ≠ .attached → r.hasLength 64 = true →
      ∃ t, exec (.postReadComplete r) s = .next t ∧ t.clients = s.clients ∧ (t.slot i).client ≠ some c ∧ s.frees t i ∧
        ((s.client c).state = .draining → (s.slot i).client = some c → s.stops t i c false) ∧
        t.store = s.store ∧ t.dir = s.dir ∧ t.unit = s.unit)

/-- CLIENT_HALF_READ_COMPLETE (R65, R66): the tally check, and with it the five values recorded or the client faulted with
TALLY and nothing recorded; a bus error faults with CXB_READ; for a client no longer ATTACHED nothing changes. -/
def Obligations.ClientHalfReadIsJudged : Prop :=
  ∀ (s : State) (x : Txn) (c : ClientId), s.carriesLive x = true → x.op = .clientHalf c →
    (∀ bs : List Byte, bs.length = 32 → (s.client c).state = .attached →
      (((readHalf bs).postTally - (s.client c).post.taken).toNat ≤ (s.client c).post.size ∧
          ((s.client c).ret.claimed - (readHalf bs).retTaken).toNat ≤ (s.client c).ret.size ∧
          ((s.client c).del.claimed - (readHalf bs).delTaken).toNat ≤ (s.client c).del.size →
        exec (.clientHalfReadComplete (.data bs)) s = .next ({ s with
          arb := { s.arb with bus := none }, intake := { s.intake with fetch := none },
          clients := s.clients.set c.val { s.client c with
            post := { (s.client c).post with lastPost := (readHalf bs).postTally },
            ret := { (s.client c).ret with lastTaken := (readHalf bs).retTaken, lastWake := (readHalf bs).retWake },
            del := { (s.client c).del with lastTaken := (readHalf bs).delTaken,
                                           lastWake := (readHalf bs).delWake } } } : State).readChoice) ∧
      (¬ (((readHalf bs).postTally - (s.client c).post.taken).toNat ≤ (s.client c).post.size ∧
          ((s.client c).ret.claimed - (readHalf bs).retTaken).toNat ≤ (s.client c).ret.size ∧
          ((s.client c).del.claimed - (readHalf bs).delTaken).toNat ≤ (s.client c).del.size) →
        exec (.clientHalfReadComplete (.data bs)) s = .next (({ s with
          arb := { s.arb with bus := none },
          intake := { s.intake with fetch := none } } : State).clientFault c .tally).readChoice)) ∧
    ((s.client c).state = .attached →
      exec (.clientHalfReadComplete .busError) s = .next (({ s with
        arb := { s.arb with bus := none },
        intake := { s.intake with fetch := none } } : State).clientFault c .cxbRead).readChoice) ∧
    (∀ r : ReadOutcome, r.hasLength 32 = true → (s.client c).state ≠ .attached →
      exec (.clientHalfReadComplete r) s = .next ({ s with
        arb := { s.arb with bus := none }, intake := { s.intake with fetch := none } } : State).readChoice)

/-- The Intake's choice (R76, R63, R77): the first client in ascending order from the rotating pointer that has an eligible
read is served, its client-half read before its post read, and the pointer moves past it. A post read binds the lowest-numbered
FREE slot. That a client-half read is eligible only for an ATTACHED client is the model's reading of R57 and R58, since R63 speaks
of the two sets alone (log entry 25). While a fetcher transaction is in flight, or outside RUNNING, HALTING and HALTED, none is chosen
(R90). The record at a tally position lies at base + (position modulo size) × slot size (R60); a sum that is no system address is left
open (log entry 2). -/
def Obligations.IntakeServesInRotation : Prop :=
  (∀ (base : Addr) (size slotBytes : Nat) (t : Tally), base.toNat + t.toNat % size * slotBytes < 2 ^ 64 →
    ringAddr base size slotBytes t = base + BitVec.ofNat 64 (t.toNat % size * slotBytes)) ∧
  (∀ s : State, s.intake.fetch ≠ none ∨ s.port.resetAsserted = true ∨
    s.port.device = .off ∨ s.port.device = .loading ∨ s.port.device = .failed → s.readChoice = s) ∧
  ∀ s : State, s.active = true → s.intake.fetch = none →
    (∀ c, s.halfEligible c = ((s.client c).state == .attached && (s.port.device == .running && has s.intake.attendSet c
      || has s.intake.refreshSet c))) ∧
    (∀ c, s.postEligible c = true ↔ s.port.device = .running ∧ (s.client c).state = .attached ∧
      (s.client c).post.lastPost ≠ (s.client c).post.taken ∧
      (∀ i, (s.slot i).state = .free ∨ (s.slot i).client ≠ some c) ∧ ∃ i, (s.slot i).state = .free) ∧
    ((∀ c, s.halfEligible c = false ∧ s.postEligible c = false) → s.readChoice = s) ∧
    (∀ k : Fin 8,
      (∀ j : Fin 8, j < k → s.halfEligible (s.intake.pointer + j) = false ∧ s.postEligible (s.intake.pointer + j) = false) →
      (s.halfEligible (s.intake.pointer + k) = true → s.readChoice = { s with intake := {
        attendSet := without s.intake.attendSet (s.intake.pointer + k),
        refreshSet := without s.intake.refreshSet (s.intake.pointer + k), pointer := s.intake.pointer + k + 1,
        fetch := some { op := .clientHalf (s.intake.pointer + k), addr := (s.client (s.intake.pointer + k)).cxb, len := 32,
                        data := [] } } }) ∧
      (s.halfEligible (s.intake.pointer + k) = false → s.postEligible (s.intake.pointer + k) = true →
        ∀ i : SlotId, (s.slot i).state = .free → (∀ j, j < i → (s.slot j).state ≠ .free) →
        s.readChoice = { s with
          slots := s.slots.set i.val { Slot.initial with state := .bound, client := some (s.intake.pointer + k) },
          intake := { s.intake with
            pointer := s.intake.pointer + k + 1,
            fetch := some {
              op := .postRead (s.intake.pointer + k) i,
              addr := ringAddr (s.client (s.intake.pointer + k)).post.base (s.client (s.intake.pointer + k)).post.size 64
                (s.client (s.intake.pointer + k)).post.taken, len := 64, data := [] } } }))

/-- A client fault (R56, R71, R68): an ATTACHED client 1 to 7 becomes FAULTED with its reason, leaves both sets of the Intake,
and a CLIENT_FAULT notice is queued or counted lost; its waiting write-backs and signals leave the record writer's queue. After
POST_READ, CXB_READ and TALLY a final write-back is owed: it joins the queue in this event if no write of the client is in flight
then, and otherwise waits (`finalDue`, log entry 15). A fault of client 0 fails the device with SUPERVISOR_FAULT and queues no
notice. In every other client state it is ignored. -/
def Obligations.ClientFaultsByState : Prop :=
  ∀ (s : State) (c : ClientId) (reason : FaultReason),
    ((s.client c).state = .attached → c ≠ 0 →
      ((s.clientFault c reason).client c).state = .faulted ∧ ((s.clientFault c reason).client c).reason = some reason ∧
      (∀ d, d ≠ c → (s.clientFault c reason).client d = s.client d) ∧
      (s.clientFault c reason).intake = { s.intake with attendSet := without s.intake.attendSet c,
                                                        refreshSet := without s.intake.refreshSet c } ∧
      (s.unit.notices.length < 8 → (s.clientFault c reason).unit.notices =
          s.unit.notices ++ [{ notice := .clientFault c reason, tick := s.port.tickCount }] ∧
        (s.clientFault c reason).unit.lost = s.unit.lost) ∧
      (8 ≤ s.unit.notices.length → (s.clientFault c reason).unit.notices = s.unit.notices ∧
        (s.clientFault c reason).unit.lost = min (s.unit.lost + 1) 65535) ∧
      (s.clientFault c reason).unit.noticesAhead = s.unit.noticesAhead ∧
      (∀ (owed idle : Prop), (owed ↔ reason = .postRead ∨ reason = .cxbRead ∨ reason = .tally) →
        (idle ↔ ∀ n, ((s.client c).ring n).inFlight = false ∨
          ∃ x ∈ s.unit.writer, x.op = .writeBack c n ∨ x.op = .signal c n) →
        ∀ others, others = s.unit.writer.filter (fun x =>
          !(x.op == .writeBack c .ret || x.op == .signal c .ret || x.op == .writeBack c .del || x.op == .signal c .del)) →
        (owed → idle → ((s.clientFault c reason).client c).finalDue = false ∧ (s.clientFault c reason).unit.writer = others ++
          [{ op := .finalWriteBack c, addr := (s.client c).cxb + 32, len := 32, data := [] }]) ∧
        (owed → ¬ idle → ((s.clientFault c reason).client c).finalDue = true ∧
          (s.clientFault c reason).unit.writer = others) ∧
        (¬ owed → ((s.clientFault c reason).client c).finalDue = false ∧ (s.clientFault c reason).unit.writer = others)) ∧
      (s.clientFault c reason).port = s.port ∧ (s.clientFault c reason).store = s.store ∧
      (s.clientFault c reason).dir = s.dir ∧ (s.clientFault c reason).slots = s.slots ∧
      (s.clientFault c reason).unit.lists = s.unit.lists) ∧
    ((s.client 0).state = .attached →
      ((s.clientFault 0 reason).client 0).state = .faulted ∧ ((s.clientFault 0 reason).client 0).reason = some reason ∧
      (s.clientFault 0 reason).port = s.port.failed .supervisorFault (some reason) ∧
      (s.clientFault 0 reason).unit.notices = s.unit.notices ∧
      (s.clientFault 0 reason).unit.noticesAhead = s.unit.noticesAhead) ∧
    ((s.client c).state ≠ .attached → s.clientFault c reason = s)

/-! ## Building and sending (chapters 1, 5 and 7) -/

/-- OPEN (R92, R3): the FREE record of lowest index becomes a BUILDING parcel of the client, and the completion carries its
handle and the length 0. -/
def Obligations.OpenTakesTheLowestFreeRecord : Prop :=
  ∀ (s : State) (i : SlotId) (c : ClientId) (r : PostRecord) (k : Nat), s.serves i 1 c r = true → k < 1024 →
    (s.store.parcel k).state = .free → (∀ j, j < k → (s.store.parcel j).state ≠ .free) →
    (s.store.account c).held < (s.client c).refLimit →
    ∃ t, exec (.openParcel i) s = .next t ∧
      t.store.parcel k = {
        state := .building, generation := (s.store.parcel k).generation,
        cls := if r.cls.getLsbD 0 || r.cls.getLsbD 1 then .long else .short, length := 0, headOffset := 0, growth := none,
        chain := [], charged := some c, holders := (Vector.replicate 8 0).set c.val 1, refCount := 1 } ∧
      (∀ j, j ≠ k → t.store.parcel j = s.store.parcel j) ∧
      (∀ d, t.store.account d = if d = c then { s.store.account c with held := (s.store.account c).held + 1 }
        else s.store.account d) ∧
      t.store.pools = s.store.pools ∧ t.store.arms = s.store.arms ∧ t.store.reserves = s.store.reserves ∧
      t.store.memory = s.store.memory ∧
      s.ends t i { r.completion .ok 0 with
        handle := BitVec.ofNat 16 ((s.store.parcel k).generation.toNat * 1024 + k), length := 0 } ∧
      s.sameRest t ∧ t.dir = s.dir ∧ t.clients = s.clients

/-- APPEND (R93, R15, R17, R18): a claim that passes takes the needed segments and begins the gather; one of total length 0 is
committed at once and ends with OK and the length as it was. -/
def Obligations.AppendClaimsItsSegments : Prop :=
  ∀ (s : State) (i : SlotId) (c : ClientId) (r : PostRecord) (fr : List Accepted) (p : Parcel) (need : Nat),
    s.serves i 2 c r = true → checkFragments (s.client c).apertures .read r.fragments = .ok fr →
    p = s.store.parcel (handleIndex r.handle) → s.store.resolve r.handle c = none → p.state = .building →
    need = (if p.length + r.totalLength = 0 then 0
      else (p.headOffset + p.length + r.totalLength + p.cls.size - 1) / p.cls.size) - p.chain.length →
    (p.length + r.totalLength = 0 ∨
      (p.headOffset + p.length + r.totalLength + p.cls.size - 1) / p.cls.size ≤ p.cls.maxChain) →
    p.length + r.totalLength ≤ 65535 →
    (need = 0 ∨ ((s.store.account c).charged.get p.cls + need ≤ (s.client c).segLimit.get p.cls ∧
      need ≤ s.store.freeCount p.cls ∧ (c = 0 ∨ need + s.store.reserves.get p.cls ≤ s.store.freeCount p.cls))) →
    (0 < r.totalLength →
      ∃ t, exec (.append i) s = .next t ∧
        s.store.claimsTo t.store (handleIndex r.handle) c need r.totalLength ∧ s.lowWaterNotice t p.cls need ∧
        t.slot i = { s.slot i with
          progress := .moving { handle := r.handle, base := p.length, pieces := runPieces fr 0, length := p.length,
                                total := r.totalLength },
          undo := some { index := handleIndex r.handle, client := c, segments := need, isSend := false } } ∧
        (∀ j, j ≠ i → t.slot j = s.slot j) ∧ t.port = s.port ∧ t.load = s.load ∧ t.arb = s.arb ∧ t.intake = s.intake ∧
        t.dir = s.dir ∧ t.clients = s.clients) ∧
    (r.totalLength = 0 → need = 0 →
      ∃ t, exec (.append i) s = .next t ∧
        (∀ j, t.store.parcel j = if j = handleIndex r.handle then { p with growth := none } else s.store.parcel j) ∧
        t.store.pools = s.store.pools ∧ (∀ d, t.store.account d = s.store.account d) ∧ t.store.arms = s.store.arms ∧
        t.store.memory = s.store.memory ∧ s.ends t i { r.completion .ok 0 with handle := r.handle, length := p.length } ∧
        s.sameRest t ∧ t.dir = s.dir ∧ t.clients = s.clients)

/-- SEND (R106, R107, R3, R17): the class is as named, AUTO choosing SHORT up to 512 bytes; the FREE record of lowest index
becomes a parcel of the sender with the needed segments, and the gather begins; a SEND of no bytes is closed at once. The claim that
leaves the free count below the reserve clears the arm (R26), and nothing of the other class changes. -/
def Obligations.SendClaimsAParcel : Prop :=
  ∀ (s : State) (i : SlotId) (c : ClientId) (r : PostRecord) (fr : List Accepted) (k : Nat) (cls : SegClass) (need : Nat),
    s.serves i 5 c r = true → checkFragments (s.client c).apertures .read r.fragments = .ok fr → k < 1024 →
    (s.store.parcel k).state = .free → (∀ j, j < k → (s.store.parcel j).state ≠ .free) →
    (s.store.account c).held < (s.client c).refLimit →
    cls = (if r.parcelClass = 0 then .short else if r.parcelClass = 1 then .long
      else if r.totalLength ≤ 512 then .short else .long) →
    need = (r.totalLength + cls.size - 1) / cls.size → need ≤ cls.maxChain → r.totalLength ≤ 65535 →
    (need = 0 ∨ ((s.store.account c).charged.get cls + need ≤ (s.client c).segLimit.get cls ∧
      need ≤ s.store.freeCount cls ∧ (c = 0 ∨ need + s.store.reserves.get cls ≤ s.store.freeCount cls))) →
    ∃ t, exec (.send i) s = .next t ∧
      (t.store.parcel k).generation = (s.store.parcel k).generation ∧ (t.store.parcel k).cls = cls ∧
      (t.store.parcel k).length = 0 ∧ (t.store.parcel k).headOffset = 0 ∧ (t.store.parcel k).charged = some c ∧
      (∀ d, (t.store.parcel k).holder d = if d = c then 1 else 0) ∧ (t.store.parcel k).refCount = 1 ∧
      (t.store.parcel k).chain.length = need ∧ (∀ j, j ≠ k → t.store.parcel j = s.store.parcel j) ∧
      t.store.freeCount cls + need = s.store.freeCount cls ∧
      (t.store.account c).held = (s.store.account c).held + 1 ∧
      (t.store.account c).charged.get cls = (s.store.account c).charged.get cls + need ∧
      (∀ d, d ≠ c → t.store.account d = s.store.account d) ∧ t.store.memory = s.store.memory ∧
      (∀ l, l ≠ cls → t.store.freeCount l = s.store.freeCount l ∧ t.store.arms.get l = s.store.arms.get l ∧
        (t.store.account c).charged.get l = (s.store.account c).charged.get l) ∧
      (t.store.arms.get cls = true ↔
        s.store.arms.get cls = true ∧ (need = 0 ∨ s.store.reserves.get cls ≤ t.store.freeCount cls)) ∧
      t.store.reserves = s.store.reserves ∧ s.lowWaterNotice t cls need ∧
      (∀ j, j ≠ i → t.slot j = s.slot j) ∧ t.port = s.port ∧ t.load = s.load ∧ t.arb = s.arb ∧ t.intake = s.intake ∧
      t.dir = s.dir ∧ t.clients = s.clients ∧
      if r.totalLength = 0 then
        (t.store.parcel k).state = .closed ∧ (t.store.parcel k).growth = none ∧
        t.slot i = { s.slot i with progress := .toLookup (makeHandle (s.store.parcel k).generation k) 0 }
      else
        (t.store.parcel k).state = .building ∧ (t.store.parcel k).growth = some r.totalLength ∧
        t.slot i = { s.slot i with
          progress := .moving { handle := makeHandle (s.store.parcel k).generation k, base := 0, pieces := runPieces fr 0,
                                length := 0, total := r.totalLength },
          undo := some { index := k, client := c, segments := need, isSend := true } }

/-- The checks of a claim in their order (R13, R14, R16): the first that fails ends the command with its status and detail, and
nothing else changes. An APPEND to a CLOSED parcel fails with BAD_STATE before them (R93). For OPEN and SEND the record and the
reference limit are tested, for SEND and APPEND the class maximum, the segment limit, the reserve (clients 1 to 7) and the pool; a
claim that needs no segment passes the last three. A SHORT segment has 64 bytes and a LONG one 2048, a parcel at most 64 of the
one or 32 of the other (section 1.1), and the details 2 and 3 name the class (R82). -/
def Obligations.ClaimRefusalsFollowTheOrder : Prop :=
  (SegClass.short.size = 64 ∧ SegClass.short.maxChain = 64 ∧ SegClass.short.detail = 2 ∧
    SegClass.long.size = 2048 ∧ SegClass.long.maxChain = 32 ∧ SegClass.long.detail = 3) ∧
  (∀ (s : State) (i : SlotId) (c : ClientId) (r : PostRecord), s.serves i 1 c r = true →
    ((∀ k, k < 1024 → (s.store.parcel k).state ≠ .free) →
      ∃ t, exec (.openParcel i) s = .next t ∧ s.ends t i (r.completion .noSpace 1) ∧ s.sameBlocks t) ∧
    ((∃ k, k < 1024 ∧ (s.store.parcel k).state = .free) → (s.client c).refLimit ≤ (s.store.account c).held →
      ∃ t, exec (.openParcel i) s = .next t ∧ s.ends t i (r.completion .noQuota 1) ∧ s.sameBlocks t)) ∧
  (∀ (s : State) (i : SlotId) (c : ClientId) (r : PostRecord) (fr : List Accepted), s.serves i 5 c r = true →
    checkFragments (s.client c).apertures .read r.fragments = .ok fr →
    ((∀ k, k < 1024 → (s.store.parcel k).state ≠ .free) →
      ∃ t, exec (.send i) s = .next t ∧ s.ends t i (r.completion .noSpace 1) ∧ s.sameBlocks t) ∧
    ((∃ k, k < 1024 ∧ (s.store.parcel k).state = .free) → (s.client c).refLimit ≤ (s.store.account c).held →
      ∃ t, exec (.send i) s = .next t ∧ s.ends t i (r.completion .noQuota 1) ∧ s.sameBlocks t)) ∧
  (∀ (s : State) (i : SlotId) (c : ClientId) (r : PostRecord) (fr : List Accepted), s.serves i 2 c r = true →
    checkFragments (s.client c).apertures .read r.fragments = .ok fr → s.store.resolve r.handle c = none →
    (s.store.parcel (handleIndex r.handle)).state = .closed →
    ∃ t, exec (.append i) s = .next t ∧ s.ends t i (r.completion .badState 0) ∧ s.sameBlocks t) ∧
  (∀ (s : State) (i : SlotId) (c : ClientId) (r : PostRecord) (fr : List Accepted) (x : Instr) (cls : SegClass)
      (chain growth need : Nat),
    checkFragments (s.client c).apertures .read r.fragments = .ok fr →
    ((x = .append i ∧ s.serves i 2 c r = true ∧ s.store.resolve r.handle c = none ∧
        (s.store.parcel (handleIndex r.handle)).state = .building ∧ cls = (s.store.parcel (handleIndex r.handle)).cls ∧
        growth = (s.store.parcel (handleIndex r.handle)).length + r.totalLength ∧
        chain = (if growth = 0 then 0
          else ((s.store.parcel (handleIndex r.handle)).headOffset + growth + cls.size - 1) / cls.size) ∧
        need = chain - (s.store.parcel (handleIndex r.handle)).chain.length) ∨
      (x = .send i ∧ s.serves i 5 c r = true ∧ (∃ k, k < 1024 ∧ (s.store.parcel k).state = .free) ∧
        (s.store.account c).held < (s.client c).refLimit ∧ cls = r.sendClass ∧ growth = r.totalLength ∧
        chain = (growth + cls.size - 1) / cls.size ∧ need = chain)) →
    (cls.maxChain < chain ∨ 65535 < growth →
      ∃ t, exec x s = .next t ∧ s.ends t i (r.completion .tooLong 0) ∧ s.sameBlocks t) ∧
    (chain ≤ cls.maxChain → growth ≤ 65535 → 0 < need →
      ((s.client c).segLimit.get cls < (s.store.account c).charged.get cls + need →
        ∃ t, exec x s = .next t ∧ s.ends t i (r.completion .noQuota cls.detail) ∧ s.sameBlocks t) ∧
      ((s.store.account c).charged.get cls + need ≤ (s.client c).segLimit.get cls →
        (c ≠ 0 ∧ s.store.freeCount cls < need + s.store.reserves.get cls) ∨ s.store.freeCount cls < need →
        ∃ t, exec x s = .next t ∧ s.ends t i (r.completion .noSpace cls.detail) ∧ s.sameBlocks t)))

/-- CUT (R22, R23, R24, R96): the sole holder's cut moves the head or the tail, the segments passed return to their pool, and the
completion carries the new length. The cut fails with BAD_STATE for any other holder, and with BAD_RANGE beyond the length. -/
def Obligations.CutMovesTheEnds : Prop :=
  ∀ (s : State) (i : SlotId) (c : ClientId) (r : PostRecord) (p : Parcel), s.serves i 3 c r = true →
    p = s.store.parcel (handleIndex r.handle) → s.store.resolve r.handle c = none →
    (p.holder c = 1 → p.refCount = 1 → r.auxA.toNat ≤ p.length →
      ∃ t, exec (.cut i) s = .next t ∧
        (∀ j, j ≠ handleIndex r.handle → t.store.parcel j = s.store.parcel j) ∧
        t.store.parcel (handleIndex r.handle) =
          (if r.auxA.toNat = 0 then p
          else if p.length - r.auxA.toNat = 0 then { p with chain := [], headOffset := 0, length := 0 }
          else if r.flags.getLsbD 6 then
            { p with chain := p.chain.take ((p.headOffset + p.length - r.auxA.toNat + p.cls.size - 1) / p.cls.size),
                     length := p.length - r.auxA.toNat }
          else
            { p with chain := p.chain.drop ((p.headOffset + r.auxA.toNat) / p.cls.size),
                     headOffset := (p.headOffset + r.auxA.toNat) % p.cls.size, length := p.length - r.auxA.toNat }) ∧
        s.store.returns t.store p.cls p.charged
          (p.chain.length - (t.store.parcel (handleIndex r.handle)).chain.length) ∧
        (∀ d, (t.store.account d).held = (s.store.account d).held) ∧
        s.ends t i { r.completion .ok 0 with handle := r.handle, length := p.length - r.auxA.toNat } ∧
        s.sameRest t ∧ t.dir = s.dir ∧ t.clients = s.clients) ∧
    (p.holder c ≠ p.refCount ∨ p.holder c ≠ 1 →
      ∃ t, exec (.cut i) s = .next t ∧ s.ends t i (r.completion .badState 0) ∧ s.sameBlocks t) ∧
    (p.holder c = 1 → p.refCount = 1 → p.length < r.auxA.toNat →
      ∃ t, exec (.cut i) s = .next t ∧ s.ends t i (r.completion .badRange 0) ∧ s.sameBlocks t)

/-- DISPATCH closes its parcel and FORWARD checks it (R104, R110): both go on to the lookup. A CLOSED parcel fails a DISPATCH
and a BUILDING one a FORWARD with BAD_STATE; a FORWARD without a free reference fails with NOT_HELD. -/
def Obligations.DispatchClosesAndForwardChecks : Prop :=
  ∀ (s : State) (i : SlotId) (c : ClientId) (r : PostRecord) (p : Parcel),
    p = s.store.parcel (handleIndex r.handle) → s.store.resolve r.handle c = none →
    (s.serves i 4 c r = true →
      (p.state = .building → ∃ t, exec (.dispatch i) s = .next t ∧
        (∀ j, t.store.parcel j = if j = handleIndex r.handle then { p with state := .closed } else s.store.parcel j) ∧
        t.store.pools = s.store.pools ∧ t.store.accounts = s.store.accounts ∧ t.store.arms = s.store.arms ∧
        t.store.memory = s.store.memory ∧ s.goesOn t i (.toLookup r.handle p.length) ∧ s.sameRest t ∧ t.dir = s.dir ∧
        t.clients = s.clients) ∧
      (p.state = .closed → ∃ t, exec (.dispatch i) s = .next t ∧ s.ends t i (r.completion .badState 0) ∧ s.sameBlocks t)) ∧
    (s.serves i 6 c r = true →
      (p.state = .closed → (s.list c).countP (fun e => e.handle == r.handle) < p.holder c →
        ∃ t, exec (.forward i) s = .next t ∧ s.goesOn t i (.toLookup r.handle p.length) ∧ s.sameBlocks t) ∧
      (p.state = .closed → p.holder c ≤ (s.list c).countP (fun e => e.handle == r.handle) →
        ∃ t, exec (.forward i) s = .next t ∧ s.ends t i (r.completion .notHeld 0) ∧ s.sameBlocks t) ∧
      (p.state = .building → ∃ t, exec (.forward i) s = .next t ∧ s.ends t i (r.completion .badState 0) ∧ s.sameBlocks t))

/-- Resolution (R5): a handle whose record is FREE or of another generation fails with BAD_HANDLE, and one on which the client's
holder count is 0 with NOT_HELD, in CUT, DISPATCH, FORWARD and RELEASE, and in APPEND and FETCH once their fragments have
passed. Nothing else changes. -/
def Obligations.UnresolvedHandlesEndTheCommand : Prop :=
  ∀ (s : State) (i : SlotId) (c : ClientId) (r : PostRecord) (p : Parcel) (st : Status),
    p = s.store.parcel (r.handle.toNat % 1024) →
    (((p.state = .free ∨ p.generation.toNat ≠ r.handle.toNat / 1024) ∧ st = .badHandle) ∨
      (p.state ≠ .free ∧ p.generation.toNat = r.handle.toNat / 1024 ∧ p.holder c = 0 ∧ st = .notHeld)) →
    ∀ x : Instr,
      ((x = .cut i ∧ s.serves i 3 c r = true) ∨ (x = .dispatch i ∧ s.serves i 4 c r = true) ∨
        (x = .forward i ∧ s.serves i 6 c r = true) ∨
        (x = .release i ∧ s.serves i 8 c r = true ∧ 1 ≤ r.auxA.toNat ∧ r.auxA.toNat ≤ 15) ∨
        (x = .append i ∧ s.serves i 2 c r = true ∧
          ∃ fr, checkFragments (s.client c).apertures .read r.fragments = .ok fr) ∨
        (x = .fetch i ∧ s.serves i 7 c r = true ∧
          ∃ fr, checkFragments (s.client c).apertures .write r.fragments = .ok fr)) →
      ∃ t, exec x s = .next t ∧ s.ends t i (r.completion st 0) ∧ s.sameBlocks t

/-- GATHER_PIECE_COMPLETE without bus error (R94, R145, R18, R95, R107): the bytes are written at their parcel positions and
nowhere else; after the last piece the growth is committed, an APPEND ends with the new length and a SEND goes on to its lookup
with its parcel CLOSED. -/
def Obligations.GatherWritesItsBytes : Prop :=
  ∀ (s : State) (x : Txn) (i : SlotId) (c : ClientId) (r : PostRecord) (m : Movement) (p : Piece) (rest : List Piece)
      (g : GrowthClaim) (bs : List Byte) (q : Parcel),
    s.carriesLive x = true → x.op = .gather i → s.works i c r = true → (s.slot i).progress = .moving m →
    m.pieces = p :: rest → (s.slot i).undo = some g → bs.length = p.len → q = s.store.parcel (handleIndex m.handle) →
    q.chain.Nodup → q.headOffset + m.base + p.run + p.len ≤ q.chain.length * q.cls.size →
    ∃ t, exec (.gatherPieceComplete (.data bs)) s = .next t ∧
      readRun q t.store.memory (m.base + p.run) p.len = some bs ∧
      (∀ a, (∀ j, j < p.len → q.byteAddr (q.headOffset + (m.base + p.run + j)) ≠ some a) →
        Memory.read t.store.memory a = Memory.read s.store.memory a) ∧
      t.store.pools = s.store.pools ∧ t.store.accounts = s.store.accounts ∧ t.store.arms = s.store.arms ∧
      t.dir = s.dir ∧ t.clients = s.clients ∧ ({ s with arb := { s.arb with bus := none } } : State).sameRest t ∧
      (rest ≠ [] → t.store.records = s.store.records ∧ s.goesOn t i (.moving { m with pieces := rest })) ∧
      (rest = [] →
        (∀ j, t.store.parcel j = if j = g.index then { s.store.parcel j with
            length := (s.store.parcel j).length + (s.store.parcel j).growth.getD 0, growth := none,
            state := if g.isSend then .closed else (s.store.parcel j).state }
          else s.store.parcel j) ∧
        (g.isSend = false →
          s.ends t i { r.completion .ok 0 with handle := m.handle, length := m.length + m.total }) ∧
        (g.isSend = true → t.slot i = { s.slot i with undo := none, progress := .toLookup m.handle m.total } ∧
          ∀ j, j ≠ i → t.slot j = s.slot j))

/-- A gather that ends in a bus error is undone (R19, R95, R108, R147): the claimed segments leave the chain and return, the length
stays, a SEND's record is freed, and the completion carries BUS_ERROR with the fragment's index. -/
def Obligations.FailedGatherIsUndone : Prop :=
  ∀ (s : State) (x : Txn) (i : SlotId) (c : ClientId) (r : PostRecord) (m : Movement) (p : Piece) (rest : List Piece)
      (g : GrowthClaim) (q : Parcel),
    s.carriesLive x = true → x.op = .gather i → s.works i c r = true → (s.slot i).progress = .moving m →
    m.pieces = p :: rest → (s.slot i).undo = some g → q = s.store.parcel g.index → g.segments ≤ q.chain.length →
    (g.isSend = true → q.chain.length = g.segments ∧ q.holder g.client = 1 ∧ q.refCount = 1) →
    ∃ t, exec (.gatherPieceComplete .busError) s = .next t ∧
      s.ends t i (r.completion .busError p.fragment) ∧ t.dir = s.dir ∧ t.clients = s.clients ∧
      ({ s with arb := { s.arb with bus := none } } : State).sameRest t ∧
      (∀ j, j ≠ g.index → t.store.parcel j = s.store.parcel j) ∧ s.store.returns t.store q.cls q.charged g.segments ∧
      (g.isSend = false → t.store.parcel g.index =
          { q with chain := q.chain.take (q.chain.length - g.segments), growth := none } ∧
        ∀ d, (t.store.account d).held = (s.store.account d).held) ∧
      (g.isSend = true → (t.store.parcel g.index).freedFrom q ∧
        ∀ d, (t.store.account d).held = if d = g.client then (s.store.account d).held - 1 else (s.store.account d).held)

/-- SCATTER_PIECE_COMPLETE (R146, R148, R132): the next piece is asked for; after the last the FETCH ends with OK and the bytes
copied, or goes on to its release-after drop; a bus error ends it with BUS_ERROR and drops no reference. The part's memory does
not change. -/
def Obligations.ScatterEndsTheFetch : Prop :=
  ∀ (s : State) (x : Txn) (i : SlotId) (c : ClientId) (r : PostRecord) (m : Movement) (p : Piece) (rest : List Piece),
    s.carriesLive x = true → x.op = .scatter i → s.works i c r = true → (s.slot i).progress = .moving m →
    m.pieces = p :: rest →
    (∃ t, exec (.scatterPieceComplete .done) s = .next t ∧
      ({ s with arb := { s.arb with bus := none } } : State).sameBlocks t ∧
      (rest ≠ [] → s.goesOn t i (.moving { m with pieces := rest })) ∧
      (rest = [] → r.flags.getLsbD 1 = true → s.goesOn t i (.dropAfter m.handle m.length m.total)) ∧
      (rest = [] → r.flags.getLsbD 1 = false →
        s.ends t i { r.completion .ok 0 with handle := m.handle, length := m.length, copied := m.total })) ∧
    (∃ t, exec (.scatterPieceComplete .busError) s = .next t ∧
      ({ s with arb := { s.arb with bus := none } } : State).sameBlocks t ∧
      s.ends t i (r.completion .busError p.fragment))

/-- The aperture check (R142, R139): the first fragment within the count, of nonzero length, that no aperture with the right
serves ends APPEND, SEND and FETCH with APERTURE and its index before any request; ATTACH and QUERY end so, with detail 0, when
fragment 0 is missing or refused. Nothing else changes. -/
def Obligations.ApertureRefusalsComeFirst : Prop :=
  (∀ (s : State) (i : SlotId) (c : ClientId) (r : PostRecord) (right : Right) (x : Instr) (k : Nat) (f : Fragment)
      (pre post : List (Nat × Fragment)),
    ((x = .append i ∧ right = .read ∧ s.takenCommand i 2 = some (c, r)) ∨
      (x = .send i ∧ right = .read ∧ s.takenCommand i 5 = some (c, r)) ∨
      (x = .fetch i ∧ right = .write ∧ s.takenCommand i 7 = some (c, r))) →
    (s.client c).state ≠ .draining → r.fragments = pre ++ (k, f) :: post →
    (∀ g ∈ pre, g.2.len = 0 ∨ (translate (s.client c).apertures right g.2.addr.toNat g.2.len.toNat).isSome) →
    f.len ≠ 0 → translate (s.client c).apertures right f.addr.toNat f.len.toNat = none →
    ∃ t, exec x s = .next t ∧ s.ends t i (r.completion .aperture k) ∧ s.sameBlocks t) ∧
  (∀ (s : State) (i : SlotId) (c : ClientId) (r : PostRecord), (s.client c).state ≠ .draining →
    (s.takenCommand i 16 = some (c, r) → (∃ d : ClientId, r.subject.toNat = d.val ∧ d ≠ 0 ∧ (s.client d).state = .absent) →
      r.count = 0 ∨ translate (s.client c).apertures .read r.frag0.addr.toNat 192 = none →
      ∃ t, exec (.attach i) s = .next t ∧ s.ends t i (r.completion .aperture 0) ∧ s.sameBlocks t) ∧
    (s.takenCommand i 20 = some (c, r) → r.auxA.toNat ≤ 3 → (r.auxA.toNat = 1 → r.subject.toNat ≤ 7) →
      r.count = 0 ∨ translate (s.client c).apertures .write r.frag0.addr.toNat 64 = none →
      ∃ t, exec (.query i) s = .next t ∧ s.ends t i (r.completion .aperture 0) ∧ s.sameBlocks t))

/-- R139 and R141: a range is served by the lowest-numbered aperture that contains it and carries the right, reckoned without
wrapping, and its system address is the system base plus the distance from the client base. -/
def Obligations.ServingApertureIsTheLowest : Prop :=
  ∀ (apertures : List Aperture) (right : Right) (a n : Nat),
    (∀ k (h : k < apertures.length),
      let w := apertures[k]
      (w.base.toNat ≤ a ∧ a + n ≤ w.base.toNat + w.length.toNat ∧ a + n ≤ 2 ^ 48 ∧
        (right = .read → w.readRight = true) ∧ (right = .write → w.writeRight = true)) →
      (∀ j (hj : j < k), ¬ ((apertures[j]'(by omega)).base.toNat ≤ a ∧
        a + n ≤ (apertures[j]'(by omega)).base.toNat + (apertures[j]'(by omega)).length.toNat ∧ a + n ≤ 2 ^ 48 ∧
        (right = .read → (apertures[j]'(by omega)).readRight = true) ∧
        (right = .write → (apertures[j]'(by omega)).writeRight = true))) →
      translate apertures right a n = some (w.system + BitVec.ofNat 64 (a - w.base.toNat))) ∧
    ((∀ w ∈ apertures, ¬ (w.base.toNat ≤ a ∧ a + n ≤ w.base.toNat + w.length.toNat ∧ a + n ≤ 2 ^ 48 ∧
        (right = .read → w.readRight = true) ∧ (right = .write → w.writeRight = true))) →
      translate apertures right a n = none)

/-- R143: a range is cut into pieces at the multiples of 256, in ascending order, with nothing left out: each piece starts where
the pieces before it end, none crosses a multiple of 256, and each but the first starts on one. The pieces of a command are those
of its fragments of nonzero length within the count, in order, each translated (R141, R142), each where the fragments before it
end in the run; the total length is the sum of the lengths (R91). -/
def Obligations.PiecesCoverTheRange : Prop :=
  (∀ (apertures : List Aperture) (right : Right) (r : PostRecord) (within : List (Nat × Fragment)),
    within = [(0, r.frag0), (1, r.frag1), (2, r.frag2), (3, r.frag3)].take r.count.toNat →
    r.fragments = within ∧ r.totalLength = (within.map (fun x => x.2.len.toNat)).sum ∧
    ∀ fr, checkFragments apertures right r.fragments = .ok fr ↔
      fr.map (fun a => (a.fragment, some a.addr, a.len)) = (within.filter (fun x => x.2.len != 0)).map
        (fun x => (x.1, translate apertures right x.2.addr.toNat x.2.len.toNat, x.2.len.toNat))) ∧
  (∀ fr : List Accepted, runPieces fr 0 =
    fr.zipIdx.flatMap (fun x => cutPieces x.1.fragment x.1.addr x.1.len ((fr.take x.2).map Accepted.len).sum)) ∧
  ∀ (f : Nat) (addr : Addr) (n run : Nat), addr.toNat + n ≤ 2 ^ 64 →
    ((cutPieces f addr n run).map Piece.len).sum = n ∧
    ∀ k p, (cutPieces f addr n run)[k]? = some p →
      p.fragment = f ∧ 1 ≤ p.len ∧ p.addr.toNat % 256 + p.len ≤ 256 ∧ (0 < k → p.addr.toNat % 256 = 0) ∧
      p.addr = addr + BitVec.ofNat 64 (((cutPieces f addr n run).take k).map Piece.len).sum ∧
      p.run = run + (((cutPieces f addr n run).take k).map Piece.len).sum

/-! ## Routing and the directory (chapters 2, 5 and 6) -/

/-- LOOKUP (R33, R34, R97): the route set is the union of the exact entry's set and the sets of every matching pattern, without
the sender unless SELF is set; the candidate is a one-shot RETURN entry's client in that set. Every member will be offered a
delivery in ascending client number. The lookup changes no entry, life or counter. -/
def Obligations.LookupReturnsTheRouteSet : Prop :=
  ∀ (s : State) (i : SlotId) (c : ClientId) (r : PostRecord) (h : Handle) (length : Nat), s.works i c r = true →
    (s.slot i).progress = .toLookup h length →
    ∃ t q, exec (.lookup i) s = .next t ∧ s.sameBlocks t ∧
      s.goesOn t i (if q.routeSet = 0 then .settling q else .offering q) ∧
      (∀ d, has q.routeSet d = true ↔
        ((∃ e, s.dir.entry r.key = some e ∧ has e.kind.set d = true) ∨
          (∃ p ∈ s.dir.patterns, r.key &&& p.mask = p.key ∧ has p.set d = true)) ∧
        (r.flags.getLsbD 0 = true ∨ d ≠ c)) ∧
      (∀ d, q.candidate = some d ↔ has q.routeSet d = true ∧
        ∃ life, s.dir.entry r.key = some { key := r.key, kind := .ret d life true }) ∧
      (∀ d, d ∈ q.toOffer ↔ has q.routeSet d = true) ∧ q.toOffer.Pairwise (· < ·) ∧
      q.routed = 0 ∧ q.refused = 0 ∧ q.settled = false ∧ q.handedOver = false ∧ q.handle = h ∧
      q.length = (if r.kind = 6 then (s.store.parcel (handleIndex h)).length else length)

/-- ADMISSION (R115, R116, R117): the offer is accepted when the target is ATTACHED, holds fewer than 15 references on the
parcel, is below its reference limit and has room in its list. An accepted offer appends one entry and creates one reference; a
refused one changes nothing but the refused counter of a target that is not ABSENT. -/
def Obligations.AdmissionAcceptsOrRefuses : Prop :=
  ∀ (s : State) (i : SlotId) (c : ClientId) (r : PostRecord) (q : Routing) (m : ClientId) (rest : List ClientId) (p : Parcel),
    s.performing i = some (c, r) → (s.slot i).progress = .offering q → q.toOffer = m :: rest →
    p = s.store.parcel (handleIndex q.handle) →
    ((s.client m).state = .attached → p.holder m < 15 → (s.store.account m).held < (s.client m).refLimit →
      (s.list m).length < 32 →
      ∃ t, exec (.admission i) s = .next t ∧
        (∀ j, t.store.parcel j = if j = handleIndex q.handle then
            { p with holders := p.holders.set m.val (p.holder m + 1), refCount := p.refCount + 1 }
          else s.store.parcel j) ∧
        (∀ d, t.store.account d = if d = m then { s.store.account m with held := (s.store.account m).held + 1 }
          else s.store.account d) ∧
        t.store.pools = s.store.pools ∧ t.store.arms = s.store.arms ∧ t.store.memory = s.store.memory ∧
        (∀ d, t.list d = if d = m then s.list m ++ [{
            handle := q.handle, key := r.key, sender := c, cls := r.cls.extractLsb' 2 2,
            reply := if r.flags.getLsbD 2 then some r.auxA else none, tick := s.port.tickCount }]
          else s.list d) ∧
        { t.unit with lists := s.unit.lists } = s.unit ∧
        s.goesOn t i (if rest = [] then .settling { q with toOffer := rest, routed := withClient q.routed m }
          else .offering { q with toOffer := rest, routed := withClient q.routed m }) ∧
        t.port = s.port ∧ t.arb = s.arb ∧ t.intake = s.intake ∧ t.dir = s.dir ∧ t.clients = s.clients) ∧
    (((s.client m).state ≠ .attached ∨ 15 ≤ p.holder m ∨ (s.client m).refLimit ≤ (s.store.account m).held ∨
        32 ≤ (s.list m).length) →
      ∃ t, exec (.admission i) s = .next t ∧ t.store = s.store ∧ t.dir = s.dir ∧ s.sameRest t ∧
        (∀ d, t.client d = if d = m ∧ (s.client m).state ≠ .absent then
            { s.client m with refused := (s.client m).refused + 1 } else s.client d) ∧
        s.goesOn t i (if rest = [] then .settling { q with toOffer := rest, refused := withClient q.refused m }
          else .offering { q with toOffer := rest, refused := withClient q.refused m }))

/-- SETTLEMENT (R35, R36, R37, R101): consumption first, then learning. The one-shot entry of an accepted candidate is removed and
counted; a reply key of a sender that may learn creates or rewrites a RETURN entry with the aging limit as its life, or is
counted as skipped. No other key's entry and no pattern changes. The slot waits for its hand-over, or, when that was answered
first or there is none (a FORWARD that queued nothing, R100), the command ends and with OK the sent counter advances. -/
def Obligations.SettlementConsumesThenLearns : Prop :=
  ∀ (s : State) (i : SlotId) (c : ClientId) (r : PostRecord) (q : Routing), s.dir.exactSound = true →
    s.performing i = some (c, r) → (s.slot i).progress = .settling q → q.settled = false →
    ∀ taken : Bool, (taken = true ↔ ∃ d life, q.candidate = some d ∧ has q.routed d = true ∧
      s.dir.entry r.key = some { key := r.key, kind := .ret d life true }) →
    ∃ t, exec (.settlement i) s = .next t ∧
      (∀ st, st = (if q.routeSet = 0 then .noRoute else if q.routed = 0 then .refused else .ok) →
        (q.handedOver = false → ¬ (r.kind = 6 ∧ st ≠ .ok) →
          s.goesOn t i (.settling { q with settled := true }) ∧ s.sameRest t ∧ t.clients = s.clients) ∧
        (q.handedOver = true ∨ (r.kind = 6 ∧ st ≠ .ok) → (s.client c).state ≠ .draining →
          s.ends t i { r.completion st 0 with handle := q.handle, length := q.length, routed := q.routed,
                                              refused := q.refused } ∧ s.sameRest t ∧
          ∀ d, t.client d = if d = c ∧ st = .ok then { s.client c with sent := (s.client c).sent + 1 } else s.client d)) ∧
      t.store = s.store ∧ t.dir.patterns = s.dir.patterns ∧
      t.dir.agedOut = s.dir.agedOut ∧ t.dir.timer = s.dir.timer ∧
      t.dir.consumed = s.dir.consumed + (if taken then 1 else 0) ∧
      (r.flags.getLsbD 2 = false ∨ (s.client c).learning = false →
        (∀ k, t.dir.entry k = if taken ∧ k = r.key then none else s.dir.entry k) ∧ t.dir.learned = s.dir.learned ∧
        t.dir.learnSkipped = s.dir.learnSkipped) ∧
      (r.flags.getLsbD 2 = true → (s.client c).learning = true →
        (∀ k, k ≠ r.auxA → t.dir.entry k = if taken ∧ k = r.key then none else s.dir.entry k) ∧
        match (if taken ∧ r.auxA = r.key then none else s.dir.entry r.auxA) with
        | some { kind := .ret .., .. } =>
          t.dir.entry r.auxA = some { key := r.auxA, kind := .ret c s.dir.agingLimit (r.flags.getLsbD 3) } ∧
          t.dir.learned = s.dir.learned + 1 ∧ t.dir.learnSkipped = s.dir.learnSkipped
        | some e => t.dir.entry r.auxA = some e ∧ t.dir.learned = s.dir.learned ∧
          t.dir.learnSkipped = s.dir.learnSkipped + 1
        | none =>
          if s.dir.hasRoom r.auxA = true ∨ (taken = true ∧ bucket r.auxA = bucket r.key) then
            t.dir.entry r.auxA = some { key := r.auxA, kind := .ret c s.dir.agingLimit (r.flags.getLsbD 3) } ∧
            t.dir.learned = s.dir.learned + 1 ∧ t.dir.learnSkipped = s.dir.learnSkipped
          else t.dir.entry r.auxA = none ∧ t.dir.learned = s.dir.learned ∧
            t.dir.learnSkipped = s.dir.learnSkipped + 1)

/-- The end of a routing command (R100, R105, R109, R111, R114): the hand-over drops the sender's reference, or reopens the parcel
of a DISPATCH that queued nothing, and for a FORWARD that queued nothing nothing happens. With both answers there the completion
carries the status of R99 and the two sets, and with OK the sent counter advances (R75). All this holds of a sender that has
become DRAINING too, an abort requested or not (R103): its drop or reopening stands, and only its completion is discarded (R87).
-/
def Obligations.HandOverEndsTheRouting : Prop :=
  ∀ (s : State) (i : SlotId) (c : ClientId) (r : PostRecord) (q : Routing) (st : Status), s.performing i = some (c, r) →
    (s.slot i).progress = .settling q →
    st = (if q.routeSet = 0 then .noRoute else if q.routed = 0 then .refused else .ok) →
    (r.kind = 6 → st ≠ .ok → exec (.handOver i) s = .next s) ∧
    (¬ (r.kind = 6 ∧ st ≠ .ok) → q.handedOver = false →
      (r.kind = 4 → st ≠ .ok → ∃ t, exec (.handOver i) s = .next t ∧
        (∀ j, t.store.parcel j = if j = handleIndex q.handle then { s.store.parcel j with state := .building }
          else s.store.parcel j) ∧ t.store.pools = s.store.pools ∧ t.store.accounts = s.store.accounts) ∧
      (¬ (r.kind = 4 ∧ st ≠ .ok) → 1 ≤ (s.store.parcel (handleIndex q.handle)).holder c →
        1 ≤ (s.store.parcel (handleIndex q.handle)).refCount →
        ∃ t, exec (.handOver i) s = .next t ∧ s.store.dropsTo t.store (handleIndex q.handle) c 1) ∧
      ∃ t, exec (.handOver i) s = .next t ∧ t.dir = s.dir ∧
        (q.settled = false →
          s.goesOn t i (.settling { q with handedOver := true }) ∧ s.sameRest t ∧ t.clients = s.clients) ∧
        (q.settled = true →
          (∀ d, t.client d = if d = c ∧ st = .ok then { s.client c with sent := (s.client c).sent + 1 } else s.client d) ∧
          ((s.client c).state ≠ .draining →
            s.ends t i { r.completion st 0 with handle := q.handle, length := q.length, routed := q.routed,
                                                refused := q.refused } ∧ s.sameRest t) ∧
          ((s.client c).state = .draining → s.stops t i c false ∧ t.unit = s.unit)))

/-- FETCH's first step (R130, R132): with a free reference and a range within the length the scatter begins, or with no bytes to
copy the command ends or goes on to its release-after drop. Without a free reference the status is NOT_HELD, beyond the length
BAD_RANGE. The check changes nothing outside its slot. -/
def Obligations.FetchChecksBeforeItScatters : Prop :=
  ∀ (s : State) (i : SlotId) (c : ClientId) (r : PostRecord) (fr : List Accepted) (p : Parcel), s.serves i 7 c r = true →
    checkFragments (s.client c).apertures .write r.fragments = .ok fr → p = s.store.parcel (handleIndex r.handle) →
    s.store.resolve r.handle c = none →
    ∃ t, exec (.fetch i) s = .next t ∧ s.sameBlocks t ∧
      if p.holder c ≤ (s.list c).countP (fun e => e.handle == r.handle) then s.ends t i (r.completion .notHeld 0)
      else if p.length < r.auxA.toNat + r.totalLength then s.ends t i (r.completion .badRange 0)
      else if 0 < r.totalLength then s.goesOn t i (.moving
        { handle := r.handle, base := r.auxA.toNat, pieces := runPieces fr 0, length := p.length, total := r.totalLength })
      else if r.flags.getLsbD 1 then s.goesOn t i (.dropAfter r.handle p.length 0)
      else s.ends t i { r.completion .ok 0 with handle := r.handle, length := p.length, copied := 0 }

/-- RELEASE and the release-after drop (R133, R134, R132, R8, R10): n free references of the client are dropped, the record freed if
they were its last, and the completion says so. n outside 1 to 15 gives BAD_RANGE, fewer free references NOT_HELD. -/
def Obligations.ReleaseDropsReferences : Prop :=
  (∀ (s : State) (i : SlotId) (c : ClientId) (r : PostRecord) (p : Parcel), s.serves i 8 c r = true →
    p = s.store.parcel (handleIndex r.handle) →
    (r.auxA.toNat = 0 ∨ 15 < r.auxA.toNat →
      ∃ t, exec (.release i) s = .next t ∧ s.ends t i (r.completion .badRange 0) ∧ s.sameBlocks t) ∧
    (1 ≤ r.auxA.toNat → r.auxA.toNat ≤ 15 → s.store.resolve r.handle c = none →
      (p.holder c < r.auxA.toNat + (s.list c).countP (fun e => e.handle == r.handle) →
        ∃ t, exec (.release i) s = .next t ∧ s.ends t i (r.completion .notHeld 0) ∧ s.sameBlocks t) ∧
      (r.auxA.toNat + (s.list c).countP (fun e => e.handle == r.handle) ≤ p.holder c → r.auxA.toNat ≤ p.refCount →
        ∃ t, exec (.release i) s = .next t ∧ s.store.dropsTo t.store (handleIndex r.handle) c r.auxA.toNat ∧
          s.ends t i { r.completion .ok 0 with handle := r.handle, holderAfter := p.holder c - r.auxA.toNat,
                                               freed := p.refCount == r.auxA.toNat } ∧
          s.sameRest t ∧ t.dir = s.dir ∧ t.clients = s.clients))) ∧
  (∀ (s : State) (i : SlotId) (c : ClientId) (r : PostRecord) (h : Handle) (length copied : Nat), s.works i c r = true →
    (s.slot i).progress = .dropAfter h length copied → 1 ≤ (s.store.parcel (handleIndex h)).holder c →
    1 ≤ (s.store.parcel (handleIndex h)).refCount →
    ∃ t, exec (.releaseAfterDrop i) s = .next t ∧ s.store.dropsTo t.store (handleIndex h) c 1 ∧
      s.ends t i { r.completion .ok 0 with handle := h, length := length, copied := copied } ∧
      s.sameRest t ∧ t.dir = s.dir ∧ t.clients = s.clients)

/-- Exact SUBSCRIBE and UNSUBSCRIBE (R42, R44, R31): by the entry for the key a JOINED entry is created, joined or left, or the
status tells why not. No other key's entry changes. A free place is one of the four ways of the key's bucket, and the bucket is the
exclusive OR of the key's four bytes (R29, R31). -/
def Obligations.ExactSubscriptionsFollowTheEntry : Prop :=
  (∀ (d : Directory) (k : Key) (n : Nat),
    n = (k.toNat % 256) ^^^ (k.toNat / 2 ^ 8 % 256) ^^^ (k.toNat / 2 ^ 16 % 256) ^^^ (k.toNat / 2 ^ 24) →
    bucket k = n ∧ (d.hasRoom k = true ↔ ∃ way, way < 4 ∧ sparseGet d.exact (n * 4 + way) = none)) ∧
  ∀ (s : State) (i : SlotId) (c : ClientId) (r : PostRecord), r.flags.getLsbD 4 = false → (s.client c).state ≠ .draining →
    s.dir.exactSound = true →
    (s.takenCommand i 9 = some (c, r) →
      ∃ t st set, exec (.subscribe i) s = .next t ∧ s.ends t i { r.completion st 0 with subscribers := set } ∧
        s.sameRest t ∧ t.store = s.store ∧ t.clients = s.clients ∧ s.dir.sameButExact t.dir ∧
        (∀ k, k ≠ r.key → t.dir.entry k = s.dir.entry k) ∧
        match s.dir.entry r.key with
        | some { kind := .joined x, .. } => st = .ok ∧ set = withClient x c ∧
          t.dir.entry r.key = some { key := r.key, kind := .joined (withClient x c) }
        | some { kind := .pinned _, .. } => st = .notPermitted ∧ set = 0 ∧ t.dir = s.dir
        | some { kind := .ret .., .. } => st = .keyInUse ∧ set = 0 ∧ t.dir = s.dir
        | none => if s.dir.hasRoom r.key then st = .ok ∧ set = only c ∧
            t.dir.entry r.key = some { key := r.key, kind := .joined (only c) }
          else st = .tableFull ∧ set = 0 ∧ t.dir = s.dir) ∧
    (s.takenCommand i 10 = some (c, r) →
      ∃ t st set, exec (.unsubscribe i) s = .next t ∧ s.ends t i { r.completion st 0 with subscribers := set } ∧
        s.sameRest t ∧ t.store = s.store ∧ t.clients = s.clients ∧ s.dir.sameButExact t.dir ∧
        (∀ k, k ≠ r.key → t.dir.entry k = s.dir.entry k) ∧
        match s.dir.entry r.key with
        | some { kind := .joined x, .. } =>
          if has x c then st = .ok ∧ set = without x c ∧
            t.dir.entry r.key = (if without x c = 0 then none else some { key := r.key, kind := .joined (without x c) })
          else st = .notFound ∧ set = 0 ∧ t.dir = s.dir
        | some { kind := .pinned _, .. } => st = .notPermitted ∧ set = 0 ∧ t.dir = s.dir
        | _ => st = .notFound ∧ set = 0 ∧ t.dir = s.dir)

/-- Pattern SUBSCRIBE and UNSUBSCRIBE (R43, R45, R32): by the identical pattern in the list one is appended, joined, left or
removed, or the status tells why not. No other pattern and no exact entry changes. -/
def Obligations.PatternSubscriptionsFollowTheList : Prop :=
  ∀ (s : State) (i : SlotId) (c : ClientId) (r : PostRecord), r.flags.getLsbD 4 = true → (s.client c).state ≠ .draining →
    (s.takenCommand i 9 = some (c, r) →
      ∃ t st set, exec (.subscribe i) s = .next t ∧ s.ends t i { r.completion st 0 with subscribers := set } ∧
        s.sameRest t ∧ t.store = s.store ∧ t.clients = s.clients ∧ s.dir.sameButPatterns t.dir ∧
        (∀ m k, ¬ (m = r.auxA ∧ k &&& m = r.key &&& m) → t.dir.pattern m k = s.dir.pattern m k) ∧
        match s.dir.pattern r.auxA r.key with
        | some { kind := .joined, set := x, .. } => st = .ok ∧ set = withClient x c ∧
          t.dir.pattern r.auxA r.key =
            some { key := r.key &&& r.auxA, mask := r.auxA, kind := .joined, set := withClient x c }
        | some { kind := .pinned, .. } => st = .notPermitted ∧ set = 0 ∧ t.dir = s.dir
        | none => if s.dir.patterns.length < 16 then st = .ok ∧ set = only c ∧ t.dir.patterns = s.dir.patterns ++
              [{ key := r.key &&& r.auxA, mask := r.auxA, kind := .joined, set := only c }]
          else st = .tableFull ∧ set = 0 ∧ t.dir = s.dir) ∧
    (s.takenCommand i 10 = some (c, r) →
      ∃ t st set, exec (.unsubscribe i) s = .next t ∧ s.ends t i { r.completion st 0 with subscribers := set } ∧
        s.sameRest t ∧ t.store = s.store ∧ t.clients = s.clients ∧ s.dir.sameButPatterns t.dir ∧
        (∀ m k, ¬ (m = r.auxA ∧ k &&& m = r.key &&& m) → t.dir.pattern m k = s.dir.pattern m k) ∧
        match s.dir.pattern r.auxA r.key with
        | some { kind := .joined, set := x, .. } =>
          if has x c then st = .ok ∧ set = without x c ∧
            t.dir.pattern r.auxA r.key = (if without x c = 0 then none else
              some { key := r.key &&& r.auxA, mask := r.auxA, kind := .joined, set := without x c })
          else st = .notFound ∧ set = 0 ∧ t.dir = s.dir
        | some { kind := .pinned, .. } => st = .notPermitted ∧ set = 0 ∧ t.dir = s.dir
        | none => st = .notFound ∧ set = 0 ∧ t.dir = s.dir)

/-- PIN and UNPIN (R46 to R49): a PIN first judges its client set, then replaces the key's entry or the identical pattern, or
takes a free place; an UNPIN removes only what is PINNED. No other key's entry and no other pattern changes. -/
def Obligations.PinsReplaceAndUnpinsRemove : Prop :=
  ∀ (s : State) (i : SlotId) (c : ClientId) (r : PostRecord), (s.client c).state ≠ .draining → s.dir.exactSound = true →
    (s.takenCommand i 18 = some (c, r) →
      (255 < r.auxB.toNat → ∃ t, exec (.pin i) s = .next t ∧ s.ends t i (r.completion .badRange 0) ∧ s.sameBlocks t) ∧
      (r.auxB.toNat ≤ 255 → (∃ d : ClientId, r.auxB.getLsbD d.val = true ∧ (s.client d).state = .absent) →
        ∃ t, exec (.pin i) s = .next t ∧ s.ends t i (r.completion .badState 0) ∧ s.sameBlocks t) ∧
      (r.auxB.toNat ≤ 255 → (∀ d : ClientId, r.auxB.getLsbD d.val = true → (s.client d).state ≠ .absent) →
        ∃ t st, exec (.pin i) s = .next t ∧ s.sameRest t ∧ t.store = s.store ∧ t.clients = s.clients ∧
          s.ends t i { r.completion st 0 with subscribers := if st = .ok then r.auxB.setWidth 8 else 0 } ∧
          (r.flags.getLsbD 4 = false → s.dir.sameButExact t.dir ∧ (∀ k, k ≠ r.key → t.dir.entry k = s.dir.entry k) ∧
            if (s.dir.entry r.key).isSome ∨ s.dir.hasRoom r.key then
              st = .ok ∧ t.dir.entry r.key = some { key := r.key, kind := .pinned (r.auxB.setWidth 8) }
            else st = .tableFull ∧ t.dir = s.dir) ∧
          (r.flags.getLsbD 4 = true → s.dir.sameButPatterns t.dir ∧
            (∀ m k, ¬ (m = r.auxA ∧ k &&& m = r.key &&& m) → t.dir.pattern m k = s.dir.pattern m k) ∧
            if (s.dir.pattern r.auxA r.key).isSome ∨ s.dir.patterns.length < 16 then
              st = .ok ∧ t.dir.pattern r.auxA r.key =
                some { key := r.key &&& r.auxA, mask := r.auxA, kind := .pinned, set := r.auxB.setWidth 8 }
            else st = .tableFull ∧ t.dir = s.dir))) ∧
    (s.takenCommand i 19 = some (c, r) →
      ∃ t st, exec (.unpin i) s = .next t ∧ s.sameRest t ∧ t.store = s.store ∧ t.clients = s.clients ∧
        s.ends t i (r.completion st 0) ∧
        (r.flags.getLsbD 4 = false → s.dir.sameButExact t.dir ∧ (∀ k, k ≠ r.key → t.dir.entry k = s.dir.entry k) ∧
          match s.dir.entry r.key with
          | some { kind := .pinned _, .. } => st = .ok ∧ t.dir.entry r.key = none
          | some _ => st = .badState ∧ t.dir = s.dir
          | none => st = .notFound ∧ t.dir = s.dir) ∧
        (r.flags.getLsbD 4 = true → s.dir.sameButPatterns t.dir ∧
          (∀ m k, ¬ (m = r.auxA ∧ k &&& m = r.key &&& m) → t.dir.pattern m k = s.dir.pattern m k) ∧
          match s.dir.pattern r.auxA r.key with
          | some { kind := .pinned, .. } => st = .ok ∧ t.dir.pattern r.auxA r.key = none
          | some { kind := .joined, .. } => st = .badState ∧ t.dir = s.dir
          | none => st = .notFound ∧ t.dir = s.dir))

/-- SWEEP (R40, R41): the life of every RETURN entry falls by 1, those whose life becomes 0 are removed and counted as aged out,
and nothing else of the directory changes. Which sweeps are due is the model's own (log entry 6). -/
def Obligations.SweepAgesReturnEntries : Prop :=
  ∀ s : State, s.dir.exactSound = true → s.ticking = true → 0 < s.dir.sweepsDue →
    ∃ t, exec .sweep s = .next t ∧ t.store = s.store ∧ t.clients = s.clients ∧ t.slots = s.slots ∧ t.port = s.port ∧
      t.unit = s.unit ∧ t.arb = s.arb ∧ t.intake = s.intake ∧
      { t.dir with exact := s.dir.exact, sweepsDue := s.dir.sweepsDue, agedOut := s.dir.agedOut } = s.dir ∧
      t.dir.sweepsDue = s.dir.sweepsDue - 1 ∧
      (∀ k, t.dir.entry k = match s.dir.entry k with
        | some { kind := .ret c life once, .. } =>
          if life - 1 = 0 then none else some { key := k, kind := .ret c (life - 1) once }
        | e => e) ∧
      t.dir.agedOut = s.dir.agedOut + BitVec.ofNat 32 (s.dir.exact.countP (fun x =>
        match x.2.kind with | .ret _ life _ => life - 1 == 0 | _ => false))

/-- DIRECTORY_PURGE (R50, R163): the client leaves every set; an emptied JOINED entry or pattern goes, an emptied PINNED one
stays, and the client's RETURN entries go. No counter moves, and the teardown goes on to its pending purge. -/
def Obligations.PurgeTakesTheClientOut : Prop :=
  ∀ (s : State) (i : SlotId) (r : PostRecord) (d : Teardown), s.dir.exactSound = true → s.teardownOf i = some (r, d) →
    d.stage = .directory →
    ∃ t, exec (.directoryPurge i) s = .next t ∧ s.sameRest t ∧ t.store = s.store ∧ t.clients = s.clients ∧
      s.goesOn t i (.teardown { d with stage := .pending }) ∧
      { t.dir with exact := s.dir.exact, patterns := s.dir.patterns } = s.dir ∧
      (∀ k, t.dir.entry k = match s.dir.entry k with
        | some { kind := .ret c life once, .. } =>
          if c = d.subject then none else some { key := k, kind := .ret c life once }
        | some { kind := .joined x, .. } =>
          if without x d.subject = 0 then none else some { key := k, kind := .joined (without x d.subject) }
        | some { kind := .pinned x, .. } => some { key := k, kind := .pinned (without x d.subject) }
        | none => none) ∧
      t.dir.patterns = (s.dir.patterns.filter (fun p => p.kind == .pinned || without p.set d.subject != 0)).map
        (fun p => { p with set := without p.set d.subject }) ∧
      (∀ k, has (t.dir.union k) d.subject = false)

/-! ## The Delivery Unit and the bus (chapters 3, 6, 8 and 9) -/

/-- DELIVERY_CLAIM (R121, R122, R69): the entry of highest class, and of those the one admitted earliest, leaves the list as the
delivery record of the claimed position, with the current delivery sequence; claimed and sequence advance by 1. The claim that
fills the ring adds the client to the refresh set, and the Intake then chooses. Where the position lies in memory (R60, log entry 2) is
said in IntakeServesInRotation. -/
def Obligations.DeliveryClaimTakesTheHighestClass : Prop :=
  ∀ (s : State) (c : ClientId) (k : Nat) (e : PendingEntry), s.active = true → (s.client c).state = .attached →
    ((s.client c).del.claimed - (s.client c).del.lastTaken).toNat < (s.client c).del.size → (s.client c).del.inFlight = false →
    (s.list c)[k]? = some e → (∀ f ∈ s.list c, f.cls.toNat ≤ e.cls.toNat) →
    (∀ j f, j < k → (s.list c)[j]? = some f → f.cls.toNat < e.cls.toNat) →
    ∃ u : State, exec (.deliveryClaim c) s = .next u.readChoice ∧
      (∀ d, u.list d = if d = c then (s.list c).eraseIdx k else s.list d) ∧
      (∀ d, u.client d = if d = c then { s.client c with
          sequence := (s.client c).sequence + 1,
          del := { (s.client c).del with claimed := (s.client c).del.claimed + 1, inFlight := true } }
        else s.client d) ∧
      u.unit.writer = s.unit.writer ++ [{
        op := .record c .del .delivery,
        addr := ringAddr (s.client c).del.base (s.client c).del.size 32 (s.client c).del.claimed, len := 32,
        data := e.bytes (if (s.client c).del.claimed.toNat / (s.client c).del.size % 2 = 0 then 1 else 0)
          (s.store.parcel (handleIndex e.handle)).length (s.client c).sequence s.port.tickCount }] ∧
      u.unit.notices = s.unit.notices ∧
      u.intake = (if ((s.client c).del.claimed + 1 - (s.client c).del.lastTaken).toNat = (s.client c).del.size then
          { s.intake with refreshSet := withClient s.intake.refreshSet c } else s.intake) ∧
      u.store = s.store ∧ u.dir = s.dir ∧ u.slots = s.slots ∧ u.port = s.port ∧ u.arb = s.arb

/-- RETURN_CLAIM (R69, R84, R85, R173): a held completion is claimed and its slot becomes WRITING; for client 0 the notices made
ready before its completion go first, oldest first, each carrying the lost count, which becomes 0. The claim that fills the ring
adds the client to the refresh set (R64), and the Intake then chooses. The model holds R85's order in the field `noticesAhead` of its
own (DEDUCED, log entry 15): forming client 0's completion sets it to the length of the notice list, and a notice queued later, or
counted lost, leaves it alone. Where the position lies in memory (R60, log entry 2) is said in IntakeServesInRotation. -/
def Obligations.ReturnClaimTakesTheOldest : Prop :=
  (∀ (s : State) (i : SlotId) (x : Completion), (s.slot i).client = some 0 → (s.client 0).state ≠ .draining →
    s.ends (s.formCompletion i x) i x ∧
      (s.formCompletion i x).unit = { s.unit with noticesAhead := s.unit.notices.length }) ∧
  (∀ (s : State) (n : Notice), (s.queueNotice n).unit =
    if s.unit.notices.length < 8 then { s.unit with notices := s.unit.notices ++ [{ notice := n, tick := s.port.tickCount }] }
    else { s.unit with lost := min (s.unit.lost + 1) 65535 }) ∧
  ∀ (s : State) (c : ClientId), s.active = true → (s.client c).state = .attached →
    ((s.client c).ret.claimed - (s.client c).ret.lastTaken).toNat < (s.client c).ret.size → (s.client c).ret.inFlight = false →
    (∀ (i : SlotId) (x : Completion), (s.slot i).client = some c → (s.slot i).state = .held →
      (∀ j, j < i → (s.slot j).state = .free ∨ (s.slot j).client ≠ some c) → (s.slot i).completion = some x →
      (c = 0 → s.unit.notices = [] ∨ s.unit.noticesAhead = 0) →
      ∃ u : State, exec (.returnClaim c) s = .next u.readChoice ∧
        u.slot i = { s.slot i with state := .writing } ∧ (∀ j, j ≠ i → u.slot j = s.slot j) ∧
        (∀ d, u.client d = if d = c then { s.client c with
          ret := { (s.client c).ret with claimed := (s.client c).ret.claimed + 1, inFlight := true } } else s.client d) ∧
        u.unit = { s.unit with writer := s.unit.writer ++ [{
          op := .record c .ret (.completion i),
          addr := ringAddr (s.client c).ret.base (s.client c).ret.size 32 (s.client c).ret.claimed, len := 32,
          data := x.bytes (if (s.client c).ret.claimed.toNat / (s.client c).ret.size % 2 = 0 then 1 else 0) }] } ∧
        u.intake = (if ((s.client c).ret.claimed + 1 - (s.client c).ret.lastTaken).toNat = (s.client c).ret.size then
            { s.intake with refreshSet := withClient s.intake.refreshSet c } else s.intake) ∧
        u.store = s.store ∧ u.dir = s.dir ∧ u.port = s.port ∧ u.arb = s.arb) ∧
    (∀ (n : QueuedNotice) (rest : List QueuedNotice), c = 0 → s.unit.notices = n :: rest →
      (s.heldCompletion 0 = none ∨ 0 < s.unit.noticesAhead) →
      ∃ u : State, exec (.returnClaim 0) s = .next u.readChoice ∧ u.slots = s.slots ∧
        (∀ d, u.client d = if d = 0 then { s.client 0 with
          ret := { (s.client 0).ret with claimed := (s.client 0).ret.claimed + 1, inFlight := true } } else s.client d) ∧
        u.unit = { s.unit with
          notices := rest, lost := 0, noticesAhead := s.unit.noticesAhead - 1,
          writer := s.unit.writer ++ [{
            op := .record 0 .ret .notice,
            addr := ringAddr (s.client 0).ret.base (s.client 0).ret.size 32 (s.client 0).ret.claimed, len := 32,
            data := n.bytes (if (s.client 0).ret.claimed.toNat / (s.client 0).ret.size % 2 = 0 then 1 else 0)
              s.unit.lost }] } ∧
        u.intake = (if ((s.client c).ret.claimed + 1 - (s.client c).ret.lastTaken).toNat = (s.client c).ret.size then
            { s.intake with refreshSet := withClient s.intake.refreshSet c } else s.intake) ∧
        u.store = s.store ∧ u.dir = s.dir ∧ u.port = s.port ∧ u.arb = s.arb)

/-- RECORD_WRITE_COMPLETE (R70, R71, R86, R87, R123, R124, R173), by the state of the client. ATTACHED: a written record advances
the written tally (and placed, for a delivery) and asks for a write-back; a failed one faults the client with RECORD_WRITE and
advances nothing; a failed notice write fails the device with NOTICE_WRITE, and client 0's other failures fail it with
SUPERVISOR_FAULT and leave the slots as they are. FAULTED: a written record advances the tally, no write-back of its ring and no
signal follows, and the final write-back follows if it is owed and no other write of the client is in flight (R68). DRAINING:
nothing advances. Outside FAILED the slot of a completion leaves WRITING, whatever the outcome, and the freeing of the last
occupied slot turns HALTING into HALTED (R89, R179, R190); every other occupied slot stays, but that for a DRAINING client the
freeing ends the abort stage of its teardown with the aborted flag clear (R88, R162). A write-back is asked for without its bytes,
which are taken at its grant (log entry 12). -/
def Obligations.RecordWriteAdvancesTheRing : Prop :=
  ∀ (s : State) (x : Txn) (c : ClientId) (n : OutRingName) (what : RecordKind), s.carriesLive x = true →
    x.op = .record c n what →
    ((s.client c).state = .attached →
      ∃ t, exec (.recordWriteComplete .done) s = .next t ∧
        (∀ y, y = (s.client c).setRing n { (s.client c).ring n with written := ((s.client c).ring n).written + 1 } →
          t.client c = if what = .delivery then { y with placed := y.placed + 1 } else y) ∧
        (∀ d, d ≠ c → t.client d = s.client d) ∧ t.store = s.store ∧ t.dir = s.dir ∧ t.arb = { s.arb with bus := none } ∧
        t.unit = { s.unit with writer := s.unit.writer ++
          [{ op := .writeBack c n, addr := (s.client c).cxb + 32, len := 32, data := [] }] } ∧
        (∀ i, what = .completion i → s.frees t i) ∧
        ((∀ i, what ≠ .completion i) → t.slots = s.slots ∧ t.port = s.port)) ∧
    ((s.client c).state = .attached → c ≠ 0 → what ≠ .notice →
      ∃ t, exec (.recordWriteComplete .busError) s = .next t ∧ (t.client c).state = .faulted ∧
        (t.client c).reason = some .recordWrite ∧ ((t.client c).ring n).written = ((s.client c).ring n).written ∧
        ((t.client c).ring n).inFlight = false ∧ (t.client c).finalDue = false ∧
        (t.client c).placed = (s.client c).placed ∧ t.store = s.store ∧ t.dir = s.dir ∧ t.unit.lists = s.unit.lists ∧
        t.unit.writer = s.unit.writer.filter (fun y =>
          !(y.op == .writeBack c .ret || y.op == .signal c .ret || y.op == .writeBack c .del || y.op == .signal c .del)) ∧
        (∀ i, what = .completion i → s.frees t i) ∧
        ((∀ i, what ≠ .completion i) → t.slots = s.slots ∧ t.port = s.port)) ∧
    ((s.client c).state = .attached → c = 0 → what ≠ .notice →
      ∃ t, exec (.recordWriteComplete .busError) s = .next t ∧ t.port = s.port.failed .supervisorFault (some .recordWrite) ∧
        (t.client 0).state = .faulted ∧ ((t.client 0).ring n).written = ((s.client 0).ring n).written ∧ t.slots = s.slots ∧
        t.store = s.store ∧ t.dir = s.dir ∧ t.unit.notices = s.unit.notices) ∧
    ((s.client c).state = .attached → what = .notice →
      ∃ t, exec (.recordWriteComplete .busError) s = .next t ∧ t.port = s.port.failed .noticeWrite none ∧
        (t.client c).state = .attached ∧ t.slots = s.slots ∧ t.unit = s.unit) ∧
    ((s.client c).state = .faulted → ∀ w,
      ∃ t, exec (.recordWriteComplete w) s = .next t ∧
        ((t.client c).ring n).written = ((s.client c).ring n).written + (if w = .done then 1 else 0) ∧
        (t.client c).placed = (s.client c).placed + (if w = .done ∧ what = .delivery then 1 else 0) ∧
        (t.client c).state = .faulted ∧ (∀ d, d ≠ c → t.client d = s.client d) ∧ s.endsWrite t c n ∧ t.store = s.store ∧
        t.dir = s.dir ∧
        (∀ i, what = .completion i → s.frees t i) ∧
        ((∀ i, what ≠ .completion i) → t.slots = s.slots ∧ t.port = s.port)) ∧
    ((s.client c).state = .draining → ∀ w,
      ∃ t, exec (.recordWriteComplete w) s = .next t ∧
        t.client c = (s.client c).setRing n { (s.client c).ring n with inFlight := false } ∧
        (∀ d, d ≠ c → t.client d = s.client d) ∧ t.unit = s.unit ∧ t.store = s.store ∧ t.dir = s.dir ∧
        (∀ i, what = .completion i → s.frees t i ∧ ((s.slot i).client = some c → s.stops t i c false)) ∧
        ((∀ i, what ≠ .completion i) → t.slots = s.slots ∧ t.port = s.port))

/-- WRITE_BACK_COMPLETE and SIGNAL_WRITE_COMPLETE (R72, R73, R71, R68, R187): for an ATTACHED client the signal is due when the
written tally has reached the wake mark and the mark differs from the signalled mark; then the signalled mark takes it and one
4-byte write is asked for, or none with a signal address of 0. A failed write-back faults with RECORD_WRITE, a failed signal
with SIGNAL_WRITE. A bus error on a final write-back is ignored. For a client no longer ATTACHED no test is made and no bus
error counts: the ring's write ends, and the final write-back follows if it is owed and no other write of the client is in
flight. -/
def Obligations.WriteBackTestsForTheSignal : Prop :=
  (∀ (s : State) (x : Txn) (c : ClientId) (n : OutRingName) (g : OutRing), s.carriesLive x = true → x.op = .writeBack c n →
    (s.client c).state = .attached → g = (s.client c).ring n →
    ((g.written - g.lastWake).toNat < 2 ^ 31 → g.lastWake ≠ g.signalled → (s.client c).signalAddr ≠ 0 →
      exec (.writeBackComplete .done) s = .next { s with
        arb := { s.arb with bus := none },
        clients := s.clients.set c.val ((s.client c).setRing n { g with signalled := g.lastWake }),
        unit := { s.unit with writer := s.unit.writer ++ [{
          op := .signal c n, addr := (s.client c).signalAddr, len := 4, data := leBytes 4 (s.client c).signalValue.toNat }] } }) ∧
    ((g.written - g.lastWake).toNat < 2 ^ 31 → g.lastWake ≠ g.signalled → (s.client c).signalAddr = 0 →
      exec (.writeBackComplete .done) s = .next { s with
        arb := { s.arb with bus := none },
        clients := s.clients.set c.val ((s.client c).setRing n { g with signalled := g.lastWake, inFlight := false }) }) ∧
    (2 ^ 31 ≤ (g.written - g.lastWake).toNat ∨ g.lastWake = g.signalled →
      exec (.writeBackComplete .done) s = .next { s with
        arb := { s.arb with bus := none },
        clients := s.clients.set c.val ((s.client c).setRing n { g with inFlight := false }) }) ∧
    (c ≠ 0 → ∃ t, exec (.writeBackComplete .busError) s = .next t ∧ (t.client c).state = .faulted ∧
      (t.client c).reason = some .recordWrite ∧ ((t.client c).ring n).written = g.written) ∧
    (c = 0 → ∃ t, exec (.writeBackComplete .busError) s = .next t ∧ (t.client 0).state = .faulted ∧
      t.port = s.port.failed .supervisorFault (some .recordWrite) ∧ ((t.client 0).ring n).written = g.written)) ∧
  (∀ (s : State) (x : Txn) (c : ClientId) (n : OutRingName) (g : OutRing), s.carriesLive x = true → x.op = .signal c n →
    (s.client c).state = .attached → g = (s.client c).ring n →
    exec (.signalWriteComplete .done) s = .next { s with
      arb := { s.arb with bus := none },
      clients := s.clients.set c.val ((s.client c).setRing n { g with inFlight := false }) } ∧
    (c ≠ 0 → ∃ t, exec (.signalWriteComplete .busError) s = .next t ∧ (t.client c).state = .faulted ∧
      (t.client c).reason = some .signalWrite ∧ ((t.client c).ring n).signalled = g.signalled) ∧
    (c = 0 → ∃ t, exec (.signalWriteComplete .busError) s = .next t ∧ (t.client 0).state = .faulted ∧
      t.port = s.port.failed .supervisorFault (some .signalWrite) ∧ ((t.client 0).ring n).signalled = g.signalled)) ∧
  (∀ (s : State) (x : Txn) (c : ClientId) (n : OutRingName) (w : WriteOutcome) (y : Instr), s.carriesLive x = true →
    (x.op = .writeBack c n ∧ y = .writeBackComplete w ∨ x.op = .signal c n ∧ y = .signalWriteComplete w) →
    (s.client c).state ≠ .attached →
    ∃ t, exec y s = .next t ∧ (t.client c).state = (s.client c).state ∧
      ((t.client c).ring n).signalled = ((s.client c).ring n).signalled ∧ s.endsWrite t c n ∧
      (∀ d, d ≠ c → t.client d = s.client d) ∧ t.store = s.store ∧ t.dir = s.dir ∧ t.slots = s.slots ∧ t.port = s.port) ∧
  (∀ (s : State) (x : Txn) (c : ClientId) (w : WriteOutcome), s.carriesLive x = true → x.op = .finalWriteBack c →
    exec (.writeBackComplete w) s = .next { s with arb := { s.arb with bus := none } })

/-- GRANT (R189, R188): a fetcher that has waited for four grants goes first, then the record writer's oldest transaction, then the
first presenting slot after the slot pointer, then the fetcher. A grant past a waiting fetcher raises the wait count, a grant to
it clears it. The record writer's write-backs carry the part half of their client as it stands at the grant (R68, log entry 12). A
slot presents one transaction by the stage of its command: the next gather piece, or the next scatter piece with the parcel's bytes
at the movement's base and the piece's place in the run (R131, R144 to R146), ATTACH's next descriptor piece or client-half read (R152,
R157), or the next piece of QUERY's report (R153). Where a segment lies in parcel memory is the model's own (log entry 3). -/
def Obligations.GrantChoosesInOrder : Prop :=
  (∀ (s : State) (i : SlotId), s.presents i ≠ .nothing → (s.slot i).state = .performing ∧
    ((∃ m p rest, (s.slot i).progress = .moving m ∧ m.pieces = p :: rest) ∨
      (∃ p rest bytes, (s.slot i).progress = .attachDescriptor (p :: rest) bytes) ∨
      (∃ d, (s.slot i).progress = .attachHalf d) ∨
      ∃ p rest bytes, (s.slot i).progress = .reporting (p :: rest) bytes)) ∧
  (∀ (s : State) (i : SlotId), (s.slot i).state = .performing →
    (∀ m p rest q, (s.slot i).progress = .moving m → m.pieces = p :: rest → q = s.store.parcel (handleIndex m.handle) →
      ((s.slot i).undo ≠ none → s.presents i = .txn { op := .gather i, addr := p.addr, len := p.len, data := [] }) ∧
      ∀ bs : List Byte, (s.slot i).undo = none → bs.length = p.len →
        (∀ j n, j < p.len → n = q.headOffset + (m.base + p.run + j) → ∃ seg, q.chain[n / q.cls.size]? = some seg ∧
          bs[j]? = some (Memory.read s.store.memory (q.cls.segmentBase seg + n % q.cls.size))) →
        s.presents i = .txn { op := .scatter i, addr := p.addr, len := p.len, data := bs }) ∧
    (∀ p rest bytes, (s.slot i).progress = .attachDescriptor (p :: rest) bytes →
      s.presents i = .txn { op := .attachDescriptor i, addr := p.addr, len := p.len, data := [] }) ∧
    (∀ d, (s.slot i).progress = .attachHalf d →
      s.presents i = .txn { op := .attachHalf i, addr := d.cxb, len := 32, data := [] }) ∧
    (∀ p rest bytes, (s.slot i).progress = .reporting (p :: rest) bytes →
      s.presents i = .txn { op := .report i, addr := p.addr, len := p.len, data := (bytes.drop p.run).take p.len })) ∧
  ∀ s : State, s.arb.bus = none → s.port.resetAsserted = false → s.port.device ≠ .failed →
    (∀ t, s.intake.fetch = some t → s.arb.waitCount = 4 →
      exec .grant s = .next { s with arb := { s.arb with waitCount := 0, bus := some { txn := t, stale := false } } }) ∧
    (s.intake.fetch = none ∨ s.arb.waitCount ≠ 4 →
      (∀ t rest issued, s.unit.writer = t :: rest →
        issued = (match t.op with
          | .writeBack c _ | .finalWriteBack c =>
            { op := t.op, addr := t.addr, len := t.len,
              data := partHalf (s.client c).post.taken (s.client c).ret.written (s.client c).del.written (s.client c).state
                (s.client c).reason }
          | _ => t) →
        exec .grant s = .next { s with
          arb := { s.arb with waitCount := if s.intake.fetch.isSome then s.arb.waitCount + 1 else s.arb.waitCount,
                              bus := some { txn := issued, stale := false } },
          unit := { s.unit with writer := rest } }) ∧
      (s.unit.writer = [] →
        (∀ (k : Fin 4) (t : Txn), s.presents (s.arb.slotPointer + 1 + k) = .txn t →
          (∀ j : Fin 4, j < k → s.presents (s.arb.slotPointer + 1 + j) = .nothing) →
          exec .grant s = .next { s with arb := {
            slotPointer := s.arb.slotPointer + 1 + k,
            waitCount := if s.intake.fetch.isSome then s.arb.waitCount + 1 else s.arb.waitCount,
            bus := some { txn := t, stale := false } } }) ∧
        (∀ t, (∀ i, s.presents i = .nothing) → s.intake.fetch = some t →
          exec .grant s = .next { s with arb := { s.arb with waitCount := 0, bus := some { txn := t, stale := false } } })))

/-- LINGER_EXPIRY and PENDING_PURGE (R126, R128, R135, R163): every aged entry, or in a purge every entry, leaves the list, and
one reference of the client is dropped for each in the list's order. An expiry advances expired and the delivery sequence by the
number removed; a purge advances nothing and hands on the entries it removed and the records its drops freed. Which expiries are
due is the model's own (log entry 6). -/
def Obligations.ExpiryAndPurgeEmptyTheList : Prop :=
  (∀ (s : State) (c : ClientId) (n : Nat), s.ticking = true → has s.unit.expiryDue c = true →
    n = (s.list c).countP (fun e => decide (s.unit.lingerLimit ≤ (s.port.tickCount - e.tick).toNat)) →
    ∃ t, exec (.lingerExpiry c) s = .next t ∧
      (∀ d, t.list d = if d = c then
          (s.list c).filter (fun e => decide ((s.port.tickCount - e.tick).toNat < s.unit.lingerLimit)) else s.list d) ∧
      (∀ d, t.client d = if d = c then { s.client c with
          expired := (s.client c).expired + BitVec.ofNat 32 n, sequence := (s.client c).sequence + BitVec.ofNat 32 n }
        else s.client d) ∧
      t.store = (s.store.dropEach c
        ((s.list c).filter (fun e => decide (s.unit.lingerLimit ≤ (s.port.tickCount - e.tick).toNat)))).1 ∧
      t.dir = s.dir ∧ t.slots = s.slots ∧ t.port = s.port ∧ t.arb = s.arb ∧ t.intake = s.intake ∧
      t.unit.writer = s.unit.writer ∧ t.unit.notices = s.unit.notices) ∧
  (∀ (s : State) (i : SlotId) (r : PostRecord) (d : Teardown), s.teardownOf i = some (r, d) → d.stage = .pending →
    ∃ t, exec (.pendingPurge i) s = .next t ∧
      (∀ e, t.list e = if e = d.subject then [] else s.list e) ∧ t.clients = s.clients ∧ t.dir = s.dir ∧
      t.store = (s.store.dropEach d.subject (s.list d.subject)).1 ∧
      s.goesOn t i (.teardown { d with
        stage := .walk 0, entries := (s.list d.subject).length,
        purgeFreed := (s.store.dropEach d.subject (s.list d.subject)).2 }) ∧
      t.port = s.port ∧ t.arb = s.arb ∧ t.intake = s.intake ∧ t.unit.writer = s.unit.writer)

/-- REFERENCE_WALK_VISIT (R27, R164): the client's whole holder count on a live record is dropped, which may free it, and if the
record is still live and charged to the client the charge is taken off; the walk counts what it dropped and freed and goes on to
the next record, after record 1023 to the completion stage. -/
def Obligations.WalkDropsAndUncharges : Prop :=
  ∀ (s : State) (i : SlotId) (r : PostRecord) (d : Teardown) (k : Nat) (p : Parcel), s.teardownOf i = some (r, d) →
    d.stage = .walk k → p = s.store.parcel k → p.holder d.subject ≤ p.refCount → (p.state ≠ .free → 0 < p.refCount) →
    ∃ t freed, exec (.referenceWalkVisit i) s = .next t ∧ s.sameRest t ∧ t.dir = s.dir ∧ t.clients = s.clients ∧
      s.goesOn t i (.teardown { d with
        stage := if k + 1 < 1024 then .walk (k + 1) else .complete,
        walkDropped := d.walkDropped + (if p.state = .free then 0 else p.holder d.subject),
        walkFreed := d.walkFreed + (if freed then 1 else 0) }) ∧
      (freed = true ↔ p.state ≠ .free ∧ p.holder d.subject = p.refCount) ∧
      (∀ j, j ≠ k → t.store.parcel j = s.store.parcel j) ∧
      (p.state = .free → t.store = s.store) ∧
      (freed = true → (t.store.parcel k).freedFrom p ∧
        (t.store.account d.subject).held = (s.store.account d.subject).held - p.holder d.subject ∧
        s.store.returns t.store p.cls p.charged p.chain.length) ∧
      (p.state ≠ .free → freed = false →
        t.store.parcel k = { p with
          holders := p.holders.set d.subject.val 0, refCount := p.refCount - p.holder d.subject,
          charged := if p.charged = some d.subject then none else p.charged } ∧
        (t.store.account d.subject).held = (s.store.account d.subject).held - p.holder d.subject ∧
        (∀ l, (t.store.account d.subject).charged.get l =
          if p.charged = some d.subject ∧ l = p.cls then (s.store.account d.subject).charged.get l - p.chain.length
          else (s.store.account d.subject).charged.get l) ∧
        t.store.pools = s.store.pools ∧ t.store.arms = s.store.arms)

/-! ## Supervision (chapter 8) -/

/-- TEARDOWN_COMPLETION (R165, R54): when the walk has ended and no older transaction on the client's memory is in flight, the
context returns to its reset values, the client is ABSENT, and the completion carries the teardown's counts and aborted flag. That
this is a step of its own, and not part of the event that ends the wait, is the model's choice (log entry 30). -/
def Obligations.TeardownMakesTheClientAbsent : Prop :=
  ∀ (s : State) (i : SlotId) (c : ClientId) (r : PostRecord) (d : Teardown), s.works i c r = true →
    (s.slot i).progress = .teardown d → d.stage = .complete → c ≠ d.subject →
    (∀ b, s.arb.bus = some b → b.stale = true ∨
      (b.txn.op ≠ .clientHalf d.subject ∧ b.txn.op ≠ .finalWriteBack d.subject ∧
        ∀ n, (∀ what, b.txn.op ≠ .record d.subject n what) ∧ b.txn.op ≠ .writeBack d.subject n ∧
          b.txn.op ≠ .signal d.subject n)) →
    ∃ t, exec (.teardownCompletion i) s = .next t ∧ t.client d.subject = Client.initial ∧
      (∀ e, e ≠ d.subject → t.client e = s.client e) ∧ t.store = s.store ∧ t.dir = s.dir ∧ s.sameRest t ∧
      s.ends t i { r.completion .ok 0 with
        aborted := d.aborted, refsDropped := d.entries + d.walkDropped, parcelsFreed := d.purgeFreed + d.walkFreed,
        pendingDropped := d.entries }

/-- ATTACH and its three transactions (R155 to R158, R152): the subject check, the descriptor read and judged, the client half
read and judged, the attach write-back, and the attach commit that makes the client ATTACHED with the completion OK. Until that
commit the Client Table does not change, and each failure ends the command with the status named for it. That the subject check is
made in ATTACH's own step, where R155 puts it in the event at which the command is taken, is the model's choice (log entry 10). -/
def Obligations.AttachGoesThroughItsStages : Prop :=
  (∀ (s : State) (i : SlotId) (c : ClientId) (r : PostRecord), s.takenCommand i 16 = some (c, r) →
    (s.client c).state ≠ .draining →
    ((∀ d : ClientId, r.subject.toNat = d.val → d = 0 ∨ (s.client d).state ≠ .absent) →
      ∃ t, exec (.attach i) s = .next t ∧ s.ends t i (r.completion .badState 0) ∧ s.sameBlocks t) ∧
    (∀ (d : ClientId) (a : Addr), r.subject.toNat = d.val → d ≠ 0 → (s.client d).state = .absent → r.count ≠ 0 →
      translate (s.client c).apertures .read r.frag0.addr.toNat 192 = some a →
      ∃ t, exec (.attach i) s = .next t ∧ s.goesOn t i (.attachDescriptor (cutPieces 0 a 192 0) []) ∧ s.sameBlocks t)) ∧
  (∀ (s : State) (x : Txn) (i : SlotId) (c : ClientId) (r : PostRecord) (p : Piece) (rest : List Piece)
      (bytes bs : List Byte),
    s.carriesLive x = true → x.op = .attachDescriptor i → s.works i c r = true →
    (s.slot i).progress = .attachDescriptor (p :: rest) bytes →
    (bs.length = p.len → ∃ t, exec (.attachDescriptorPieceComplete (.data bs)) s = .next t ∧
      ({ s with arb := { s.arb with bus := none } } : State).sameBlocks t ∧
      match rest, readDescriptor (bytes ++ bs) with
      | _ :: _, _ => s.goesOn t i (.attachDescriptor rest (bytes ++ bs))
      | [], some d => s.goesOn t i (.attachHalf d)
      | [], none => s.ends t i (r.completion .badDescriptor 0)) ∧
    ∃ t, exec (.attachDescriptorPieceComplete .busError) s = .next t ∧
      ({ s with arb := { s.arb with bus := none } } : State).sameBlocks t ∧ s.ends t i (r.completion .busError 0)) ∧
  (∀ (s : State) (x : Txn) (i : SlotId) (c : ClientId) (r : PostRecord) (d : Descriptor) (bs : List Byte),
    s.carriesLive x = true → x.op = .attachHalf i → s.works i c r = true → (s.slot i).progress = .attachHalf d →
    (bs.length = 32 → ∃ t, exec (.attachCxbReadComplete (.data bs)) s = .next t ∧ t.clients = s.clients ∧
      t.store = s.store ∧ t.dir = s.dir ∧ t.intake = s.intake ∧ t.port = s.port ∧
      if (readHalf bs).postTally.toNat ≤ d.postSize ∧ (0 - (readHalf bs).retTaken).toNat ≤ d.retSize ∧
          (0 - (readHalf bs).delTaken).toNat ≤ d.delSize then
        s.goesOn t i (.attachWriteBack d (readHalf bs)) ∧ t.unit = { s.unit with writer := s.unit.writer ++
          [{ op := .attachWriteBack i, addr := d.cxb + 32, len := 32, data := partHalf 0 0 0 .attached none }] }
      else s.ends t i (r.completion .badDescriptor 0)) ∧
    ∃ t, exec (.attachCxbReadComplete .busError) s = .next t ∧
      ({ s with arb := { s.arb with bus := none } } : State).sameBlocks t ∧ s.ends t i (r.completion .busError 4)) ∧
  (∀ (s : State) (x : Txn) (i : SlotId) (c e : ClientId) (r : PostRecord) (d : Descriptor) (h : ClientHalf),
    s.carriesLive x = true → x.op = .attachWriteBack i → s.works i c r = true →
    (s.slot i).progress = .attachWriteBack d h → r.subject.toNat = e.val →
    (∃ u : State, exec (.attachWriteBackComplete .done) s = .next u.readChoice ∧
      s.ends u i (r.completion .ok 0) ∧ (∀ f, f ≠ e → u.client f = s.client f) ∧
      u.client e = {
        state := .attached, reason := none,
        post := { base := d.postBase, size := d.postSize, taken := 0, lastPost := h.postTally },
        ret := { base := d.retBase, size := d.retSize, claimed := 0, written := 0, lastTaken := h.retTaken,
                 lastWake := h.retWake, signalled := 0, inFlight := false },
        del := { base := d.delBase, size := d.delSize, claimed := 0, written := 0, lastTaken := h.delTaken,
                 lastWake := h.delWake, signalled := 0, inFlight := false },
        cxb := d.cxb, signalAddr := d.signalAddr, signalValue := d.signalValue, refLimit := d.refLimit,
        segLimit := d.segLimit, learning := d.learning, apertures := d.apertures, sequence := 0, sent := 0, placed := 0,
        refused := 0, expired := 0, finalDue := false } ∧
      u.store = s.store ∧ u.dir = s.dir) ∧
    ∃ t, exec (.attachWriteBackComplete .busError) s = .next t ∧
      ({ s with arb := { s.arb with bus := none } } : State).sameBlocks t ∧ s.ends t i (r.completion .busError 4))

/-- DETACH (R160, R161, R162, R87, R88, R188): client 0 gives NOT_PERMITTED, a client that does not exist or is ABSENT BAD_STATE.
Otherwise the client becomes DRAINING and leaves both sets, and what waits for its grant on its memory is withdrawn. Its slot is
freed at once if its completion is held, or if its post read, its record write or its data piece was withdrawn, the last with its
growth undone; any other slot has its abort requested. A slot so asked stops at its next abort point (R113, R132, R134, R149): it
sends its undo, forms no completion, becomes FREE and reports the aborted flag. A command that ends first has its completion
discarded, with the flag clear (R87): a subscription, an APPEND, SEND or FETCH refused at its apertures, a RELEASE of a count
outside 1 to 15, a routing command with its last answer, and a FETCH without RELEASE_AFTER at its last piece. What it does to the
store, the directory and the counters is what it does for a client that is ATTACHED. The last piece of a movement is no abort
point (R150): the growth commits, a SEND asked to stop stops before its lookup with its parcel CLOSED, and an APPEND ends; a bus
error on it ends the command as R147 and R148 give. The model's choices: the subject check is made in DETACH's own step, where
R160 puts it in the event of the taking (log entry 10), an abort comes at the slot's next step (log entry 11), and SUBSCRIBE and
UNSUBSCRIBE have no abort point (log entry 9). -/
def Obligations.DetachBeginsTheTeardown : Prop :=
  (∀ (s : State) (i : SlotId) (e : ClientId) (r : PostRecord), s.takenCommand i 17 = some (e, r) →
    (s.client e).state ≠ .draining →
    (r.subject = 0 → ∃ t, exec (.detach i) s = .next t ∧ s.ends t i (r.completion .notPermitted 0) ∧ s.sameBlocks t) ∧
    ((∀ c : ClientId, r.subject.toNat = c.val → c ≠ 0 ∧ (s.client c).state ≠ .attached ∧ (s.client c).state ≠ .faulted) →
      ∃ t, exec (.detach i) s = .next t ∧ s.ends t i (r.completion .badState 0) ∧ s.sameBlocks t) ∧
    (∀ c : ClientId, r.subject.toNat = c.val → c ≠ 0 → (s.client c).state = .attached ∨ (s.client c).state = .faulted →
      e = 0 →
      ∃ t, exec (.detach i) s = .next t ∧ (t.client c).state = .draining ∧
        (t.client c).reason = (s.client c).reason ∧ (t.client c).finalDue = false ∧
        (∀ d, d ≠ c → t.client d = s.client d) ∧
        has t.intake.attendSet c = false ∧ has t.intake.refreshSet c = false ∧ t.dir = s.dir ∧ t.port = s.port ∧
        t.unit.writer = s.unit.writer.filter (fun x => match x.op with
          | .record d _ _ | .writeBack d _ | .finalWriteBack d | .signal d _ => d != c
          | _ => true) ∧
        (∀ x, t.intake.fetch = some x → s.granted (fun o => o = .clientHalf c ∨ ∃ k, o = .postRead c k) ∨
          (x.op ≠ .clientHalf c ∧ ∀ k, x.op ≠ .postRead c k)) ∧
        t.unit.lists = s.unit.lists ∧ t.unit.notices = s.unit.notices ∧
        (∀ k, k ≠ i → (s.slot k).state ≠ .free → (s.slot k).client ≠ some c → (∀ d, (s.slot k).progress ≠ .teardown d) →
          t.slot k = s.slot k) ∧
        ((∀ j, (s.slot j).state = .free ∨ (s.slot j).client ≠ some c) →
          t.store = s.store ∧ (t.slot i).progress = .teardown { Teardown.start c with stage := .directory }) ∧
        (∀ j, (s.slot j).client = some c → (∀ k, k ≠ j → (s.slot k).state = .free ∨ (s.slot k).client ≠ some c) → j ≠ i →
          ∀ stops : Prop, (stops ↔ (s.slot j).state = .held ∨
              ((s.slot j).state = .bound ∧ (∃ x, s.intake.fetch = some x ∧ (x.op = .clientHalf c ∨ ∃ k, x.op = .postRead c k)) ∧
                ¬ s.granted (fun o => o = .clientHalf c ∨ ∃ k, o = .postRead c k)) ∨
              ((s.slot j).state = .writing ∧ ∃ x ∈ s.unit.writer, x.op = .record c .ret (.completion j)) ∨
              ((s.slot j).state = .performing ∧ (∃ m, (s.slot j).progress = .moving m) ∧
                ¬ s.granted (fun o => o = .gather j ∨ o = .scatter j))) →
          (stops →
            (t.slot j).client ≠ some c ∧ (t.slot j).completion = none ∧
            (t.slot i).progress = .teardown { Teardown.start c with
              stage := .directory, aborted := (s.slot j).state == .performing } ∧
            t.store = (match (s.slot j).state, (s.slot j).undo with
              | .performing, some g => s.store.undo g
              | _, _ => s.store)) ∧
          (¬ stops → (s.slot j).state ≠ .free →
            t.store = s.store ∧ t.slot j = { s.slot j with abortRequested := true } ∧
            (t.slot i).progress = .teardown (Teardown.start c))))) ∧
  (∀ (s : State) (i : SlotId) (c : ClientId) (r : PostRecord) (x : Instr), s.performing i = some (c, r) →
    (s.slot i).abortRequested = true → (s.client c).state = .draining →
    ((x = .openParcel i ∧ s.takenCommand i 1 = some (c, r)) ∨ (x = .cut i ∧ s.takenCommand i 3 = some (c, r)) ∨
      (x = .dispatch i ∧ s.takenCommand i 4 = some (c, r)) ∨ (x = .forward i ∧ s.takenCommand i 6 = some (c, r)) ∨
      (x = .append i ∧ s.takenCommand i 2 = some (c, r) ∧
        ∃ fr, checkFragments (s.client c).apertures .read r.fragments = .ok fr) ∨
      (x = .send i ∧ s.takenCommand i 5 = some (c, r) ∧
        ∃ fr, checkFragments (s.client c).apertures .read r.fragments = .ok fr) ∨
      (x = .fetch i ∧ s.takenCommand i 7 = some (c, r) ∧
        ∃ fr, checkFragments (s.client c).apertures .write r.fragments = .ok fr) ∨
      (x = .release i ∧ s.takenCommand i 8 = some (c, r) ∧ 1 ≤ r.auxA.toNat ∧ r.auxA.toNat ≤ 15) ∨
      (x = .lookup i ∧ ∃ h n, (s.slot i).progress = .toLookup h n) ∨
      (x = .releaseAfterDrop i ∧ ∃ h n k, (s.slot i).progress = .dropAfter h n k) ∨
      (∃ o y m p q rest, x = .gatherPieceComplete o ∧ s.carriesLive y = true ∧ y.op = .gather i ∧
        (s.slot i).progress = .moving m ∧ m.pieces = p :: q :: rest ∧ (s.slot i).undo ≠ none) ∨
      (∃ w y m p q rest, x = .scatterPieceComplete w ∧ s.carriesLive y = true ∧ y.op = .scatter i ∧
        (s.slot i).progress = .moving m ∧ m.pieces = p :: q :: rest) ∨
      (∃ y m p, x = .scatterPieceComplete .done ∧ s.carriesLive y = true ∧ y.op = .scatter i ∧
        (s.slot i).progress = .moving m ∧ m.pieces = [p] ∧ r.flags.getLsbD 1 = true)) →
    ∃ t, exec x s = .next t ∧ s.stops t i c true ∧ t.unit = s.unit ∧ t.dir = s.dir ∧ t.clients = s.clients ∧
      t.store = (match (s.slot i).undo with | some g => s.store.undo g | none => s.store)) ∧
  (∀ (s : State) (i : SlotId) (c : ClientId) (r : PostRecord) (x : Instr), s.performing i = some (c, r) →
    (s.client c).state = .draining →
    ((x = .subscribe i ∧ s.takenCommand i 9 = some (c, r)) ∨ (x = .unsubscribe i ∧ s.takenCommand i 10 = some (c, r)) ∨
      (∃ k right, ((x = .append i ∧ s.takenCommand i 2 = some (c, r) ∧ right = .read) ∨
          (x = .send i ∧ s.takenCommand i 5 = some (c, r) ∧ right = .read) ∨
          (x = .fetch i ∧ s.takenCommand i 7 = some (c, r) ∧ right = .write)) ∧
        checkFragments (s.client c).apertures right r.fragments = .error k) ∨
      (x = .release i ∧ s.takenCommand i 8 = some (c, r) ∧ (r.auxA.toNat = 0 ∨ 15 < r.auxA.toNat)) ∨
      (∃ q, x = .settlement i ∧ (s.slot i).progress = .settling q ∧ q.settled = false ∧
        (q.handedOver = true ∨ (r.kind = 6 ∧ (q.routeSet = 0 ∨ q.routed = 0)))) ∨
      (∃ q, x = .handOver i ∧ (s.slot i).progress = .settling q ∧ q.settled = true ∧ q.handedOver = false ∧
        ¬ (r.kind = 6 ∧ (q.routeSet = 0 ∨ q.routed = 0))) ∨
      (∃ y m p, x = .scatterPieceComplete .done ∧ s.carriesLive y = true ∧ y.op = .scatter i ∧
        (s.slot i).progress = .moving m ∧ m.pieces = [p] ∧ r.flags.getLsbD 1 = false)) →
    ∃ t u, exec x s = .next t ∧ s.stops t i c false ∧ t.unit = s.unit ∧
      exec x { s with clients := s.clients.set c.val { s.client c with state := .attached } } = .next u ∧
      t.store = u.store ∧ t.dir = u.dir ∧
      ∀ d, t.client d = if d = c then { u.client c with state := .draining } else u.client d) ∧
  (∀ (s : State) (x : Txn) (i : SlotId) (c : ClientId) (r : PostRecord) (m : Movement) (p : Piece), s.carriesLive x = true →
    s.performing i = some (c, r) → (s.client c).state = .draining → (s.slot i).progress = .moving m → m.pieces = [p] →
    (∀ g, x.op = .gather i → (s.slot i).undo = some g →
      (∀ (bs : List Byte) (q : Parcel), bs.length = p.len → q = s.store.parcel (handleIndex m.handle) → q.chain.Nodup →
        q.headOffset + m.base + p.run + p.len ≤ q.chain.length * q.cls.size →
        (g.isSend = true → (s.slot i).abortRequested = true) →
        ∃ t, exec (.gatherPieceComplete (.data bs)) s = .next t ∧ s.stops t i c g.isSend ∧
          readRun q t.store.memory (m.base + p.run) p.len = some bs ∧
          (∀ j, t.store.parcel j = if j = g.index then { s.store.parcel j with
              length := (s.store.parcel j).length + (s.store.parcel j).growth.getD 0, growth := none,
              state := if g.isSend then .closed else (s.store.parcel j).state }
            else s.store.parcel j) ∧
          t.store.pools = s.store.pools ∧ t.store.accounts = s.store.accounts ∧ t.unit = s.unit ∧ t.dir = s.dir ∧
          t.clients = s.clients) ∧
      ∃ t, exec (.gatherPieceComplete .busError) s = .next t ∧ s.stops t i c false ∧ t.store = s.store.undo g ∧
        t.unit = s.unit ∧ t.dir = s.dir ∧ t.clients = s.clients) ∧
    (x.op = .scatter i → ∃ t, exec (.scatterPieceComplete .busError) s = .next t ∧ s.stops t i c false ∧
      t.store = s.store ∧ t.unit = s.unit ∧ t.dir = s.dir ∧ t.clients = s.clients))

/-- QUERY and its reads and writes (R167 to R171, R52, R153): the subject's checks, the report formed by its reads without
changing anything, the report written, then any clear of the four counters and the completion with the subject code. A bus error
ends the command with BUS_ERROR and no clear. A KEY report holds the kind, set, life and once flag of the key's exact entry and
its route set with no client removed, a DIRECTORY report the exact entries of each kind, the patterns and the four counters. The
table has rows for the second read of a CLIENT report alone: that the first is made in QUERY's own event, which allows fewer
orders than R169 (unsafe), and that the third is COUNT_READ taken again (safe), are the model's reading of it (DEDUCED, log entry
8). -/
def Obligations.QueryFormsAndWritesItsReport : Prop :=
  (∀ (s : State) (i : SlotId) (c : ClientId) (r : PostRecord), s.takenCommand i 20 = some (c, r) →
    (s.client c).state ≠ .draining →
    (3 < r.auxA.toNat ∨ (r.auxA.toNat = 1 ∧ 7 < r.subject.toNat) →
      ∃ t, exec (.query i) s = .next t ∧ s.ends t i (r.completion .badRange 0) ∧ s.sameBlocks t) ∧
    (∀ a, r.auxA.toNat ≤ 3 → (r.auxA.toNat = 1 → r.subject.toNat ≤ 7) → r.count ≠ 0 →
      translate (s.client c).apertures .write r.frag0.addr.toNat 64 = some a →
      ∃ t q, exec (.query i) s = .next t ∧ s.goesOn t i (.query a q) ∧ s.sameBlocks t ∧
        (r.auxA.toNat = 0 → q = .pool) ∧ (2 ≤ r.auxA.toNat → q = .directory) ∧
        (∀ d : ClientId, r.auxA.toNat = 1 → r.subject.toNat = d.val → q = .clientStore d {
          state := (s.client d).state, reason := (s.client d).reason, refLimit := (s.client d).refLimit,
          segLimit := (s.client d).segLimit, sent := (s.client d).sent, placed := (s.client d).placed,
          refused := (s.client d).refused, expired := (s.client d).expired }))) ∧
  (∀ (s : State) (i : SlotId) (c : ClientId) (r : PostRecord) (a : Addr) (q : QueryStage), s.works i c r = true →
    (s.slot i).progress = .query a q →
    (q ≠ .directory → ∃ t, exec (.countRead i) s = .next t ∧ s.sameBlocks t ∧
      (s.store.recordsWf = true → ∀ live : List Nat, live.Nodup → (∀ k, k ∈ live ↔ (s.store.parcel k).state ≠ .free) →
        s.store.liveCount = live.length) ∧
      (q = .pool → s.goesOn t i (.reporting (cutPieces 0 a 64 0)
        (poolReport (s.store.freeCount .short) (s.store.freeCount .long) s.store.liveCount s.store.reserves s.store.arms))) ∧
      (∀ d ctx, q = .clientStore d ctx → s.goesOn t i (.query a (.clientUnit d ctx (s.store.account d)))) ∧
      (∀ d ctx acc, q = .clientUnit d ctx acc → s.goesOn t i (.reporting (cutPieces 0 a 64 0)
        (clientReport d ctx acc (s.list d).length)))) ∧
    (q = .directory → ∃ t, exec (.reportRead i) s = .next t ∧ s.sameBlocks t ∧
      (r.auxA.toNat = 2 → ∀ (code life : Nat) (set route : ClientSet) (once : Bool),
        (match s.dir.entry r.key with
          | none => code = 0 ∧ set = 0 ∧ life = 0 ∧ once = false
          | some { kind := .pinned x, .. } => code = 1 ∧ set = x ∧ life = 0 ∧ once = false
          | some { kind := .joined x, .. } => code = 2 ∧ set = x ∧ life = 0 ∧ once = false
          | some { kind := .ret d n o, .. } => code = 3 ∧ set = only d ∧ life = n ∧ once = o) →
        (∀ d, has route d = true ↔
          has set d = true ∨ ∃ p ∈ s.dir.patterns, r.key &&& p.mask = p.key ∧ has p.set d = true) →
        s.goesOn t i (.reporting (cutPieces 0 a 64 0) (keyReport r.key code set life once route))) ∧
      (r.auxA.toNat = 3 → s.goesOn t i (.reporting (cutPieces 0 a 64 0) (directoryReport
        (s.dir.exact.countP (fun x => match x.2.kind with | .pinned _ => true | _ => false))
        (s.dir.exact.countP (fun x => match x.2.kind with | .joined _ => true | _ => false))
        (s.dir.exact.countP (fun x => match x.2.kind with | .ret .. => true | _ => false))
        s.dir.patterns.length s.dir.learned s.dir.learnSkipped s.dir.agedOut s.dir.consumed))))) ∧
  (∀ (s : State) (x : Txn) (i : SlotId) (c : ClientId) (r : PostRecord) (p : Piece) (rest : List Piece) (bytes : List Byte)
      (clear : Bool),
    s.carriesLive x = true → x.op = .report i → s.works i c r = true →
    (s.slot i).progress = .reporting (p :: rest) bytes →
    clear = (r.auxA.toNat == 1 && r.flags.getLsbD 5) → (clear = true → r.subject.toNat ≤ 7) →
    (∃ t, exec (.reportWritePieceComplete .done) s = .next t ∧ t.store = s.store ∧ t.dir = s.dir ∧
      ({ s with arb := { s.arb with bus := none } } : State).sameRest t ∧
      (rest ≠ [] → s.goesOn t i (.reporting rest bytes) ∧ t.clients = s.clients) ∧
      (rest = [] →
        s.ends t i { r.completion .ok 0 with subject := BitVec.ofNat 8 r.auxA.toNat, cleared := clear } ∧
        ∀ d, t.client d = if clear = true ∧ r.subject.toNat = d.val then
          { s.client d with sent := 0, placed := 0, refused := 0, expired := 0 } else s.client d)) ∧
    ∃ t, exec (.reportWritePieceComplete .busError) s = .next t ∧
      ({ s with arb := { s.arb with bus := none } } : State).sameBlocks t ∧ s.ends t i (r.completion .busError 0))

/-! ## Records (chapter 10) -/

/-- A post record, its 64 bytes laid out as section 10.2 gives them, byte by byte, is read back field by field (R192). -/
def Obligations.PostRecordsReadBack : Prop :=
  ∀ r : PostRecord, (writePost r).length = 64 ∧ readPost (writePost r) = r ∧
    writePost r = [r.kind, r.flags, r.cls, r.count] ++ wordBytes r.tag ++ pairBytes r.handle.toNat ++ [r.subject, r.reserved] ++
      wordBytes r.key ++ wordBytes r.auxA ++ wordBytes r.auxB ++ quadBytes r.reserved2 ++ r.frag0.layout ++ r.frag1.layout ++
      r.frag2.layout ++ r.frag3.layout

/-- Client descriptors (R156, R137, R194, section 10.6): 192 bytes are accepted as a descriptor exactly when the descriptor passes
every test and the bytes, those of aperture entries at or beyond the count apart, are the descriptor as section 10.6 lays it out, byte
by byte, reserved bytes zero. So a valid one is read back whole, and whatever is read passes every test. -/
def Obligations.ValidDescriptorsReadBack : Prop :=
  (∀ d : Descriptor, d.valid = true → (writeDescriptor d).length = 192 ∧ readDescriptor (writeDescriptor d) = some d ∧
    writeDescriptor d = quadBytes d.postBase ++ quadBytes d.retBase ++ quadBytes d.delBase ++ pairBytes d.postSize ++
      pairBytes d.retSize ++ pairBytes d.delSize ++ [if d.learning then 1 else 0, BitVec.ofNat 8 d.apertures.length] ++
      quadBytes d.cxb ++ quadBytes d.signalAddr ++ wordBytes d.signalValue ++ pairBytes d.refLimit ++
      pairBytes d.segLimit.short ++ pairBytes d.segLimit.long ++ List.replicate 6 0 ++ d.apertures.flatMap Aperture.layout ++
      List.replicate (128 - 32 * d.apertures.length) 0) ∧
  (∀ (bs : List Byte) (d : Descriptor), bs.length = 192 →
    (readDescriptor bs = some d ↔ d.valid = true ∧
      bs.take (64 + 32 * d.apertures.length) = (writeDescriptor d).take (64 + 32 * d.apertures.length))) ∧
  (∀ d : Descriptor, d.valid = true ↔
    (∀ n, n = d.postSize ∨ n = d.retSize ∨ n = d.delSize → ∃ k, 4 ≤ k ∧ k ≤ 12 ∧ n = 2 ^ k) ∧
    (∀ a, a = d.postBase ∨ a = d.retBase ∨ a = d.delBase ∨ a = d.cxb → a.toNat % 64 = 0) ∧ d.signalAddr.toNat % 4 = 0 ∧
    1 ≤ d.refLimit ∧ d.refLimit ≤ 1024 ∧ d.segLimit.short ≤ 2048 ∧ d.segLimit.long ≤ 192 ∧ d.apertures.length ≤ 4 ∧
    ∀ a ∈ d.apertures, 1 ≤ a.length.toNat ∧ a.base.toNat + a.length.toNat ≤ 2 ^ 48 ∧
      a.system.toNat + a.length.toNat ≤ 2 ^ 64 ∧ (a.readRight = true ∨ a.writeRight = true))

/-- Setup blocks and client halves are read as sections 10.5 and 10.7 lay them out: 64 bytes are accepted as a setup block exactly
when they are the layout of settings within their ranges, signature and version right and reserved bytes zero (R184, R194); bytes
20 to 31 of a client half are ignored (R193). And the records the part writes are laid out as sections 10.3 to 10.5 and 10.8 give
them, byte by byte, with the codes of statuses and reasons (R82, 10.3), of client states (10.5, 10.8), of device states and device
faults (9.1, R176) and of entry kinds (10.8), and every byte not named 0 (R193, R168 to R170). A completion without result fields
copies kind and tag, carries the status and detail it is given, and leaves every other field 0 but the subject of ATTACH and
DETACH, which is the record's (R83, section 10.3; for every status, log entry 22). -/
def Obligations.SetupBlocksAndHalvesReadBack : Prop :=
  (∀ g : Settings, g.valid = true → (writeSettings g).length = 64 ∧ readSettings (writeSettings g) = some g) ∧
  (∀ g : Settings, writeSettings g = [0x47, 0x48, 0x32, 0x38, 1, 0] ++ pairBytes g.agingPeriod ++
    [BitVec.ofNat 8 g.agingLimit, 0] ++ pairBytes g.linger ++ pairBytes g.reserves.short ++
    [BitVec.ofNat 8 g.reserves.long, 0] ++ quadBytes g.descriptor ++ List.replicate 40 0) ∧
  (∀ (bs : List Byte) (g : Settings), bs.length = 64 → (readSettings bs = some g ↔ g.valid = true ∧ bs = writeSettings g)) ∧
  (∀ g : Settings, g.valid = true ↔ g.agingPeriod ≤ 65535 ∧ 1 ≤ g.agingLimit ∧ g.agingLimit ≤ 255 ∧ g.linger ≤ 65535 ∧
    g.reserves.short ≤ 512 ∧ g.reserves.long ≤ 48 ∧ g.descriptor.toNat + 192 ≤ 2 ^ 64) ∧
  (∀ (h : ClientHalf) (own : List Byte), readHalf (writeHalf h ++ own) = h ∧
    writeHalf h = wordBytes h.postTally ++ wordBytes h.retTaken ++ wordBytes h.delTaken ++ wordBytes h.retWake ++
      wordBytes h.delWake) ∧
  (∀ (r : PostRecord) (st : Status) (detail : Nat), r.completion st detail = {
    kind := r.kind, status := st, tag := r.tag, detail := detail, handle := 0, length := 0, routed := 0, refused := 0, copied := 0,
    subject := if r.kind = 16 ∨ r.kind = 17 then r.subject else 0, subscribers := 0, holderAfter := 0, freed := false,
    aborted := false, cleared := false, refsDropped := 0, parcelsFreed := 0, pendingDropped := 0 }) ∧
  (∀ (x : Completion) (lap : Byte), x.bytes lap =
    [1, lap, x.kind, BitVec.ofNat 8 x.status.code] ++ wordBytes x.tag ++ [BitVec.ofNat 8 x.detail, 0] ++
      pairBytes x.handle.toNat ++ pairBytes x.length ++ [x.routed, x.refused] ++ wordBytes (BitVec.ofNat 32 x.copied) ++
      [x.subject, x.subscribers, BitVec.ofNat 8 x.holderAfter,
        (if x.freed then 1 else 0) ||| (if x.aborted then 2 else 0) ||| (if x.cleared then 4 else 0)] ++
      pairBytes x.refsDropped ++ pairBytes x.parcelsFreed ++ [BitVec.ofNat 8 x.pendingDropped, 0, 0, 0]) ∧
  (∀ (c : ClientId) (reason : FaultReason) (tick : Tally) (lap : Byte) (lost : Nat),
    QueuedNotice.bytes { notice := .clientFault c reason, tick := tick } lap lost =
      [2, lap, 1, 0] ++ wordBytes tick ++ [BitVec.ofNat 8 c.val, BitVec.ofNat 8 (reasonCode (some reason)), 0, 0] ++
        pairBytes lost ++ List.replicate 18 0) ∧
  (∀ (k : SegClass) (free : Nat) (tick : Tally) (lap : Byte) (lost : Nat),
    QueuedNotice.bytes { notice := .poolLow k free, tick := tick } lap lost =
      [2, lap, 2, 0] ++ wordBytes tick ++ [if k = .short then 0 else 1, 0] ++ pairBytes free ++ pairBytes lost ++
        List.replicate 18 0) ∧
  (∀ (e : PendingEntry) (lap : Byte) (length : Nat) (sequence now : Tally), e.bytes lap length sequence now =
    [3, lap, BitVec.ofNat 8 e.sender.val, e.cls.setWidth 8 ||| (if e.reply = none then 0 else 16)] ++
      pairBytes e.handle.toNat ++ pairBytes length ++ wordBytes e.key ++ wordBytes (e.reply.getD 0) ++ wordBytes sequence ++
      pairBytes (min (now - e.tick).toNat 65535) ++ List.replicate 10 0) ∧
  (∀ (taken ret del : Tally) (state : ClientState) (reason : Option FaultReason), partHalf taken ret del state reason =
    wordBytes taken ++ wordBytes ret ++ wordBytes del ++
      [BitVec.ofNat 8 state.code, BitVec.ofNat 8 (reasonCode reason)] ++ List.replicate 18 0) ∧
  (∀ (short long live : Nat) (reserves : PerClass Nat) (arms : PerClass Bool),
    poolReport short long live reserves arms =
      [0, 0, 0, 0] ++ pairBytes short ++ pairBytes long ++ pairBytes live ++ pairBytes reserves.short ++
        [BitVec.ofNat 8 reserves.long, (if arms.short then 1 else 0) ||| (if arms.long then 2 else 0)] ++
        List.replicate 50 0) ∧
  (∀ (c : ClientId) (x : ContextReport) (a : Account) (n : Nat), clientReport c x a n =
    [1, BitVec.ofNat 8 c.val, BitVec.ofNat 8 x.state.code, BitVec.ofNat 8 (reasonCode x.reason)] ++ pairBytes a.held ++
      pairBytes a.charged.short ++ [BitVec.ofNat 8 a.charged.long, BitVec.ofNat 8 n] ++ pairBytes x.refLimit ++
      pairBytes x.segLimit.short ++ [BitVec.ofNat 8 x.segLimit.long, 0] ++ wordBytes x.sent ++ wordBytes x.placed ++
      wordBytes x.refused ++ wordBytes x.expired ++ List.replicate 32 0) ∧
  (∀ (key : Key) (kind : Nat) (set : ClientSet) (life : Nat) (once : Bool) (route : ClientSet),
    keyReport key kind set life once route =
      [2, 0, 0, 0] ++ wordBytes key ++ [BitVec.ofNat 8 kind, set, BitVec.ofNat 8 life, if once then 1 else 0, route] ++
        List.replicate 51 0) ∧
  (∀ (pinned joined ret patterns : Nat) (learned skipped aged consumed : Tally),
    directoryReport pinned joined ret patterns learned skipped aged consumed =
      [3, 0, 0, 0] ++ pairBytes pinned ++ pairBytes joined ++ pairBytes ret ++ [BitVec.ofNat 8 patterns, 0] ++
        wordBytes learned ++ wordBytes skipped ++ wordBytes aged ++ wordBytes consumed ++ List.replicate 36 0) ∧
  [Status.ok, .badCommand, .notPermitted, .badHandle, .notHeld, .badState, .badRange, .tooLong, .noQuota, .noSpace, .aperture,
    .busError, .noRoute, .refused, .tableFull, .keyInUse, .notFound, .badDescriptor].map Status.code = List.range 18 ∧
  [none, some FaultReason.postRead, some .cxbRead, some .recordWrite, some .signalWrite, some .tally].map reasonCode =
    List.range 6 ∧
  [ClientState.absent, .attached, .faulted, .draining].map ClientState.code = List.range 4 ∧
  [DeviceState.off, .loading, .running, .halting, .halted, .failed].map DeviceState.code = List.range 6 ∧
  [DeviceFault.none, .setupRead, .setupInvalid, .supervisorFault, .noticeWrite].map DeviceFault.code = List.range 5 ∧
  (∀ (x : ClientSet) (c : ClientId) (life : Nat) (once : Bool),
    [ExactKind.pinned x, .joined x, .ret c life once].map ExactKind.code = [1, 2, 3])

/-! ## What every step keeps -/

/-- The directory stays as R29 to R32 shape it: each entry in its key's bucket, no key in two entries, at most four entries a
bucket, a JOINED entry or pattern with a member, at most sixteen patterns with no two identical; and every life is at least 1. -/
def Obligations.DirectoryStaysSound : Prop :=
  ∀ s t : State, s.directorySound = true → step s = .next t → t.directorySound = true

/-- Every segment stays in its class's pool or in one chain (R2), every reference count stays the sum of eight holder counts of
at most 15 (R7), and the tables keep their canonical form. In a sound state every held total stays the references its client
holds (R9), every charged count the segments charged to its client (R11), every chain as long as length and growth need (R17), and
no more entries of a pending list name a parcel than its client holds references on it (R119); records, slots and growths stand on
what they need besides (R4, R10, R12, R120). -/
def Obligations.StoreStaysWhole : Prop :=
  (∀ s t : State, s.storeCanonical = true → s.store.segmentsWhole = true → s.store.referencesCounted = true →
    step s = .next t → t.storeCanonical = true ∧ t.store.segmentsWhole = true ∧ t.store.referencesCounted = true) ∧
  (∀ s t : State, s.sound = true → step s = .next t → t.holdingsSound = true)

/-- The device state stays with what goes with it, the FAULT pin, the tick, the fault fields, client 0 and the slots (R74, R89,
R176, R182, R190, R191), and a client stays in at most one slot (R80). -/
def Obligations.DeviceAndSlotsStaySound : Prop :=
  ∀ s t : State, s.deviceSound = true → s.slotsApart = true → step s = .next t →
    t.deviceSound = true ∧ t.slotsApart = true

/-- The records claimed minus the last-read taken tally never exceed a ring's size (R61), and the pending lists, the notice list,
the lost count, the pattern list, the wait count and the divider stay within their bounds (R119, R172, R32, R188, R190). -/
def Obligations.RingsAndListsStayWithinBounds : Prop :=
  ∀ s t : State, s.ringsFit = true → s.withinCapacity = true → step s = .next t →
    t.ringsFit = true ∧ t.withinCapacity = true

/-- The state after reset has every property that the steps keep. -/
def Obligations.ResetIsSound : Prop := State.reset.sound = true
end

