-- ==== Sys2Proof/Laws/State.lean ====
section
/-!
SUPPORT. What each named update of the state leaves in each field, one lemma per field per update, so that no proof unfolds a
record update. Each is true by rfl but those that read back a replaced context or slot.
-/

namespace Sys2Proof.Machine

variable (s : State)


/-! ### setPort -/

@[simp] theorem State.setPort_pending (v : Port) : (s.setPort v).pending = s.pending := rfl
@[simp] theorem State.setPort_port (v : Port) : (s.setPort v).port = v := rfl
@[simp] theorem State.setPort_load (v : Port) : (s.setPort v).load = s.load := rfl
@[simp] theorem State.setPort_arb (v : Port) : (s.setPort v).arb = s.arb := rfl
@[simp] theorem State.setPort_store (v : Port) : (s.setPort v).store = s.store := rfl
@[simp] theorem State.setPort_dir (v : Port) : (s.setPort v).dir = s.dir := rfl
@[simp] theorem State.setPort_clients (v : Port) : (s.setPort v).clients = s.clients := rfl
@[simp] theorem State.setPort_intake (v : Port) : (s.setPort v).intake = s.intake := rfl
@[simp] theorem State.setPort_slots (v : Port) : (s.setPort v).slots = s.slots := rfl
@[simp] theorem State.setPort_unit (v : Port) : (s.setPort v).unit = s.unit := rfl
@[simp] theorem State.setPort_client (v : Port) (c : ClientId) : (s.setPort v).client c = s.client c := rfl
@[simp] theorem State.setPort_slot (v : Port) (i : SlotId) : (s.setPort v).slot i = s.slot i := rfl
@[simp] theorem State.setPort_list (v : Port) (c : ClientId) : (s.setPort v).list c = s.list c := rfl

/-! ### setLoad -/

@[simp] theorem State.setLoad_pending (v : Load) : (s.setLoad v).pending = s.pending := rfl
@[simp] theorem State.setLoad_port (v : Load) : (s.setLoad v).port = s.port := rfl
@[simp] theorem State.setLoad_load (v : Load) : (s.setLoad v).load = v := rfl
@[simp] theorem State.setLoad_arb (v : Load) : (s.setLoad v).arb = s.arb := rfl
@[simp] theorem State.setLoad_store (v : Load) : (s.setLoad v).store = s.store := rfl
@[simp] theorem State.setLoad_dir (v : Load) : (s.setLoad v).dir = s.dir := rfl
@[simp] theorem State.setLoad_clients (v : Load) : (s.setLoad v).clients = s.clients := rfl
@[simp] theorem State.setLoad_intake (v : Load) : (s.setLoad v).intake = s.intake := rfl
@[simp] theorem State.setLoad_slots (v : Load) : (s.setLoad v).slots = s.slots := rfl
@[simp] theorem State.setLoad_unit (v : Load) : (s.setLoad v).unit = s.unit := rfl
@[simp] theorem State.setLoad_client (v : Load) (c : ClientId) : (s.setLoad v).client c = s.client c := rfl
@[simp] theorem State.setLoad_slot (v : Load) (i : SlotId) : (s.setLoad v).slot i = s.slot i := rfl
@[simp] theorem State.setLoad_list (v : Load) (c : ClientId) : (s.setLoad v).list c = s.list c := rfl
@[simp] theorem State.setLoad_device (v : Load) : (s.setLoad v).device = s.device := rfl
@[simp] theorem State.setLoad_active (v : Load) : (s.setLoad v).active = s.active := rfl

/-! ### setArb -/

@[simp] theorem State.setArb_pending (v : Arbiter) : (s.setArb v).pending = s.pending := rfl
@[simp] theorem State.setArb_port (v : Arbiter) : (s.setArb v).port = s.port := rfl
@[simp] theorem State.setArb_load (v : Arbiter) : (s.setArb v).load = s.load := rfl
@[simp] theorem State.setArb_arb (v : Arbiter) : (s.setArb v).arb = v := rfl
@[simp] theorem State.setArb_store (v : Arbiter) : (s.setArb v).store = s.store := rfl
@[simp] theorem State.setArb_dir (v : Arbiter) : (s.setArb v).dir = s.dir := rfl
@[simp] theorem State.setArb_clients (v : Arbiter) : (s.setArb v).clients = s.clients := rfl
@[simp] theorem State.setArb_intake (v : Arbiter) : (s.setArb v).intake = s.intake := rfl
@[simp] theorem State.setArb_slots (v : Arbiter) : (s.setArb v).slots = s.slots := rfl
@[simp] theorem State.setArb_unit (v : Arbiter) : (s.setArb v).unit = s.unit := rfl
@[simp] theorem State.setArb_client (v : Arbiter) (c : ClientId) : (s.setArb v).client c = s.client c := rfl
@[simp] theorem State.setArb_slot (v : Arbiter) (i : SlotId) : (s.setArb v).slot i = s.slot i := rfl
@[simp] theorem State.setArb_list (v : Arbiter) (c : ClientId) : (s.setArb v).list c = s.list c := rfl
@[simp] theorem State.setArb_device (v : Arbiter) : (s.setArb v).device = s.device := rfl
@[simp] theorem State.setArb_active (v : Arbiter) : (s.setArb v).active = s.active := rfl

/-! ### setStore -/

@[simp] theorem State.setStore_pending (v : Store) : (s.setStore v).pending = s.pending := rfl
@[simp] theorem State.setStore_port (v : Store) : (s.setStore v).port = s.port := rfl
@[simp] theorem State.setStore_load (v : Store) : (s.setStore v).load = s.load := rfl
@[simp] theorem State.setStore_arb (v : Store) : (s.setStore v).arb = s.arb := rfl
@[simp] theorem State.setStore_store (v : Store) : (s.setStore v).store = v := rfl
@[simp] theorem State.setStore_dir (v : Store) : (s.setStore v).dir = s.dir := rfl
@[simp] theorem State.setStore_clients (v : Store) : (s.setStore v).clients = s.clients := rfl
@[simp] theorem State.setStore_intake (v : Store) : (s.setStore v).intake = s.intake := rfl
@[simp] theorem State.setStore_slots (v : Store) : (s.setStore v).slots = s.slots := rfl
@[simp] theorem State.setStore_unit (v : Store) : (s.setStore v).unit = s.unit := rfl
@[simp] theorem State.setStore_client (v : Store) (c : ClientId) : (s.setStore v).client c = s.client c := rfl
@[simp] theorem State.setStore_slot (v : Store) (i : SlotId) : (s.setStore v).slot i = s.slot i := rfl
@[simp] theorem State.setStore_list (v : Store) (c : ClientId) : (s.setStore v).list c = s.list c := rfl
@[simp] theorem State.setStore_device (v : Store) : (s.setStore v).device = s.device := rfl
@[simp] theorem State.setStore_active (v : Store) : (s.setStore v).active = s.active := rfl

/-! ### setDir -/

@[simp] theorem State.setDir_pending (v : Directory) : (s.setDir v).pending = s.pending := rfl
@[simp] theorem State.setDir_port (v : Directory) : (s.setDir v).port = s.port := rfl
@[simp] theorem State.setDir_load (v : Directory) : (s.setDir v).load = s.load := rfl
@[simp] theorem State.setDir_arb (v : Directory) : (s.setDir v).arb = s.arb := rfl
@[simp] theorem State.setDir_store (v : Directory) : (s.setDir v).store = s.store := rfl
@[simp] theorem State.setDir_dir (v : Directory) : (s.setDir v).dir = v := rfl
@[simp] theorem State.setDir_clients (v : Directory) : (s.setDir v).clients = s.clients := rfl
@[simp] theorem State.setDir_intake (v : Directory) : (s.setDir v).intake = s.intake := rfl
@[simp] theorem State.setDir_slots (v : Directory) : (s.setDir v).slots = s.slots := rfl
@[simp] theorem State.setDir_unit (v : Directory) : (s.setDir v).unit = s.unit := rfl
@[simp] theorem State.setDir_client (v : Directory) (c : ClientId) : (s.setDir v).client c = s.client c := rfl
@[simp] theorem State.setDir_slot (v : Directory) (i : SlotId) : (s.setDir v).slot i = s.slot i := rfl
@[simp] theorem State.setDir_list (v : Directory) (c : ClientId) : (s.setDir v).list c = s.list c := rfl
@[simp] theorem State.setDir_device (v : Directory) : (s.setDir v).device = s.device := rfl
@[simp] theorem State.setDir_active (v : Directory) : (s.setDir v).active = s.active := rfl

/-! ### setIntake -/

@[simp] theorem State.setIntake_pending (v : Intake) : (s.setIntake v).pending = s.pending := rfl
@[simp] theorem State.setIntake_port (v : Intake) : (s.setIntake v).port = s.port := rfl
@[simp] theorem State.setIntake_load (v : Intake) : (s.setIntake v).load = s.load := rfl
@[simp] theorem State.setIntake_arb (v : Intake) : (s.setIntake v).arb = s.arb := rfl
@[simp] theorem State.setIntake_store (v : Intake) : (s.setIntake v).store = s.store := rfl
@[simp] theorem State.setIntake_dir (v : Intake) : (s.setIntake v).dir = s.dir := rfl
@[simp] theorem State.setIntake_clients (v : Intake) : (s.setIntake v).clients = s.clients := rfl
@[simp] theorem State.setIntake_intake (v : Intake) : (s.setIntake v).intake = v := rfl
@[simp] theorem State.setIntake_slots (v : Intake) : (s.setIntake v).slots = s.slots := rfl
@[simp] theorem State.setIntake_unit (v : Intake) : (s.setIntake v).unit = s.unit := rfl
@[simp] theorem State.setIntake_client (v : Intake) (c : ClientId) : (s.setIntake v).client c = s.client c := rfl
@[simp] theorem State.setIntake_slot (v : Intake) (i : SlotId) : (s.setIntake v).slot i = s.slot i := rfl
@[simp] theorem State.setIntake_list (v : Intake) (c : ClientId) : (s.setIntake v).list c = s.list c := rfl
@[simp] theorem State.setIntake_device (v : Intake) : (s.setIntake v).device = s.device := rfl
@[simp] theorem State.setIntake_active (v : Intake) : (s.setIntake v).active = s.active := rfl

/-! ### setUnit -/

@[simp] theorem State.setUnit_pending (v : DeliveryUnit) : (s.setUnit v).pending = s.pending := rfl
@[simp] theorem State.setUnit_port (v : DeliveryUnit) : (s.setUnit v).port = s.port := rfl
@[simp] theorem State.setUnit_load (v : DeliveryUnit) : (s.setUnit v).load = s.load := rfl
@[simp] theorem State.setUnit_arb (v : DeliveryUnit) : (s.setUnit v).arb = s.arb := rfl
@[simp] theorem State.setUnit_store (v : DeliveryUnit) : (s.setUnit v).store = s.store := rfl
@[simp] theorem State.setUnit_dir (v : DeliveryUnit) : (s.setUnit v).dir = s.dir := rfl
@[simp] theorem State.setUnit_clients (v : DeliveryUnit) : (s.setUnit v).clients = s.clients := rfl
@[simp] theorem State.setUnit_intake (v : DeliveryUnit) : (s.setUnit v).intake = s.intake := rfl
@[simp] theorem State.setUnit_slots (v : DeliveryUnit) : (s.setUnit v).slots = s.slots := rfl
@[simp] theorem State.setUnit_unit (v : DeliveryUnit) : (s.setUnit v).unit = v := rfl
@[simp] theorem State.setUnit_client (v : DeliveryUnit) (c : ClientId) : (s.setUnit v).client c = s.client c := rfl
@[simp] theorem State.setUnit_slot (v : DeliveryUnit) (i : SlotId) : (s.setUnit v).slot i = s.slot i := rfl
@[simp] theorem State.setUnit_device (v : DeliveryUnit) : (s.setUnit v).device = s.device := rfl
@[simp] theorem State.setUnit_active (v : DeliveryUnit) : (s.setUnit v).active = s.active := rfl

/-! ### setPending -/

@[simp] theorem State.setPending_pending (v : List Instr) : (s.setPending v).pending = v := rfl
@[simp] theorem State.setPending_port (v : List Instr) : (s.setPending v).port = s.port := rfl
@[simp] theorem State.setPending_load (v : List Instr) : (s.setPending v).load = s.load := rfl
@[simp] theorem State.setPending_arb (v : List Instr) : (s.setPending v).arb = s.arb := rfl
@[simp] theorem State.setPending_store (v : List Instr) : (s.setPending v).store = s.store := rfl
@[simp] theorem State.setPending_dir (v : List Instr) : (s.setPending v).dir = s.dir := rfl
@[simp] theorem State.setPending_clients (v : List Instr) : (s.setPending v).clients = s.clients := rfl
@[simp] theorem State.setPending_intake (v : List Instr) : (s.setPending v).intake = s.intake := rfl
@[simp] theorem State.setPending_slots (v : List Instr) : (s.setPending v).slots = s.slots := rfl
@[simp] theorem State.setPending_unit (v : List Instr) : (s.setPending v).unit = s.unit := rfl
@[simp] theorem State.setPending_client (v : List Instr) (c : ClientId) : (s.setPending v).client c = s.client c := rfl
@[simp] theorem State.setPending_slot (v : List Instr) (i : SlotId) : (s.setPending v).slot i = s.slot i := rfl
@[simp] theorem State.setPending_list (v : List Instr) (c : ClientId) : (s.setPending v).list c = s.list c := rfl
@[simp] theorem State.setPending_device (v : List Instr) : (s.setPending v).device = s.device := rfl
@[simp] theorem State.setPending_active (v : List Instr) : (s.setPending v).active = s.active := rfl

/-! ### setClient -/

@[simp] theorem State.setClient_pending (c : ClientId) (v : Client) : (s.setClient c v).pending = s.pending := rfl
@[simp] theorem State.setClient_port (c : ClientId) (v : Client) : (s.setClient c v).port = s.port := rfl
@[simp] theorem State.setClient_load (c : ClientId) (v : Client) : (s.setClient c v).load = s.load := rfl
@[simp] theorem State.setClient_arb (c : ClientId) (v : Client) : (s.setClient c v).arb = s.arb := rfl
@[simp] theorem State.setClient_store (c : ClientId) (v : Client) : (s.setClient c v).store = s.store := rfl
@[simp] theorem State.setClient_dir (c : ClientId) (v : Client) : (s.setClient c v).dir = s.dir := rfl
@[simp] theorem State.setClient_intake (c : ClientId) (v : Client) : (s.setClient c v).intake = s.intake := rfl
@[simp] theorem State.setClient_slots (c : ClientId) (v : Client) : (s.setClient c v).slots = s.slots := rfl
@[simp] theorem State.setClient_unit (c : ClientId) (v : Client) : (s.setClient c v).unit = s.unit := rfl
@[simp] theorem State.setClient_slot (c : ClientId) (v : Client) (j : SlotId) : (s.setClient c v).slot j = s.slot j := rfl
@[simp] theorem State.setClient_list (c : ClientId) (v : Client) (d : ClientId) : (s.setClient c v).list d = s.list d := rfl
@[simp] theorem State.setClient_active (c : ClientId) (v : Client) : (s.setClient c v).active = s.active := rfl

/-! ### setSlot -/

@[simp] theorem State.setSlot_pending (i : SlotId) (v : Slot) : (s.setSlot i v).pending = s.pending := rfl
@[simp] theorem State.setSlot_port (i : SlotId) (v : Slot) : (s.setSlot i v).port = s.port := rfl
@[simp] theorem State.setSlot_load (i : SlotId) (v : Slot) : (s.setSlot i v).load = s.load := rfl
@[simp] theorem State.setSlot_arb (i : SlotId) (v : Slot) : (s.setSlot i v).arb = s.arb := rfl
@[simp] theorem State.setSlot_store (i : SlotId) (v : Slot) : (s.setSlot i v).store = s.store := rfl
@[simp] theorem State.setSlot_dir (i : SlotId) (v : Slot) : (s.setSlot i v).dir = s.dir := rfl
@[simp] theorem State.setSlot_clients (i : SlotId) (v : Slot) : (s.setSlot i v).clients = s.clients := rfl
@[simp] theorem State.setSlot_intake (i : SlotId) (v : Slot) : (s.setSlot i v).intake = s.intake := rfl
@[simp] theorem State.setSlot_unit (i : SlotId) (v : Slot) : (s.setSlot i v).unit = s.unit := rfl
@[simp] theorem State.setSlot_client (i : SlotId) (v : Slot) (d : ClientId) : (s.setSlot i v).client d = s.client d := rfl
@[simp] theorem State.setSlot_list (i : SlotId) (v : Slot) (d : ClientId) : (s.setSlot i v).list d = s.list d := rfl
@[simp] theorem State.setSlot_active (i : SlotId) (v : Slot) : (s.setSlot i v).active = s.active := rfl

/-! ### setList -/

@[simp] theorem State.setList_pending (c : ClientId) (v : List PendingEntry) : (s.setList c v).pending = s.pending := rfl
@[simp] theorem State.setList_port (c : ClientId) (v : List PendingEntry) : (s.setList c v).port = s.port := rfl
@[simp] theorem State.setList_load (c : ClientId) (v : List PendingEntry) : (s.setList c v).load = s.load := rfl
@[simp] theorem State.setList_arb (c : ClientId) (v : List PendingEntry) : (s.setList c v).arb = s.arb := rfl
@[simp] theorem State.setList_store (c : ClientId) (v : List PendingEntry) : (s.setList c v).store = s.store := rfl
@[simp] theorem State.setList_dir (c : ClientId) (v : List PendingEntry) : (s.setList c v).dir = s.dir := rfl
@[simp] theorem State.setList_clients (c : ClientId) (v : List PendingEntry) : (s.setList c v).clients = s.clients := rfl
@[simp] theorem State.setList_intake (c : ClientId) (v : List PendingEntry) : (s.setList c v).intake = s.intake := rfl
@[simp] theorem State.setList_slots (c : ClientId) (v : List PendingEntry) : (s.setList c v).slots = s.slots := rfl
@[simp] theorem State.setList_client (c : ClientId) (v : List PendingEntry) (d : ClientId) : (s.setList c v).client d = s.client d := rfl
@[simp] theorem State.setList_slot (c : ClientId) (v : List PendingEntry) (j : SlotId) : (s.setList c v).slot j = s.slot j := rfl
@[simp] theorem State.setList_active (c : ClientId) (v : List PendingEntry) : (s.setList c v).active = s.active := rfl

/-! ### setProgress -/

@[simp] theorem State.setProgress_pending (i : SlotId) (p : Progress) : (s.setProgress i p).pending = s.pending := rfl
@[simp] theorem State.setProgress_port (i : SlotId) (p : Progress) : (s.setProgress i p).port = s.port := rfl
@[simp] theorem State.setProgress_load (i : SlotId) (p : Progress) : (s.setProgress i p).load = s.load := rfl
@[simp] theorem State.setProgress_arb (i : SlotId) (p : Progress) : (s.setProgress i p).arb = s.arb := rfl
@[simp] theorem State.setProgress_store (i : SlotId) (p : Progress) : (s.setProgress i p).store = s.store := rfl
@[simp] theorem State.setProgress_dir (i : SlotId) (p : Progress) : (s.setProgress i p).dir = s.dir := rfl
@[simp] theorem State.setProgress_clients (i : SlotId) (p : Progress) : (s.setProgress i p).clients = s.clients := rfl
@[simp] theorem State.setProgress_intake (i : SlotId) (p : Progress) : (s.setProgress i p).intake = s.intake := rfl
@[simp] theorem State.setProgress_unit (i : SlotId) (p : Progress) : (s.setProgress i p).unit = s.unit := rfl
@[simp] theorem State.setProgress_client (i : SlotId) (p : Progress) (d : ClientId) : (s.setProgress i p).client d = s.client d := rfl
@[simp] theorem State.setProgress_list (i : SlotId) (p : Progress) (d : ClientId) : (s.setProgress i p).list d = s.list d := rfl
@[simp] theorem State.setProgress_active (i : SlotId) (p : Progress) : (s.setProgress i p).active = s.active := rfl

/-! ### enqueue -/

@[simp] theorem State.enqueue_pending (t : Txn) : (s.enqueue t).pending = s.pending := rfl
@[simp] theorem State.enqueue_port (t : Txn) : (s.enqueue t).port = s.port := rfl
@[simp] theorem State.enqueue_load (t : Txn) : (s.enqueue t).load = s.load := rfl
@[simp] theorem State.enqueue_arb (t : Txn) : (s.enqueue t).arb = s.arb := rfl
@[simp] theorem State.enqueue_store (t : Txn) : (s.enqueue t).store = s.store := rfl
@[simp] theorem State.enqueue_dir (t : Txn) : (s.enqueue t).dir = s.dir := rfl
@[simp] theorem State.enqueue_clients (t : Txn) : (s.enqueue t).clients = s.clients := rfl
@[simp] theorem State.enqueue_intake (t : Txn) : (s.enqueue t).intake = s.intake := rfl
@[simp] theorem State.enqueue_slots (t : Txn) : (s.enqueue t).slots = s.slots := rfl
@[simp] theorem State.enqueue_client (t : Txn) (d : ClientId) : (s.enqueue t).client d = s.client d := rfl
@[simp] theorem State.enqueue_slot (t : Txn) (j : SlotId) : (s.enqueue t).slot j = s.slot j := rfl
@[simp] theorem State.enqueue_list (t : Txn) (d : ClientId) : (s.enqueue t).list d = s.list d := rfl
@[simp] theorem State.enqueue_active (t : Txn) : (s.enqueue t).active = s.active := rfl

/-! ### endRing -/

@[simp] theorem State.endRing_pending (c : ClientId) (n : OutRingName) : (s.endRing c n).pending = s.pending := rfl
@[simp] theorem State.endRing_port (c : ClientId) (n : OutRingName) : (s.endRing c n).port = s.port := rfl
@[simp] theorem State.endRing_load (c : ClientId) (n : OutRingName) : (s.endRing c n).load = s.load := rfl
@[simp] theorem State.endRing_arb (c : ClientId) (n : OutRingName) : (s.endRing c n).arb = s.arb := rfl
@[simp] theorem State.endRing_store (c : ClientId) (n : OutRingName) : (s.endRing c n).store = s.store := rfl
@[simp] theorem State.endRing_dir (c : ClientId) (n : OutRingName) : (s.endRing c n).dir = s.dir := rfl
@[simp] theorem State.endRing_intake (c : ClientId) (n : OutRingName) : (s.endRing c n).intake = s.intake := rfl
@[simp] theorem State.endRing_slots (c : ClientId) (n : OutRingName) : (s.endRing c n).slots = s.slots := rfl
@[simp] theorem State.endRing_unit (c : ClientId) (n : OutRingName) : (s.endRing c n).unit = s.unit := rfl
@[simp] theorem State.endRing_slot (c : ClientId) (n : OutRingName) (j : SlotId) : (s.endRing c n).slot j = s.slot j := rfl
@[simp] theorem State.endRing_list (c : ClientId) (n : OutRingName) (d : ClientId) : (s.endRing c n).list d = s.list d := rfl
@[simp] theorem State.endRing_active (c : ClientId) (n : OutRingName) : (s.endRing c n).active = s.active := rfl

@[simp] theorem State.setClient_client_same (c : ClientId) (v : Client) : (s.setClient c v).client c = v := by
  simp [State.setClient, State.client]

theorem State.setClient_client_other {c d : ClientId} (h : d ≠ c) (v : Client) : (s.setClient c v).client d = s.client d := by
  have : c.val ≠ d.val := fun e => h (Fin.ext e.symm)
  simp [State.setClient, State.client, Vector.getElem_set_ne, this]

@[simp] theorem State.setSlot_slot_same (i : SlotId) (v : Slot) : (s.setSlot i v).slot i = v := by
  simp [State.setSlot, State.slot]

theorem State.setSlot_slot_other {i j : SlotId} (h : j ≠ i) (v : Slot) : (s.setSlot i v).slot j = s.slot j := by
  have : i.val ≠ j.val := fun e => h (Fin.ext e.symm)
  simp [State.setSlot, State.slot, Vector.getElem_set_ne, this]

@[simp] theorem State.setList_list_same (c : ClientId) (v : List PendingEntry) : (s.setList c v).list c = v := by
  simp [State.setList, State.list]

theorem State.setList_list_other {c d : ClientId} (h : d ≠ c) (v : List PendingEntry) :
    (s.setList c v).list d = s.list d := by
  have : c.val ≠ d.val := fun e => h (Fin.ext e.symm)
  simp [State.setList, State.list, Vector.getElem_set_ne, this]

@[simp] theorem State.setProgress_slot_same (i : SlotId) (p : Progress) :
    (s.setProgress i p).slot i = { s.slot i with progress := p } := by
  simp [State.setProgress]

theorem State.setProgress_slot_other {i j : SlotId} (h : j ≠ i) (p : Progress) : (s.setProgress i p).slot j = s.slot j :=
  s.setSlot_slot_other h _

/-! ### The bus -/

@[simp] theorem State.clearBus_pending : s.clearBus.pending = s.pending := rfl
@[simp] theorem State.clearBus_port : s.clearBus.port = s.port := rfl
@[simp] theorem State.clearBus_load : s.clearBus.load = s.load := rfl
@[simp] theorem State.clearBus_store : s.clearBus.store = s.store := rfl
@[simp] theorem State.clearBus_dir : s.clearBus.dir = s.dir := rfl
@[simp] theorem State.clearBus_clients : s.clearBus.clients = s.clients := rfl
@[simp] theorem State.clearBus_intake : s.clearBus.intake = s.intake := rfl
@[simp] theorem State.clearBus_slots : s.clearBus.slots = s.slots := rfl
@[simp] theorem State.clearBus_unit : s.clearBus.unit = s.unit := rfl
@[simp] theorem State.clearBus_bus : s.clearBus.arb.bus = none := rfl
@[simp] theorem State.clearBus_client (c : ClientId) : s.clearBus.client c = s.client c := rfl
@[simp] theorem State.clearBus_slot (i : SlotId) : s.clearBus.slot i = s.slot i := rfl
@[simp] theorem State.clearBus_list (c : ClientId) : s.clearBus.list c = s.list c := rfl
@[simp] theorem State.clearBus_active : s.clearBus.active = s.active := rfl
@[simp] theorem State.endFetch_pending : s.endFetch.pending = s.pending := rfl
@[simp] theorem State.endFetch_port : s.endFetch.port = s.port := rfl
@[simp] theorem State.endFetch_load : s.endFetch.load = s.load := rfl
@[simp] theorem State.endFetch_store : s.endFetch.store = s.store := rfl
@[simp] theorem State.endFetch_dir : s.endFetch.dir = s.dir := rfl
@[simp] theorem State.endFetch_clients : s.endFetch.clients = s.clients := rfl
@[simp] theorem State.endFetch_slots : s.endFetch.slots = s.slots := rfl
@[simp] theorem State.endFetch_unit : s.endFetch.unit = s.unit := rfl
@[simp] theorem State.endFetch_bus : s.endFetch.arb.bus = none := rfl
@[simp] theorem State.endFetch_client (c : ClientId) : s.endFetch.client c = s.client c := rfl
@[simp] theorem State.endFetch_slot (i : SlotId) : s.endFetch.slot i = s.slot i := rfl
@[simp] theorem State.endFetch_list (c : ClientId) : s.endFetch.list c = s.list c := rfl
@[simp] theorem State.endFetch_active : s.endFetch.active = s.active := rfl
@[simp] theorem State.endFetch_fetch : s.endFetch.intake.fetch = none := rfl

/-! ### Rings of a context -/

@[simp] theorem Client.setRing_ring_same (x : Client) (n : OutRingName) (r : OutRing) : (x.setRing n r).ring n = r := by
  cases n <;> rfl

theorem Client.setRing_ring_other (x : Client) {n m : OutRingName} (h : m ≠ n) (r : OutRing) :
    (x.setRing n r).ring m = x.ring m := by
  cases n <;> cases m <;> first | rfl | exact absurd rfl h

@[simp] theorem Client.setRing_state (x : Client) (n : OutRingName) (r : OutRing) : (x.setRing n r).state = x.state := by
  cases n <;> rfl

@[simp] theorem Client.setRing_reason (x : Client) (n : OutRingName) (r : OutRing) : (x.setRing n r).reason = x.reason := by
  cases n <;> rfl
@[simp] theorem Client.setRing_finalDue (x : Client) (n : OutRingName) (r : OutRing) : (x.setRing n r).finalDue = x.finalDue := by
  cases n <;> rfl
@[simp] theorem Client.setRing_placed (x : Client) (n : OutRingName) (r : OutRing) : (x.setRing n r).placed = x.placed := by
  cases n <;> rfl
@[simp] theorem Client.setRing_cxb (x : Client) (n : OutRingName) (r : OutRing) : (x.setRing n r).cxb = x.cxb := by
  cases n <;> rfl
@[simp] theorem Client.setRing_post (x : Client) (n : OutRingName) (r : OutRing) : (x.setRing n r).post = x.post := by
  cases n <;> rfl

end Sys2Proof.Machine
end

