-- ==== Sys2Proof/Laws/Ops.lean ====
section
/-!
SUPPORT. What each shared operation of the part can do and what it leaves alone: the Intake's choice, the freeing of a slot, the
forming of a completion, notices, client faults, claims of ring slots.
-/

namespace Sys2Proof.Machine

variable (s : State)

/-! ### The Intake's choice of a read -/

/-- Everything an issued read can do: take a client out of the two sets, or bind the lowest-numbered FREE slot. -/
theorem State.issueRead_cases (c : ClientId) :
    s.issueRead c = s ∨
    (s.halfEligible c = true ∧ s.issueRead c = s.setIntake
      { attendSet := without s.intake.attendSet c, refreshSet := without s.intake.refreshSet c, pointer := c + 1,
        fetch := some (halfTxn s c) }) ∨
    (∃ i, s.halfEligible c = false ∧ s.freeSlotIndex = some i ∧
      s.issueRead c = (s.setSlot i { Slot.initial with state := .bound, client := some c }).setIntake
        { s.intake with pointer := c + 1, fetch := some (postTxn s c i) }) := by
  unfold State.issueRead
  split
  · rename_i h
    exact .inr (.inl ⟨h, rfl⟩)
  · rename_i h
    split
    · rename_i i hi
      exact .inr (.inr ⟨i, by simpa using h, hi, rfl⟩)
    · exact .inl rfl

/-- Everything the Intake's choice can do. -/
theorem State.readChoice_cases :
    s.readChoice = s ∨
    (∃ c, s.active = true ∧ s.intake.fetch = none ∧ s.halfEligible c = true ∧ s.readChoice = s.setIntake
      { attendSet := without s.intake.attendSet c, refreshSet := without s.intake.refreshSet c, pointer := c + 1,
        fetch := some (halfTxn s c) }) ∨
    (∃ c i, s.active = true ∧ s.intake.fetch = none ∧ s.postEligible c = true ∧ s.freeSlotIndex = some i ∧
      s.readChoice = (s.setSlot i { Slot.initial with state := .bound, client := some c }).setIntake
        { s.intake with pointer := c + 1, fetch := some (postTxn s c i) }) := by
  unfold State.readChoice
  split
  · exact .inl rfl
  · rename_i h
    simp only [Bool.or_eq_true, Bool.not_eq_true', not_or, Bool.not_eq_false, Bool.not_eq_true,
      Option.isSome_eq_false_iff, Option.isNone_iff_eq_none] at h
    split
    · rename_i c hc
      have he := List.find?_some hc
      rcases s.issueRead_cases c with h1 | ⟨h1, h2⟩ | ⟨i, h1, h2, h3⟩
      · exact .inl h1
      · exact .inr (.inl ⟨c, h.1, h.2, h1, h2⟩)
      · simp only [h1, Bool.false_or] at he
        exact .inr (.inr ⟨c, i, h.1, h.2, he, h2, h3⟩)
    · exact .inl rfl

@[simp] theorem State.readChoice_pending : (s.readChoice).pending = s.pending := by
  rcases s.readChoice_cases with h | ⟨_, _, _, _, h⟩ | ⟨_, _, _, _, _, _, h⟩ <;> rw [h] <;> rfl
@[simp] theorem State.readChoice_port : (s.readChoice).port = s.port := by
  rcases s.readChoice_cases with h | ⟨_, _, _, _, h⟩ | ⟨_, _, _, _, _, _, h⟩ <;> rw [h] <;> rfl
@[simp] theorem State.readChoice_load : (s.readChoice).load = s.load := by
  rcases s.readChoice_cases with h | ⟨_, _, _, _, h⟩ | ⟨_, _, _, _, _, _, h⟩ <;> rw [h] <;> rfl
@[simp] theorem State.readChoice_arb : (s.readChoice).arb = s.arb := by
  rcases s.readChoice_cases with h | ⟨_, _, _, _, h⟩ | ⟨_, _, _, _, _, _, h⟩ <;> rw [h] <;> rfl
@[simp] theorem State.readChoice_store : (s.readChoice).store = s.store := by
  rcases s.readChoice_cases with h | ⟨_, _, _, _, h⟩ | ⟨_, _, _, _, _, _, h⟩ <;> rw [h] <;> rfl
@[simp] theorem State.readChoice_dir : (s.readChoice).dir = s.dir := by
  rcases s.readChoice_cases with h | ⟨_, _, _, _, h⟩ | ⟨_, _, _, _, _, _, h⟩ <;> rw [h] <;> rfl
@[simp] theorem State.readChoice_clients : (s.readChoice).clients = s.clients := by
  rcases s.readChoice_cases with h | ⟨_, _, _, _, h⟩ | ⟨_, _, _, _, _, _, h⟩ <;> rw [h] <;> rfl
@[simp] theorem State.readChoice_unit : (s.readChoice).unit = s.unit := by
  rcases s.readChoice_cases with h | ⟨_, _, _, _, h⟩ | ⟨_, _, _, _, _, _, h⟩ <;> rw [h] <;> rfl
@[simp] theorem State.readChoice_client (c : ClientId) : s.readChoice.client c = s.client c := by
  simp [State.client]
@[simp] theorem State.readChoice_list (c : ClientId) : s.readChoice.list c = s.list c := by
  simp [State.list]
@[simp] theorem State.readChoice_active : s.readChoice.active = s.active := by
  simp [State.active]

/-- The choice leaves every occupied slot as it is. -/
theorem State.readChoice_slot {i : SlotId} (h : (s.slot i).state ≠ .free) : s.readChoice.slot i = s.slot i := by
  rcases s.readChoice_cases with e | ⟨_, _, _, _, e⟩ | ⟨_, j, _, _, _, hj, e⟩
  · rw [e]
  · rw [e]; rfl
  · rw [e]
    have hf : (s.slot j).state = .free := by simpa using List.find?_some hj
    have : i ≠ j := fun x => h (x ▸ hf)
    simp [State.setSlot_slot_other _ this]

/-- A FREE slot is FREE after the choice, or BOUND to a client. -/
theorem State.readChoice_slot_free {i : SlotId} :
    s.readChoice.slot i = s.slot i ∨
      ((s.slot i).state = .free ∧ ∃ c, s.readChoice.slot i = { Slot.initial with state := .bound, client := some c }) := by
  rcases s.readChoice_cases with e | ⟨_, _, _, _, e⟩ | ⟨c, j, _, _, _, hj, e⟩
  · rw [e]; exact .inl rfl
  · rw [e]; exact .inl rfl
  · rw [e]
    by_cases h : i = j
    · subst h
      exact .inr ⟨by simpa using List.find?_some hj, c, by simp⟩
    · exact .inl (by simp [State.setSlot_slot_other _ h])

/-- With a fetcher transaction in flight, or with the device not serving clients, nothing is chosen. -/
theorem State.readChoice_of_fetch (h : s.intake.fetch.isSome = true) : s.readChoice = s := by
  simp [State.readChoice, h]

theorem State.readChoice_of_inactive (h : s.active = false) : s.readChoice = s := by
  simp [State.readChoice, h]

/-! ### Freeing a slot -/

@[simp] theorem State.settleHalt_pending : (s.settleHalt).pending = s.pending := by
  unfold State.settleHalt; split <;> rfl
@[simp] theorem State.settleHalt_load : (s.settleHalt).load = s.load := by
  unfold State.settleHalt; split <;> rfl
@[simp] theorem State.settleHalt_arb : (s.settleHalt).arb = s.arb := by
  unfold State.settleHalt; split <;> rfl
@[simp] theorem State.settleHalt_store : (s.settleHalt).store = s.store := by
  unfold State.settleHalt; split <;> rfl
@[simp] theorem State.settleHalt_dir : (s.settleHalt).dir = s.dir := by
  unfold State.settleHalt; split <;> rfl
@[simp] theorem State.settleHalt_clients : (s.settleHalt).clients = s.clients := by
  unfold State.settleHalt; split <;> rfl
@[simp] theorem State.settleHalt_intake : (s.settleHalt).intake = s.intake := by
  unfold State.settleHalt; split <;> rfl
@[simp] theorem State.settleHalt_slots : (s.settleHalt).slots = s.slots := by
  unfold State.settleHalt; split <;> rfl
@[simp] theorem State.settleHalt_unit : (s.settleHalt).unit = s.unit := by
  unfold State.settleHalt; split <;> rfl
@[simp] theorem State.settleHalt_client (c : ClientId) : s.settleHalt.client c = s.client c := by simp [State.client]
@[simp] theorem State.settleHalt_slot (i : SlotId) : s.settleHalt.slot i = s.slot i := by simp [State.slot]

/-- All that the passage to HALTED changes. -/
theorem State.settleHalt_port :
    s.settleHalt.port = s.port ∨ (s.port.device = .halting ∧ s.allFree = true ∧
      s.settleHalt.port = { s.port with device := .halted, tickRuns := false }) := by
  unfold State.settleHalt
  split
  · rename_i h
    exact .inr ⟨h.1, h.2, rfl⟩
  · exact .inl rfl

@[simp] theorem State.reportFreed_slot (c : ClientId) (b : Bool) (i : SlotId) :
    (s.reportFreed c b).slot i = endAbort c b (s.slot i) := by
  simp [State.reportFreed, State.slot]

@[simp] theorem State.reportFreed_pending (c : ClientId) (b : Bool) : (s.reportFreed c b).pending = s.pending := by
  rfl
@[simp] theorem State.reportFreed_port (c : ClientId) (b : Bool) : (s.reportFreed c b).port = s.port := by
  rfl
@[simp] theorem State.reportFreed_load (c : ClientId) (b : Bool) : (s.reportFreed c b).load = s.load := by
  rfl
@[simp] theorem State.reportFreed_arb (c : ClientId) (b : Bool) : (s.reportFreed c b).arb = s.arb := by
  rfl
@[simp] theorem State.reportFreed_store (c : ClientId) (b : Bool) : (s.reportFreed c b).store = s.store := by
  rfl
@[simp] theorem State.reportFreed_dir (c : ClientId) (b : Bool) : (s.reportFreed c b).dir = s.dir := by
  rfl
@[simp] theorem State.reportFreed_clients (c : ClientId) (b : Bool) : (s.reportFreed c b).clients = s.clients := by
  rfl
@[simp] theorem State.reportFreed_intake (c : ClientId) (b : Bool) : (s.reportFreed c b).intake = s.intake := by
  rfl
@[simp] theorem State.reportFreed_client (c : ClientId) (b : Bool) (d : ClientId) :
    (s.reportFreed c b).client d = s.client d := by
  rfl
@[simp] theorem State.reportFreed_unit (c : ClientId) (b : Bool) : (s.reportFreed c b).unit = s.unit := by
  rfl

/-- The end of an abort stage changes nothing of a slot but its progress. -/
theorem endAbort_frame (c : ClientId) (b : Bool) (sl : Slot) : { endAbort c b sl with progress := sl.progress } = sl := by
  unfold endAbort
  split
  · split <;> rfl
  · rfl

@[simp] theorem endAbort_state (c : ClientId) (b : Bool) (sl : Slot) : (endAbort c b sl).state = sl.state := by
  unfold endAbort; split <;> [split; skip] <;> rfl
@[simp] theorem endAbort_client (c : ClientId) (b : Bool) (sl : Slot) : (endAbort c b sl).client = sl.client := by
  unfold endAbort; split <;> [split; skip] <;> rfl

@[simp] theorem State.freeSlot_pending (i : SlotId) (b : Bool) : (s.freeSlot i b).pending = s.pending := by
  unfold State.freeSlot
  dsimp only
  split <;> [split; skip] <;> simp
@[simp] theorem State.freeSlot_load (i : SlotId) (b : Bool) : (s.freeSlot i b).load = s.load := by
  unfold State.freeSlot
  dsimp only
  split <;> [split; skip] <;> simp
@[simp] theorem State.freeSlot_arb (i : SlotId) (b : Bool) : (s.freeSlot i b).arb = s.arb := by
  unfold State.freeSlot
  dsimp only
  split <;> [split; skip] <;> simp
@[simp] theorem State.freeSlot_store (i : SlotId) (b : Bool) : (s.freeSlot i b).store = s.store := by
  unfold State.freeSlot
  dsimp only
  split <;> [split; skip] <;> simp
@[simp] theorem State.freeSlot_dir (i : SlotId) (b : Bool) : (s.freeSlot i b).dir = s.dir := by
  unfold State.freeSlot
  dsimp only
  split <;> [split; skip] <;> simp
@[simp] theorem State.freeSlot_clients (i : SlotId) (b : Bool) : (s.freeSlot i b).clients = s.clients := by
  unfold State.freeSlot
  dsimp only
  split <;> [split; skip] <;> simp
@[simp] theorem State.freeSlot_unit (i : SlotId) (b : Bool) : (s.freeSlot i b).unit = s.unit := by
  unfold State.freeSlot
  dsimp only
  split <;> [split; skip] <;> simp
@[simp] theorem State.freeSlot_client (i : SlotId) (b : Bool) (c : ClientId) : (s.freeSlot i b).client c = s.client c := by
  simp [State.client]
@[simp] theorem State.freeSlot_list (i : SlotId) (b : Bool) (c : ClientId) : (s.freeSlot i b).list c = s.list c := by
  simp [State.list]

/-- A slot that has become FREE is FREE, or bound to an ATTACHED client by the choice that follows. -/
theorem State.freeSlot_slot (i : SlotId) (b : Bool) :
    (s.freeSlot i b).slot i = Slot.initial ∨
      ∃ c, (s.client c).state = .attached ∧ (s.freeSlot i b).slot i = { Slot.initial with state := .bound, client := some c } := by
  have key : ∀ u : State, u.slot i = Slot.initial → u.clients = s.clients → (u.settleHalt.readChoice.slot i = Slot.initial ∨
      ∃ c, (s.client c).state = .attached ∧
        u.settleHalt.readChoice.slot i = { Slot.initial with state := .bound, client := some c }) := by
    intro u hu huc
    rcases u.settleHalt.readChoice_cases with e | ⟨_, _, _, _, e⟩ | ⟨c, j, _, _, hp, _, e⟩
    · left; rw [e]; simpa using hu
    · left; rw [e]; simpa using hu
    · by_cases h : i = j
      · subst h
        refine .inr ⟨c, ?_, by rw [e]; simp⟩
        simp only [State.postEligible, Bool.and_eq_true, beq_iff_eq] at hp
        simpa [State.client, huc] using hp.1.1.1.2
      · left; rw [e]; simp [State.setSlot_slot_other _ h, hu]
  unfold State.freeSlot
  dsimp only
  split
  · split
    · exact key _ (by simp [endAbort, Slot.initial]) (by simp)
    · exact key _ (by simp) rfl
  · exact key _ (by simp) rfl

/-! ### Forming a completion -/

/-- The completion of a client that is not DRAINING is held in its slot. -/
theorem State.formCompletion_held {i : SlotId} {c : ClientId} (x : Completion) (hc : (s.slot i).client = some c)
    (hd : (s.client c).state ≠ .draining) :
    s.formCompletion i x =
      (if c = 0 then
        (s.setSlot i { s.slot i with state := .held, progress := .none, undo := none, completion := some x }).setUnit
          { s.unit with noticesAhead := s.unit.notices.length }
      else s.setSlot i { s.slot i with state := .held, progress := .none, undo := none, completion := some x }) := by
  unfold State.formCompletion
  simp only [hc, hd, if_false]
  rfl

/-- The completion of a DRAINING client is discarded and its slot becomes FREE. -/
theorem State.formCompletion_draining {i : SlotId} {c : ClientId} (x : Completion) (hc : (s.slot i).client = some c)
    (hd : (s.client c).state = .draining) : s.formCompletion i x = s.freeSlot i false := by
  unfold State.formCompletion
  simp only [hc, hd, if_true]

@[simp] theorem State.formCompletion_pending (i : SlotId) (x : Completion) : (s.formCompletion i x).pending = s.pending := by
  unfold State.formCompletion
  split
  · rfl
  · split
    · simp
    · dsimp only
      split <;> rfl
@[simp] theorem State.formCompletion_load (i : SlotId) (x : Completion) : (s.formCompletion i x).load = s.load := by
  unfold State.formCompletion
  split
  · rfl
  · split
    · simp
    · dsimp only
      split <;> rfl
@[simp] theorem State.formCompletion_arb (i : SlotId) (x : Completion) : (s.formCompletion i x).arb = s.arb := by
  unfold State.formCompletion
  split
  · rfl
  · split
    · simp
    · dsimp only
      split <;> rfl
@[simp] theorem State.formCompletion_store (i : SlotId) (x : Completion) : (s.formCompletion i x).store = s.store := by
  unfold State.formCompletion
  split
  · rfl
  · split
    · simp
    · dsimp only
      split <;> rfl
@[simp] theorem State.formCompletion_dir (i : SlotId) (x : Completion) : (s.formCompletion i x).dir = s.dir := by
  unfold State.formCompletion
  split
  · rfl
  · split
    · simp
    · dsimp only
      split <;> rfl
@[simp] theorem State.formCompletion_clients (i : SlotId) (x : Completion) : (s.formCompletion i x).clients = s.clients := by
  unfold State.formCompletion
  split
  · rfl
  · split
    · simp
    · dsimp only
      split <;> rfl
@[simp] theorem State.formCompletion_client (i : SlotId) (x : Completion) (c : ClientId) :
    (s.formCompletion i x).client c = s.client c := by simp [State.client]
@[simp] theorem State.formCompletion_lists (i : SlotId) (x : Completion) :
    (s.formCompletion i x).unit.lists = s.unit.lists := by
  unfold State.formCompletion
  split
  · rfl
  · split
    · simp
    · dsimp only
      split <;> rfl
@[simp] theorem State.formCompletion_list (i : SlotId) (x : Completion) (c : ClientId) :
    (s.formCompletion i x).list c = s.list c := by simp [State.list]

/-! ### Notices -/

@[simp] theorem State.queueNotice_pending (n : Notice) : (s.queueNotice n).pending = s.pending := by
  unfold State.queueNotice; split <;> rfl
@[simp] theorem State.queueNotice_port (n : Notice) : (s.queueNotice n).port = s.port := by
  unfold State.queueNotice; split <;> rfl
@[simp] theorem State.queueNotice_load (n : Notice) : (s.queueNotice n).load = s.load := by
  unfold State.queueNotice; split <;> rfl
@[simp] theorem State.queueNotice_arb (n : Notice) : (s.queueNotice n).arb = s.arb := by
  unfold State.queueNotice; split <;> rfl
@[simp] theorem State.queueNotice_store (n : Notice) : (s.queueNotice n).store = s.store := by
  unfold State.queueNotice; split <;> rfl
@[simp] theorem State.queueNotice_dir (n : Notice) : (s.queueNotice n).dir = s.dir := by
  unfold State.queueNotice; split <;> rfl
@[simp] theorem State.queueNotice_clients (n : Notice) : (s.queueNotice n).clients = s.clients := by
  unfold State.queueNotice; split <;> rfl
@[simp] theorem State.queueNotice_intake (n : Notice) : (s.queueNotice n).intake = s.intake := by
  unfold State.queueNotice; split <;> rfl
@[simp] theorem State.queueNotice_slots (n : Notice) : (s.queueNotice n).slots = s.slots := by
  unfold State.queueNotice; split <;> rfl
@[simp] theorem State.queueNotice_client (n : Notice) (c : ClientId) : (s.queueNotice n).client c = s.client c := by
  simp [State.client]
@[simp] theorem State.queueNotice_slot (n : Notice) (i : SlotId) : (s.queueNotice n).slot i = s.slot i := by
  simp [State.slot]
@[simp] theorem State.queueNotice_lists (n : Notice) : (s.queueNotice n).unit.lists = s.unit.lists := by
  unfold State.queueNotice; split <;> rfl
@[simp] theorem State.queueNotice_writer (n : Notice) : (s.queueNotice n).unit.writer = s.unit.writer := by
  unfold State.queueNotice; split <;> rfl

/-! ### Client faults -/

/-- A fault of a client that is not ATTACHED is ignored (R56). -/
theorem State.clientFault_ignored {c : ClientId} (r : FaultReason) (h : (s.client c).state ≠ .attached) :
    s.clientFault c r = s := by simp [State.clientFault, h]

@[simp] theorem State.withdrawTail_pending (c : ClientId) (n : OutRingName) : (s.withdrawTail c n).pending = s.pending := by
  unfold State.withdrawTail; split <;> rfl
@[simp] theorem State.requestFinal_pending (c : ClientId) : (s.requestFinal c).pending = s.pending := by
  unfold State.requestFinal; dsimp only; split <;> rfl
@[simp] theorem State.withdrawTail_load (c : ClientId) (n : OutRingName) : (s.withdrawTail c n).load = s.load := by
  unfold State.withdrawTail; split <;> rfl
@[simp] theorem State.requestFinal_load (c : ClientId) : (s.requestFinal c).load = s.load := by
  unfold State.requestFinal; dsimp only; split <;> rfl
@[simp] theorem State.withdrawTail_arb (c : ClientId) (n : OutRingName) : (s.withdrawTail c n).arb = s.arb := by
  unfold State.withdrawTail; split <;> rfl
@[simp] theorem State.requestFinal_arb (c : ClientId) : (s.requestFinal c).arb = s.arb := by
  unfold State.requestFinal; dsimp only; split <;> rfl
@[simp] theorem State.withdrawTail_store (c : ClientId) (n : OutRingName) : (s.withdrawTail c n).store = s.store := by
  unfold State.withdrawTail; split <;> rfl
@[simp] theorem State.requestFinal_store (c : ClientId) : (s.requestFinal c).store = s.store := by
  unfold State.requestFinal; dsimp only; split <;> rfl
@[simp] theorem State.withdrawTail_dir (c : ClientId) (n : OutRingName) : (s.withdrawTail c n).dir = s.dir := by
  unfold State.withdrawTail; split <;> rfl
@[simp] theorem State.requestFinal_dir (c : ClientId) : (s.requestFinal c).dir = s.dir := by
  unfold State.requestFinal; dsimp only; split <;> rfl
@[simp] theorem State.withdrawTail_slots (c : ClientId) (n : OutRingName) : (s.withdrawTail c n).slots = s.slots := by
  unfold State.withdrawTail; split <;> rfl
@[simp] theorem State.requestFinal_slots (c : ClientId) : (s.requestFinal c).slots = s.slots := by
  unfold State.requestFinal; dsimp only; split <;> rfl
@[simp] theorem State.withdrawTail_port (c : ClientId) (n : OutRingName) : (s.withdrawTail c n).port = s.port := by
  unfold State.withdrawTail; split <;> rfl
@[simp] theorem State.requestFinal_port (c : ClientId) : (s.requestFinal c).port = s.port := by
  unfold State.requestFinal; dsimp only; split <;> rfl
@[simp] theorem State.withdrawTail_intake (c : ClientId) (n : OutRingName) : (s.withdrawTail c n).intake = s.intake := by
  unfold State.withdrawTail; split <;> rfl
@[simp] theorem State.requestFinal_intake (c : ClientId) : (s.requestFinal c).intake = s.intake := by
  unfold State.requestFinal; dsimp only; split <;> rfl
/-- A ring's write in flight ends: nothing of the client but that flag changes. -/
theorem State.endRing_client (c : ClientId) (n : OutRingName) :
    (s.endRing c n).client c = (s.client c).setRing n { (s.client c).ring n with inFlight := false } := by
  simp [State.endRing]
theorem State.endRing_client_other {c d : ClientId} (n : OutRingName) (h : d ≠ c) : (s.endRing c n).client d = s.client d :=
  State.setClient_client_other s h _

/-- A withdrawal takes the write-backs and signals of a ring out of the record writer's queue and nothing else of the unit. -/
theorem State.withdrawTail_unit (c : ClientId) (n : OutRingName) : (s.withdrawTail c n).unit =
    { s.unit with writer := s.unit.writer.filter (fun t => !(t.op.isTail c n)) } := by
  unfold State.withdrawTail
  split
  · rfl
  · rename_i h
    have : s.unit.writer.filter (fun t => !(t.op.isTail c n)) = s.unit.writer := by
      rw [List.filter_eq_self]
      intro a ha
      simp only [List.any_eq_true, not_exists, not_and, Bool.not_eq_true] at h
      simpa using h a ha
    rw [this]
/-- A withdrawal ends the write in flight of the ring, if there was something to withdraw. -/
theorem State.withdrawTail_client (c : ClientId) (n : OutRingName) : (s.withdrawTail c n).client c =
    if s.unit.writer.any (fun t => t.op.isTail c n) then
      (s.client c).setRing n { (s.client c).ring n with inFlight := false } else s.client c := by
  unfold State.withdrawTail
  split
  · simp [State.endRing]
  · rfl
theorem State.withdrawTail_client_other {c d : ClientId} (n : OutRingName) (h : d ≠ c) :
    (s.withdrawTail c n).client d = s.client d := by
  unfold State.withdrawTail
  split
  · exact State.setClient_client_other s h _
  · rfl

/-- The final write-back is asked for when it is owed and no write of the client is in flight (R68). -/
theorem State.requestFinal_asks {c : ClientId}
    (h : ((s.client c).finalDue && !(s.client c).ret.inFlight && !(s.client c).del.inFlight) = true) :
    s.requestFinal c = (s.enqueue (finalWriteBackTxn s c)).setClient c { s.client c with finalDue := false } := by
  unfold State.requestFinal
  simp only [h, if_true]
/-- Otherwise nothing changes. -/
theorem State.requestFinal_waits {c : ClientId}
    (h : ((s.client c).finalDue && !(s.client c).ret.inFlight && !(s.client c).del.inFlight) = false) :
    s.requestFinal c = s := by
  unfold State.requestFinal
  simp [h]
/-- In either case nothing of a client but that it is owed changes. -/
theorem State.requestFinal_client (c : ClientId) :
    (s.requestFinal c).client c = { s.client c with finalDue := ((s.requestFinal c).client c).finalDue } := by
  unfold State.requestFinal
  dsimp only
  split
  · simp
  · rfl
theorem State.requestFinal_client_other {c d : ClientId} (h : d ≠ c) : (s.requestFinal c).client d = s.client d := by
  unfold State.requestFinal
  dsimp only
  split
  · exact State.setClient_client_other _ h _
  · rfl

@[simp] theorem State.clientFault_pending (c : ClientId) (r : FaultReason) : (s.clientFault c r).pending = s.pending := by
  unfold State.clientFault; split
  · split <;> simp [State.failDevice, State.leaveSets]
  · rfl
@[simp] theorem State.clientFault_load (c : ClientId) (r : FaultReason) : (s.clientFault c r).load = s.load := by
  unfold State.clientFault; split
  · split <;> simp [State.failDevice, State.leaveSets]
  · rfl
@[simp] theorem State.clientFault_arb (c : ClientId) (r : FaultReason) : (s.clientFault c r).arb = s.arb := by
  unfold State.clientFault; split
  · split <;> simp [State.failDevice, State.leaveSets]
  · rfl
@[simp] theorem State.clientFault_store (c : ClientId) (r : FaultReason) : (s.clientFault c r).store = s.store := by
  unfold State.clientFault; split
  · split <;> simp [State.failDevice, State.leaveSets]
  · rfl
@[simp] theorem State.clientFault_dir (c : ClientId) (r : FaultReason) : (s.clientFault c r).dir = s.dir := by
  unfold State.clientFault; split
  · split <;> simp [State.failDevice, State.leaveSets]
  · rfl
@[simp] theorem State.clientFault_slots (c : ClientId) (r : FaultReason) : (s.clientFault c r).slots = s.slots := by
  unfold State.clientFault; split
  · split <;> simp [State.failDevice, State.leaveSets]
  · rfl

/-! ### The canonical claim of a ring slot -/

@[simp] theorem State.addRefresh_pending (c : ClientId) : (s.addRefresh c).pending = s.pending := by
  unfold State.addRefresh; split <;> rfl
@[simp] theorem State.addRefresh_port (c : ClientId) : (s.addRefresh c).port = s.port := by
  unfold State.addRefresh; split <;> rfl
@[simp] theorem State.addRefresh_load (c : ClientId) : (s.addRefresh c).load = s.load := by
  unfold State.addRefresh; split <;> rfl
@[simp] theorem State.addRefresh_arb (c : ClientId) : (s.addRefresh c).arb = s.arb := by
  unfold State.addRefresh; split <;> rfl
@[simp] theorem State.addRefresh_store (c : ClientId) : (s.addRefresh c).store = s.store := by
  unfold State.addRefresh; split <;> rfl
@[simp] theorem State.addRefresh_dir (c : ClientId) : (s.addRefresh c).dir = s.dir := by
  unfold State.addRefresh; split <;> rfl
@[simp] theorem State.addRefresh_clients (c : ClientId) : (s.addRefresh c).clients = s.clients := by
  unfold State.addRefresh; split <;> rfl
@[simp] theorem State.addRefresh_slots (c : ClientId) : (s.addRefresh c).slots = s.slots := by
  unfold State.addRefresh; split <;> rfl
@[simp] theorem State.addRefresh_unit (c : ClientId) : (s.addRefresh c).unit = s.unit := by
  unfold State.addRefresh; split <;> rfl
@[simp] theorem State.claimRing_pending (c : ClientId) (n : OutRingName) (w : RecordKind) (b : Byte → List Byte) :
    (s.claimRing c n w b).pending = s.pending := by
  unfold State.claimRing; dsimp only; split <;> simp
@[simp] theorem State.claimRing_port (c : ClientId) (n : OutRingName) (w : RecordKind) (b : Byte → List Byte) :
    (s.claimRing c n w b).port = s.port := by
  unfold State.claimRing; dsimp only; split <;> simp
@[simp] theorem State.claimRing_load (c : ClientId) (n : OutRingName) (w : RecordKind) (b : Byte → List Byte) :
    (s.claimRing c n w b).load = s.load := by
  unfold State.claimRing; dsimp only; split <;> simp
@[simp] theorem State.claimRing_arb (c : ClientId) (n : OutRingName) (w : RecordKind) (b : Byte → List Byte) :
    (s.claimRing c n w b).arb = s.arb := by
  unfold State.claimRing; dsimp only; split <;> simp
@[simp] theorem State.claimRing_store (c : ClientId) (n : OutRingName) (w : RecordKind) (b : Byte → List Byte) :
    (s.claimRing c n w b).store = s.store := by
  unfold State.claimRing; dsimp only; split <;> simp
@[simp] theorem State.claimRing_dir (c : ClientId) (n : OutRingName) (w : RecordKind) (b : Byte → List Byte) :
    (s.claimRing c n w b).dir = s.dir := by
  unfold State.claimRing; dsimp only; split <;> simp
@[simp] theorem State.claimRing_slots (c : ClientId) (n : OutRingName) (w : RecordKind) (b : Byte → List Byte) :
    (s.claimRing c n w b).slots = s.slots := by
  unfold State.claimRing; dsimp only; split <;> simp

/-- What a claim leaves in the client's context: the ring's claimed tally one higher and its write in flight (R69). -/
theorem State.claimRing_client (c : ClientId) (n : OutRingName) (w : RecordKind) (b : Byte → List Byte) :
    (s.claimRing c n w b).client c =
      (s.client c).setRing n { (s.client c).ring n with claimed := ((s.client c).ring n).claimed + 1, inFlight := true } := by
  unfold State.claimRing
  dsimp only
  split
  · unfold State.addRefresh; split <;> simp
  · simp

/-- The record writer's queue after a claim: the record behind those made ready before it (R188). -/
theorem State.claimRing_unit (c : ClientId) (n : OutRingName) (w : RecordKind) (b : Byte → List Byte) :
    (s.claimRing c n w b).unit = { s.unit with writer := s.unit.writer ++
      [{ op := .record c n w,
         addr := ringAddr ((s.client c).ring n).base ((s.client c).ring n).size 32 ((s.client c).ring n).claimed,
         len := 32, data := b (lapFlag ((s.client c).ring n).size ((s.client c).ring n).claimed) }] } := by
  unfold State.claimRing
  dsimp only
  split
  · unfold State.addRefresh; split <;> rfl
  · rfl

end Sys2Proof.Machine
end

