-- ==== Sys2Proof/Laws/Sparse.lean ====
section
/-!
SUPPORT. The laws of the sparse tables: what a read gives after a put or a drop, and that every operation keeps the rising
keys; then the same for parcel memory and the parcel table.
-/

namespace Sys2Proof.Machine

variable {α : Type}

/-! ### Reading after a change -/

@[simp] theorem sparseGet_sparsePut_same (t : List (Nat × α)) (a : Nat) (v : α) :
    sparseGet (sparsePut t a v) a = some v := by
  induction t with
  | nil => simp [sparsePut, sparseGet]
  | cons x rest ih =>
    obtain ⟨k, w⟩ := x
    simp only [sparsePut]
    split
    · simp [sparseGet]
    · split
      · simp [sparseGet]
      · rename_i h1 h2
        simp [sparseGet, Ne.symm h2, ih]

theorem sparseGet_sparsePut_other (t : List (Nat × α)) {a b : Nat} (h : b ≠ a) (v : α) :
    sparseGet (sparsePut t a v) b = sparseGet t b := by
  induction t with
  | nil => simp [sparsePut, sparseGet, Ne.symm h]
  | cons x rest ih =>
    obtain ⟨k, w⟩ := x
    simp only [sparsePut]
    split
    · simp [sparseGet, Ne.symm h]
    · split
      · rename_i h1 h2
        subst h2
        simp [sparseGet, Ne.symm h]
      · simp [sparseGet, ih]

@[simp] theorem sparseGet_sparseDrop_same (t : List (Nat × α)) (a : Nat) : sparseGet (sparseDrop t a) a = none := by
  induction t with
  | nil => rfl
  | cons x rest ih =>
    obtain ⟨k, w⟩ := x
    simp only [sparseDrop]
    split
    · exact ih
    · rename_i h
      simp [sparseGet, h, ih]

theorem sparseGet_sparseDrop_other (t : List (Nat × α)) {a b : Nat} (h : b ≠ a) :
    sparseGet (sparseDrop t a) b = sparseGet t b := by
  induction t with
  | nil => rfl
  | cons x rest ih =>
    obtain ⟨k, w⟩ := x
    simp only [sparseDrop]
    split
    · rename_i hk
      subst hk
      simp [sparseGet, Ne.symm h, ih]
    · simp [sparseGet, ih]

/-! ### Membership -/

theorem mem_of_sparseGet {t : List (Nat × α)} {a : Nat} {v : α} (h : sparseGet t a = some v) : (a, v) ∈ t := by
  induction t with
  | nil => simp [sparseGet] at h
  | cons x rest ih =>
    obtain ⟨k, w⟩ := x
    simp only [sparseGet] at h
    split at h
    · rename_i hk
      subst hk
      simp only [Option.some.injEq] at h
      simp [h]
    · exact List.mem_cons_of_mem _ (ih h)

theorem mem_of_mem_sparsePut {t : List (Nat × α)} {a : Nat} {v : α} {x : Nat × α} (h : x ∈ sparsePut t a v) :
    x = (a, v) ∨ x ∈ t := by
  induction t with
  | nil => simpa [sparsePut] using h
  | cons y rest ih =>
    obtain ⟨k, w⟩ := y
    simp only [sparsePut] at h
    split at h
    · simpa using h
    · split at h
      · simp only [List.mem_cons] at h ⊢
        tauto
      · simp only [List.mem_cons] at h ⊢
        rcases h with h | h
        · exact .inr (.inl h)
        · rcases ih h with h | h <;> tauto

theorem mem_of_mem_sparseDrop {t : List (Nat × α)} {a : Nat} {x : Nat × α} (h : x ∈ sparseDrop t a) : x ∈ t := by
  induction t with
  | nil => simp [sparseDrop] at h
  | cons y rest ih =>
    obtain ⟨k, w⟩ := y
    simp only [sparseDrop] at h
    split at h
    · exact List.mem_cons_of_mem _ (ih h)
    · simp only [List.mem_cons] at h ⊢
      exact h.imp_right ih

/-! ### Rising keys -/

theorem keysAbove_iff {b : Nat} {t : List (Nat × α)} : keysAbove b t = true ↔ ∀ x ∈ t, b < x.1 := by
  induction t with
  | nil => simp [keysAbove]
  | cons x rest ih => simp [keysAbove, ih]

theorem keysRise_sparsePut {t : List (Nat × α)} (h : keysRise t = true) (a : Nat) (v : α) :
    keysRise (sparsePut t a v) = true := by
  induction t with
  | nil => simp [sparsePut, keysRise, keysAbove]
  | cons x rest ih =>
    obtain ⟨k, w⟩ := x
    simp only [keysRise, Bool.and_eq_true, keysAbove_iff] at h
    simp only [sparsePut]
    split
    · rename_i ha
      simp only [keysRise, keysAbove, Bool.and_eq_true, decide_eq_true_eq, keysAbove_iff]
      exact ⟨⟨ha, fun x hx => lt_trans ha (h.1 x hx)⟩, h.1, h.2⟩
    · split
      · rename_i hk
        subst hk
        simp only [keysRise, Bool.and_eq_true, keysAbove_iff]
        exact h
      · rename_i h1 h2
        simp only [keysRise, Bool.and_eq_true, keysAbove_iff]
        refine ⟨fun x hx => ?_, ih h.2⟩
        rcases mem_of_mem_sparsePut hx with rfl | hx
        · simp only; omega
        · exact h.1 x hx

theorem keysRise_sparseDrop {t : List (Nat × α)} (h : keysRise t = true) (a : Nat) :
    keysRise (sparseDrop t a) = true := by
  induction t with
  | nil => rfl
  | cons x rest ih =>
    obtain ⟨k, w⟩ := x
    simp only [keysRise, Bool.and_eq_true, keysAbove_iff] at h
    simp only [sparseDrop]
    split
    · exact ih h.2
    · simp only [keysRise, Bool.and_eq_true, keysAbove_iff]
      exact ⟨fun x hx => h.1 x (mem_of_mem_sparseDrop hx), ih h.2⟩

/-! ### Parcel memory -/

theorem Memory.read_write_same (m : List Host.Cell) (a : Nat) (b : Byte) : Memory.read (Memory.write m a b) a = b := by
  unfold Memory.read Memory.write
  split
  · rename_i h
    simp [h]
  · simp

theorem Memory.read_write_other (m : List Host.Cell) {a c : Nat} (h : c ≠ a) (b : Byte) :
    Memory.read (Memory.write m a b) c = Memory.read m c := by
  unfold Memory.read Memory.write
  split
  · rw [sparseGet_sparseDrop_other _ h]
  · rw [sparseGet_sparsePut_other _ h]

theorem Memory.wf_iff {m : List Host.Cell} :
    Memory.wf m = true ↔ keysRise m = true ∧ ∀ c ∈ m, c.2 ≠ Memory.unlisted := by
  simp [Memory.wf]

/-- Every write keeps the canonical form. -/
theorem Memory.wf_write {m : List Host.Cell} (h : Memory.wf m = true) (a : Nat) (b : Byte) :
    Memory.wf (Memory.write m a b) = true := by
  rw [Memory.wf_iff] at h ⊢
  unfold Memory.write
  split
  · exact ⟨keysRise_sparseDrop h.1 a, fun c hc => h.2 c (mem_of_mem_sparseDrop hc)⟩
  · rename_i hb
    refine ⟨keysRise_sparsePut h.1 a b, fun c hc => ?_⟩
    rcases mem_of_mem_sparsePut hc with rfl | hc
    · exact hb
    · exact h.2 c hc

/-- Memory after reset has the canonical form. -/
theorem Memory.wf_reset : Memory.wf State.reset.store.memory = true := rfl

/-! ### The parcel table -/

@[simp] theorem Store.parcel_setParcel_same (t : Store) (i : Nat) (p : Parcel) : (t.setParcel i p).parcel i = p := by
  unfold Store.parcel Store.setParcel
  dsimp only
  split
  · rename_i h
    simp [h]
  · simp

theorem Store.parcel_setParcel_other (t : Store) {i j : Nat} (h : j ≠ i) (p : Parcel) :
    (t.setParcel i p).parcel j = t.parcel j := by
  unfold Store.parcel Store.setParcel
  dsimp only
  split
  · rw [sparseGet_sparseDrop_other _ h]
  · rw [sparseGet_sparsePut_other _ h]

theorem Store.recordsWf_iff {t : Store} :
    t.recordsWf = true ↔ keysRise t.records = true ∧ ∀ r ∈ t.records, r.2 ≠ Parcel.initial := by
  simp [Store.recordsWf]

/-- Every replacement of a record keeps the canonical form of the parcel table. -/
theorem Store.recordsWf_setParcel {t : Store} (h : t.recordsWf = true) (i : Nat) (p : Parcel) :
    (t.setParcel i p).recordsWf = true := by
  rw [Store.recordsWf_iff] at h ⊢
  unfold Store.setParcel
  dsimp only
  split
  · exact ⟨keysRise_sparseDrop h.1 i, fun r hr => h.2 r (mem_of_mem_sparseDrop hr)⟩
  · rename_i hp
    refine ⟨keysRise_sparsePut h.1 i p, fun r hr => ?_⟩
    rcases mem_of_mem_sparsePut hr with rfl | hr
    · exact hp
    · exact h.2 r hr

@[simp] theorem Store.setParcel_pools (t : Store) (i : Nat) (p : Parcel) : (t.setParcel i p).pools = t.pools := rfl
@[simp] theorem Store.setParcel_accounts (t : Store) (i : Nat) (p : Parcel) : (t.setParcel i p).accounts = t.accounts := rfl
@[simp] theorem Store.setParcel_reserves (t : Store) (i : Nat) (p : Parcel) : (t.setParcel i p).reserves = t.reserves := rfl
@[simp] theorem Store.setParcel_arms (t : Store) (i : Nat) (p : Parcel) : (t.setParcel i p).arms = t.arms := rfl
@[simp] theorem Store.setParcel_memory (t : Store) (i : Nat) (p : Parcel) : (t.setParcel i p).memory = t.memory := rfl

end Sys2Proof.Machine
end

