-- ==== Sys2Proof/Laws/Store.lean ====
section
/-!
SUPPORT. What each request of the Parcel Store can do: the fields it leaves alone, and for each shared operation one lemma that
says all it does. A proof about a command cites these and unfolds none of them.
-/

namespace Sys2Proof.Machine

/-! ### Values for each class -/

@[simp] theorem PerClass.get_set_same {α : Type} (p : PerClass α) (k : SegClass) (v : α) : (p.set k v).get k = v := by
  cases k <;> rfl
theorem PerClass.get_set_other {α : Type} (p : PerClass α) {k l : SegClass} (h : l ≠ k) (v : α) :
    (p.set k v).get l = p.get l := by cases k <;> cases l <;> first | rfl | exact absurd rfl h
theorem PerClass.ext_get {α : Type} {p q : PerClass α} (h : ∀ k, p.get k = q.get k) : p = q := by
  have h1 := h .short
  have h2 := h .long
  cases p
  cases q
  simp_all [PerClass.get]
@[simp] theorem PerClass.set_get {α : Type} (p : PerClass α) (k : SegClass) : p.set k (p.get k) = p := by
  cases k <;> rfl

/-! ### Accounts -/

section Accounts
variable (t : Store)

@[simp] theorem Store.account_setAccount_same (c : ClientId) (a : Account) : (t.setAccount c a).account c = a := by
  simp [Store.account, Store.setAccount]
theorem Store.account_setAccount_other {c d : ClientId} (h : d ≠ c) (a : Account) :
    (t.setAccount c a).account d = t.account d := by
  have : c.val ≠ d.val := fun e => h (Fin.ext e.symm)
  simp [Store.account, Store.setAccount, this]
@[simp] theorem Store.setAccount_records (c : ClientId) (a : Account) : (t.setAccount c a).records = t.records := rfl
@[simp] theorem Store.setAccount_pools (c : ClientId) (a : Account) : (t.setAccount c a).pools = t.pools := rfl
@[simp] theorem Store.setAccount_reserves (c : ClientId) (a : Account) : (t.setAccount c a).reserves = t.reserves := rfl
@[simp] theorem Store.setAccount_arms (c : ClientId) (a : Account) : (t.setAccount c a).arms = t.arms := rfl
@[simp] theorem Store.setAccount_memory (c : ClientId) (a : Account) : (t.setAccount c a).memory = t.memory := rfl
@[simp] theorem Store.setAccount_parcel (c : ClientId) (a : Account) (i : Nat) :
    (t.setAccount c a).parcel i = t.parcel i := rfl
@[simp] theorem Store.setAccount_freeCount (c : ClientId) (a : Account) (k : SegClass) :
    (t.setAccount c a).freeCount k = t.freeCount k := rfl

@[simp] theorem Store.setParcel_account (i : Nat) (p : Parcel) (c : ClientId) : (t.setParcel i p).account c = t.account c := rfl
@[simp] theorem Store.setParcel_freeCount (i : Nat) (p : Parcel) (k : SegClass) :
    (t.setParcel i p).freeCount k = t.freeCount k := rfl

@[simp] theorem Store.setHeld_records (c : ClientId) (n : Nat) : (t.setHeld c n).records = t.records := rfl
@[simp] theorem Store.setHeld_pools (c : ClientId) (n : Nat) : (t.setHeld c n).pools = t.pools := rfl
@[simp] theorem Store.setHeld_reserves (c : ClientId) (n : Nat) : (t.setHeld c n).reserves = t.reserves := rfl
@[simp] theorem Store.setHeld_arms (c : ClientId) (n : Nat) : (t.setHeld c n).arms = t.arms := rfl
@[simp] theorem Store.setHeld_memory (c : ClientId) (n : Nat) : (t.setHeld c n).memory = t.memory := rfl
@[simp] theorem Store.setHeld_parcel (c : ClientId) (n i : Nat) : (t.setHeld c n).parcel i = t.parcel i := rfl
@[simp] theorem Store.setHeld_freeCount (c : ClientId) (n : Nat) (k : SegClass) :
    (t.setHeld c n).freeCount k = t.freeCount k := rfl
/-- All that a new held total changes. -/
theorem Store.setHeld_account (c d : ClientId) (n : Nat) :
    (t.setHeld c n).account d = if d = c then { t.account c with held := n } else t.account d := by
  unfold Store.setHeld
  split
  · rename_i h
    subst h
    simp
  · rename_i h
    rw [Store.account_setAccount_other _ h]

@[simp] theorem Store.uncharge_records (c : Option ClientId) (k : SegClass) (n : Nat) :
    (t.uncharge c k n).records = t.records := by cases c <;> rfl
@[simp] theorem Store.uncharge_pools (c : Option ClientId) (k : SegClass) (n : Nat) :
    (t.uncharge c k n).pools = t.pools := by cases c <;> rfl
@[simp] theorem Store.uncharge_reserves (c : Option ClientId) (k : SegClass) (n : Nat) :
    (t.uncharge c k n).reserves = t.reserves := by cases c <;> rfl
@[simp] theorem Store.uncharge_arms (c : Option ClientId) (k : SegClass) (n : Nat) :
    (t.uncharge c k n).arms = t.arms := by cases c <;> rfl
@[simp] theorem Store.uncharge_memory (c : Option ClientId) (k : SegClass) (n : Nat) :
    (t.uncharge c k n).memory = t.memory := by cases c <;> rfl
@[simp] theorem Store.uncharge_parcel (c : Option ClientId) (k : SegClass) (n i : Nat) :
    (t.uncharge c k n).parcel i = t.parcel i := by cases c <;> rfl
@[simp] theorem Store.uncharge_freeCount (c : Option ClientId) (k l : SegClass) (n : Nat) :
    (t.uncharge c k n).freeCount l = t.freeCount l := by cases c <;> rfl
/-- The held totals stay. -/
@[simp] theorem Store.uncharge_held (c : Option ClientId) (k : SegClass) (n : Nat) (d : ClientId) :
    ((t.uncharge c k n).account d).held = (t.account d).held := by
  cases c with
  | none => rfl
  | some c =>
    by_cases h : d = c
    · subst h
      simp [Store.uncharge]
    · simp [Store.uncharge, Store.account_setAccount_other _ h]
/-- All that an uncharge changes (R12). -/
theorem Store.uncharge_charged (c : Option ClientId) (k : SegClass) (n : Nat) (d : ClientId) (l : SegClass) :
    ((t.uncharge c k n).account d).charged.get l =
      if some d = c ∧ l = k then (t.account d).charged.get l - n else (t.account d).charged.get l := by
  cases c with
  | none => simp [Store.uncharge]
  | some c =>
    by_cases h : d = c
    · subst h
      by_cases hl : l = k
      · subst hl
        simp [Store.uncharge]
      · simp [Store.uncharge, hl, PerClass.get_set_other _ hl]
    · simp [Store.uncharge, Store.account_setAccount_other _ h, h]

@[simp] theorem Store.charge_records (c : ClientId) (k : SegClass) (n : Nat) : (t.charge c k n).records = t.records := rfl
@[simp] theorem Store.charge_pools (c : ClientId) (k : SegClass) (n : Nat) : (t.charge c k n).pools = t.pools := rfl
@[simp] theorem Store.charge_reserves (c : ClientId) (k : SegClass) (n : Nat) : (t.charge c k n).reserves = t.reserves := rfl
@[simp] theorem Store.charge_arms (c : ClientId) (k : SegClass) (n : Nat) : (t.charge c k n).arms = t.arms := rfl
@[simp] theorem Store.charge_memory (c : ClientId) (k : SegClass) (n : Nat) : (t.charge c k n).memory = t.memory := rfl
@[simp] theorem Store.charge_parcel (c : ClientId) (k : SegClass) (n i : Nat) : (t.charge c k n).parcel i = t.parcel i := rfl
@[simp] theorem Store.charge_freeCount (c : ClientId) (k l : SegClass) (n : Nat) :
    (t.charge c k n).freeCount l = t.freeCount l := rfl
/-- All that a charge changes (R11). -/
theorem Store.charge_account (c : ClientId) (k : SegClass) (n : Nat) (d : ClientId) :
    (t.charge c k n).account d =
      if d = c then { t.account c with charged := (t.account c).charged.set k ((t.account c).charged.get k + n) }
      else t.account d := by
  unfold Store.charge
  dsimp only
  split
  · rename_i h
    subst h
    simp
  · rename_i h
    rw [Store.account_setAccount_other _ h]

end Accounts

/-! ### Segments that return, and the arm (R2, R12, R26) -/

section Give
variable (t : Store)

@[simp] theorem Store.raiseTest_records (k : SegClass) : (t.raiseTest k).records = t.records := by
  unfold Store.raiseTest; split <;> rfl
@[simp] theorem Store.raiseTest_pools (k : SegClass) : (t.raiseTest k).pools = t.pools := by
  unfold Store.raiseTest; split <;> rfl
@[simp] theorem Store.raiseTest_accounts (k : SegClass) : (t.raiseTest k).accounts = t.accounts := by
  unfold Store.raiseTest; split <;> rfl
@[simp] theorem Store.raiseTest_reserves (k : SegClass) : (t.raiseTest k).reserves = t.reserves := by
  unfold Store.raiseTest; split <;> rfl
@[simp] theorem Store.raiseTest_memory (k : SegClass) : (t.raiseTest k).memory = t.memory := by
  unfold Store.raiseTest; split <;> rfl
@[simp] theorem Store.raiseTest_parcel (k : SegClass) (i : Nat) : (t.raiseTest k).parcel i = t.parcel i := by
  simp [Store.parcel]
@[simp] theorem Store.raiseTest_account (k : SegClass) (c : ClientId) : (t.raiseTest k).account c = t.account c := by
  simp [Store.account]
@[simp] theorem Store.raiseTest_freeCount (k l : SegClass) : (t.raiseTest k).freeCount l = t.freeCount l := by
  simp [Store.freeCount]
/-- All that the test at a raised free count changes (R26). -/
theorem Store.raiseTest_arms (k l : SegClass) : (t.raiseTest k).arms.get l =
    if l = k then t.arms.get k || decide (t.reserves.get k ≤ t.freeCount k) else t.arms.get l := by
  unfold Store.raiseTest
  split
  · rename_i h
    simp only [Bool.and_eq_true, Bool.not_eq_true', decide_eq_true_eq] at h
    by_cases hl : l = k
    · subst hl
      simp [h.2]
    · simp [hl, PerClass.get_set_other _ hl]
  · rename_i h
    by_cases hl : l = k
    · subst hl
      simp only [if_true]
      cases ha : t.arms.get l <;> simp_all
    · simp [hl]

@[simp] theorem Store.giveBack_records (k : SegClass) (c : Option ClientId) (segs : List Nat) :
    (t.giveBack k c segs).records = t.records := by
  unfold Store.giveBack; dsimp only; split <;> simp
@[simp] theorem Store.giveBack_parcel (k : SegClass) (c : Option ClientId) (segs : List Nat) (i : Nat) :
    (t.giveBack k c segs).parcel i = t.parcel i := by simp [Store.parcel]
@[simp] theorem Store.giveBack_reserves (k : SegClass) (c : Option ClientId) (segs : List Nat) :
    (t.giveBack k c segs).reserves = t.reserves := by
  unfold Store.giveBack; dsimp only; split <;> simp
@[simp] theorem Store.giveBack_memory (k : SegClass) (c : Option ClientId) (segs : List Nat) :
    (t.giveBack k c segs).memory = t.memory := by
  unfold Store.giveBack; dsimp only; split <;> simp
@[simp] theorem Store.giveBack_pools (k : SegClass) (c : Option ClientId) (segs : List Nat) :
    (t.giveBack k c segs).pools = t.pools.set k ((t.pools.get k).give segs) := by
  unfold Store.giveBack; dsimp only; split <;> simp
@[simp] theorem Store.giveBack_held (k : SegClass) (c : Option ClientId) (segs : List Nat) (d : ClientId) :
    ((t.giveBack k c segs).account d).held = (t.account d).held := by
  unfold Store.giveBack
  dsimp only
  split <;> (simp; rfl)

/-- All that returning segments changes, the held totals and the records apart, which stay. -/
theorem Store.giveBack_returns (k : SegClass) (c : Option ClientId) (segs : List Nat) :
    t.returns (t.giveBack k c segs) k c segs.length := by
  have hf : ∀ l, (t.giveBack k c segs).freeCount l = if l = k then t.freeCount k + segs.length else t.freeCount l := by
    intro l
    by_cases hl : l = k
    · subst hl
      simp only [Store.freeCount, Store.giveBack_pools, PerClass.get_set_same, Pool.give, List.length_append, if_true]
      omega
    · simp [Store.freeCount, PerClass.get_set_other _ hl, hl]
  have ha : ∀ l, (t.giveBack k c segs).arms.get l =
      if l = k then (t.arms.get k || (decide (0 < segs.length) && decide (t.reserves.get k ≤ t.freeCount k + segs.length)))
      else t.arms.get l := by
    intro l
    have e : ({ t with pools := t.pools.set k ((t.pools.get k).give segs) } : Store).freeCount k = t.freeCount k + segs.length := by
      simp only [Store.freeCount, PerClass.get_set_same, Pool.give, List.length_append]
      omega
    unfold Store.giveBack
    dsimp only
    split
    · rename_i h
      have : segs = [] := by simpa using h
      subst this
      by_cases hl : l = k
      · subst hl; simp
      · simp [hl]
    · rename_i h
      have : 0 < segs.length := by
        cases segs
        · simp at h
        · simp
      rw [Store.raiseTest_arms]
      simp [e, this]
  refine ⟨by simp [hf], fun l hl => ⟨by simp [hf, hl], by simp [ha, hl]⟩, ?_, by simp [hf, ha], by simp, by simp⟩
  intro d l
  unfold Store.giveBack
  dsimp only
  split <;> simp [Store.uncharge_charged] <;> rfl

end Give

/-! ### Freed records and dropped references (R8, R10) -/

section Drop
variable (t : Store)

theorem Store.freeParcel_parcel_other {i j : Nat} (h : j ≠ i) : (t.freeParcel i).parcel j = t.parcel j := by
  simp [Store.freeParcel, Store.parcel_setParcel_other _ h]
@[simp] theorem Store.freeParcel_held (i : Nat) (d : ClientId) : ((t.freeParcel i).account d).held = (t.account d).held := by
  simp [Store.freeParcel]
theorem Store.freeParcel_parcel (i : Nat) : (t.freeParcel i).parcel i =
    { Parcel.initial with generation := (t.parcel i).generation + 1, cls := (t.parcel i).cls } := by
  simp [Store.freeParcel]
theorem Parcel.freedFrom_initial (p q : Parcel) (h : q.generation = p.generation) :
    ({ Parcel.initial with generation := q.generation + 1, cls := q.cls } : Parcel).freedFrom p := by
  refine ⟨rfl, by simp [h], rfl, rfl, rfl, rfl, rfl, fun d => ?_, rfl⟩
  simp [Parcel.holder, Parcel.initial]
/-- All that a freeing changes in the pools, the accounts and the arms. -/
theorem Store.freeParcel_returns (i : Nat) :
    t.returns (t.freeParcel i) (t.parcel i).cls (t.parcel i).charged (t.parcel i).chain.length :=
  (t.setParcel i { Parcel.initial with generation := (t.parcel i).generation + 1, cls := (t.parcel i).cls }).giveBack_returns _ _ _

/-- A drop of more references than the client holds changes nothing. -/
theorem Store.drop_refused {i : Nat} {c : ClientId} {n : Nat} (h : (t.parcel i).holder c < n) : t.drop i c n = (t, false) := by
  simp [Store.drop, h]

/-- All that a drop does (R8, R10), with the reference count at least the number dropped. -/
theorem Store.drop_dropsTo {i : Nat} {c : ClientId} {n : Nat} (h : n ≤ (t.parcel i).holder c) (hr : n ≤ (t.parcel i).refCount) :
    t.dropsTo (t.drop i c n).1 i c n ∧ (t.drop i c n).2 = ((t.parcel i).refCount == n) := by
  have hn : ¬ (t.parcel i).holder c < n := by omega
  by_cases hz : (t.parcel i).refCount = n
  · have hd : t.drop i c n = ((((t.setParcel i { t.parcel i with
          holders := (t.parcel i).holders.set c.val ((t.parcel i).holder c - n),
          refCount := (t.parcel i).refCount - n }).setHeld c ((t.account c).held - n)).freeParcel i), true) := by
      simp [Store.drop, hn, hz]
    rw [hd]
    refine ⟨⟨fun j hj => ?_, fun d => ?_, ?_⟩, by simp [hz]⟩
    · simp [Store.freeParcel_parcel_other _ hj, Store.parcel_setParcel_other _ hj]
    · simp only [Store.freeParcel_held, Store.setHeld_account, Store.setParcel_account]
      split
      · rename_i h; subst h; rfl
      · rfl
    · rw [if_pos hz]
      refine ⟨?_, ?_⟩
      · rw [Store.freeParcel_parcel]
        exact Parcel.freedFrom_initial _ _ (by simp)
      · have := Store.freeParcel_returns ((t.setParcel i { t.parcel i with
          holders := (t.parcel i).holders.set c.val ((t.parcel i).holder c - n),
          refCount := (t.parcel i).refCount - n }).setHeld c ((t.account c).held - n)) i
        simp only [Store.setHeld_parcel, Store.parcel_setParcel_same] at this
        obtain ⟨h1, h2, h3, h4, h5, h6⟩ := this
        refine ⟨by simpa using h1, fun l hl => by simpa using h2 l hl, fun d l => ?_, by simpa using h4, by simpa using h5,
          by simpa using h6⟩
        rw [h3 d l, Store.setHeld_account]
        by_cases hdc : d = c
        · subst hdc; simp
        · simp [hdc]
  · have hd : t.drop i c n = ((t.setParcel i { t.parcel i with
          holders := (t.parcel i).holders.set c.val ((t.parcel i).holder c - n),
          refCount := (t.parcel i).refCount - n }).setHeld c ((t.account c).held - n), false) := by
      have : ¬ ((t.parcel i).refCount - n = 0) := by omega
      simp [Store.drop, hn, this]
    rw [hd]
    refine ⟨⟨fun j hj => ?_, fun d => ?_, ?_⟩, by simp [hz]⟩
    · simp [Store.parcel_setParcel_other _ hj]
    · simp only [Store.setHeld_account, Store.setParcel_account]
      split
      · rename_i h; subst h; rfl
      · rfl
    · rw [if_neg hz]
      refine ⟨by simp, by simp, by simp, by simp, by simp, fun d => ?_⟩
      simp only [Store.setHeld_account, Store.setParcel_account]
      split
      · rename_i h; subst h; rfl
      · rfl

/-- What a created reference leaves in each record and account (R7, R9). -/
theorem Store.createRef_parcel (i : Nat) (c : ClientId) (j : Nat) : (t.createRef i c).parcel j =
    if j = i then { t.parcel i with holders := (t.parcel i).holders.set c.val ((t.parcel i).holder c + 1),
                                    refCount := (t.parcel i).refCount + 1 }
    else t.parcel j := by
  unfold Store.createRef
  dsimp only
  split
  · rename_i h; subst h; simp
  · rename_i h; simp [Store.parcel_setParcel_other _ h]
theorem Store.createRef_account (i : Nat) (c d : ClientId) : (t.createRef i c).account d =
    if d = c then { t.account c with held := (t.account c).held + 1 } else t.account d := by
  simp [Store.createRef, Store.setHeld_account]
@[simp] theorem Store.createRef_pools (i : Nat) (c : ClientId) : (t.createRef i c).pools = t.pools := rfl
@[simp] theorem Store.createRef_arms (i : Nat) (c : ClientId) : (t.createRef i c).arms = t.arms := rfl
@[simp] theorem Store.createRef_reserves (i : Nat) (c : ClientId) : (t.createRef i c).reserves = t.reserves := rfl
@[simp] theorem Store.createRef_memory (i : Nat) (c : ClientId) : (t.createRef i c).memory = t.memory := rfl

end Drop

/-! ### Claims (R3, R13 to R17, R26) -/

section Claims
variable (t : Store)

/-- The search for a FREE record finds the first one in its range. -/
theorem Store.findFree_of_first : ∀ (fuel i k : Nat), i ≤ k → k < i + fuel → (t.parcel k).state = .free →
    (∀ j, i ≤ j → j < k → (t.parcel j).state ≠ .free) → t.findFree fuel i = some k
  | 0, i, k, h1, h2, _, _ => by omega
  | fuel + 1, i, k, h1, h2, h3, h4 => by
    unfold Store.findFree
    by_cases h : i = k
    · subst h; simp [h3]
    · rw [if_neg (h4 i (Nat.le_refl i) (by omega))]
      exact Store.findFree_of_first fuel (i + 1) k (by omega) (by omega) h3 (fun j hj => h4 j (by omega))

/-- What the search answers: the first FREE record of its range, or that there is none. -/
theorem Store.findFree_cases : ∀ (fuel i : Nat),
    (∃ k, t.findFree fuel i = some k ∧ i ≤ k ∧ k < i + fuel ∧ (t.parcel k).state = .free ∧
      ∀ j, i ≤ j → j < k → (t.parcel j).state ≠ .free) ∨
    (t.findFree fuel i = none ∧ ∀ j, i ≤ j → j < i + fuel → (t.parcel j).state ≠ .free)
  | 0, i => .inr ⟨rfl, fun j h1 h2 => by omega⟩
  | fuel + 1, i => by
    unfold Store.findFree
    by_cases h : (t.parcel i).state = .free
    · exact .inl ⟨i, by simp [h], Nat.le_refl i, by omega, h, fun j h1 h2 => by omega⟩
    · rw [if_neg h]
      rcases Store.findFree_cases fuel (i + 1) with ⟨k, h1, h2, h3, h4, h5⟩ | ⟨h1, h2⟩
      · refine .inl ⟨k, h1, by omega, by omega, h4, fun j hj hk => ?_⟩
        by_cases he : j = i
        · subst he; exact h
        · exact h5 j (by omega) hk
      · refine .inr ⟨h1, fun j hj hk => ?_⟩
        by_cases he : j = i
        · subst he; exact h
        · exact h2 j (by omega) (by omega)

theorem Store.lowestFree_of_first {k : Nat} (hk : k < 1024) (h : (t.parcel k).state = .free)
    (hf : ∀ j, j < k → (t.parcel j).state ≠ .free) : t.lowestFree = some k :=
  t.findFree_of_first 1024 0 k (Nat.zero_le k) (by omega) h (fun j _ => hf j)

theorem Store.lowestFree_cases :
    (∃ k, t.lowestFree = some k ∧ k < 1024 ∧ (t.parcel k).state = .free ∧ ∀ j, j < k → (t.parcel j).state ≠ .free) ∨
    (t.lowestFree = none ∧ ∀ j, j < 1024 → (t.parcel j).state ≠ .free) := by
  rcases t.findFree_cases 1024 0 with ⟨k, h1, _, h3, h4, h5⟩ | ⟨h1, h2⟩
  · exact .inl ⟨k, h1, by omega, h4, fun j hj => h5 j (Nat.zero_le j) hj⟩
  · exact .inr ⟨h1, fun j hj => h2 j (Nat.zero_le j) (by omega)⟩

theorem Store.openRecord_parcel (i : Nat) (k : SegClass) (c : ClientId) (j : Nat) : (t.openRecord i k c).parcel j =
    if j = i then { state := .building, generation := (t.parcel i).generation, cls := k, length := 0, headOffset := 0,
                    growth := none, chain := [], charged := some c, holders := (Vector.replicate 8 0).set c.val 1,
                    refCount := 1 }
    else t.parcel j := by
  unfold Store.openRecord
  split
  · rename_i h; subst h; simp [Parcel.initial]
  · rename_i h; simp [Store.parcel_setParcel_other _ h]
theorem Store.openRecord_account (i : Nat) (k : SegClass) (c d : ClientId) : (t.openRecord i k c).account d =
    if d = c then { t.account c with held := (t.account c).held + 1 } else t.account d := by
  simp [Store.openRecord, Store.setHeld_account]
@[simp] theorem Store.openRecord_pools (i : Nat) (k : SegClass) (c : ClientId) : (t.openRecord i k c).pools = t.pools := rfl
@[simp] theorem Store.openRecord_arms (i : Nat) (k : SegClass) (c : ClientId) : (t.openRecord i k c).arms = t.arms := rfl
@[simp] theorem Store.openRecord_reserves (i : Nat) (k : SegClass) (c : ClientId) :
    (t.openRecord i k c).reserves = t.reserves := rfl
@[simp] theorem Store.openRecord_memory (i : Nat) (k : SegClass) (c : ClientId) : (t.openRecord i k c).memory = t.memory := rfl
@[simp] theorem Store.openRecord_freeCount (i : Nat) (k l : SegClass) (c : ClientId) :
    (t.openRecord i k c).freeCount l = t.freeCount l := rfl

@[simp] theorem Pool.length_pick (p : Pool) (n : Nat) : (p.pick n).length = n := by
  simp [Pool.pick]; omega
@[simp] theorem Pool.taken_zero (p : Pool) : p.taken 0 = p := by simp [Pool.taken]
@[simp] theorem Pool.pick_zero (p : Pool) : p.pick 0 = [] := by simp [Pool.pick]

/-- A claim of no segment sets the growth length and changes nothing else. -/
theorem Store.grow_zero (i : Nat) (c : ClientId) (g : Nat) :
    (∀ j, (t.grow i c 0 g).parcel j = if j = i then { t.parcel i with growth := some g } else t.parcel j) ∧
    (t.grow i c 0 g).pools = t.pools ∧ (∀ d, (t.grow i c 0 g).account d = t.account d) ∧ (t.grow i c 0 g).arms = t.arms ∧
    (t.grow i c 0 g).reserves = t.reserves ∧ (t.grow i c 0 g).memory = t.memory := by
  refine ⟨fun j => ?_, by simp [Store.grow], fun d => ?_, rfl, rfl, rfl⟩
  · unfold Store.grow
    dsimp only
    split
    · rename_i h; subst h; simp
    · rename_i h
      simp only [Store.charge_parcel, Store.parcel_setParcel_other _ h]
      rfl
  · simp only [Store.grow, Store.charge_account, Store.setParcel_account]
    split
    · rename_i h
      subst h
      simp only [Nat.add_zero, PerClass.set_get]
      rfl
    · rfl

/-- All that the claim of segments does (R17), the low-water test apart. -/
theorem Store.grow_spec (i : Nat) (c : ClientId) {n : Nat} (g : Nat) (h : n ≤ t.freeCount (t.parcel i).cls) :
    (∃ segs : List Nat, segs.length = n ∧ (t.grow i c n g).parcel i =
      { t.parcel i with chain := (t.parcel i).chain ++ segs, growth := some g }) ∧
    (∀ j, j ≠ i → (t.grow i c n g).parcel j = t.parcel j) ∧
    (t.grow i c n g).freeCount (t.parcel i).cls + n = t.freeCount (t.parcel i).cls ∧
    (∀ k, k ≠ (t.parcel i).cls → (t.grow i c n g).freeCount k = t.freeCount k) ∧
    (∀ d, (t.grow i c n g).account d = if d = c then { t.account c with
        charged := (t.account c).charged.set (t.parcel i).cls ((t.account c).charged.get (t.parcel i).cls + n) }
      else t.account d) ∧
    (t.grow i c n g).arms = t.arms ∧ (t.grow i c n g).reserves = t.reserves ∧ (t.grow i c n g).memory = t.memory := by
  refine ⟨⟨(t.pools.get (t.parcel i).cls).pick n, by simp, by simp [Store.grow]⟩, fun j hj => ?_, ?_, fun k hk => ?_,
    fun d => ?_, rfl, rfl, rfl⟩
  · simp only [Store.grow, Store.charge_parcel, Store.parcel_setParcel_other _ hj]
    rfl
  · simp only [Store.freeCount] at h
    simp only [Store.grow, Store.charge_freeCount, Store.setParcel_freeCount]
    simp only [Store.freeCount, PerClass.get_set_same, Pool.taken, List.length_drop]
    omega
  · simp [Store.grow, Store.freeCount, PerClass.get_set_other _ hk]
  · simp only [Store.grow, Store.charge_account, Store.setParcel_account]
    rfl

end Claims

/-! ### The end of a growth (R18, R19, R107) -/

section Ends
variable (t : Store)

theorem Store.commit_parcel (i : Nat) (close : Bool) (j : Nat) : (t.commit i close).parcel j =
    if j = i then { t.parcel i with length := (t.parcel i).length + (t.parcel i).growth.getD 0, growth := none,
                                    state := if close then .closed else (t.parcel i).state }
    else t.parcel j := by
  unfold Store.commit
  dsimp only
  by_cases h : j = i
  · subst h; simp
  · simp [Store.parcel_setParcel_other _ h, h]
@[simp] theorem Store.commit_pools (i : Nat) (b : Bool) : (t.commit i b).pools = t.pools := rfl
@[simp] theorem Store.commit_accounts (i : Nat) (b : Bool) : (t.commit i b).accounts = t.accounts := rfl
@[simp] theorem Store.commit_account (i : Nat) (b : Bool) (d : ClientId) : (t.commit i b).account d = t.account d := rfl
@[simp] theorem Store.commit_arms (i : Nat) (b : Bool) : (t.commit i b).arms = t.arms := rfl
@[simp] theorem Store.commit_reserves (i : Nat) (b : Bool) : (t.commit i b).reserves = t.reserves := rfl
@[simp] theorem Store.commit_memory (i : Nat) (b : Bool) : (t.commit i b).memory = t.memory := rfl
@[simp] theorem Store.commit_freeCount (i : Nat) (b : Bool) (k : SegClass) : (t.commit i b).freeCount k = t.freeCount k := rfl

theorem Store.setParcelState_parcel (i : Nat) (st : ParcelState) (j : Nat) : (t.setParcelState i st).parcel j =
    if j = i then { t.parcel i with state := st } else t.parcel j := by
  unfold Store.setParcelState
  split
  · rename_i h; subst h; simp
  · rename_i h; simp [Store.parcel_setParcel_other _ h]
@[simp] theorem Store.setParcelState_pools (i : Nat) (st : ParcelState) : (t.setParcelState i st).pools = t.pools := rfl
@[simp] theorem Store.setParcelState_accounts (i : Nat) (st : ParcelState) : (t.setParcelState i st).accounts = t.accounts := rfl
@[simp] theorem Store.setParcelState_arms (i : Nat) (st : ParcelState) : (t.setParcelState i st).arms = t.arms := rfl
@[simp] theorem Store.setParcelState_memory (i : Nat) (st : ParcelState) : (t.setParcelState i st).memory = t.memory := rfl

/-- All that the undo of an APPEND's growth does. -/
theorem Store.undo_append (g : GrowthClaim) (hs : g.isSend = false) (hg : g.segments ≤ (t.parcel g.index).chain.length) :
    (t.undo g).parcel g.index = { t.parcel g.index with
      chain := (t.parcel g.index).chain.take ((t.parcel g.index).chain.length - g.segments), growth := none } ∧
    (∀ j, j ≠ g.index → (t.undo g).parcel j = t.parcel j) ∧
    (∀ d, ((t.undo g).account d).held = (t.account d).held) ∧
    t.returns (t.undo g) (t.parcel g.index).cls (t.parcel g.index).charged g.segments := by
  have hl : ((t.parcel g.index).chain.drop ((t.parcel g.index).chain.length - g.segments)).length = g.segments := by
    simp; omega
  unfold Store.undo
  simp only [hs, Bool.false_eq_true, if_false]
  refine ⟨by simp, fun j hj => by simp [Store.parcel_setParcel_other _ hj], fun d => by simp, ?_⟩
  have := (t.setParcel g.index { t.parcel g.index with
    chain := (t.parcel g.index).chain.take ((t.parcel g.index).chain.length - g.segments), growth := none }).giveBack_returns
      (t.parcel g.index).cls (t.parcel g.index).charged
      ((t.parcel g.index).chain.drop ((t.parcel g.index).chain.length - g.segments))
  rw [hl] at this
  exact this

/-- All that the undo of a SEND's growth does, its parcel holding the claimed segments alone and the builder's reference
(R19, R108): the record is freed. -/
theorem Store.undo_send (g : GrowthClaim) (hs : g.isSend = true) (hl : (t.parcel g.index).chain.length = g.segments)
    (hh : (t.parcel g.index).holder g.client = 1) (hr : (t.parcel g.index).refCount = 1) :
    ((t.undo g).parcel g.index).freedFrom (t.parcel g.index) ∧
    (∀ j, j ≠ g.index → (t.undo g).parcel j = t.parcel j) ∧
    (∀ d, ((t.undo g).account d).held = if d = g.client then (t.account d).held - 1 else (t.account d).held) ∧
    t.returns (t.undo g) (t.parcel g.index).cls (t.parcel g.index).charged g.segments := by
  unfold Store.undo
  simp only [hs, hl, if_true, Nat.sub_self, List.drop_zero, List.take_zero]
  generalize hu : (t.setParcel g.index { t.parcel g.index with chain := [], growth := none }).giveBack (t.parcel g.index).cls
    (t.parcel g.index).charged (t.parcel g.index).chain = u
  have hup : u.parcel g.index = { t.parcel g.index with chain := [], growth := none } := by rw [← hu]; simp
  have huo : ∀ j, j ≠ g.index → u.parcel j = t.parcel j := fun j hj => by
    rw [← hu]; simp [Store.parcel_setParcel_other _ hj]
  have huh : ∀ d, (u.account d).held = (t.account d).held := fun d => by rw [← hu]; simp
  have hur : t.returns u (t.parcel g.index).cls (t.parcel g.index).charged g.segments := by
    rw [← hu, ← hl]
    exact (t.setParcel g.index { t.parcel g.index with chain := [], growth := none }).giveBack_returns _ _ _
  obtain ⟨⟨h1, h2, h3⟩, _⟩ := Store.drop_dropsTo u (i := g.index) (c := g.client) (n := 1) (by rw [hup]; exact hh.ge)
    (by rw [hup]; exact hr.ge)
  rw [hup] at h3
  simp only [hr, if_true] at h3
  refine ⟨?_, fun j hj => by rw [h1 j hj, huo j hj], fun d => by rw [h2 d, huh d], ?_⟩
  · obtain ⟨a1, a2, a3, a4, a5, a6, a7, a8, a9⟩ := h3.1
    exact ⟨a1, a2, a3, a4, a5, a6, a7, a8, a9⟩
  · obtain ⟨b1, b2, b3, b4, b5, b6⟩ := h3.2
    obtain ⟨c1, c2, c3, c4, c5, c6⟩ := hur
    refine ⟨by rw [b1, c1]; rfl, fun l hl => ⟨by rw [(b2 l hl).1, (c2 l hl).1], by rw [(b2 l hl).2, (c2 l hl).2]⟩,
      fun d l => ?_, ?_, by rw [b5, c5], by rw [b6, c6]⟩
    · rw [b3 d l, c3 d l]
      simp
    · rw [b4, c4, b1, b5]
      simp

end Ends

/-! ### Cuts (R22 to R24) -/

/-- All that a cut of at most the length does (R22 to R24). -/
theorem Store.cut_spec (t : Store) (i n : Nat) (tail : Bool) {p : Parcel} (hp : p = t.parcel i) :
    (t.cut i n tail).parcel i =
      (if n = 0 then p
      else if p.length - n = 0 then { p with chain := [], headOffset := 0, length := 0 }
      else if tail then
        { p with chain := p.chain.take ((p.headOffset + p.length - n + p.cls.size - 1) / p.cls.size), length := p.length - n }
      else
        { p with chain := p.chain.drop ((p.headOffset + n) / p.cls.size), headOffset := (p.headOffset + n) % p.cls.size,
                 length := p.length - n }) ∧
    (∀ j, j ≠ i → (t.cut i n tail).parcel j = t.parcel j) ∧
    (∀ d, ((t.cut i n tail).account d).held = (t.account d).held) ∧
    t.returns (t.cut i n tail) p.cls p.charged (p.chain.length - ((t.cut i n tail).parcel i).chain.length) := by
  have give : ∀ (q : Parcel) (segs : List Nat), p.chain.length - q.chain.length = segs.length →
      ((t.setParcel i q).giveBack p.cls p.charged segs).parcel i = q ∧
      (∀ j, j ≠ i → ((t.setParcel i q).giveBack p.cls p.charged segs).parcel j = t.parcel j) ∧
      (∀ d, (((t.setParcel i q).giveBack p.cls p.charged segs).account d).held = (t.account d).held) ∧
      t.returns ((t.setParcel i q).giveBack p.cls p.charged segs) p.cls p.charged
        (p.chain.length - (((t.setParcel i q).giveBack p.cls p.charged segs).parcel i).chain.length) := by
    intro q segs h
    refine ⟨by simp, fun j hj => by simp [Store.parcel_setParcel_other _ hj], fun d => by simp, ?_⟩
    rw [Store.giveBack_parcel, Store.parcel_setParcel_same, h]
    exact (t.setParcel i q).giveBack_returns _ _ _
  have hcut : ∀ (l : List Nat) (k : Nat), l.length - (l.drop k).length = (l.take k).length := by
    intro l k
    simp
    omega
  have htake : ∀ (l : List Nat) (k : Nat), l.length - (l.take k).length = (l.drop k).length := by
    intro l k
    simp
    omega
  unfold Store.cut
  by_cases h0 : n = 0
  · simp only [h0, if_true, ← hp, Nat.sub_self]
    exact ⟨trivial, fun _ _ => trivial, fun _ => trivial, by simp [Store.returns]⟩
  · simp only [h0, if_false]
    cases tail
    · simp only [Bool.false_eq_true, if_false]
      unfold Store.cutHead
      simp only [← hp]
      by_cases hz : p.length - n = 0
      · simp only [hz, if_true]
        exact give _ _ (by simp)
      · simp only [hz, if_false]
        have hm : p.headOffset + n - (p.headOffset + n) / p.cls.size * p.cls.size = (p.headOffset + n) % p.cls.size := by
          have := Nat.div_add_mod (p.headOffset + n) p.cls.size
          rw [Nat.mul_comm] at this
          omega
        rw [hm]
        exact give _ _ (hcut p.chain _)
    · simp only [if_true]
      unfold Store.cutTail
      simp only [← hp]
      by_cases hz : p.length - n = 0
      · simp only [hz, if_true]
        exact give _ _ (by simp)
      · simp only [hz, if_false, SegClass.segmentsFor]
        exact give _ _ (htake p.chain _)

/-! ### The reference walk (R27) -/

/-- All that a visit does to a live record that it does not free, and which visits free. -/
theorem Store.visit_spec (t : Store) (c : ClientId) (i : Nat) {p : Parcel} (hp : p = t.parcel i) (hl : p.state ≠ .free)
    (hr : p.holder c ≤ p.refCount) (h0 : 0 < p.refCount) :
    (t.visit c i).2.1 = p.holder c ∧ (t.visit c i).2.2 = (p.holder c == p.refCount) ∧
    (∀ j, j ≠ i → (t.visit c i).1.parcel j = t.parcel j) ∧
    (p.holder c = p.refCount → t.dropsTo (t.visit c i).1 i c (p.holder c)) ∧
    (p.holder c ≠ p.refCount →
      (t.visit c i).1.parcel i = { p with
        holders := p.holders.set c.val 0, refCount := p.refCount - p.holder c,
        charged := if p.charged = some c then none else p.charged } ∧
      ((t.visit c i).1.account c).held = (t.account c).held - p.holder c ∧
      (∀ l, ((t.visit c i).1.account c).charged.get l =
        if p.charged = some c ∧ l = p.cls then (t.account c).charged.get l - p.chain.length
        else (t.account c).charged.get l) ∧
      (∀ d, d ≠ c → (t.visit c i).1.account d = t.account d) ∧
      (t.visit c i).1.pools = t.pools ∧ (t.visit c i).1.arms = t.arms ∧ (t.visit c i).1.reserves = t.reserves ∧
      (t.visit c i).1.memory = t.memory) := by
  subst hp
  have hd : ∃ d : Store × Bool, (if (t.parcel i).holder c = 0 then (t, false) else t.drop i c ((t.parcel i).holder c)) = d ∧
      d.2 = ((t.parcel i).holder c == (t.parcel i).refCount) ∧
      (∀ j, j ≠ i → d.1.parcel j = t.parcel j) ∧
      ((t.parcel i).holder c = (t.parcel i).refCount → t.dropsTo d.1 i c ((t.parcel i).holder c)) ∧
      ((t.parcel i).holder c ≠ (t.parcel i).refCount →
        d.1.parcel i = { t.parcel i with holders := (t.parcel i).holders.set c.val 0,
                                         refCount := (t.parcel i).refCount - (t.parcel i).holder c } ∧
        (d.1.account c).held = (t.account c).held - (t.parcel i).holder c ∧
        (d.1.account c).charged = (t.account c).charged ∧ (∀ e, e ≠ c → d.1.account e = t.account e) ∧
        d.1.pools = t.pools ∧ d.1.arms = t.arms ∧ d.1.reserves = t.reserves ∧ d.1.memory = t.memory) := by
    by_cases hz : (t.parcel i).holder c = 0
    · refine ⟨(t, false), by simp [hz], ?_, fun _ _ => rfl, fun h => absurd h (by omega), fun _ => ?_⟩
      · have : (t.parcel i).holder c ≠ (t.parcel i).refCount := by omega
        simp [this]
      · refine ⟨?_, by simp [hz], rfl, fun _ _ => rfl, rfl, rfl, rfl, rfl⟩
        have hv : (t.parcel i).holders.set c.val 0 = (t.parcel i).holders := by
          have e : (t.parcel i).holders[c.val] = 0 := hz
          conv_rhs => rw [← Vector.set_getElem_self (xs := (t.parcel i).holders) (i := c.val) (hi := c.isLt)]
          rw [e]
        rw [hv, hz]
        rfl
    · obtain ⟨hdt, hf⟩ := t.drop_dropsTo (i := i) (c := c) (n := (t.parcel i).holder c) (Nat.le_refl _) hr
      refine ⟨t.drop i c ((t.parcel i).holder c), by simp [hz], ?_, hdt.1, fun _ => hdt, fun hne => ?_⟩
      · rw [hf]
        by_cases he : (t.parcel i).holder c = (t.parcel i).refCount
        · simp [he]
        · simp [he, Ne.symm he]
      · obtain ⟨_, h2, h3⟩ := hdt
        rw [if_neg (Ne.symm hne)] at h3
        obtain ⟨a1, a2, a3, a4, a5, a6⟩ := h3
        refine ⟨by rw [a1, Nat.sub_self], by rw [h2 c]; simp, a6 c, fun e he => ?_, a2, a3, a4, a5⟩
        have e1 := h2 e
        have e2 := a6 e
        rw [if_neg he] at e1
        cases hx : (t.drop i c ((t.parcel i).holder c)).1.account e
        cases hy : t.account e
        rw [hx, hy] at e1 e2
        simp_all
  obtain ⟨d, hd0, hd1, hd2, hd3, hd4⟩ := hd
  unfold Store.visit
  simp only [hl, if_false, hd0]
  by_cases he : (t.parcel i).holder c = (t.parcel i).refCount
  · have hfree : (d.1.parcel i).state = .free := by
      have := (hd3 he).2.2
      rw [if_pos he.symm] at this
      exact this.1.1
    simp only [hfree, ne_eq, not_true_eq_false, false_and, if_false]
    exact ⟨trivial, hd1, hd2, fun _ => hd3 he, fun h => absurd he h⟩
  · obtain ⟨b1, b2, b3, b4, b5, b6, b7, b8⟩ := hd4 he
    rw [b1]
    by_cases hc : (t.parcel i).charged = some c
    · simp only [ne_eq, hl, not_false_eq_true, hc, and_self, if_true, true_and]
      refine ⟨hd1, fun j hj => ?_, fun h => absurd h he, fun _ => ?_⟩
      · rw [Store.uncharge_parcel, Store.parcel_setParcel_other _ hj, hd2 j hj]
      · refine ⟨by simp, by simp [b2], fun l => ?_, fun e he => ?_, by simp [b5], by simp [b6], by simp [b7], by simp [b8]⟩
        · rw [Store.uncharge_charged]
          simp only [Store.setParcel_account, true_and, b3]
        · simp [Store.uncharge, Store.account_setAccount_other _ he, b4 e he]
    · simp only [hc, and_false, if_false, false_and]
      exact ⟨trivial, hd1, hd2, fun h => absurd h he, fun _ => ⟨b1, b2, fun l => by rw [b3], b4, b5, b6, b7, b8⟩⟩

/-! ### A claim with its low-water test (R17, R26) -/

/-- All that a claim of segments does to the state. -/
theorem State.claimSegments_spec (s : State) (i : Nat) (c : ClientId) {n : Nat} (g : Nat)
    (h : n ≤ s.store.freeCount (s.store.parcel i).cls) :
    s.store.claimsTo (s.claimSegments i c n g).store i c n g ∧
    s.lowWaterNotice (s.claimSegments i c n g) (s.store.parcel i).cls n ∧
    (s.claimSegments i c n g).pending = s.pending ∧ (s.claimSegments i c n g).port = s.port ∧
    (s.claimSegments i c n g).load = s.load ∧ (s.claimSegments i c n g).arb = s.arb ∧
    (s.claimSegments i c n g).dir = s.dir ∧ (s.claimSegments i c n g).clients = s.clients ∧
    (s.claimSegments i c n g).intake = s.intake ∧ (s.claimSegments i c n g).slots = s.slots := by
  obtain ⟨h1, h2, h3, h4, h5, h6, h7, h8⟩ := s.store.grow_spec i c g h
  have claims : ∀ t : Store, t.records = (s.store.grow i c n g).records → t.pools = (s.store.grow i c n g).pools →
      t.accounts = (s.store.grow i c n g).accounts → t.reserves = s.store.reserves → t.memory = s.store.memory →
      (∀ k, k ≠ (s.store.parcel i).cls → t.arms.get k = s.store.arms.get k) →
      t.arms.get (s.store.parcel i).cls = (s.store.arms.get (s.store.parcel i).cls &&
        !(decide (0 < n) && decide (t.freeCount (s.store.parcel i).cls < s.store.reserves.get (s.store.parcel i).cls))) →
      s.store.claimsTo t i c n g := by
    intro t a1 a2 a3 a4 a5 a6 a7
    have ep : ∀ j, t.parcel j = (s.store.grow i c n g).parcel j := fun j => by simp [Store.parcel, a1]
    have ef : ∀ k, t.freeCount k = (s.store.grow i c n g).freeCount k := fun k => by simp [Store.freeCount, a2]
    have ea : ∀ d, t.account d = (s.store.grow i c n g).account d := fun d => by simp [Store.account, a3]
    refine ⟨by rw [ep]; exact h1, fun j hj => by rw [ep, h2 j hj], by rw [ef]; exact h3,
      fun k hk => ⟨by rw [ef, h4 k hk], a6 k hk⟩, fun d k => ?_, fun d => ?_, a7, a4, a5⟩
    · rw [ea, h5 d]
      by_cases hd : d = c
      · subst hd
        by_cases hk : k = (s.store.parcel i).cls
        · subst hk; simp
        · simp [hk, PerClass.get_set_other _ hk]
      · simp [hd]
    · rw [ea, h5 d]
      split
      · rename_i hd; subst hd; rfl
      · rfl
  have notice : ∀ u : State, u.store.freeCount (s.store.parcel i).cls = (s.store.grow i c n g).freeCount (s.store.parcel i).cls →
      (0 < n → s.store.arms.get (s.store.parcel i).cls = true →
        (s.store.grow i c n g).freeCount (s.store.parcel i).cls < s.store.reserves.get (s.store.parcel i).cls →
        u.unit = (s.queueNotice (.poolLow (s.store.parcel i).cls
          ((s.store.grow i c n g).freeCount (s.store.parcel i).cls))).unit) →
      (¬ (0 < n ∧ s.store.arms.get (s.store.parcel i).cls = true ∧
        (s.store.grow i c n g).freeCount (s.store.parcel i).cls < s.store.reserves.get (s.store.parcel i).cls) →
        u.unit = s.unit) → s.lowWaterNotice u (s.store.parcel i).cls n := by
    intro u e a b
    unfold State.lowWaterNotice
    rw [e]
    split
    · rename_i h
      rw [a h.1 h.2.1 h.2.2]
      unfold State.queueNotice Config.notices Config.maxLost
      split <;> rfl
    · rename_i h
      exact b h
  unfold State.claimSegments
  dsimp only
  by_cases hn : n = 0
  · simp only [hn, if_true]
    subst hn
    refine ⟨claims _ rfl rfl rfl h7 h8 (fun k _ => by rw [← h6]; rfl) (by rw [← h6]; simp),
      notice _ rfl (fun x => absurd x (by omega)) (fun _ => rfl), rfl, rfl, rfl, rfl, rfl, rfl, rfl, rfl⟩
  · have hpos : 0 < n := by omega
    simp only [hn, if_false]
    unfold State.lowerTest
    simp only [State.setStore_store, h6, h7]
    by_cases hlow : s.store.arms.get (s.store.parcel i).cls = true ∧
        (s.store.grow i c n g).freeCount (s.store.parcel i).cls < s.store.reserves.get (s.store.parcel i).cls
    · simp only [hlow.1, hlow.2, decide_true, Bool.and_self, if_true]
      refine ⟨?_, ?_, by simp, by simp, by simp, by simp, by simp, by simp, by simp, by simp⟩
      · simp only [State.queueNotice_store, State.setStore_store]
        refine claims _ rfl rfl rfl rfl h8 (fun k hk => PerClass.get_set_other _ hk _) ?_
        show (s.store.arms.set (s.store.parcel i).cls false).get (s.store.parcel i).cls = (s.store.arms.get (s.store.parcel i).cls &&
          !(decide (0 < n) &&
            decide ((s.store.grow i c n g).freeCount (s.store.parcel i).cls < s.store.reserves.get (s.store.parcel i).cls)))
        simp [hpos, hlow.2]
      · refine notice _ (by simp only [State.queueNotice_store]; rfl) (fun _ _ _ => ?_) (fun x => absurd ⟨hpos, hlow.1, hlow.2⟩ x)
        unfold State.queueNotice
        split <;> rename_i hh <;> simp only [State.setStore_unit] at hh <;> simp [hh]
    · have hf : (s.store.arms.get (s.store.parcel i).cls &&
          decide ((s.store.grow i c n g).freeCount (s.store.parcel i).cls < s.store.reserves.get (s.store.parcel i).cls)) = false := by
        cases ha : s.store.arms.get (s.store.parcel i).cls <;> simp_all
      simp only [hf, Bool.false_eq_true, if_false]
      refine ⟨claims _ rfl rfl rfl h7 h8 (fun k _ => by rw [← h6]; rfl) ?_, ?_, rfl, rfl, rfl, rfl, rfl, rfl, rfl, rfl⟩
      · show (s.store.grow i c n g).arms.get _ = _
        rw [h6]
        cases ha : s.store.arms.get (s.store.parcel i).cls
        · rfl
        · simp only [ha, Bool.true_and] at hf
          show true = (true && !(_ && decide ((s.store.grow i c n g).freeCount (s.store.parcel i).cls < _)))
          rw [hf]
          simp
      · exact notice _ rfl (fun a b d => absurd ⟨b, d⟩ hlow) (fun _ => rfl)

end Sys2Proof.Machine
end

