-- ==== Sys2Proof/Laws/Commands.lean ====
section
/-!
SUPPORT. What a slot that performs a command is, and how its command ends or goes on: the lemmas by which a proof about a single
command reaches the words of Safety.lean.
-/

namespace Sys2Proof.Machine

variable {s u t : State} {i : SlotId} {c : ClientId} {r : PostRecord}

/-! ### Slots that perform -/

/-- What it means that a command of a kind waits for its own step. -/
theorem State.takenCommand_iff {k : Nat} : s.takenCommand i k = some (c, r) ↔
    s.active = true ∧ (s.slot i).state = .performing ∧ (s.slot i).progress = .taken ∧ (s.slot i).client = some c ∧
      (s.slot i).command = some r ∧ r.kind.toNat = k := by
  unfold State.takenCommand
  constructor
  · intro h
    dsimp only at h
    split at h
    · rename_i hh
      simp only [Bool.and_eq_true, beq_iff_eq] at hh
      split at h
      · rename_i c' r' h1 h2
        split at h
        · rename_i hk
          simp only [Option.some.injEq, Prod.mk.injEq] at h
          obtain ⟨rfl, rfl⟩ := h
          exact ⟨hh.1.1, hh.1.2, hh.2, h1, h2, hk⟩
        · cases h
      · cases h
    · cases h
  · rintro ⟨h1, h2, h3, h4, h5, h6⟩
    simp [h1, h2, h3, h4, h5, h6]

/-- What it means that a slot performs a command. -/
theorem State.performing_iff : s.performing i = some (c, r) ↔
    s.active = true ∧ (s.slot i).state = .performing ∧ (s.slot i).client = some c ∧ (s.slot i).command = some r := by
  unfold State.performing
  constructor
  · intro h
    dsimp only at h
    split at h
    · rename_i hh
      simp only [Bool.and_eq_true, beq_iff_eq] at hh
      split at h
      · rename_i c' r' h1 h2
        simp only [Option.some.injEq, Prod.mk.injEq] at h
        obtain ⟨rfl, rfl⟩ := h
        exact ⟨hh.1, hh.2, h1, h2⟩
      · cases h
    · cases h
  · rintro ⟨h1, h2, h3, h4⟩
    simp [h1, h2, h3, h4]

theorem State.serves_iff {k : Nat} : s.serves i k c r = true ↔
    s.takenCommand i k = some (c, r) ∧ (s.slot i).abortRequested = false ∧ (s.client c).state ≠ .draining := by
  simp [State.serves, and_assoc]

theorem State.works_iff : s.works i c r = true ↔
    s.performing i = some (c, r) ∧ (s.slot i).abortRequested = false ∧ (s.client c).state ≠ .draining := by
  simp [State.works, and_assoc]

theorem State.carriesLive_iff {x : Txn} : s.carriesLive x = true ↔
    s.arb.bus = some { txn := x, stale := false } ∧ s.port.device ≠ .failed := by
  simp [State.carriesLive]

/-- A live transaction of the kind a completion asks for. -/
theorem State.onBus_live {α : Type} {kind : TxnOp → Option α} {x : Txn} {a : α} (h : s.carriesLive x = true)
    (hk : kind x.op = some a) : s.onBus kind = .live a x := by
  obtain ⟨h1, h2⟩ := State.carriesLive_iff.1 h
  simp [State.onBus, h1, hk, h2]

/-! ### Ending and going on -/

theorem State.ends_congr (h : u.slots = s.slots) (hu : u.unit.noticesAhead = s.unit.noticesAhead) {x : Completion}
    (he : u.ends t i x) : s.ends t i x := by
  have e : ∀ j, u.slot j = s.slot j := fun j => by simp only [State.slot, h]
  unfold State.ends at he ⊢
  rw [e, hu] at he
  exact ⟨he.1, fun j hj => (he.2.1 j hj).trans (e j), he.2.2⟩

theorem State.goesOn_congr (h : u.slots = s.slots) (hu : u.unit.noticesAhead = s.unit.noticesAhead) {p : Progress}
    (he : u.goesOn t i p) : s.goesOn t i p := by
  simpa only [State.goesOn, State.slot, h, hu] using he

/-- The completion of a client that is not DRAINING ends its command. -/
theorem State.formCompletion_ends (x : Completion) (hc : (s.slot i).client = some c) (hd : (s.client c).state ≠ .draining) :
    s.ends (s.formCompletion i x) i x := by
  rw [State.formCompletion_held s x hc hd]
  refine ⟨?_, fun j hj => ?_, ?_⟩
  · split <;> simp
  · split <;> simp [State.setSlot_slot_other _ hj]
  · rw [hc]
    split <;> rename_i h0 <;> simp [h0]

/-- It changes nothing outside its slot but the place of client 0's completion among the notices. -/
theorem State.formCompletion_sameRest (x : Completion) (hc : (s.slot i).client = some c) (hd : (s.client c).state ≠ .draining) :
    s.sameRest (s.formCompletion i x) := by
  rw [State.formCompletion_held s x hc hd]
  unfold State.sameRest
  split <;> simp

theorem State.formCompletion_sameBlocks (x : Completion) (hc : (s.slot i).client = some c) (hd : (s.client c).state ≠ .draining) :
    s.sameBlocks (s.formCompletion i x) :=
  ⟨State.formCompletion_sameRest x hc hd, by simp, by simp, by simp⟩

/-- A command that ends with a status and no result field. -/
theorem State.endWith_ends (r : PostRecord) (st : Status) (d : Nat) (hc : (s.slot i).client = some c)
    (hd : (s.client c).state ≠ .draining) :
    s.ends (s.endWith i r st d) i (r.completion st d) ∧ s.sameBlocks (s.endWith i r st d) :=
  ⟨State.formCompletion_ends _ hc hd, State.formCompletion_sameBlocks _ hc hd⟩

/-- A command that goes on changes nothing outside its slot. -/
theorem State.setProgress_goesOn (s : State) (i : SlotId) (p : Progress) :
    s.goesOn (s.setProgress i p) i p ∧ s.sameBlocks (s.setProgress i p) :=
  ⟨⟨by simp, fun j hj => State.setProgress_slot_other s hj p, rfl⟩, ⟨rfl, rfl, rfl, rfl, rfl, rfl⟩, rfl, rfl, rfl⟩

/-! ### Teardown: how the slot of a torn-down client stops -/

theorem State.frees_congr (h : u.slots = s.slots) (hp : u.port = s.port)
    (hd : ∀ c, (u.client c).state = .draining → (s.client c).state = .draining) (hs : u.frees t i) : s.frees t i := by
  obtain ⟨h1, h2, h3⟩ := hs
  have e : ∀ j, u.slot j = s.slot j := fun j => by simp only [State.slot, h]
  simp only [e] at h3
  refine ⟨h1, h2.trans ?_, fun hn => h3 fun c hc hx => hn c hc (hd c hx)⟩
  unfold State.portFreeing
  simp only [e, hp]

theorem State.stops_congr {b : Bool} (h : u.slots = s.slots) (hp : u.port = s.port)
    (hd : ∀ c, (u.client c).state = .draining → (s.client c).state = .draining) (hs : u.stops t i c b) : s.stops t i c b := by
  obtain ⟨h1, h2, h3, h4⟩ := hs
  refine ⟨h1, h2, State.frees_congr h hp hd h3, ?_⟩
  simpa only [State.slot, h] using h4

/-- The freeing of a slot: it is FREE or bound anew, HALTING ends with the last (R89), and the other occupied slots stay. -/
theorem State.freeSlot_frees (s : State) (i : SlotId) (b : Bool) : s.frees (s.freeSlot i b) i := by
  refine ⟨?_, ?_, fun hn j hj hf => ?_⟩
  · rcases s.freeSlot_slot i b with h | ⟨d, _, h⟩ <;> rw [h] <;> simp [Slot.initial]
  · have key : ∀ u : State, u.port = s.port → (∀ j, (u.slot j).state = ((s.setSlot i Slot.initial).slot j).state) →
        u.settleHalt.readChoice.port = s.portFreeing i := by
      intro u hp hs
      have hf : u.allFree = true ↔ ∀ j, j ≠ i → (s.slot j).state = .free := by
        simp only [State.allFree, List.all_eq_true, List.mem_finRange, true_implies, beq_iff_eq, hs]
        constructor
        · intro h j hj
          simpa [State.setSlot_slot_other _ hj] using h j
        · intro h j
          by_cases hj : j = i
          · subst hj; simp [Slot.initial]
          · simpa [State.setSlot_slot_other _ hj] using h j hj
      rw [State.readChoice_port]
      unfold State.settleHalt State.portFreeing
      simp only [hp, hf]
      split <;> simp [hp]
    unfold State.freeSlot
    dsimp only
    split
    · split
      · exact key _ rfl (fun j => by simp)
      · exact key _ rfl (fun _ => rfl)
    · exact key _ rfl (fun _ => rfl)
  · have key : (s.setSlot i Slot.initial).settleHalt.readChoice.slot j = s.slot j := by
      rw [State.readChoice_slot] <;> simp [State.setSlot_slot_other _ hj, hf]
    unfold State.freeSlot
    dsimp only
    split
    · rename_i c hc
      rw [if_neg (hn c hc)]
      exact key
    · exact key

/-- The freeing of a DRAINING client's slot is reported to its teardown with the flag it is given (R88, R162). -/
theorem State.freeSlot_stops (b : Bool) (hc : (s.slot i).client = some c) (hd : (s.client c).state = .draining) :
    s.stops (s.freeSlot i b) i c b := by
  unfold State.freeSlot
  simp only [hc, hd, if_true]
  generalize hu : ((s.setSlot i Slot.initial).reportFreed c b).settleHalt = u
  have hi : u.slot i = Slot.initial := by simp [← hu, endAbort, Slot.initial]
  have hn : (u.client c).state ≠ .attached := by simp [← hu, hd]
  have ho : ∀ j, j ≠ i → u.slot j = endAbort c b (s.slot j) := fun j hj => by
    simp [← hu, State.setSlot_slot_other _ hj]
  have he : ((u.readChoice.slot i).client ≠ some c ∧ (u.readChoice.slot i).completion = none ∧
      ((u.readChoice.slot i).state = .free ∨ (u.readChoice.slot i).state = .bound)) := by
    rcases u.readChoice_cases with e | ⟨_, _, _, _, e⟩ | ⟨d, j, _, _, hp, _, e⟩
    · rw [e, hi]; simp [Slot.initial]
    · rw [e]; simp [hi, Slot.initial]
    · rw [e]
      by_cases h : i = j
      · subst h
        simp only [State.postEligible, Bool.and_eq_true, beq_iff_eq] at hp
        have hat := hp.1.1.1.2
        refine ⟨?_, by simp [Slot.initial], .inr (by simp)⟩
        simp only [State.setIntake_slot, State.setSlot_slot_same, ne_eq, Option.some.injEq]
        rintro rfl
        exact hn hat
      · simp [State.setSlot_slot_other _ h, hi, Slot.initial]
  have hfr := s.freeSlot_frees i b
  unfold State.freeSlot at hfr
  simp only [hc, hd, if_true, hu] at hfr
  refine ⟨he.1, he.2.1, hfr, fun j hj hs => ?_⟩
  rw [State.readChoice_slot _ (by rw [ho j hj]; simpa using hs), ho j hj]
  refine ⟨fun d hp hsub hst => by simp [endAbort, hp, hsub, hst], fun hn => ?_⟩
  unfold endAbort
  split
  · rename_i d hp
    rw [if_neg (by rintro ⟨x, y⟩; rcases hn d hp with h | h <;> contradiction)]
  · rfl

/-- A command stopped at an abort point sends its undo, forms no completion and reports the aborted flag (R88, R150). -/
theorem State.abortSlot_stops (hc : (s.slot i).client = some c) (hd : (s.client c).state = .draining) :
    s.stops (s.abortSlot i) i c true ∧ (s.abortSlot i).unit = s.unit ∧ (s.abortSlot i).dir = s.dir ∧
      (s.abortSlot i).clients = s.clients ∧
      (s.abortSlot i).store = (match (s.slot i).undo with | some g => s.store.undo g | none => s.store) := by
  unfold State.abortSlot State.sendUndo
  cases hu : (s.slot i).undo with
  | some g =>
    exact ⟨State.stops_congr (u := s.setStore (s.store.undo g)) rfl rfl (fun _ h => h) (State.freeSlot_stops true hc hd),
      by simp, by simp, by simp, by simp⟩
  | none => exact ⟨State.freeSlot_stops true hc hd, by simp, by simp, by simp, by simp⟩

/-- The completion of a DRAINING client is discarded, and its slot reports a clear flag (R87). -/
theorem State.formCompletion_stops (x : Completion) (hc : (s.slot i).client = some c) (hd : (s.client c).state = .draining) :
    s.stops (s.formCompletion i x) i c false ∧ (s.formCompletion i x).unit = s.unit := by
  rw [State.formCompletion_draining _ _ hc hd]
  exact ⟨State.freeSlot_stops false hc hd, by simp⟩

/-- The Intake's choice after a DRAINING client's slot has stopped: only a FREE slot is bound, and never to that client. -/
theorem State.stops_readChoice {b : Bool} (hn : (t.client c).state ≠ .attached) (hs : s.stops t i c b) :
    s.stops t.readChoice i c b := by
  obtain ⟨h1, h2, ⟨h3, h4, h5⟩, h6⟩ := hs
  have hk : ∀ j, (s.slot j).state ≠ .free → (t.slot j).state = (s.slot j).state → t.readChoice.slot j = t.slot j :=
    fun j hj e => State.readChoice_slot _ (by rw [e]; exact hj)
  have hi : (t.readChoice.slot i).client ≠ some c ∧ (t.readChoice.slot i).completion = none ∧
      ((t.readChoice.slot i).state = .free ∨ (t.readChoice.slot i).state = .bound) := by
    rcases t.readChoice_cases with e | ⟨_, _, _, _, e⟩ | ⟨d, j, _, _, hp, _, e⟩
    · rw [e]; exact ⟨h1, h2, h3⟩
    · rw [e]; exact ⟨h1, h2, h3⟩
    · rw [e]
      by_cases h : i = j
      · subst h
        simp only [State.postEligible, Bool.and_eq_true, beq_iff_eq] at hp
        have hat := hp.1.1.1.2
        refine ⟨?_, by simp [Slot.initial], .inr (by simp)⟩
        simp only [State.setIntake_slot, State.setSlot_slot_same, ne_eq, Option.some.injEq]
        rintro rfl
        exact hn hat
      · simpa [State.setSlot_slot_other _ h] using ⟨h1, h2, h3⟩
  refine ⟨hi.1, hi.2.1, ⟨hi.2.2, by rw [State.readChoice_port]; exact h4, fun hc j hj hf => ?_⟩, fun j hj hf => ⟨fun d a1 a2 a3 => ?_,
    fun a => ?_⟩⟩
  · have := h5 hc j hj hf
    rw [hk j hf (by rw [this]), this]
  · have := (h6 j hj hf).1 d a1 a2 a3
    rw [hk j hf (by rw [this]), this]
  · have := (h6 j hj hf).2 a
    rw [hk j hf (by rw [this]), this]

/-- The Intake's choice after a slot has been freed. -/
theorem State.frees_readChoice (hs : s.frees t i) : s.frees t.readChoice i := by
  obtain ⟨h1, h2, h3⟩ := hs
  refine ⟨?_, by rw [State.readChoice_port]; exact h2, fun hc j hj hf => ?_⟩
  · rcases t.readChoice_slot_free (i := i) with e | ⟨_, d, e⟩ <;> rw [e]
    · exact h1
    · exact .inr rfl
  · have := h3 hc j hj hf
    rw [State.readChoice_slot _ (by rw [this]; exact hf), this]

/-! ### The drops of entries -/

/-- The drops of a list's entries are what Safety.lean says of them, one by one. -/
theorem Store.dropEntries_eq (d : ClientId) (entries : List PendingEntry) (x : Store) :
    x.dropEntries d entries = x.dropEach d entries := by
  have gen : ∀ (l : List PendingEntry) (y : Store) (n : Nat), l.foldl (fun u e =>
      let q := u.1.drop (handleIndex e.handle) d 1
      (q.1, if q.2 then u.2 + 1 else u.2)) (y, n) = ((y.dropEntries d l).1, n + (y.dropEntries d l).2) := by
    intro l
    induction l with
    | nil => intro y n; rfl
    | cons e r ih =>
      intro y n
      rw [List.foldl_cons]
      simp only [ih, Store.dropEntries]
      refine Prod.ext rfl ?_
      show _ + _ = _ + (_ + _)
      unfold flagBit
      cases (y.drop (handleIndex e.handle) d 1).2 <;> simp
      omega
  unfold Store.dropEach
  rw [gen]
  simp

end Sys2Proof.Machine
end

