-- ==== Sys2Proof/Laws/Directory.lean ====
section
/-!
SUPPORT. What each change of the Channel Directory's exact table and pattern list does: by membership first, then by the entry of
a key, so that a proof about a directory command reads entries and never ways.
-/

namespace Sys2Proof.Machine

/-! ### Tables by membership -/

section Tables
variable {α : Type}

theorem mem_iff_sparseGet {t : List (Nat × α)} (h : keysRise t = true) {a : Nat} {v : α} :
    (a, v) ∈ t ↔ sparseGet t a = some v := by
  refine ⟨fun hm => ?_, mem_of_sparseGet⟩
  induction t with
  | nil => cases hm
  | cons x rest ih =>
    obtain ⟨k, w⟩ := x
    simp only [keysRise, Bool.and_eq_true, keysAbove_iff] at h
    rcases List.mem_cons.1 hm with hm | hm
    · cases hm
      simp [sparseGet]
    · have := h.1 _ hm
      simp only at this
      simp only [sparseGet]
      rw [if_neg (by omega)]
      exact ih h.2 hm

theorem mem_sparsePut {t : List (Nat × α)} (h : keysRise t = true) {a : Nat} {v : α} {x : Nat × α} :
    x ∈ sparsePut t a v ↔ x = (a, v) ∨ x ∈ t ∧ x.1 ≠ a := by
  obtain ⟨b, w⟩ := x
  rw [mem_iff_sparseGet (keysRise_sparsePut h a v), mem_iff_sparseGet h]
  by_cases hb : b = a
  · subst hb
    simp [eq_comm]
  · rw [sparseGet_sparsePut_other _ hb]
    simp [hb]

theorem mem_sparseDrop {t : List (Nat × α)} (h : keysRise t = true) {a : Nat} {x : Nat × α} :
    x ∈ sparseDrop t a ↔ x ∈ t ∧ x.1 ≠ a := by
  obtain ⟨b, w⟩ := x
  rw [mem_iff_sparseGet (keysRise_sparseDrop h a), mem_iff_sparseGet h]
  by_cases hb : b = a
  · subst hb
    simp
  · rw [sparseGet_sparseDrop_other _ hb]
    simp [hb]

theorem nodup_of_keysRise {t : List (Nat × α)} (h : keysRise t = true) : t.Nodup := by
  induction t with
  | nil => exact List.nodup_nil
  | cons x rest ih =>
    obtain ⟨k, w⟩ := x
    simp only [keysRise, Bool.and_eq_true, keysAbove_iff] at h
    rw [List.nodup_cons]
    exact ⟨fun hm => absurd (h.1 _ hm) (Nat.lt_irrefl k), ih h.2⟩

end Tables

theorem mem_keepWays {f : ExactEntry → Option ExactEntry} {t : List (Nat × ExactEntry)} {x : Nat × ExactEntry} :
    x ∈ keepWays f t ↔ ∃ e, (x.1, e) ∈ t ∧ f e = some x.2 := by
  obtain ⟨a, v⟩ := x
  simp only [keepWays, List.mem_filterMap, Option.map_eq_some_iff, Prod.mk.injEq, Prod.exists]
  constructor
  · rintro ⟨b, e, hm, g, hg, rfl, rfl⟩
    exact ⟨e, hm, hg⟩
  · rintro ⟨e, hm, hf⟩
    exact ⟨a, e, hm, v, hf, rfl, rfl⟩

theorem keysRise_keepWays (f : ExactEntry → Option ExactEntry) {t : List (Nat × ExactEntry)} (h : keysRise t = true) :
    keysRise (keepWays f t) = true := by
  induction t with
  | nil => rfl
  | cons x rest ih =>
    obtain ⟨k, w⟩ := x
    simp only [keysRise, Bool.and_eq_true, keysAbove_iff] at h
    have hk : keepWays f ((k, w) :: rest) = match f w with
        | some e => (k, e) :: keepWays f rest
        | none => keepWays f rest := by
      simp only [keepWays, List.filterMap_cons]
      cases f w <;> rfl
    rw [hk]
    cases f w with
    | none => exact ih h.2
    | some e =>
      simp only [keysRise, Bool.and_eq_true, keysAbove_iff]
      refine ⟨fun y hy => ?_, ih h.2⟩
      obtain ⟨e', hm, _⟩ := mem_keepWays.1 hy
      exact h.1 (y.1, e') hm

/-! ### The sound exact table (R29 to R31) -/

/-- The exact table's entries stand in their keys' buckets, in rising ways, no key twice (R29, R31). -/
def Directory.placed (d : Directory) : Prop :=
  keysRise d.exact = true ∧ (∀ x ∈ d.exact, x.1 / 4 = bucket x.2.key) ∧ ∀ x ∈ d.exact, ∀ y ∈ d.exact, x.2.key = y.2.key → x = y

theorem Directory.exactSound_iff {d : Directory} : d.exactSound = true ↔ d.placed ∧ ∀ x ∈ d.exact, x.2.shaped = true := by
  unfold Directory.exactSound Directory.placed
  simp only [Bool.and_eq_true, List.all_eq_true, beq_iff_eq, decide_eq_true_eq, Config.ways]
  constructor
  · rintro ⟨⟨h1, h2⟩, h3⟩
    exact ⟨⟨h1, fun x hx => (h2 x hx).1, (List.nodup_map_iff_inj_on (nodup_of_keysRise h1)).1 h3⟩, fun x hx => (h2 x hx).2⟩
  · rintro ⟨⟨h1, h2, h3⟩, h4⟩
    exact ⟨⟨h1, fun x hx => ⟨h2 x hx, h4 x hx⟩⟩, (List.nodup_map_iff_inj_on (nodup_of_keysRise h1)).2 h3⟩

/-- What is found for a key stands in a way of its bucket. -/
theorem Directory.find_some {d : Directory} {k : Key} {p : Nat} {e : ExactEntry} (h : d.find k = some (p, e)) :
    sparseGet d.exact p = some e ∧ e.key = k ∧ ∃ j, j < 4 ∧ p = place k j := by
  unfold Directory.find at h
  obtain ⟨j, hj, h⟩ := List.exists_of_findSome?_eq_some h
  simp only [List.mem_range, Config.ways] at hj
  split at h
  · rename_i e' he
    split at h
    · rename_i hk
      simp only [Option.some.injEq, Prod.mk.injEq] at h
      obtain ⟨rfl, rfl⟩ := h
      exact ⟨he, hk, j, hj, rfl⟩
    · cases h
  · cases h

theorem place_div (k : Key) {j : Nat} (h : j < 4) : place k j / 4 = bucket k := by
  unfold place Config.ways
  omega

/-- In a sound table an entry is found exactly where it stands. -/
theorem Directory.find_iff {d : Directory} (h : d.placed) {k : Key} {p : Nat} {e : ExactEntry} :
    d.find k = some (p, e) ↔ (p, e) ∈ d.exact ∧ e.key = k := by
  obtain ⟨h1, h2, h3⟩ := h
  constructor
  · intro hf
    obtain ⟨a, b, _⟩ := Directory.find_some hf
    exact ⟨mem_of_sparseGet a, b⟩
  · rintro ⟨hm, hk⟩
    have hb := h2 _ hm
    simp only [hk] at hb
    cases hf : d.find k with
    | none =>
      exfalso
      unfold Directory.find at hf
      rw [List.findSome?_eq_none_iff] at hf
      have hp : p = place k (p % 4) := by unfold place Config.ways; omega
      have := hf (p % 4) (by simp [Config.ways]; omega)
      rw [← hp, (mem_iff_sparseGet h1).1 hm] at this
      simp [hk] at this
    | some y =>
      obtain ⟨q, e'⟩ := y
      obtain ⟨a, b, _⟩ := Directory.find_some hf
      have := h3 _ hm _ (mem_of_sparseGet a) (by simp [hk, b])
      rw [this]

theorem Directory.entry_iff {d : Directory} (h : d.placed) {k : Key} {e : ExactEntry} :
    d.entry k = some e ↔ (∃ p, (p, e) ∈ d.exact) ∧ e.key = k := by
  unfold Directory.entry
  rw [Option.map_eq_some_iff]
  constructor
  · rintro ⟨⟨p, e'⟩, hf, rfl⟩
    have := (Directory.find_iff h).1 hf
    exact ⟨⟨p, this.1⟩, this.2⟩
  · rintro ⟨⟨p, hm⟩, hk⟩
    exact ⟨(p, e), (Directory.find_iff h).2 ⟨hm, hk⟩, rfl⟩

/-- An entry carries the key it is found by. -/
theorem Directory.entry_key {d : Directory} {k : Key} {e : ExactEntry} (h : d.entry k = some e) : e.key = k := by
  unfold Directory.entry at h
  rw [Option.map_eq_some_iff] at h
  obtain ⟨⟨p, e'⟩, hf, rfl⟩ := h
  exact (Directory.find_some hf).2.1

theorem Directory.entry_eq_map_find (d : Directory) (k : Key) : d.entry k = (d.find k).map (·.2) := rfl

/-- A key has a free way exactly when its bucket has room. -/
theorem Directory.freeWay_cases (d : Directory) (k : Key) :
    (∃ p, d.freeWay k = some p ∧ d.hasRoom k = true ∧ sparseGet d.exact p = none ∧ p / 4 = bucket k) ∨
    (d.freeWay k = none ∧ d.hasRoom k = false) := by
  unfold Directory.freeWay Directory.hasRoom
  cases h : (List.range Config.ways).find? (fun j => (sparseGet d.exact (place k j)).isNone) with
  | none =>
    refine .inr ⟨rfl, ?_⟩
    rw [List.find?_eq_none] at h
    rw [Bool.eq_false_iff]
    intro ha
    obtain ⟨j, hj, hn⟩ := List.any_eq_true.1 ha
    exact h j hj hn
  | some j =>
    have hj := List.find?_some h
    have hm := List.mem_of_find?_eq_some h
    refine .inl ⟨place k j, rfl, ?_, by simpa using hj, place_div k (by simpa [Config.ways] using hm)⟩
    rw [List.any_eq_true]
    exact ⟨j, hm, hj⟩

/-! ### Changes of one entry -/

/-- An entry is put in place of the one its key has: the other keys' entries stay. -/
theorem Directory.put_found {d : Directory} (h : d.placed) {k : Key} {p : Nat} {e e' : ExactEntry}
    (hf : d.find k = some (p, e)) (hk : e'.key = k) :
    (d.put p e').placed ∧ ∀ l, (d.put p e').entry l = if l = k then some e' else d.entry l := by
  obtain ⟨h1, h2, h3⟩ := h
  obtain ⟨hm, hek⟩ := (Directory.find_iff ⟨h1, h2, h3⟩).1 hf
  have hsound : (d.put p e').placed := by
    refine ⟨keysRise_sparsePut h1 p e', fun x hx => ?_, fun x hx y hy hxy => ?_⟩
    · rcases (mem_sparsePut h1).1 hx with rfl | hx
      · have := h2 _ hm
        simpa [hek, hk] using this
      · exact h2 x hx.1
    · rcases (mem_sparsePut h1).1 hx with rfl | hx <;> rcases (mem_sparsePut h1).1 hy with rfl | hy
      · rfl
      · have := h3 _ hm y hy.1 (by simpa [hek, hk] using hxy)
        exact absurd (by rw [← this]) hy.2
      · have := h3 x hx.1 _ hm (by simpa [hek, hk] using hxy)
        exact absurd (by rw [this]) hx.2
      · exact h3 x hx.1 y hy.1 hxy
  refine ⟨hsound, fun l => ?_⟩
  refine Option.ext fun g => ?_
  rw [Directory.entry_iff hsound]
  split
  · rename_i hl
    subst hl
    constructor
    · rintro ⟨⟨q, hq⟩, hg⟩
      rcases (mem_sparsePut h1).1 hq with hq | hq
      · cases hq; rfl
      · have := h3 _ hq.1 _ hm (by simp [hg, hek])
        exact absurd (by rw [this]) hq.2
    · rintro ⟨⟩
      exact ⟨⟨p, (mem_sparsePut h1).2 (.inl rfl)⟩, hk⟩
  · rename_i hl
    rw [Directory.entry_iff ⟨h1, h2, h3⟩]
    constructor
    · rintro ⟨⟨q, hq⟩, hg⟩
      rcases (mem_sparsePut h1).1 hq with hq | hq
      · cases hq; exact absurd (hg.symm.trans hk) hl
      · exact ⟨⟨q, hq.1⟩, hg⟩
    · rintro ⟨⟨q, hq⟩, hg⟩
      refine ⟨⟨q, (mem_sparsePut h1).2 (.inr ⟨hq, fun hp => ?_⟩)⟩, hg⟩
      simp only at hp
      subst hp
      have := (mem_iff_sparseGet h1).1 hq
      rw [(mem_iff_sparseGet h1).1 hm] at this
      cases this
      exact hl (hg.symm.trans hek)

/-- An entry is put in a free way of its key's bucket, the key having none. -/
theorem Directory.put_new {d : Directory} (h : d.placed) {k : Key} {p : Nat} {e' : ExactEntry}
    (hf : d.find k = none) (hp : sparseGet d.exact p = none) (hb : p / 4 = bucket k) (hk : e'.key = k) :
    (d.put p e').placed ∧ ∀ l, (d.put p e').entry l = if l = k then some e' else d.entry l := by
  obtain ⟨h1, h2, h3⟩ := h
  have hno : ∀ x ∈ d.exact, x.2.key ≠ k := fun x hx hxk => by
    have := (Directory.find_iff ⟨h1, h2, h3⟩ (p := x.1) (e := x.2)).2 ⟨hx, hxk⟩
    rw [hf] at this
    cases this
  have hpn : ∀ x ∈ d.exact, x.1 ≠ p := fun x hx hxp => by
    have := (mem_iff_sparseGet h1 (a := x.1) (v := x.2)).1 hx
    rw [hxp, hp] at this
    cases this
  have hsound : (d.put p e').placed := by
    refine ⟨keysRise_sparsePut h1 p e', fun x hx => ?_, fun x hx y hy hxy => ?_⟩
    · rcases (mem_sparsePut h1).1 hx with rfl | hx
      · simpa [hk] using hb
      · exact h2 x hx.1
    · rcases (mem_sparsePut h1).1 hx with rfl | hx <;> rcases (mem_sparsePut h1).1 hy with rfl | hy
      · rfl
      · exact absurd (by simpa [hk] using hxy.symm) (hno y hy.1)
      · exact absurd (by simpa [hk] using hxy) (hno x hx.1)
      · exact h3 x hx.1 y hy.1 hxy
  refine ⟨hsound, fun l => ?_⟩
  refine Option.ext fun g => ?_
  rw [Directory.entry_iff hsound]
  split
  · rename_i hl
    subst hl
    constructor
    · rintro ⟨⟨q, hq⟩, hg⟩
      rcases (mem_sparsePut h1).1 hq with hq | hq
      · cases hq; rfl
      · exact absurd hg (hno _ hq.1)
    · rintro ⟨⟩
      exact ⟨⟨p, (mem_sparsePut h1).2 (.inl rfl)⟩, hk⟩
  · rename_i hl
    rw [Directory.entry_iff ⟨h1, h2, h3⟩]
    constructor
    · rintro ⟨⟨q, hq⟩, hg⟩
      rcases (mem_sparsePut h1).1 hq with hq | hq
      · cases hq; exact absurd (hg.symm.trans hk) hl
      · exact ⟨⟨q, hq.1⟩, hg⟩
    · rintro ⟨⟨q, hq⟩, hg⟩
      exact ⟨⟨q, (mem_sparsePut h1).2 (.inr ⟨hq, hpn _ hq⟩)⟩, hg⟩

/-- The way of a key's entry is freed. -/
theorem Directory.clearWay_found {d : Directory} (h : d.placed) {k : Key} {p : Nat} {e : ExactEntry}
    (hf : d.find k = some (p, e)) :
    (d.clearWay p).placed ∧ (∀ l, (d.clearWay p).entry l = if l = k then none else d.entry l) ∧
      ∀ l, (d.clearWay p).hasRoom l = (d.hasRoom l || bucket l == bucket k) := by
  obtain ⟨h1, h2, h3⟩ := h
  obtain ⟨hm, hek⟩ := (Directory.find_iff ⟨h1, h2, h3⟩).1 hf
  have hsound : (d.clearWay p).placed := by
    refine ⟨keysRise_sparseDrop h1 p, fun x hx => h2 x ((mem_sparseDrop h1).1 hx).1, fun x hx y hy hxy => ?_⟩
    exact h3 x ((mem_sparseDrop h1).1 hx).1 y ((mem_sparseDrop h1).1 hy).1 hxy
  refine ⟨hsound, fun l => ?_, fun l => ?_⟩
  · refine Option.ext fun g => ?_
    rw [Directory.entry_iff hsound]
    split
    · rename_i hl
      subst hl
      simp only [reduceCtorEq, iff_false, not_and, forall_exists_index]
      intro q hq hg
      have hq := (mem_sparseDrop h1).1 hq
      have := h3 _ hq.1 _ hm (by simp [hg, hek])
      exact hq.2 (by rw [this])
    · rename_i hl
      rw [Directory.entry_iff ⟨h1, h2, h3⟩]
      constructor
      · rintro ⟨⟨q, hq⟩, hg⟩
        exact ⟨⟨q, ((mem_sparseDrop h1).1 hq).1⟩, hg⟩
      · rintro ⟨⟨q, hq⟩, hg⟩
        refine ⟨⟨q, (mem_sparseDrop h1).2 ⟨hq, fun hp => ?_⟩⟩, hg⟩
        simp only at hp
        subst hp
        have := (mem_iff_sparseGet h1).1 hq
        rw [(mem_iff_sparseGet h1).1 hm] at this
        cases this
        exact hl (hg.symm.trans hek)
  · obtain ⟨_, _, j, hj, hp⟩ := Directory.find_some hf
    rw [Bool.eq_iff_iff]
    simp only [Directory.hasRoom, List.any_eq_true, List.mem_range, Bool.or_eq_true, beq_iff_eq, Option.isNone_iff_eq_none]
    constructor
    · rintro ⟨i, hi, hn⟩
      by_cases he : bucket l * 4 + i = p
      · right
        have := place_div k hj
        rw [← hp, ← he] at this
        omega
      · left
        refine ⟨i, hi, ?_⟩
        rw [← hn]
        exact (sparseGet_sparseDrop_other _ he).symm
    · rintro (⟨i, hi, hn⟩ | hb)
      · refine ⟨i, hi, ?_⟩
        by_cases he : bucket l * 4 + i = p
        · rw [he]
          exact sparseGet_sparseDrop_same _ _
        · rw [← hn]
          exact sparseGet_sparseDrop_other _ he
      · refine ⟨j, hj, ?_⟩
        have : bucket l * 4 + j = p := by rw [hb, hp]; rfl
        rw [this]
        exact sparseGet_sparseDrop_same _ _

/-- Each entry is kept, changed or removed by its own value (R40, R50). -/
theorem Directory.keepWays_spec {d : Directory} (h : d.placed) (f : ExactEntry → Option ExactEntry)
    (hk : ∀ e g, f e = some g → g.key = e.key) {d' : Directory} (hd : d'.exact = keepWays f d.exact) :
    d'.placed ∧ ∀ l, d'.entry l = (d.entry l).bind f := by
  obtain ⟨h1, h2, h3⟩ := h
  have hsound : d'.placed := by
    unfold Directory.placed
    rw [hd]
    refine ⟨keysRise_keepWays f h1, fun x hx => ?_, fun x hx y hy hxy => ?_⟩
    · obtain ⟨e, hm, hf⟩ := mem_keepWays.1 hx
      rw [hk e _ hf]
      exact h2 _ hm
    · obtain ⟨e, hm, hf⟩ := mem_keepWays.1 hx
      obtain ⟨g, hm', hg⟩ := mem_keepWays.1 hy
      have := h3 _ hm _ hm' (by simpa [hk e _ hf, hk g _ hg] using hxy)
      simp only [Prod.mk.injEq] at this
      obtain ⟨e1, e2⟩ := this
      subst e2
      rw [hf] at hg
      exact Prod.ext e1 (by simpa using hg)
  refine ⟨hsound, fun l => Option.ext fun g => ?_⟩
  rw [Directory.entry_iff hsound, Option.bind_eq_some_iff, hd]
  constructor
  · rintro ⟨⟨p, hp⟩, hg⟩
    obtain ⟨e, hm, hf⟩ := mem_keepWays.1 hp
    exact ⟨e, (Directory.entry_iff ⟨h1, h2, h3⟩).2 ⟨⟨p, hm⟩, (hk e _ hf).symm.trans hg⟩, hf⟩
  · rintro ⟨e, he, hf⟩
    obtain ⟨⟨p, hm⟩, hel⟩ := (Directory.entry_iff ⟨h1, h2, h3⟩).1 he
    exact ⟨⟨p, mem_keepWays.2 ⟨e, hm, hf⟩⟩, (hk e g hf).trans hel⟩

/-! ### The shape of entries (R30) -/

theorem Directory.put_shaped {d : Directory} (hr : keysRise d.exact = true) (h : ∀ x ∈ d.exact, x.2.shaped = true) {p : Nat}
    {e : ExactEntry} (he : e.shaped = true) : ∀ x ∈ (d.put p e).exact, x.2.shaped = true := by
  intro x hx
  rcases (mem_sparsePut hr).1 hx with rfl | hx
  · exact he
  · exact h x hx.1

theorem Directory.clearWay_shaped {d : Directory} (h : ∀ x ∈ d.exact, x.2.shaped = true) {p : Nat} :
    ∀ x ∈ (d.clearWay p).exact, x.2.shaped = true :=
  fun x hx => h x (mem_of_mem_sparseDrop hx)

theorem keepWays_shaped {f : ExactEntry → Option ExactEntry} {t : List (Nat × ExactEntry)}
    (h : ∀ x ∈ t, x.2.shaped = true) (hs : ∀ e g, e.shaped = true → f e = some g → g.shaped = true) :
    ∀ x ∈ keepWays f t, x.2.shaped = true := by
  intro x hx
  obtain ⟨e, hm, hf⟩ := mem_keepWays.1 hx
  exact hs e _ (h _ hm) hf

/-- What a sweep keeps carries its key, and its shape (R30, R40). -/
theorem ExactEntry.aged_keeps {e g : ExactEntry} (h : e.aged = some g) : g.key = e.key ∧ (e.shaped = true → g.shaped = true) := by
  unfold ExactEntry.aged at h
  split at h
  · split at h
    · cases h
    · cases h
      exact ⟨rfl, fun _ => by simp [ExactEntry.shaped]; omega⟩
  · cases h
    exact ⟨rfl, id⟩

/-- What a purge keeps carries its key, and its shape (R30, R50). -/
theorem ExactEntry.purged_keeps {c : ClientId} {e g : ExactEntry} (h : e.purged c = some g) :
    g.key = e.key ∧ (e.shaped = true → g.shaped = true) := by
  unfold ExactEntry.purged at h
  split at h
  · cases h
    exact ⟨rfl, fun _ => rfl⟩
  · split at h
    · cases h
    · rename_i hz
      cases h
      exact ⟨rfl, fun _ => by simpa [ExactEntry.shaped] using hz⟩
  · split at h
    · cases h
    · cases h
      exact ⟨rfl, id⟩

/-! ### The pattern list (R32) -/

theorem Pattern.named_iff {p : Pattern} {m : BitVec 32} {k : Key} : p.named m k = true ↔ p.mask = m ∧ p.key = k &&& m := by
  simp [Pattern.named]

/-- Two names of one pattern name the same. -/
theorem Pattern.named_both {p : Pattern} {m n : BitVec 32} {k l : Key} (h : p.named m k = true) (h' : p.named n l = true) :
    n = m ∧ l &&& n = k &&& m := by
  obtain ⟨a, b⟩ := Pattern.named_iff.1 h
  obtain ⟨c, e⟩ := Pattern.named_iff.1 h'
  exact ⟨c.symm.trans a, e.symm.trans b⟩

/-- A changed pattern is found as changed, and the others as before. -/
theorem Directory.changePattern_spec (d : Directory) (m : BitVec 32) (k : Key) (kind : PatternKind) (set : ClientSet) :
    (∀ n l, ¬ (n = m ∧ l &&& n = k &&& m) → (d.changePattern m k kind set).pattern n l = d.pattern n l) ∧
    ((d.pattern m k).isSome → (d.changePattern m k kind set).pattern m k =
      some { key := k &&& m, mask := m, kind := kind, set := set }) := by
  unfold Directory.changePattern Directory.pattern
  dsimp only
  have named : ∀ (p : Pattern) n l, (if p.named m k then { p with kind := kind, set := set } else p : Pattern).named n l =
      p.named n l := fun p n l => by split <;> rfl
  constructor
  · intro n l hn
    induction d.patterns with
    | nil => rfl
    | cons p rest ih =>
      simp only [List.map_cons, List.find?_cons, named]
      cases hp : p.named n l with
      | false => exact ih
      | true =>
        simp only
        rw [if_neg]
        intro hm
        exact hn (Pattern.named_both hm hp)
  · generalize d.patterns = ps
    intro hs
    induction ps with
    | nil => simp at hs
    | cons p rest ih =>
      rw [List.map_cons, List.find?_cons, named]
      rw [List.find?_cons] at hs
      cases hp : p.named m k with
      | false =>
        rw [hp] at hs
        exact ih hs
      | true =>
        obtain ⟨a, b⟩ := Pattern.named_iff.1 hp
        simp only [if_true, Option.some.injEq, Pattern.mk.injEq, and_true]
        exact ⟨b, a⟩

/-- A removed pattern is found no more, and the others as before. -/
theorem Directory.removePattern_spec (d : Directory) (m : BitVec 32) (k : Key) :
    (∀ n l, ¬ (n = m ∧ l &&& n = k &&& m) → (d.removePattern m k).pattern n l = d.pattern n l) ∧
    (d.removePattern m k).pattern m k = none := by
  unfold Directory.removePattern Directory.pattern
  dsimp only
  constructor
  · intro n l hn
    induction d.patterns with
    | nil => rfl
    | cons p rest ih =>
      simp only [List.filter_cons, List.find?_cons]
      cases hp : p.named n l with
      | false =>
        split
        · simp only [List.find?_cons, hp]
          exact ih
        · exact ih
      | true =>
        rw [if_pos]
        · simp [hp]
        · rw [Bool.not_eq_true']
          rw [Bool.eq_false_iff]
          intro hm
          exact hn (Pattern.named_both hm hp)
  · rw [List.find?_eq_none]
    intro p hp
    have := (List.mem_filter.1 hp).2
    simpa using this

/-- A new pattern is found, the others as before. -/
theorem Directory.addPattern_spec (d : Directory) (m : BitVec 32) (k : Key) (kind : PatternKind) (set : ClientSet) :
    (∀ n l, ¬ (n = m ∧ l &&& n = k &&& m) → (d.addPattern m k kind set).pattern n l = d.pattern n l) ∧
    (d.pattern m k = none → (d.addPattern m k kind set).pattern m k = some { key := k &&& m, mask := m, kind := kind, set := set }) := by
  unfold Directory.addPattern Directory.pattern
  dsimp only
  have named : ∀ n l, ({ key := k &&& m, mask := m, kind := kind, set := set } : Pattern).named n l = true ↔
      n = m ∧ l &&& n = k &&& m := fun n l => by
    rw [Pattern.named_iff]
    exact ⟨fun h => ⟨h.1.symm, h.2.symm⟩, fun h => ⟨h.1.symm, h.2.symm⟩⟩
  constructor
  · intro n l hn
    rw [List.find?_append]
    have : ({ key := k &&& m, mask := m, kind := kind, set := set } : Pattern).named n l = false := by
      rw [Bool.eq_false_iff]
      exact fun h => hn ((named n l).1 h)
    simp [this]
  · intro h
    rw [List.find?_append, h]
    have : ({ key := k &&& m, mask := m, kind := kind, set := set } : Pattern).named m k = true := (named m k).2 ⟨rfl, rfl⟩
    simp [this]

end Sys2Proof.Machine
end

