-- ==== Sys2Proof/Laws/Holdings.lean ====
section
/-!
SUPPORT. What the requests of the Parcel Store keep of the holdings: the parcel table as a function with its sums, the accounts in
agreement with the records (R9, R11), and each record as its state shapes it (R4, R10, R12, R17) and counted (R7). For each request
one lemma says that the store stays so; a proof that a step keeps `State.holdingsSound` cites these.
-/

namespace Sys2Proof.Machine

/-! ### The parcel table as a function -/

theorem sparseGet_of_mem {α : Type} {t : List (Nat × α)} (h : keysRise t = true) {x : Nat × α} (hx : x ∈ t) :
    sparseGet t x.1 = some x.2 := by
  induction t with
  | nil => cases hx
  | cons y rest ih =>
    simp only [keysRise, Bool.and_eq_true, keysAbove_iff] at h
    rcases List.mem_cons.1 hx with rfl | hm
    · simp [sparseGet]
    · have : y.1 ≠ x.1 := by have := h.1 x hm; omega
      simp [sparseGet, this, ih h.2 hm]

theorem keysRise_nodup {α : Type} {t : List (Nat × α)} (h : keysRise t = true) : (t.map Prod.fst).Nodup := by
  induction t with
  | nil => simp
  | cons y rest ih =>
    simp only [keysRise, Bool.and_eq_true, keysAbove_iff] at h
    simp only [List.map_cons, List.nodup_cons, List.mem_map, not_exists, not_and]
    exact ⟨fun x hx e => by have := h.1 x hx; omega, ih h.2⟩

section Table
variable {t u : Store}

theorem Store.parcel_of_mem (h : keysRise t.records = true) {x : Nat × Parcel} (hx : x ∈ t.records) : t.parcel x.1 = x.2 := by
  simp [Store.parcel, sparseGet_of_mem h hx]

/-- A property of every listed record, true of an unlisted one, is a property of every record. -/
theorem Store.all_records_iff (h : keysRise t.records = true) (f : Parcel → Bool) (h0 : f Parcel.initial = true) :
    t.records.all (fun x => f x.2) = true ↔ ∀ i, f (t.parcel i) = true := by
  simp only [List.all_eq_true]
  constructor
  · intro ha i
    cases hg : sparseGet t.records i with
    | none => simpa [Store.parcel, hg] using h0
    | some p => simpa [Store.parcel, hg] using ha _ (mem_of_sparseGet hg)
  · intro ha x hx
    rw [← Store.parcel_of_mem h hx]
    exact ha x.1

/-- A sum over the listed records is the sum over a range of indices that covers them. -/
theorem Store.sum_records (h : keysRise t.records = true) (f : Parcel → Nat) (h0 : f Parcel.initial = 0) {n : Nat}
    (hn : ∀ x ∈ t.records, x.1 < n) : (t.records.map (fun x => f x.2)).sum = ∑ j ∈ Finset.range n, f (t.parcel j) := by
  have e : t.records.map (fun x => f x.2) = (t.records.map Prod.fst).map (fun j => f (t.parcel j)) := by
    rw [List.map_map]
    exact List.map_congr_left fun x hx => by simp [Store.parcel_of_mem h hx]
  rw [e, ← List.sum_toFinset _ (keysRise_nodup h)]
  refine Finset.sum_subset (fun j hj => ?_) (fun j _ hj => ?_)
  · obtain ⟨x, hx, rfl⟩ := List.mem_map.1 (List.mem_toFinset.1 hj)
    exact Finset.mem_range.2 (hn x hx)
  · cases hg : sparseGet t.records j with
    | none => simpa [Store.parcel, hg] using h0
    | some p => exact absurd (List.mem_toFinset.2 (List.mem_map.2 ⟨_, mem_of_sparseGet hg, rfl⟩)) hj

/-- Two tables that differ in one record differ in a sum by that record. -/
theorem Store.sum_step (ht : keysRise t.records = true) (hu : keysRise u.records = true) (f : Parcel → Nat)
    (h0 : f Parcel.initial = 0) {i : Nat} (ho : ∀ j, j ≠ i → u.parcel j = t.parcel j) :
    (u.records.map (fun x => f x.2)).sum + f (t.parcel i) = (t.records.map (fun x => f x.2)).sum + f (u.parcel i) := by
  obtain ⟨n, hn⟩ : ∃ n, i < n ∧ (∀ x ∈ t.records, x.1 < n) ∧ ∀ x ∈ u.records, x.1 < n := by
    refine ⟨i + (t.records.map Prod.fst).sum + (u.records.map Prod.fst).sum + 1, by omega, fun x hx => ?_, fun x hx => ?_⟩
    · have := List.single_le_sum (l := t.records.map Prod.fst) (fun _ _ => Nat.zero_le _) x.1 (List.mem_map_of_mem hx)
      omega
    · have := List.single_le_sum (l := u.records.map Prod.fst) (fun _ _ => Nat.zero_le _) x.1 (List.mem_map_of_mem hx)
      omega
  rw [Store.sum_records ht f h0 hn.2.1, Store.sum_records hu f h0 hn.2.2]
  have hi : i ∈ Finset.range n := Finset.mem_range.2 hn.1
  rw [← Finset.add_sum_erase _ _ hi, ← Finset.add_sum_erase _ (fun j => f (t.parcel j)) hi,
    Finset.sum_congr rfl (fun j hj => by rw [ho j (Finset.ne_of_mem_erase hj)] :
      ∀ j ∈ (Finset.range n).erase i, f (u.parcel j) = f (t.parcel j))]
  omega

/-- One record's share of a sum is at most the sum. -/
theorem Store.le_sum_records (t : Store) (f : Parcel → Nat) (h0 : f Parcel.initial = 0) (i : Nat) :
    f (t.parcel i) ≤ (t.records.map (fun x => f x.2)).sum := by
  cases hg : sparseGet t.records i with
  | none => simp [Store.parcel, hg, h0]
  | some p =>
    have := List.single_le_sum (l := t.records.map (fun x => f x.2)) (fun _ _ => Nat.zero_le _) (f p)
      (List.mem_map_of_mem (f := fun x : Nat × Parcel => f x.2) (mem_of_sparseGet hg))
    simpa [Store.parcel, hg] using this

end Table

/-! ### Accounts (R9, R11) -/

/-- The segments of a class that a record charges to a client (R11). -/
def Parcel.charges (p : Parcel) (c : ClientId) (k : SegClass) : Nat :=
  if p.charged = some c ∧ p.cls = k then p.chain.length else 0

section Accounts
variable {t u : Store}

theorem Store.accountsAgree_iff : t.accountsAgree = true ↔
    ∀ c, (t.account c).held = t.heldSum c ∧ ∀ k, (t.account c).charged.get k = t.chargedSum c k := by
  simp only [Store.accountsAgree, List.all_eq_true, List.mem_finRange, true_implies, Bool.and_eq_true, beq_iff_eq]
  refine forall_congr' fun c => ⟨fun ⟨⟨h1, h2⟩, h3⟩ => ⟨h1, fun k => by cases k <;> assumption⟩,
    fun ⟨h1, h2⟩ => ⟨⟨h1, h2 .short⟩, h2 .long⟩⟩

theorem Store.heldSum_step (ht : keysRise t.records = true) (hu : keysRise u.records = true) {i : Nat}
    (ho : ∀ j, j ≠ i → u.parcel j = t.parcel j) (c : ClientId) :
    u.heldSum c + (t.parcel i).holder c = t.heldSum c + (u.parcel i).holder c :=
  Store.sum_step ht hu (fun p => p.holder c) (by simp [Parcel.holder, Parcel.initial]) ho

theorem Store.chargedSum_step (ht : keysRise t.records = true) (hu : keysRise u.records = true) {i : Nat}
    (ho : ∀ j, j ≠ i → u.parcel j = t.parcel j) (c : ClientId) (k : SegClass) :
    u.chargedSum c k + (t.parcel i).charges c k = t.chargedSum c k + (u.parcel i).charges c k :=
  Store.sum_step ht hu (fun p => p.charges c k) (by simp [Parcel.charges, Parcel.initial]) ho

/-- A step that changes one record keeps the accounts in agreement if it changes each account by the record's share. -/
theorem Store.accountsAgree_step (ht : keysRise t.records = true) (hu : keysRise u.records = true) (h : t.accountsAgree = true)
    (i : Nat) (ho : ∀ j, j ≠ i → u.parcel j = t.parcel j)
    (hh : ∀ c, (t.parcel i).holder c ≤ (t.account c).held →
      (u.account c).held + (t.parcel i).holder c = (t.account c).held + (u.parcel i).holder c)
    (hc : ∀ c k, (t.parcel i).charges c k ≤ (t.account c).charged.get k →
      (u.account c).charged.get k + (t.parcel i).charges c k = (t.account c).charged.get k + (u.parcel i).charges c k) :
    u.accountsAgree = true := by
  rw [Store.accountsAgree_iff] at h ⊢
  refine fun c => ⟨?_, fun k => ?_⟩
  · have h1 := Store.heldSum_step ht hu ho c
    have h2 := Store.le_sum_records t (fun p => p.holder c) (by simp [Parcel.holder, Parcel.initial]) i
    have h3 := hh c (by rw [(h c).1]; exact h2)
    have h4 := (h c).1
    omega
  · have h1 := Store.chargedSum_step ht hu ho c k
    have h2 := Store.le_sum_records t (fun p => p.charges c k) (by simp [Parcel.charges, Parcel.initial]) i
    have h3 := hc c k (by rw [(h c).2 k]; exact h2)
    have h4 := (h c).2 k
    omega

/-- What a held client holds of one record is at most its held total, and its charge at most its charged count. -/
theorem Store.accountsAgree_le (h : t.accountsAgree = true) (i : Nat) (c : ClientId) :
    (t.parcel i).holder c ≤ (t.account c).held ∧ ∀ k, (t.parcel i).charges c k ≤ (t.account c).charged.get k := by
  rw [Store.accountsAgree_iff] at h
  refine ⟨?_, fun k => ?_⟩
  · rw [(h c).1]
    exact Store.le_sum_records t (fun p => p.holder c) (by simp [Parcel.holder, Parcel.initial]) i
  · rw [(h c).2 k]
    exact Store.le_sum_records t (fun p => p.charges c k) (by simp [Parcel.charges, Parcel.initial]) i

end Accounts


/-! ### Holder counts (R7) -/

section Counts
variable {p : Parcel}

theorem Parcel.holders_sum (p : Parcel) : p.holders.toList.sum = ∑ c : ClientId, p.holder c := by
  have e : p.holders.toList = List.ofFn (fun c : ClientId => p.holder c) := by
    refine List.ext_getElem (by simp) fun k h1 h2 => ?_
    rw [List.getElem_ofFn, Vector.getElem_toList]
    rfl
  rw [e, List.sum_ofFn]

theorem Parcel.counted_iff : p.counted = true ↔ p.refCount = ∑ c : ClientId, p.holder c ∧ ∀ c, p.holder c ≤ 15 := by
  simp only [Parcel.counted, Bool.and_eq_true, beq_iff_eq, List.all_eq_true, Parcel.holders_sum]
  refine and_congr_right fun _ => ⟨fun h c => of_decide_eq_true (h _ ?_), fun h n hn => decide_eq_true ?_⟩
  · simp [Parcel.holder]
  · obtain ⟨k, hk, rfl⟩ := List.mem_iff_getElem.1 hn
    exact h ⟨k, by simpa using hk⟩

theorem Parcel.counted_le (h : p.counted = true) (c : ClientId) : p.holder c ≤ p.refCount := by
  rw [(Parcel.counted_iff.1 h).1]
  exact Finset.single_le_sum (f := fun d => p.holder d) (fun _ _ => Nat.zero_le _) (Finset.mem_univ c)

/-- Two clients' references on a record are together at most its references. -/
theorem Parcel.counted_le_two (h : p.counted = true) {c d : ClientId} (hd : d ≠ c) : p.holder c + p.holder d ≤ p.refCount := by
  rw [(Parcel.counted_iff.1 h).1, ← Finset.add_sum_erase _ _ (Finset.mem_univ c)]
  have := Finset.single_le_sum (f := fun d => p.holder d) (s := Finset.univ.erase c) (fun _ _ => Nat.zero_le _)
    (Finset.mem_erase.2 ⟨hd, Finset.mem_univ d⟩)
  simpa using this

theorem Parcel.holder_set (p : Parcel) (c : ClientId) (n : Nat) (d : ClientId) {q : Parcel} (hq : q.holders = p.holders.set c.val n) :
    q.holder d = if d = c then n else p.holder d := by
  unfold Parcel.holder
  rw [hq]
  split
  · rename_i h; subst h; simp
  · rename_i h
    have : c.val ≠ d.val := fun e => h (Fin.ext e.symm)
    simp [this]

end Counts

/-! ### What each request keeps -/

section Requests
variable {t : Store}

theorem Store.recordsWf_rise (h : t.recordsWf = true) : keysRise t.records = true := (Store.recordsWf_iff.1 h).1

theorem Store.recordsWf_congr {u : Store} (e : u.records = t.records) (h : t.recordsWf = true) : u.recordsWf = true := by
  rw [Store.recordsWf_iff, e, ← Store.recordsWf_iff]
  exact h

theorem Store.freeParcel_recordsWf (h : t.recordsWf = true) (i : Nat) : (t.freeParcel i).recordsWf = true :=
  Store.recordsWf_congr (Store.giveBack_records _ _ _ _) (Store.recordsWf_setParcel h i _)

theorem Store.drop_recordsWf (h : t.recordsWf = true) (i : Nat) (c : ClientId) (n : Nat) : (t.drop i c n).1.recordsWf = true := by
  unfold Store.drop
  dsimp only
  split
  · exact h
  · have := Store.recordsWf_congr (t := t.setParcel i { t.parcel i with
        holders := (t.parcel i).holders.set c.val ((t.parcel i).holder c - n), refCount := (t.parcel i).refCount - n })
      (Store.setHeld_records _ c ((t.account c).held - n)) (Store.recordsWf_setParcel h i _)
    split
    · exact Store.freeParcel_recordsWf this i
    · exact this

theorem Store.createRef_recordsWf (h : t.recordsWf = true) (i : Nat) (c : ClientId) : (t.createRef i c).recordsWf = true :=
  Store.recordsWf_congr (Store.setHeld_records _ _ _) (Store.recordsWf_setParcel h i _)

theorem Store.openRecord_recordsWf (h : t.recordsWf = true) (i : Nat) (k : SegClass) (c : ClientId) :
    (t.openRecord i k c).recordsWf = true :=
  Store.recordsWf_congr (Store.setHeld_records _ _ _) (Store.recordsWf_setParcel h i _)

theorem Store.grow_recordsWf (h : t.recordsWf = true) (i : Nat) (c : ClientId) (n g : Nat) : (t.grow i c n g).recordsWf = true :=
  Store.recordsWf_congr (Store.charge_records _ _ _ _) (Store.recordsWf_setParcel (Store.recordsWf_congr rfl h) i _)

theorem Store.undo_recordsWf (h : t.recordsWf = true) (g : GrowthClaim) : (t.undo g).recordsWf = true := by
  unfold Store.undo
  dsimp only
  split
  · exact Store.drop_recordsWf (Store.recordsWf_congr (Store.giveBack_records _ _ _ _) (Store.recordsWf_setParcel h _ _)) _ _ _
  · exact Store.recordsWf_congr (Store.giveBack_records _ _ _ _) (Store.recordsWf_setParcel h _ _)

theorem Store.cut_recordsWf (h : t.recordsWf = true) (i n : Nat) (tail : Bool) : (t.cut i n tail).recordsWf = true := by
  have give : ∀ q k c segs, ((t.setParcel i q).giveBack k c segs).recordsWf = true := fun q k c segs =>
    Store.recordsWf_congr (Store.giveBack_records _ _ _ _) (Store.recordsWf_setParcel h _ _)
  unfold Store.cut Store.cutTail Store.cutHead
  dsimp only
  repeat' split
  all_goals first | exact h | exact give _ _ _ _

theorem Store.visit_recordsWf (h : t.recordsWf = true) (c : ClientId) (i : Nat) : (t.visit c i).1.recordsWf = true := by
  generalize hd : (if (t.parcel i).holder c = 0 then (t, false) else t.drop i c ((t.parcel i).holder c)) = d
  have hdw : d.1.recordsWf = true := by
    rw [← hd]
    split
    · exact h
    · exact Store.drop_recordsWf h _ _ _
  unfold Store.visit
  dsimp only
  rw [hd]
  by_cases hf : (t.parcel i).state = .free
  · rw [if_pos hf]
    exact h
  · rw [if_neg hf]
    split
    · exact Store.recordsWf_congr (Store.uncharge_records _ _ _ _) (Store.recordsWf_setParcel hdw _ _)
    · exact hdw

theorem Store.dropEach_recordsWf (c : ClientId) (l : List PendingEntry) (h : t.recordsWf = true) :
    (t.dropEach c l).1.recordsWf = true := by
  unfold Store.dropEach
  suffices H : ∀ (l : List PendingEntry) (x : Store × Nat), x.1.recordsWf = true →
      (l.foldl (fun u e => ((u.1.drop (handleIndex e.handle) c 1).1,
        if (u.1.drop (handleIndex e.handle) c 1).2 then u.2 + 1 else u.2)) x).1.recordsWf = true from H l _ h
  intro l
  induction l with
  | nil => exact fun x hx => hx
  | cons e rest ih => exact fun x hx => ih _ (Store.drop_recordsWf hx _ _ _)

/-! #### The accounts -/

theorem Store.returns_charged {u : Store} {k : SegClass} {c : Option ClientId} {n : Nat} (h : t.returns u k c n) (d : ClientId)
    (l : SegClass) : (u.account d).charged.get l =
      if some d = c ∧ l = k then (t.account d).charged.get l - n else (t.account d).charged.get l := h.2.2.1 d l

theorem Store.drop_accountsAgree (hw : t.recordsWf = true) (h : t.accountsAgree = true) {i : Nat}
    (hc : (t.parcel i).counted = true) (c : ClientId) (n : Nat) : (t.drop i c n).1.accountsAgree = true := by
  by_cases hn : (t.parcel i).holder c < n
  · rw [Store.drop_refused t hn]; exact h
  have hle := Parcel.counted_le hc c
  obtain ⟨⟨h1, h2, h3⟩, _⟩ := t.drop_dropsTo (i := i) (c := c) (n := n) (by omega) (by omega)
  refine Store.accountsAgree_step (Store.recordsWf_rise hw) (Store.recordsWf_rise (Store.drop_recordsWf hw i c n)) h i h1
    (fun d hd => ?_) (fun d k hd => ?_)
  · rw [h2 d]
    split at h3
    · rename_i hr
      rw [h3.1.2.2.2.2.2.2.2.1 d]
      split
      · rename_i he; subst he; omega
      · rename_i he
        have := Parcel.counted_le_two hc he
        omega
    · have e : ((t.drop i c n).1.parcel i).holder d = if d = c then (t.parcel i).holder c - n else (t.parcel i).holder d := by
        rw [h3.1]
        exact Parcel.holder_set _ c _ d rfl
      rw [e]
      split
      · rename_i he; subst he; omega
      · omega
  · split at h3
    · rename_i hr
      obtain ⟨⟨_, _, _, _, _, hch, hcd, _⟩, hret⟩ := h3
      have hz : ((t.drop i c n).1.parcel i).charges d k = 0 := by simp [Parcel.charges, hcd]
      rw [hz, Store.returns_charged hret]
      unfold Parcel.charges at hd ⊢
      by_cases he : (t.parcel i).charged = some d ∧ (t.parcel i).cls = k
      · rw [if_pos he] at hd ⊢
        rw [if_pos ⟨he.1.symm, he.2.symm⟩]
        omega
      · rw [if_neg he, if_neg (fun x => he ⟨x.1.symm, x.2.symm⟩)]
    · rw [h3.2.2.2.2.2 d]
      have : ((t.drop i c n).1.parcel i).charges d k = (t.parcel i).charges d k := by rw [h3.1]; rfl
      rw [this]

theorem Store.createRef_accountsAgree (hw : t.recordsWf = true) (h : t.accountsAgree = true) (i : Nat) (c : ClientId) :
    (t.createRef i c).accountsAgree = true := by
  refine Store.accountsAgree_step (Store.recordsWf_rise hw) (Store.recordsWf_rise (Store.createRef_recordsWf hw i c)) h i
    (fun j hj => by rw [Store.createRef_parcel, if_neg hj]) (fun d _ => ?_) (fun d k _ => ?_)
  · have e : ((t.createRef i c).parcel i).holder d = if d = c then (t.parcel i).holder c + 1 else (t.parcel i).holder d := by
      rw [Store.createRef_parcel, if_pos rfl]
      exact Parcel.holder_set _ c _ d rfl
    rw [e, Store.createRef_account]
    split
    · rename_i he; subst he; dsimp only; omega
    · omega
  · rw [Store.createRef_parcel, if_pos rfl, Store.createRef_account]
    split
    · rename_i he; subst he; rfl
    · rfl

theorem Store.openRecord_accountsAgree (hw : t.recordsWf = true) (h : t.accountsAgree = true) {i : Nat}
    (hc : (t.parcel i).counted = true) (hf : (t.parcel i).shaped = true) (hs : (t.parcel i).state = .free) (k : SegClass)
    (c : ClientId) : (t.openRecord i k c).accountsAgree = true := by
  have hz : (t.parcel i).refCount = 0 ∧ (t.parcel i).charged = none := by
    simp only [Parcel.shaped, hs, Bool.and_eq_true, beq_iff_eq, Option.isNone_iff_eq_none] at hf
    exact ⟨hf.1.2, hf.1.1.2⟩
  refine Store.accountsAgree_step (Store.recordsWf_rise hw) (Store.recordsWf_rise (Store.openRecord_recordsWf hw i k c)) h i
    (fun j hj => by rw [Store.openRecord_parcel, if_neg hj]) (fun d _ => ?_) (fun d l _ => ?_)
  · have hd := Parcel.counted_le hc d
    have e : ((t.openRecord i k c).parcel i).holder d = if d = c then 1 else Parcel.initial.holder d := by
      rw [Store.openRecord_parcel, if_pos rfl]
      exact Parcel.holder_set _ c _ d rfl
    rw [e, Store.openRecord_account]
    split
    · rename_i he; subst he; dsimp only; omega
    · have : Parcel.initial.holder d = 0 := by simp [Parcel.holder, Parcel.initial]
      omega
  · rw [Store.openRecord_parcel, if_pos rfl, Store.openRecord_account]
    have : (t.parcel i).charges d l = 0 := by simp [Parcel.charges, hz.2]
    rw [this]
    simp only [Parcel.charges, List.length_nil, ite_self]
    split
    · rename_i he; subst he; rfl
    · rfl

theorem Store.grow_accountsAgree (hw : t.recordsWf = true) (h : t.accountsAgree = true) {i : Nat} {c : ClientId}
    (hc : (t.parcel i).charged = some c) {n : Nat} (hn : n ≤ t.freeCount (t.parcel i).cls) (g : Nat) :
    (t.grow i c n g).accountsAgree = true := by
  obtain ⟨⟨segs, hl, h1⟩, h2, _, _, h5, _⟩ := t.grow_spec i c g hn
  refine Store.accountsAgree_step (Store.recordsWf_rise hw) (Store.recordsWf_rise (Store.grow_recordsWf hw i c n g)) h i h2
    (fun d _ => ?_) (fun d k _ => ?_)
  · rw [h1, h5 d]
    show _ + _ = _ + (t.parcel i).holder d
    split
    · rename_i he; subst he; rfl
    · rfl
  · rw [h1, h5 d]
    unfold Parcel.charges
    by_cases hd : d = c
    · subst hd
      by_cases hk : (t.parcel i).cls = k
      · subst hk
        simp [hc, hl]
        omega
      · simp [hc, hk, PerClass.get_set_other _ (Ne.symm hk)]
    · have : (t.parcel i).charged ≠ some d := by rw [hc]; simpa using Ne.symm hd
      simp [this, hd]

/-- Replacing a record by one with the same holders, chain, class and charge keeps the accounts in agreement. -/
theorem Store.setParcel_accountsAgree (hw : t.recordsWf = true) (h : t.accountsAgree = true) {i : Nat} {q : Parcel}
    (hh : q.holders = (t.parcel i).holders) (hl : q.chain = (t.parcel i).chain) (hk : q.cls = (t.parcel i).cls)
    (hc : q.charged = (t.parcel i).charged) : (t.setParcel i q).accountsAgree = true := by
  refine Store.accountsAgree_step (Store.recordsWf_rise hw) (Store.recordsWf_rise (Store.recordsWf_setParcel hw i q)) h i
    (fun j hj => Store.parcel_setParcel_other _ hj q) (fun d _ => ?_) (fun d k _ => ?_)
  · rw [Store.parcel_setParcel_same, Store.setParcel_account]
    simp [Parcel.holder, hh]
  · rw [Store.parcel_setParcel_same, Store.setParcel_account]
    simp [Parcel.charges, hl, hk, hc]

/-- Segments given back from a record's own chain, its holders kept. -/
theorem Store.giveBack_accountsAgree (hw : t.recordsWf = true) (h : t.accountsAgree = true) {i : Nat} {q : Parcel}
    {segs : List Nat} (hh : q.holders = (t.parcel i).holders) (hk : q.cls = (t.parcel i).cls)
    (hc : q.charged = (t.parcel i).charged) (hl : q.chain.length + segs.length = (t.parcel i).chain.length) :
    ((t.setParcel i q).giveBack (t.parcel i).cls (t.parcel i).charged segs).accountsAgree = true := by
  have hret := (t.setParcel i q).giveBack_returns (t.parcel i).cls (t.parcel i).charged segs
  refine Store.accountsAgree_step (Store.recordsWf_rise hw) (Store.recordsWf_rise (Store.recordsWf_congr
    (Store.giveBack_records _ _ _ _) (Store.recordsWf_setParcel hw i q))) h i
    (fun j hj => by rw [Store.giveBack_parcel, Store.parcel_setParcel_other _ hj]) (fun d _ => ?_) (fun d k hd => ?_)
  · rw [Store.giveBack_parcel, Store.parcel_setParcel_same, Store.giveBack_held, Store.setParcel_account]
    simp [Parcel.holder, hh]
  · rw [Store.giveBack_parcel, Store.parcel_setParcel_same, Store.returns_charged hret, Store.setParcel_account]
    unfold Parcel.charges at hd ⊢
    rw [hk, hc]
    by_cases he : (t.parcel i).charged = some d ∧ (t.parcel i).cls = k
    · rw [if_pos he] at hd
      rw [if_pos he, if_pos he, if_pos ⟨he.1.symm, he.2.symm⟩]
      omega
    · rw [if_neg he, if_neg he, if_neg (fun x => he ⟨x.1.symm, x.2.symm⟩)]

theorem Store.undo_accountsAgree (hw : t.recordsWf = true) (h : t.accountsAgree = true) {g : GrowthClaim}
    (hc : (t.parcel g.index).counted = true) : (t.undo g).accountsAgree = true := by
  have hb := Store.giveBack_accountsAgree hw h (i := g.index)
    (q := { t.parcel g.index with
      chain := (t.parcel g.index).chain.take ((t.parcel g.index).chain.length - g.segments), growth := none })
    (segs := (t.parcel g.index).chain.drop ((t.parcel g.index).chain.length - g.segments)) rfl rfl rfl
    (by simp)
  unfold Store.undo
  dsimp only
  split
  · exact Store.drop_accountsAgree (Store.recordsWf_congr (Store.giveBack_records _ _ _ _) (Store.recordsWf_setParcel hw _ _)) hb
      (by rw [Store.giveBack_parcel, Store.parcel_setParcel_same]; exact hc) _ _
  · exact hb

theorem Store.cut_accountsAgree (hw : t.recordsWf = true) (h : t.accountsAgree = true) (i n : Nat) (tail : Bool) :
    (t.cut i n tail).accountsAgree = true := by
  unfold Store.cut Store.cutTail Store.cutHead
  dsimp only
  repeat' split
  · exact h
  all_goals exact Store.giveBack_accountsAgree hw h rfl rfl rfl (by simp <;> omega)

theorem Store.visit_accountsAgree (hw : t.recordsWf = true) (h : t.accountsAgree = true) {i : Nat}
    (hc : (t.parcel i).counted = true) (c : ClientId) : (t.visit c i).1.accountsAgree = true := by
  generalize hd : (if (t.parcel i).holder c = 0 then (t, false) else t.drop i c ((t.parcel i).holder c)) = d
  have hdw : d.1.recordsWf = true := by
    rw [← hd]
    split
    · exact hw
    · exact Store.drop_recordsWf hw _ _ _
  have hda : d.1.accountsAgree = true := by
    rw [← hd]
    split
    · exact h
    · exact Store.drop_accountsAgree hw h hc _ _
  unfold Store.visit
  dsimp only
  rw [hd]
  split
  · exact h
  · split
    · rename_i hq
      refine Store.accountsAgree_step (t := d.1) (Store.recordsWf_rise hdw) (Store.recordsWf_rise (Store.recordsWf_congr
        (Store.uncharge_records _ _ _ _) (Store.recordsWf_setParcel hdw i _))) hda i
        (fun j hj => by rw [Store.uncharge_parcel, Store.parcel_setParcel_other _ hj]) (fun e _ => ?_) (fun e k he => ?_)
      · rw [Store.uncharge_parcel, Store.parcel_setParcel_same, Store.uncharge_held, Store.setParcel_account]
        rfl
      · rw [Store.uncharge_parcel, Store.parcel_setParcel_same, Store.uncharge_charged, Store.setParcel_account]
        unfold Parcel.charges at he ⊢
        rw [hq.2] at he ⊢
        by_cases hx : some c = some e ∧ (d.1.parcel i).cls = k
        · rw [if_pos hx] at he ⊢
          rw [if_pos ⟨hx.1.symm, hx.2.symm⟩]
          simp only [reduceCtorEq, false_and, if_false]
          omega
        · rw [if_neg hx, if_neg (fun x => hx ⟨x.1.symm, x.2.symm⟩)]
          simp
    · exact hda

end Requests


/-! ### Records and accounts together -/

/-- The parcel table in canonical form, every record shaped and counted, and every account what the records say: the part of a
sound state that the store holds alone (R4, R7, R9 to R12, R17). -/
def Store.recordsSound (t : Store) : Prop :=
  t.recordsWf = true ∧ t.accountsAgree = true ∧ ∀ i, (t.parcel i).shaped = true ∧ (t.parcel i).counted = true

section Sound
variable {t : Store}

theorem Store.recordsSound_iff (hw : t.recordsWf = true) : t.recordsSound ↔
    t.accountsAgree = true ∧ t.records.all (fun x => x.2.shaped) = true ∧ t.referencesCounted = true := by
  have h1 := Store.all_records_iff (Store.recordsWf_rise hw) Parcel.shaped (by decide)
  have h2 := Store.all_records_iff (Store.recordsWf_rise hw) Parcel.counted (by decide)
  unfold Store.recordsSound Store.referencesCounted
  rw [h1, h2]
  exact ⟨fun h => ⟨h.2.1, fun i => (h.2.2 i).1, fun i => (h.2.2 i).2⟩, fun h => ⟨hw, h.1, fun i => ⟨h.2.1 i, h.2.2 i⟩⟩⟩

/-- A request that changes one record keeps the rest. -/
theorem Store.recordsSound_step {u : Store} {i : Nat} (h : t.recordsSound) (hw : u.recordsWf = true)
    (ha : u.accountsAgree = true) (ho : ∀ j, j ≠ i → u.parcel j = t.parcel j) (hs : (u.parcel i).shaped = true)
    (hc : (u.parcel i).counted = true) : u.recordsSound := by
  refine ⟨hw, ha, fun j => ?_⟩
  by_cases hj : j = i
  · subst hj; exact ⟨hs, hc⟩
  · rw [ho j hj]; exact h.2.2 j

theorem Parcel.shaped_free (g : BitVec 6) (k : SegClass) :
    ({ Parcel.initial with generation := g, cls := k } : Parcel).shaped = true := by
  simp [Parcel.shaped, Parcel.initial, chainNeeded]

theorem Parcel.counted_free (g : BitVec 6) (k : SegClass) :
    ({ Parcel.initial with generation := g, cls := k } : Parcel).counted = true := by
  simp [Parcel.counted, Parcel.initial, Config.maxHolder]

/-- A record with another number of references of one client. -/
theorem Parcel.counted_set {p : Parcel} (h : p.counted = true) (c : ClientId) {n m : Nat} (hn : n ≤ 15)
    (hm : m + p.holder c = p.refCount + n) :
    ({ p with holders := p.holders.set c.val n, refCount := m } : Parcel).counted = true := by
  rw [Parcel.counted_iff] at h ⊢
  have e : ∀ d, ({ p with holders := p.holders.set c.val n, refCount := m } : Parcel).holder d = if d = c then n else p.holder d :=
    fun d => Parcel.holder_set p c n d rfl
  refine ⟨?_, fun d => ?_⟩
  · have h1 : p.refCount = p.holder c + ∑ d ∈ Finset.univ.erase c, p.holder d :=
      h.1.trans (Finset.add_sum_erase _ _ (Finset.mem_univ c)).symm
    have h2 : ∑ d ∈ Finset.univ.erase c, ({ p with holders := p.holders.set c.val n, refCount := m } : Parcel).holder d =
        ∑ d ∈ Finset.univ.erase c, p.holder d :=
      Finset.sum_congr rfl fun d hd => by rw [e d, if_neg (Finset.ne_of_mem_erase hd)]
    rw [← Finset.add_sum_erase _ _ (Finset.mem_univ c), e c, if_pos rfl, h2]
    dsimp only
    omega
  · rw [e d]
    split
    · exact hn
    · exact h.2 d

/-- A freed record is shaped and counted, whatever it was. -/
theorem Parcel.freedFrom_sound {p q : Parcel} (h : q.freedFrom p) : q.shaped = true ∧ q.counted = true := by
  obtain ⟨h1, -, h3, h4, h5, h6, h7, h8, h9⟩ := h
  refine ⟨by simp [Parcel.shaped, h1, h3, h5, h6, h7, h9, chainNeeded], ?_⟩
  rw [Parcel.counted_iff, h9]
  exact ⟨by simp [h8], fun c => by simp [h8]⟩

theorem Store.drop_sound (h : t.recordsSound) (i : Nat) (c : ClientId) (n : Nat) : (t.drop i c n).1.recordsSound := by
  obtain ⟨hs, hc⟩ := h.2.2 i
  by_cases hn : (t.parcel i).holder c < n
  · rw [Store.drop_refused t hn]; exact h
  have hle := Parcel.counted_le hc c
  obtain ⟨⟨h1, _, h3⟩, _⟩ := t.drop_dropsTo (i := i) (c := c) (n := n) (by omega) (by omega)
  have key : ((t.drop i c n).1.parcel i).shaped = true ∧ ((t.drop i c n).1.parcel i).counted = true := by
    split at h3
    · exact Parcel.freedFrom_sound h3.1
    · rename_i hr
      rw [h3.1]
      refine ⟨?_, Parcel.counted_set hc c (by have := (Parcel.counted_iff.1 hc).2 c; omega) (by omega)⟩
      unfold Parcel.shaped at hs ⊢
      cases hst : (t.parcel i).state <;> simp only [hst, Bool.and_eq_true, beq_iff_eq, decide_eq_true_eq] at hs ⊢
      · omega
      · obtain ⟨⟨hr1, hx⟩, hl⟩ := hs
        cases hch : (t.parcel i).charged with
        | none => simp [hch] at hx
        | some d =>
          simp only [hch, Option.any_some, beq_iff_eq] at hx
          have hz : n = 0 := by
            by_cases hd : d = c
            · subst hd; omega
            · have := Parcel.counted_le_two hc hd
              omega
          subst hz
          have hv : (t.parcel i).holders.set c.val ((t.parcel i).holder c - 0) = (t.parcel i).holders := by
            conv_rhs => rw [← Vector.set_getElem_self (xs := (t.parcel i).holders) (i := c.val) (hi := c.isLt)]
            rfl
          refine ⟨⟨by omega, ?_⟩, hl⟩
          simp only [hv, Option.any_some, beq_iff_eq]
          exact hx
      · exact ⟨⟨by omega, hs.1.2⟩, hs.2⟩
  exact Store.recordsSound_step h (Store.drop_recordsWf h.1 i c n) (Store.drop_accountsAgree h.1 h.2.1 hc c n) h1 key.1 key.2

theorem Store.dropEach_sound (h : t.recordsSound) (c : ClientId) (l : List PendingEntry) : (t.dropEach c l).1.recordsSound := by
  unfold Store.dropEach
  suffices H : ∀ (l : List PendingEntry) (x : Store × Nat), x.1.recordsSound →
      (l.foldl (fun u e => ((u.1.drop (handleIndex e.handle) c 1).1,
        if (u.1.drop (handleIndex e.handle) c 1).2 then u.2 + 1 else u.2)) x).1.recordsSound from H l _ h
  intro l
  induction l with
  | nil => exact fun x hx => hx
  | cons e rest ih => exact fun x hx => ih _ (Store.drop_sound hx _ _ _)

theorem Store.createRef_sound (h : t.recordsSound) {i : Nat} {c : ClientId} (hs : (t.parcel i).state = .closed)
    (hn : (t.parcel i).holder c < 15) : (t.createRef i c).recordsSound := by
  obtain ⟨hsh, hc⟩ := h.2.2 i
  refine Store.recordsSound_step h (Store.createRef_recordsWf h.1 i c) (Store.createRef_accountsAgree h.1 h.2.1 i c)
    (fun j hj => by rw [Store.createRef_parcel, if_neg hj]) ?_ ?_ <;> rw [Store.createRef_parcel, if_pos rfl]
  · unfold Parcel.shaped at hsh ⊢
    simp only [hs, Bool.and_eq_true, decide_eq_true_eq] at hsh ⊢
    exact ⟨⟨by omega, hsh.1.2⟩, hsh.2⟩
  · exact Parcel.counted_set hc c (by omega) (by omega)

theorem Store.openRecord_sound (h : t.recordsSound) {i : Nat} (hs : (t.parcel i).state = .free) (k : SegClass) (c : ClientId) :
    (t.openRecord i k c).recordsSound := by
  obtain ⟨hsh, hc⟩ := h.2.2 i
  refine Store.recordsSound_step h (Store.openRecord_recordsWf h.1 i k c)
    (Store.openRecord_accountsAgree h.1 h.2.1 hc hsh hs k c) (fun j hj => by rw [Store.openRecord_parcel, if_neg hj]) ?_ ?_ <;>
    rw [Store.openRecord_parcel, if_pos rfl]
  · simp [Parcel.shaped, Parcel.holder, chainNeeded]
  · have := Parcel.counted_set (Parcel.counted_free 0 k) c (n := 1) (m := 1) (by omega)
      (by simp [Parcel.holder, Parcel.initial])
    simpa [Parcel.counted, Parcel.initial] using this

theorem Store.grow_sound (h : t.recordsSound) {i : Nat} {c : ClientId} (hs : (t.parcel i).state = .building)
    (hch : (t.parcel i).charged = some c) {n g : Nat} (hn : n ≤ t.freeCount (t.parcel i).cls)
    (hl : (t.parcel i).chain.length + n = chainNeeded (t.parcel i).cls (t.parcel i).headOffset (t.parcel i).length g) :
    (t.grow i c n g).recordsSound := by
  obtain ⟨hsh, hc⟩ := h.2.2 i
  obtain ⟨⟨segs, hseg, h1⟩, h2, _⟩ := t.grow_spec i c g hn
  refine Store.recordsSound_step h (Store.grow_recordsWf h.1 i c n g) (Store.grow_accountsAgree h.1 h.2.1 hch hn g) h2 ?_ ?_ <;>
    rw [h1]
  · unfold Parcel.shaped at hsh ⊢
    simp only [hs, Bool.and_eq_true, beq_iff_eq] at hsh ⊢
    exact ⟨hsh.1, by simp [hseg, hl]⟩
  · exact hc

theorem chainNeeded_add (k : SegClass) (h l g : Nat) : chainNeeded k h (l + g) 0 = chainNeeded k h l g := by
  simp [chainNeeded, Nat.add_assoc]

theorem Store.commit_sound (h : t.recordsSound) {i : Nat} (hs : (t.parcel i).state = .building) (close : Bool) :
    (t.commit i close).recordsSound := by
  obtain ⟨hsh, hc⟩ := h.2.2 i
  refine Store.recordsSound_step (i := i) h (Store.recordsWf_setParcel h.1 _ _)
    (Store.setParcel_accountsAgree h.1 h.2.1 rfl rfl rfl rfl)
    (fun j hj => by rw [Store.commit_parcel, if_neg hj]) ?_ ?_ <;> rw [Store.commit_parcel, if_pos rfl]
  · unfold Parcel.shaped at hsh ⊢
    simp only [hs, Bool.and_eq_true, beq_iff_eq] at hsh
    cases close
    · simp only [hs, Bool.false_eq_true, if_false, Bool.and_eq_true, beq_iff_eq, Option.getD_none, chainNeeded_add]
      exact hsh
    · simp only [if_true, Option.isNone_none, Bool.and_true, Bool.and_eq_true, decide_eq_true_eq, beq_iff_eq, Option.getD_none,
        chainNeeded_add]
      exact ⟨by omega, hsh.2⟩
  · exact hc

/-- The close of a BUILDING parcel with no growth in flight (R4). -/
theorem Store.close_sound (h : t.recordsSound) {i : Nat} (hs : (t.parcel i).state = .building)
    (hg : (t.parcel i).growth = none) : (t.setParcelState i .closed).recordsSound := by
  obtain ⟨hsh, hc⟩ := h.2.2 i
  refine Store.recordsSound_step (i := i) h (Store.recordsWf_setParcel h.1 _ _)
    (Store.setParcel_accountsAgree h.1 h.2.1 rfl rfl rfl rfl)
    (fun j hj => by rw [Store.setParcelState_parcel, if_neg hj]) ?_ ?_ <;> rw [Store.setParcelState_parcel, if_pos rfl]
  · unfold Parcel.shaped at hsh ⊢
    simp only [hs, Bool.and_eq_true, beq_iff_eq] at hsh
    simp only [hg, Option.isNone_none, Bool.and_true, Bool.and_eq_true, decide_eq_true_eq, beq_iff_eq]
    exact ⟨by omega, by rw [← hg]; exact hsh.2⟩
  · exact hc

/-- The reopen of a CLOSED parcel of which its charged client holds the one reference (R100). -/
theorem Store.reopen_sound (h : t.recordsSound) {i : Nat} {c : ClientId} (hs : (t.parcel i).state = .closed)
    (hr : (t.parcel i).refCount = 1) (hch : (t.parcel i).charged = some c) (hh : (t.parcel i).holder c = 1) :
    (t.setParcelState i .building).recordsSound := by
  obtain ⟨hsh, hc⟩ := h.2.2 i
  refine Store.recordsSound_step (i := i) h (Store.recordsWf_setParcel h.1 _ _)
    (Store.setParcel_accountsAgree h.1 h.2.1 rfl rfl rfl rfl)
    (fun j hj => by rw [Store.setParcelState_parcel, if_neg hj]) ?_ ?_ <;> rw [Store.setParcelState_parcel, if_pos rfl]
  · unfold Parcel.shaped at hsh ⊢
    simp only [hs, Bool.and_eq_true, beq_iff_eq] at hsh
    simp only [hr, hch, Option.any_some, beq_self_eq_true, Bool.true_and, Bool.and_eq_true, beq_iff_eq]
    exact ⟨hh, hsh.2⟩
  · exact hc

/-- The undo of a growth claim that stands: an APPEND's parcel keeps what its length needs, and a SEND's record is freed. -/
theorem Store.undo_sound (h : t.recordsSound) {g : GrowthClaim} (hs : (t.parcel g.index).state = .building)
    (hl : (t.parcel g.index).chain.length =
      g.segments + chainNeeded (t.parcel g.index).cls (t.parcel g.index).headOffset (t.parcel g.index).length 0) :
    (t.undo g).recordsSound := by
  obtain ⟨hsh, hc⟩ := h.2.2 g.index
  have hu : ((t.setParcel g.index { t.parcel g.index with
        chain := (t.parcel g.index).chain.take ((t.parcel g.index).chain.length - g.segments), growth := none }).giveBack
        (t.parcel g.index).cls (t.parcel g.index).charged
        ((t.parcel g.index).chain.drop ((t.parcel g.index).chain.length - g.segments))).recordsSound := by
    refine Store.recordsSound_step (i := g.index) h
      (Store.recordsWf_congr (Store.giveBack_records _ _ _ _) (Store.recordsWf_setParcel h.1 _ _))
      (Store.giveBack_accountsAgree h.1 h.2.1 rfl rfl rfl (by simp))
      (fun j hj => by rw [Store.giveBack_parcel, Store.parcel_setParcel_other _ hj]) ?_ ?_ <;>
      rw [Store.giveBack_parcel, Store.parcel_setParcel_same]
    · unfold Parcel.shaped at hsh ⊢
      simp only [hs, Bool.and_eq_true, beq_iff_eq] at hsh ⊢
      exact ⟨hsh.1, by simp [hl]⟩
    · exact hc
  unfold Store.undo
  dsimp only
  split
  · exact Store.drop_sound hu _ _ _
  · exact hu

theorem SegClass.size_pos (k : SegClass) : 0 < k.size := by cases k <;> decide

/-- A cut of at most the length, with no growth in flight. -/
theorem Store.cut_sound (h : t.recordsSound) {i n : Nat} (hg : (t.parcel i).growth = none) (hst : (t.parcel i).state ≠ .free)
    (hn : n ≤ (t.parcel i).length) (tail : Bool) : (t.cut i n tail).recordsSound := by
  obtain ⟨hsh, hc⟩ := h.2.2 i
  obtain ⟨h1, h2, -, -⟩ := t.cut_spec i n tail (p := t.parcel i) rfl
  have hp := (t.parcel i).cls.size_pos
  have hl : (t.parcel i).chain.length = chainNeeded (t.parcel i).cls (t.parcel i).headOffset (t.parcel i).length 0 := by
    simp only [Parcel.shaped, hg, Option.getD_none, Bool.and_eq_true, beq_iff_eq] at hsh
    exact hsh.2
  have shaped_of : ∀ q : Parcel, q.state = (t.parcel i).state → q.refCount = (t.parcel i).refCount →
      q.holders = (t.parcel i).holders → q.charged = (t.parcel i).charged → q.growth = none →
      q.chain.length = chainNeeded q.cls q.headOffset q.length 0 → q.shaped = true := by
    intro q a b d e f g
    have hq : ∀ c, q.holder c = (t.parcel i).holder c := fun c => by simp [Parcel.holder, d]
    unfold Parcel.shaped at hsh ⊢
    rw [a, b, e, f, g]
    simp only [hq]
    cases hx : (t.parcel i).state
    · exact absurd hx hst
    · simp only [hx, Bool.and_eq_true] at hsh
      simp only [hsh.1, Option.getD_none, beq_self_eq_true, Bool.and_self]
    · simp only [hx, Bool.and_eq_true] at hsh
      simp only [hsh.1.1, Option.isNone_none, Option.getD_none, beq_self_eq_true, Bool.and_self]
  refine Store.recordsSound_step h (Store.cut_recordsWf h.1 i n tail) (Store.cut_accountsAgree h.1 h.2.1 i n tail) h2 ?_ ?_ <;>
    rw [h1]
  · split
    · exact hsh
    · split
      · exact shaped_of _ rfl rfl rfl rfl hg (by simp [chainNeeded])
      · rename_i h0 hz
        have hz' : (t.parcel i).length ≠ 0 := by omega
        simp only [chainNeeded, Nat.add_zero, hz', if_false, SegClass.segmentsFor] at hl
        split
        · refine shaped_of _ rfl rfl rfl rfl hg ?_
          simp only [List.length_take, chainNeeded, Nat.add_zero, hz, if_false, SegClass.segmentsFor, hl]
          have : (t.parcel i).headOffset + (t.parcel i).length - n = (t.parcel i).headOffset + ((t.parcel i).length - n) := by
            omega
          rw [this]
          exact Nat.min_eq_left (Nat.div_le_div_right (by omega))
        · refine shaped_of _ rfl rfl rfl rfl hg ?_
          simp only [List.length_drop, chainNeeded, Nat.add_zero, hz, if_false, SegClass.segmentsFor, hl]
          generalize (t.parcel i).cls.size = sz at hp ⊢
          have hm := Nat.div_add_mod ((t.parcel i).headOffset + n) sz
          generalize ((t.parcel i).headOffset + n) / sz = q at hm ⊢
          generalize ((t.parcel i).headOffset + n) % sz = r at hm ⊢
          have e : (t.parcel i).headOffset + (t.parcel i).length + sz - 1 = r + ((t.parcel i).length - n) + sz - 1 + sz * q := by
            omega
          rw [e, Nat.add_mul_div_left _ _ hp, Nat.add_sub_cancel]
  · split
    · exact hc
    · split
      · exact hc
      · split <;> exact hc

theorem Store.visit_sound (h : t.recordsSound) (c : ClientId) (i : Nat) : (t.visit c i).1.recordsSound := by
  by_cases hf : (t.parcel i).state = .free
  · simp only [Store.visit, hf, if_true]
    exact h
  obtain ⟨hsh, hc⟩ := h.2.2 i
  have hpos : 0 < (t.parcel i).refCount := by
    unfold Parcel.shaped at hsh
    cases hx : (t.parcel i).state <;> simp only [hx, Bool.and_eq_true, beq_iff_eq, decide_eq_true_eq] at hsh
    · exact absurd hx hf
    · omega
    · omega
  obtain ⟨-, -, h1, h2, h3⟩ := t.visit_spec c i rfl hf (Parcel.counted_le hc c) hpos
  refine Store.recordsSound_step h (Store.visit_recordsWf h.1 c i) (Store.visit_accountsAgree h.1 h.2.1 hc c) h1 ?_ ?_
  all_goals
    by_cases he : (t.parcel i).holder c = (t.parcel i).refCount
    · have := (h2 he).2.2
      rw [if_pos he.symm] at this
      first | exact (Parcel.freedFrom_sound this.1).1 | exact (Parcel.freedFrom_sound this.1).2
    rw [(h3 he).1]
  · have hle := Parcel.counted_le hc c
    unfold Parcel.shaped at hsh ⊢
    cases hx : (t.parcel i).state <;>
      simp only [hx, Bool.and_eq_true, beq_iff_eq, decide_eq_true_eq] at hsh ⊢
    · exact absurd hx hf
    · obtain ⟨⟨hr, ha⟩, hl⟩ := hsh
      cases hch : (t.parcel i).charged with
      | none => simp [hch] at ha
      | some d =>
        simp only [hch, Option.any_some, beq_iff_eq] at ha
        have hd : d ≠ c := fun e => he (by rw [← e, ha, hr])
        have hz := Parcel.counted_le_two hc hd
        refine ⟨⟨by omega, ?_⟩, hl⟩
        have hne : ¬ (some d = some c) := by simpa using hd
        rw [if_neg hne]
        simp only [Option.any_some, beq_iff_eq]
        rw [← ha]
        have := Parcel.holder_set (t.parcel i) c 0 d (q := { t.parcel i with
          holders := (t.parcel i).holders.set c.val 0, refCount := (t.parcel i).refCount - (t.parcel i).holder c,
          charged := some d }) rfl
        rw [if_neg hd] at this
        exact this
    · exact ⟨⟨by omega, hsh.1.2⟩, hsh.2⟩
  · have := Parcel.counted_set hc c (n := 0) (m := (t.parcel i).refCount - (t.parcel i).holder c) (by omega)
      (by have := Parcel.counted_le hc c; omega)
    exact this

end Sound

end Sys2Proof.Machine
end

