-- ==== Sys2Proof/Laws/Layout.lean ====
section
/-!
SUPPORT. The byte runs of the record writers, said as the runs of one, two, four and eight bytes that chapter 10's tables give.
-/

namespace Sys2Proof.Machine

open Sys2Proof

theorem leBytes_byte (v : Byte) : leBytes 1 v.toNat = [v] := by simp [leBytes]

theorem leBytes_pair (n : Nat) : leBytes 2 n = pairBytes n := by simp [leBytes, pairBytes]

theorem leBytes_word (v : BitVec 32) : leBytes 4 v.toNat = wordBytes v := by
  simp only [leBytes, wordBytes]
  refine List.cons_eq_cons.2 ⟨?_, List.cons_eq_cons.2 ⟨?_, List.cons_eq_cons.2 ⟨?_, List.cons_eq_cons.2 ⟨?_, rfl⟩⟩⟩⟩ <;>
    (apply BitVec.eq_of_toNat_eq; simp [Nat.shiftRight_eq_div_pow, Nat.div_div_eq_div_mul])

/-- A run of bytes is a shorter run and the run of what remains. -/
theorem leBytes_add (n m v : Nat) : leBytes (n + m) v = leBytes n v ++ leBytes m (v / 256 ^ n) := by
  induction n generalizing v with
  | zero => simp [leBytes]
  | succ n ih =>
    rw [Nat.succ_add]
    simp only [leBytes, ih, List.cons_append, Nat.div_div_eq_div_mul, Nat.pow_succ, Nat.mul_comm]

/-- A run of n bytes reads nothing of a number above its n low bytes. -/
theorem leBytes_mod (n v k : Nat) (h : n ≤ k) : leBytes n (v % 256 ^ k) = leBytes n v := by
  induction n generalizing v k with
  | zero => rfl
  | succ n ih =>
    obtain ⟨k, rfl⟩ : ∃ j, k = j + 1 := ⟨k - 1, by omega⟩
    have e : v % 256 ^ (k + 1) / 256 = v / 256 % 256 ^ k := by rw [Nat.pow_succ, Nat.mul_comm, Nat.mod_mul_right_div_self]
    simp only [leBytes, e, ih _ _ (Nat.le_of_succ_le_succ h)]
    congr 1
    apply BitVec.eq_of_toNat_eq
    simp

theorem leBytes_zero (n : Nat) : leBytes n 0 = List.replicate n 0 := by
  induction n with
  | zero => rfl
  | succ n ih => simp [leBytes, ih, List.replicate_succ]

theorem two_pow_32 : (2 : Nat) ^ 32 = 256 ^ 4 := by norm_num

theorem leBytes_quad (v : BitVec 64) : leBytes 8 v.toNat = quadBytes v := by
  show leBytes (4 + 4) v.toNat = _
  rw [leBytes_add, quadBytes, ← leBytes_word, ← leBytes_word]
  simp only [BitVec.extractLsb'_toNat, Nat.shiftRight_eq_div_pow, Nat.pow_zero, Nat.div_one]
  rw [two_pow_32, leBytes_mod _ _ _ (le_refl _), leBytes_mod _ _ _ (le_refl _)]

/-- A fragment entry is written as section 10.2 lays it out. -/
theorem writeFragment_eq (f : Fragment) : writeFragment f = f.layout := by
  unfold writeFragment Fragment.layout
  show leBytes (4 + 2) f.addr.toNat ++ _ = _
  rw [leBytes_add, ← leBytes_word]
  simp only [BitVec.extractLsb'_toNat, Nat.shiftRight_zero]
  rw [two_pow_32, leBytes_mod _ _ _ (le_refl _), List.append_assoc]
  refine congrArg (leBytes 4 f.addr.toNat ++ ·) ?_
  simp only [leBytes, List.cons_append, List.nil_append, List.cons.injEq, and_true]
  refine ⟨?_, ?_, ?_, ?_⟩ <;> (apply BitVec.eq_of_toNat_eq; simp [Nat.shiftRight_eq_div_pow, Nat.div_div_eq_div_mul])

/-- An aperture entry is written as section 10.6 lays it out. -/
theorem writeAperture_eq (a : Aperture) : writeAperture a = a.layout := by
  unfold writeAperture Aperture.layout
  simp only [leBytes_quad, List.append_assoc]
  congr 3
  cases h1 : a.readRight <;> cases h2 : a.writeRight <;> simp [Aperture.rights, h1, h2, flagBit, leBytes]

/-- The aperture list takes 32 bytes an entry, and zero bytes fill the entries at or beyond the count. -/
theorem writeApertures_eq : ∀ (n : Nat) (l : List Aperture), l.length ≤ n →
    writeApertures n l = l.flatMap Aperture.layout ++ List.replicate (32 * n - 32 * l.length) 0 := by
  intro n
  induction n with
  | zero => intro l h; cases l <;> simp_all [writeApertures]
  | succ n ih =>
    intro l h
    cases l with
    | nil =>
      rw [writeApertures, ih [] (by simp), leBytes_zero]
      simp only [List.flatMap_nil, List.nil_append, List.length_nil]
      rw [List.replicate_append_replicate]; congr 1; omega
    | cons a r =>
      simp only [List.length_cons] at h
      rw [writeApertures, ih r (by omega), writeAperture_eq]
      simp only [List.flatMap_cons, List.append_assoc, List.length_cons]
      congr 3; omega

end Sys2Proof.Machine
end

