-- ==== Sys2Proof/Laws/PerInstr.lean ====
section
/-!
SUPPORT. The per-command family `BusOutcome`: a command is well formed exactly when the bytes that its read transaction brought, if
it reports a read, are as many as that transaction asks for (R76, R77, R143, R152, R183, R185, R186).
-/

namespace Sys2Proof.Laws.BusOutcome

/-- The read a command reports, with the least and the greatest number of bytes that its transaction asks for. -/
def readOf : Instr → Option (ReadOutcome × Nat × Nat)
  | .postReadComplete r => some (r, 64, 64)
  | .gatherPieceComplete r => some (r, 1, 256)
  | .clientHalfReadComplete r => some (r, 32, 32)
  | .attachDescriptorPieceComplete r => some (r, 1, 256)
  | .attachCxbReadComplete r => some (r, 32, 32)
  | .setupReadComplete r => some (r, 64, 64)
  | .setupDescriptorPieceComplete r => some (r, 1, 256)
  | .setupCxbReadComplete r => some (r, 32, 32)
  | _ => none

/-- What the family says of one command. -/
def Statement (i : Instr) : Prop :=
  WellFormed i = true ↔ ∀ bs lo hi, readOf i = some (.data bs, lo, hi) → lo ≤ bs.length ∧ bs.length ≤ hi

/-- A read of exactly n bytes. -/
theorem hasLength_iff (r : ReadOutcome) (n : Nat) :
    r.hasLength n = true ↔ ∀ bs lo hi, some (r, n, n) = some (ReadOutcome.data bs, lo, hi) → lo ≤ bs.length ∧ bs.length ≤ hi := by
  cases r with
  | data bytes =>
    simp only [ReadOutcome.hasLength, beq_iff_eq, Option.some.injEq, Prod.mk.injEq, ReadOutcome.data.injEq]
    constructor
    · rintro h bs lo hi ⟨rfl, rfl, rfl⟩; omega
    · intro h; have := h bytes n n ⟨rfl, rfl, rfl⟩; omega
  | busError => simp [ReadOutcome.hasLength]

/-- A read of one piece. -/
theorem isPiece_iff (r : ReadOutcome) :
    r.isPiece = true ↔ ∀ bs lo hi, some (r, 1, 256) = some (ReadOutcome.data bs, lo, hi) → lo ≤ bs.length ∧ bs.length ≤ hi := by
  cases r with
  | data bytes =>
    simp only [ReadOutcome.isPiece, Config.busBlock, Bool.and_eq_true, decide_eq_true_eq, Option.some.injEq, Prod.mk.injEq,
      ReadOutcome.data.injEq]
    constructor
    · rintro ⟨h, g⟩ bs lo hi ⟨rfl, rfl, rfl⟩; exact ⟨h, of_decide_eq_true g⟩
    · intro h; exact ⟨(h bytes 1 256 ⟨rfl, rfl, rfl⟩).1, decide_eq_true (h bytes 1 256 ⟨rfl, rfl, rfl⟩).2⟩
  | busError => simp [ReadOutcome.isPiece]

/-- A command that reports no read is well formed, and the family's condition is empty. -/
theorem noRead {i : Instr} (h : WellFormed i = true) (g : readOf i = none) : Statement i := by
  refine ⟨fun _ bs lo hi k => ?_, fun _ => h⟩
  rw [g] at k
  cases k

theorem postReadComplete (r : ReadOutcome) : Statement (.postReadComplete r) := hasLength_iff r 64
theorem openParcel (i : SlotId) : Statement (.openParcel i) := noRead rfl rfl
theorem append (i : SlotId) : Statement (.append i) := noRead rfl rfl
theorem cut (i : SlotId) : Statement (.cut i) := noRead rfl rfl
theorem dispatch (i : SlotId) : Statement (.dispatch i) := noRead rfl rfl
theorem send (i : SlotId) : Statement (.send i) := noRead rfl rfl
theorem forward (i : SlotId) : Statement (.forward i) := noRead rfl rfl
theorem fetch (i : SlotId) : Statement (.fetch i) := noRead rfl rfl
theorem release (i : SlotId) : Statement (.release i) := noRead rfl rfl
theorem subscribe (i : SlotId) : Statement (.subscribe i) := noRead rfl rfl
theorem unsubscribe (i : SlotId) : Statement (.unsubscribe i) := noRead rfl rfl
theorem pin (i : SlotId) : Statement (.pin i) := noRead rfl rfl
theorem unpin (i : SlotId) : Statement (.unpin i) := noRead rfl rfl
theorem attach (i : SlotId) : Statement (.attach i) := noRead rfl rfl
theorem detach (i : SlotId) : Statement (.detach i) := noRead rfl rfl
theorem query (i : SlotId) : Statement (.query i) := noRead rfl rfl
theorem gatherPieceComplete (r : ReadOutcome) : Statement (.gatherPieceComplete r) := isPiece_iff r
theorem scatterPieceComplete (w : WriteOutcome) : Statement (.scatterPieceComplete w) := noRead rfl rfl
theorem lookup (i : SlotId) : Statement (.lookup i) := noRead rfl rfl
theorem admission (i : SlotId) : Statement (.admission i) := noRead rfl rfl
theorem settlement (i : SlotId) : Statement (.settlement i) := noRead rfl rfl
theorem handOver (i : SlotId) : Statement (.handOver i) := noRead rfl rfl
theorem releaseAfterDrop (i : SlotId) : Statement (.releaseAfterDrop i) := noRead rfl rfl
theorem clientHalfReadComplete (r : ReadOutcome) : Statement (.clientHalfReadComplete r) := hasLength_iff r 32
theorem deliveryClaim (c : ClientId) : Statement (.deliveryClaim c) := noRead rfl rfl
theorem returnClaim (c : ClientId) : Statement (.returnClaim c) := noRead rfl rfl
theorem recordWriteComplete (w : WriteOutcome) : Statement (.recordWriteComplete w) := noRead rfl rfl
theorem writeBackComplete (w : WriteOutcome) : Statement (.writeBackComplete w) := noRead rfl rfl
theorem signalWriteComplete (w : WriteOutcome) : Statement (.signalWriteComplete w) := noRead rfl rfl
theorem grant : Statement .grant := noRead rfl rfl
theorem tick : Statement .tick := noRead rfl rfl
theorem sweep : Statement .sweep := noRead rfl rfl
theorem lingerExpiry (c : ClientId) : Statement (.lingerExpiry c) := noRead rfl rfl
theorem directoryPurge (i : SlotId) : Statement (.directoryPurge i) := noRead rfl rfl
theorem pendingPurge (i : SlotId) : Statement (.pendingPurge i) := noRead rfl rfl
theorem referenceWalkVisit (i : SlotId) : Statement (.referenceWalkVisit i) := noRead rfl rfl
theorem teardownCompletion (i : SlotId) : Statement (.teardownCompletion i) := noRead rfl rfl
theorem attachDescriptorPieceComplete (r : ReadOutcome) : Statement (.attachDescriptorPieceComplete r) := isPiece_iff r
theorem attachCxbReadComplete (r : ReadOutcome) : Statement (.attachCxbReadComplete r) := hasLength_iff r 32
theorem attachWriteBackComplete (w : WriteOutcome) : Statement (.attachWriteBackComplete w) := noRead rfl rfl
theorem countRead (i : SlotId) : Statement (.countRead i) := noRead rfl rfl
theorem reportRead (i : SlotId) : Statement (.reportRead i) := noRead rfl rfl
theorem reportWritePieceComplete (w : WriteOutcome) : Statement (.reportWritePieceComplete w) := noRead rfl rfl
theorem go : Statement .go := noRead rfl rfl
theorem halt : Statement .halt := noRead rfl rfl
theorem restart : Statement .restart := noRead rfl rfl
theorem attend (value : BitVec 32) : Statement (.attend value) := noRead rfl rfl
theorem setupAddressWrite (high : Bool) (value : BitVec 32) : Statement (.setupAddressWrite high value) := noRead rfl rfl
theorem registerWrite (a : PortAccess) : Statement (.registerWrite a) := noRead rfl rfl
theorem setupReadComplete (r : ReadOutcome) : Statement (.setupReadComplete r) := hasLength_iff r 64
theorem setupDescriptorPieceComplete (r : ReadOutcome) : Statement (.setupDescriptorPieceComplete r) := isPiece_iff r
theorem setupCxbReadComplete (r : ReadOutcome) : Statement (.setupCxbReadComplete r) := hasLength_iff r 32
theorem setupWriteBackComplete (w : WriteOutcome) : Statement (.setupWriteBackComplete w) := noRead rfl rfl
theorem resetPinAssert : Statement .resetPinAssert := noRead rfl rfl
theorem resetPinRelease : Statement .resetPinRelease := noRead rfl rfl

end Sys2Proof.Laws.BusOutcome
end

