-- ==== Sys2Proof/Laws/Standing.lean ====
section
/-!
SUPPORT. How a step keeps the holdings of a sound state: what each slot stands on, with one slot set aside while its own command
acts, and the shared operations that bring that slot back.
-/

namespace Sys2Proof.Machine

/-! ### What a slot stands on -/

/-- What `State.slotsBacked` asks of one slot. -/
def State.slotStands (s : State) (sl : Slot) : Bool :=
  if sl.state = .performing then
    match sl.client, sl.command with
    | some c, some r => s.commandStands c r sl.undo sl.progress
    | _, _ => false
  else sl.undo.isNone

/-- The holdings of a sound state, those of one slot set aside. -/
structure State.Holds (s : State) (x : Option SlotId) : Prop where
  records : s.store.recordsSound
  backed : ∀ c, ∀ e ∈ s.list c, s.store.live e.handle = true ∧ (s.store.parcel (handleIndex e.handle)).state = .closed ∧
    naming (s.list c) e.handle ≤ (s.store.parcel (handleIndex e.handle)).holder c
  stands : ∀ j, some j ≠ x → s.slotStands (s.slot j) = true
  owned : ∀ k, (s.store.parcel k).growth = none ∨ ∃ j g, some j ≠ x ∧ (s.slot j).undo = some g ∧ g.index = k
  scatters : ∀ y ∈ s.liveBus, ∀ j, y.op = .scatter j → some j ≠ x →
    (s.slot j).state = .performing ∧ (s.slot j).undo = none ∧ ∃ m, (s.slot j).progress = .moving m

theorem Slots.all_iff (f : Slot → Bool) (s : State) : s.slots.toList.all f = true ↔ ∀ j, f (s.slot j) = true := by
  simp only [List.all_eq_true, Vector.mem_toList_iff, Vector.mem_iff_getElem]
  constructor
  · exact fun h j => h _ ⟨j.val, j.isLt, rfl⟩
  · rintro h x ⟨k, hk, rfl⟩
    exact h ⟨k, hk⟩

theorem Slots.any_iff (f : Slot → Bool) (s : State) : s.slots.toList.any f = true ↔ ∃ j, f (s.slot j) = true := by
  simp only [List.any_eq_true, Vector.mem_toList_iff, Vector.mem_iff_getElem]
  constructor
  · rintro ⟨x, ⟨k, hk, rfl⟩, h⟩
    exact ⟨⟨k, hk⟩, h⟩
  · rintro ⟨j, h⟩
    exact ⟨_, ⟨j.val, j.isLt, rfl⟩, h⟩

/-- `State.holdingsSound`, in a state whose parcel table is in canonical form and counted. -/
theorem State.holdingsSound_iff {s : State} (hw : s.store.recordsWf = true) (hr : s.store.referencesCounted = true) :
    s.holdingsSound = true ↔ s.Holds none := by
  have h1 := Store.recordsSound_iff hw
  have h2 : s.entriesBacked = true ↔ ∀ c, ∀ e ∈ s.list c, s.store.live e.handle = true ∧
      (s.store.parcel (handleIndex e.handle)).state = .closed ∧
      naming (s.list c) e.handle ≤ (s.store.parcel (handleIndex e.handle)).holder c := by
    simp [State.entriesBacked, and_assoc]
  have h3 : s.slotsBacked = true ↔ ∀ j, s.slotStands (s.slot j) = true := Slots.all_iff _ s
  have h4 : s.growthsOwned = true ↔ ∀ k, (s.store.parcel k).growth = none ∨ ∃ j g, (s.slot j).undo = some g ∧ g.index = k := by
    unfold State.growthsOwned
    simp only [List.all_eq_true, Bool.or_eq_true, Slots.any_iff, Option.isNone_iff_eq_none, Option.any_eq_true, beq_iff_eq]
    constructor
    · intro h k
      cases hg : sparseGet s.store.records k with
      | none => left; simp [Store.parcel, hg, Parcel.initial]
      | some p =>
        have := h _ (mem_of_sparseGet hg)
        simpa [Store.parcel, hg] using this
    · intro h x hx
      have := h x.1
      rwa [Store.parcel_of_mem (Store.recordsWf_rise hw) hx] at this
  have h5 : s.scattersApart = true ↔ ∀ y ∈ s.liveBus, ∀ j, y.op = .scatter j →
      (s.slot j).state = .performing ∧ (s.slot j).undo = none ∧ ∃ m, (s.slot j).progress = .moving m := by
    unfold State.scattersApart
    simp only [List.all_eq_true]
    refine forall₂_congr fun y _ => ?_
    constructor
    · intro h j hj
      rw [hj] at h
      simp only [Bool.and_eq_true, beq_iff_eq, Option.isNone_iff_eq_none] at h
      refine ⟨h.1.1, h.1.2, ?_⟩
      have := h.2
      split at this
      · exact ⟨_, by assumption⟩
      · cases this
    · intro h
      split
      · rename_i j hj
        obtain ⟨a, b, m, e⟩ := h j hj
        simp [a, b, e]
      · rfl
  unfold State.holdingsSound
  simp only [Bool.and_eq_true, h2, h3, h4, h5]
  constructor
  · rintro ⟨⟨⟨⟨⟨a, b⟩, c⟩, d⟩, e⟩, f⟩
    exact ⟨h1.2 ⟨b, a, hr⟩, c, fun j _ => d j, fun k => (e k).imp_right fun ⟨j, g, x⟩ => ⟨j, g, by simp, x⟩,
      fun y hy j hj _ => f y hy j hj⟩
  · rintro ⟨a, b, c, d, e⟩
    exact ⟨⟨⟨⟨⟨(h1.1 a).2.1, (h1.1 a).1⟩, b⟩, fun j => c j (by simp)⟩,
      fun k => (d k).imp_right fun ⟨j, g, _, x⟩ => ⟨j, g, x⟩⟩, fun y hy j hj => e y hy j hj (by simp)⟩

/-! ### Slots apart (R80) -/

/-- The part of `State.slotsApart` that speaks of the slots alone: an occupied slot has a client, and a client one slot. -/
structure State.Apart (s : State) : Prop where
  one : ∀ i j c, (s.slot i).state ≠ .free → (s.slot j).state ≠ .free → (s.slot i).client = some c → (s.slot j).client = some c →
    i = j
  named : ∀ i, (s.slot i).state ≠ .free → ∃ c, (s.slot i).client = some c

theorem State.apart_of_slotsApart {s : State} (h : s.slotsApart = true) : s.Apart := by
  unfold State.slotsApart at h
  simp only [Bool.and_eq_true, List.all_eq_true, List.mem_finRange, true_implies, Bool.or_eq_true, beq_iff_eq, bne_iff_ne,
    Option.isSome_iff_exists] at h
  obtain ⟨⟨⟨⟨⟨⟨h1, h2⟩, -⟩, -⟩, -⟩, -⟩, -⟩ := h
  refine ⟨fun i j c hi hj ci cj => ?_, fun i hi => (h2 i).resolve_left hi⟩
  rcases h1 i j with ((h | h) | h) | h
  · exact h
  · exact absurd h hi
  · exact absurd h hj
  · exact absurd (ci.trans cj.symm) h

theorem State.slotOf_none {s : State} {c : ClientId} :
    (s.slotOf c).isNone = true ↔ ∀ j, (s.slot j).state = .free ∨ (s.slot j).client ≠ some c := by
  simp only [State.slotOf, Option.isNone_iff_eq_none, List.find?_eq_none, List.mem_finRange, true_implies, Bool.and_eq_true,
    bne_iff_ne, beq_iff_eq, not_and_or, not_not, ne_eq]

theorem State.slotOf_some {s : State} {c : ClientId} {j : SlotId} (h : s.slotOf c = some j) :
    (s.slot j).state ≠ .free ∧ (s.slot j).client = some c := by
  have := List.find?_some h
  simpa using this

/-! ### What a step leaves to a client -/

/-- What a client stands on is left: the live parcels of which it has a free reference, and those of which it is the builder. -/
structure State.Leaves (s t : State) (c : ClientId) : Prop where
  owns : ∀ h, s.ownsFree c h = true → t.ownsFree c h = true ∧
    ((s.store.parcel (handleIndex h)).state = .closed → (t.store.parcel (handleIndex h)).state = .closed)
  sole : ∀ k, (s.store.parcel k).refCount = 1 → (s.store.parcel k).charged = some c → (s.store.parcel k).holder c = 1 →
    t.store.parcel k = s.store.parcel k

/-- What a step leaves to a teardown: a DRAINING client stays so, without a slot if it has none, and without an entry. -/
structure State.LeavesTeardowns (s t : State) : Prop where
  draining : ∀ d, (s.client d).state = .draining → (t.client d).state = .draining
  slotless : ∀ d, (s.client d).state = .draining → (s.slotOf d).isNone = true → (t.slotOf d).isNone = true
  emptied : ∀ d, (s.client d).state = .draining → s.list d = [] → t.list d = []

section Leaves
variable {s t : State} {c : ClientId} {r : PostRecord}

theorem State.Leaves.refl (s : State) (c : ClientId) : s.Leaves s c := ⟨fun _ h => ⟨h, id⟩, fun _ _ _ _ => rfl⟩

theorem State.ownsFree_iff {h : Handle} : s.ownsFree c h = true ↔
    s.store.live h = true ∧ naming (s.list c) h < (s.store.parcel (handleIndex h)).holder c := by
  simp [State.ownsFree]

/-- A store that leaves a client's records alone, its list as it was. -/
theorem State.leaves_of_records (hl : t.list c = s.list c)
    (hp : ∀ k, (s.store.parcel k).holder c ≠ 0 → (t.store.parcel k).state = (s.store.parcel k).state ∧
      (t.store.parcel k).generation = (s.store.parcel k).generation ∧
      (t.store.parcel k).holder c = (s.store.parcel k).holder c)
    (hs : ∀ k, (s.store.parcel k).refCount = 1 → (s.store.parcel k).charged = some c → (s.store.parcel k).holder c = 1 →
      t.store.parcel k = s.store.parcel k) : s.Leaves t c := by
  refine ⟨fun h ho => ?_, hs⟩
  rw [State.ownsFree_iff] at ho ⊢
  obtain ⟨e1, e2, e3⟩ := hp (handleIndex h) (by omega)
  refine ⟨⟨?_, ?_⟩, fun e => e1.trans e⟩
  · rw [← ho.1]
    simp [Store.live, e1, e2]
  · rw [hl, e3]
    exact ho.2

theorem State.Leaves.routes (h : s.Leaves t c) (hr : s.store.recordsSound) {x : Handle} {b : Bool}
    (ho : s.routes c r x b = true) : t.routes c r x b = true := by
  simp only [State.routes, Bool.and_eq_true, beq_iff_eq, Bool.or_eq_true, bne_iff_ne] at ho ⊢
  obtain ⟨⟨h1, h2⟩, h3⟩ := ho
  obtain ⟨o1, o2⟩ := h.owns x h1
  refine ⟨⟨o1, o2 h2⟩, h3.imp_right fun ⟨a, b⟩ => ?_⟩
  have h5 := (State.ownsFree_iff.1 h1).2
  have h6 := Parcel.counted_le (hr.2.2 (handleIndex x)).2 c
  rw [h.sole _ a b (by omega)]
  exact ⟨a, b⟩

theorem State.claimStands_iff {m : Movement} {g : GrowthClaim} : s.claimStands c m g = true ↔
    g.client = c ∧ g.index = handleIndex m.handle ∧ s.store.live m.handle = true ∧ (s.store.parcel g.index).state = .building ∧
      (s.store.parcel g.index).charged = some c ∧ (s.store.parcel g.index).holder c = 1 ∧
      (s.store.parcel g.index).growth.isSome = true ∧ (s.store.parcel g.index).chain.length =
        g.segments + chainNeeded (s.store.parcel g.index).cls (s.store.parcel g.index).headOffset
          (s.store.parcel g.index).length 0 := by
  simp [State.claimStands, and_assoc]

/-- A BUILDING record has one reference, its builder's. -/
theorem Parcel.building_sole {p : Parcel} (h : p.shaped = true) (hc : p.counted = true) (hb : p.state = .building) :
    p.refCount = 1 ∧ ∃ d, p.charged = some d ∧ p.holder d = 1 ∧ ∀ e, p.holder e ≠ 0 → e = d := by
  simp only [Parcel.shaped, hb, Bool.and_eq_true, beq_iff_eq] at h
  obtain ⟨⟨h1, h2⟩, -⟩ := h
  cases hd : p.charged with
  | none => simp [hd] at h2
  | some d =>
    simp only [hd, Option.any_some, beq_iff_eq] at h2
    refine ⟨h1, d, rfl, h2, fun e he => ?_⟩
    by_contra hne
    have := Parcel.counted_le_two hc hne
    omega

theorem State.Leaves.commandStands (h : s.Leaves t c) (ht : s.LeavesTeardowns t) (hr : s.store.recordsSound)
    {u : Option GrowthClaim} {p : Progress} (ho : s.commandStands c r u p = true) : t.commandStands c r u p = true := by
  cases p with
  | moving m =>
    cases u with
    | some g =>
      obtain ⟨h1, h2, h3, h4, h5, h6, h7⟩ := State.claimStands_iff.1 ho
      have e := h.sole g.index (Parcel.building_sole (hr.2.2 _).1 (hr.2.2 _).2 h4).1 h5 h6
      refine State.claimStands_iff.2 ⟨h1, h2, ?_, ?_⟩
      · rw [h2] at e
        simpa [Store.live, e] using h3
      · rw [e]; exact ⟨h4, h5, h6, h7⟩
    | none => exact (h.owns m.handle ho).1
  | toLookup x n =>
    simp only [State.commandStands, Bool.and_eq_true] at ho ⊢
    exact ⟨ho.1, h.routes hr ho.2⟩
  | offering q =>
    simp only [State.commandStands, Bool.and_eq_true] at ho ⊢
    exact ⟨ho.1, h.routes hr ho.2⟩
  | settling q =>
    simp only [State.commandStands, Bool.and_eq_true, Bool.or_eq_true] at ho ⊢
    exact ⟨ho.1, ho.2.imp_right fun x => h.routes hr x⟩
  | dropAfter x n k =>
    simp only [State.commandStands, Bool.and_eq_true] at ho ⊢
    exact ⟨ho.1, (h.owns x ho.2).1⟩
  | teardown d =>
    simp only [State.commandStands, Bool.and_eq_true, Bool.or_eq_true, beq_iff_eq] at ho ⊢
    obtain ⟨⟨⟨h1, h2⟩, h3⟩, h4⟩ := ho
    refine ⟨⟨⟨h1, ht.draining _ h2⟩, h3.imp_right (ht.slotless _ h2)⟩, ?_⟩
    revert h4
    cases d.stage <;> simp <;> exact fun h4 => ht.emptied _ h2 h4
  | _ => exact ho

theorem State.Leaves.slotStands (ht : s.LeavesTeardowns t) (hr : s.store.recordsSound) {sl : Slot}
    (h : ∀ c, sl.state = .performing → sl.client = some c → s.Leaves t c) (ho : s.slotStands sl = true) :
    t.slotStands sl = true := by
  unfold State.slotStands at ho ⊢
  split at ho
  · rename_i hp
    rw [if_pos hp]
    split at ho
    · rename_i c r hc hm
      exact (h c hp hc).commandStands ht hr ho
    · cases ho
  · rename_i hp
    rw [if_neg hp]
    exact ho

end Leaves

/-! ### A step with one slot set aside -/

section Steps
variable {s t : State} {i : SlotId}

/-- A step keeps what the other slots hold if it leaves their clients what they stand on, and sets one slot aside. -/
theorem State.Holds.step {x : Option SlotId} (h : s.Holds x) (y : Option SlotId) (hxy : ∀ j, some j ≠ y → some j ≠ x)
    (hr : t.store.recordsSound)
    (hb : ∀ c, ∀ e ∈ t.list c, t.store.live e.handle = true ∧ (t.store.parcel (handleIndex e.handle)).state = .closed ∧
      naming (t.list c) e.handle ≤ (t.store.parcel (handleIndex e.handle)).holder c)
    (hl : ∀ j c, some j ≠ y → (s.slot j).state = .performing → (s.slot j).client = some c → s.Leaves t c)
    (ht : s.LeavesTeardowns t) (hs : ∀ j, some j ≠ y → t.slot j = s.slot j)
    (hg : ∀ k, (t.store.parcel k).growth = none ∨ ((s.store.parcel k).growth ≠ none ∧
      ∀ j g, some j ≠ x → some j = y → (s.slot j).undo = some g → g.index ≠ k))
    (hbus : t.liveBus ⊆ s.liveBus) : t.Holds y := by
  refine ⟨hr, hb, fun j hj => ?_, fun k => ?_, fun z hz j hop hj => ?_⟩
  · rw [hs j hj]
    exact State.Leaves.slotStands ht h.records (fun c hp hc => hl j c hj hp hc) (h.stands j (hxy j hj))
  · rcases hg k with hk | ⟨hk, hn⟩
    · exact .inl hk
    · obtain ⟨j, g, hj, hu, he⟩ := (h.owned k).resolve_left hk
      by_cases hy : some j = y
      · exact absurd he (hn j g hj hy hu)
      · exact .inr ⟨j, g, hy, by rw [hs j hy]; exact hu, he⟩
  · rw [hs j hj]
    exact h.scatters z (hbus hz) j hop (hxy j hj)

/-- A step that changes neither the store nor a pending list. -/
theorem State.Holds.same {x : Option SlotId} (h : s.Holds x) (y : Option SlotId) (hxy : ∀ j, some j ≠ y → some j ≠ x)
    (hstore : t.store = s.store) (hlists : ∀ c, t.list c = s.list c)
    (hd : ∀ d, (s.client d).state = .draining → (t.client d).state = .draining)
    (hsl : ∀ d, (s.client d).state = .draining → (s.slotOf d).isNone = true → (t.slotOf d).isNone = true)
    (hs : ∀ j, some j ≠ y → t.slot j = s.slot j)
    (hg : ∀ j g, some j ≠ x → some j = y → (s.slot j).undo = some g → (s.store.parcel g.index).growth = none)
    (hbus : t.liveBus ⊆ s.liveBus) : t.Holds y := by
  refine h.step y hxy (hstore ▸ h.records) ?_ ?_ ⟨hd, hsl, fun d _ e => by rw [hlists, e]⟩ hs ?_ hbus
  · intro c e he
    rw [hlists] at he ⊢
    rw [hstore]
    exact h.backed c e he
  · intro j c _ _ _
    exact State.leaves_of_records (hlists c) (fun k _ => by rw [hstore]; exact ⟨rfl, rfl, rfl⟩) (fun k _ _ _ => by rw [hstore])
  · intro k
    rw [hstore]
    by_cases hk : (s.store.parcel k).growth = none
    · exact .inl hk
    · exact .inr ⟨hk, fun j g hx hy hu he => hk (he ▸ hg j g hx hy hu)⟩

/-- The slot set aside comes back. -/
theorem State.Holds.close (h : s.Holds (some i)) (hst : s.slotStands (s.slot i) = true)
    (hsc : ∀ z ∈ s.liveBus, z.op = .scatter i →
      (s.slot i).state = .performing ∧ (s.slot i).undo = none ∧ ∃ m, (s.slot i).progress = .moving m) : s.Holds none := by
  refine ⟨h.records, h.backed, fun j _ => ?_, fun k => (h.owned k).imp_right fun ⟨j, g, _, e⟩ => ⟨j, g, by simp, e⟩,
    fun z hz j hop _ => ?_⟩
  · by_cases hj : j = i
    · subst hj; exact hst
    · exact h.stands j (by simpa using hj)
  · by_cases hj : j = i
    · subst hj; exact hsc z hz hop
    · exact h.scatters z hz j hop (by simpa using hj)

end Steps


/-! ### The shared operations bring the slot back -/

section Closers
variable {s t : State} {i : SlotId} {c : ClientId} {r : PostRecord}

theorem State.liveBus_congr (ha : t.arb = s.arb) (hp : t.port.device = s.port.device) : t.liveBus = s.liveBus := by
  simp [State.liveBus, ha, hp]

/-- A slot set aside that is given other contents, its client and its occupation as they were. -/
theorem State.Holds.setSlot (h : s.Holds (some i)) {v : Slot} (hc : v.client = (s.slot i).client)
    (hn : (s.slot i).state ≠ .free) (hst : s.slotStands v = true)
    (hsc : ∀ z ∈ s.liveBus, z.op = .scatter i → v.state = .performing ∧ v.undo = none ∧ ∃ m, v.progress = .moving m) :
    (s.setSlot i v).Holds none := by
  have hsame : ∀ j, some j ≠ some i → (s.setSlot i v).slot j = s.slot j :=
    fun j hj => State.setSlot_slot_other _ (by simpa using hj) _
  have hsl : ∀ d, (s.slotOf d).isNone = true → ((s.setSlot i v).slotOf d).isNone = true := by
    intro d hd
    rw [State.slotOf_none] at hd ⊢
    intro j
    by_cases hj : j = i
    · subst hj
      right
      rw [State.setSlot_slot_same, hc]
      exact (hd j).resolve_left hn
    · rw [hsame j (by simpa using hj)]
      exact hd j
  refine State.Holds.close (h.same (t := s.setSlot i v) (some i) (fun _ => id) rfl (fun _ => rfl) (fun _ => id)
    (fun d _ => hsl d) hsame (fun j g a b => absurd b a) (fun _ => id)) ?_ ?_
  · rw [State.setSlot_slot_same]
    refine State.Leaves.slotStands (s := s) (t := s.setSlot i v) ⟨fun _ => id, fun d _ => hsl d, fun _ _ => id⟩ h.records (fun d _ _ => ?_) hst
    exact State.leaves_of_records rfl (fun _ _ => ⟨rfl, rfl, rfl⟩) (fun _ _ _ _ => rfl)
  · rw [State.setSlot_slot_same]
    exact hsc

/-- The command of a slot goes on to a stage that stands. -/
theorem State.Holds.setProgress (h : s.Holds (some i)) (hp : (s.slot i).state = .performing) (hc : (s.slot i).client = some c)
    (hm : (s.slot i).command = some r) {p : Progress} (hst : s.commandStands c r (s.slot i).undo p = true)
    (hsc : (∀ z ∈ s.liveBus, z.op ≠ .scatter i) ∨ (s.slot i).undo = none ∧ ∃ m, p = .moving m) : (s.setProgress i p).Holds none := by
  refine h.setSlot rfl (by rw [hp]; decide) ?_ (fun z hz hop => ?_)
  · simp only [State.slotStands, hp, hc, hm, if_true]
    exact hst
  · rcases hsc with hsc | ⟨a, b⟩
    · exact absurd hop (hsc z hz)
    · exact ⟨hp, a, b⟩

/-- The Intake's choice. -/
theorem State.Holds.readChoice (h : s.Holds none) : s.readChoice.Holds none := by
  rcases s.readChoice_cases with e | ⟨d, _, _, _, e⟩ | ⟨d, i, _, _, hp, hi, e⟩
  · rw [e]; exact h
  · rw [e]
    exact h.same none (fun _ => id) rfl (fun _ => rfl) (fun _ => id) (fun _ _ => id) (fun _ _ => rfl) (fun j g _ b => by cases b)
      (fun _ => id)
  · rw [e]
    have hf : (s.slot i).state = .free := by simpa using List.find?_some hi
    have hatt : (s.client d).state = .attached := by
      simp only [State.postEligible, Bool.and_eq_true, beq_iff_eq] at hp
      exact hp.1.1.1.2
    have hu : (s.slot i).undo = none := by
      have := h.stands i (by simp)
      simpa [State.slotStands, hf] using this
    have hso : ∀ j, some j ≠ some i → ((s.setSlot i { Slot.initial with state := .bound, client := some d }).setIntake
        { s.intake with pointer := d + 1, fetch := some (postTxn s d i) }).slot j = s.slot j :=
      fun j hj => State.setSlot_slot_other _ (by simpa using hj) _
    have hsi : ((s.setSlot i { Slot.initial with state := .bound, client := some d }).setIntake
        { s.intake with pointer := d + 1, fetch := some (postTxn s d i) }).slot i =
          { Slot.initial with state := .bound, client := some d } := State.setSlot_slot_same _ _ _
    refine State.Holds.close (i := i) (h.same (some i) (fun j _ => by simp) rfl (fun _ => rfl) (fun _ => id) (fun e he hd => ?_) hso
      (fun j g _ b hg => ?_) (fun _ => id)) ?_ (fun z hz hop => ?_)
    · rw [State.slotOf_none] at hd ⊢
      intro j
      by_cases hj : j = i
      · subst hj
        right
        rw [hsi]
        intro x
        simp only [Option.some.injEq] at x
        subst x
        rw [hatt] at he
        cases he
      · rw [hso j (by simpa using hj)]
        exact hd j
    · simp only [Option.some.injEq] at b
      subst b
      rw [hu] at hg
      cases hg
    · rw [hsi]
      rfl
    · have := (h.scatters z hz i hop (by simp)).1
      rw [hf] at this
      cases this

/-- HALTING ends, or not. -/
theorem State.Holds.settleHalt (h : s.Holds none) : s.settleHalt.Holds none := by
  refine h.same none (fun _ => id) (by simp) (fun d => by simp [State.list]) (fun d => by simp) (fun d _ hd => ?_)
    (fun j _ => by simp) (fun j g _ b => by cases b) ?_
  · rw [State.slotOf_none] at hd ⊢
    simpa using hd
  · have : s.settleHalt.liveBus = s.liveBus := by
      unfold State.liveBus
      rw [State.settleHalt_arb]
      rcases s.settleHalt_port with e | ⟨h1, _, e⟩
      · rw [e]
      · rw [e, h1]; rfl
    rw [this]
    exact fun _ => id

/-- The freeing of a client's only slot is reported to its teardown. -/
theorem State.Holds.reportFreed (h : s.Holds none) (hn : (s.slotOf c).isNone = true) (b : Bool) :
    (s.reportFreed c b).Holds none := by
  have hsl : ∀ d, ((s.reportFreed c b).slotOf d).isNone = (s.slotOf d).isNone := by
    intro d
    rw [Bool.eq_iff_iff, State.slotOf_none, State.slotOf_none]
    simp
  have hend : ∀ sl : Slot, (endAbort c b sl).undo = sl.undo ∧ (endAbort c b sl).command = sl.command ∧
      ((endAbort c b sl).progress = sl.progress ∨ ∃ d, sl.progress = .teardown d ∧ d.subject = c ∧
        (endAbort c b sl).progress = .teardown { d with stage := .directory, aborted := b }) := by
    intro sl
    unfold endAbort
    split
    · rename_i d hd
      split
      · rename_i hh
        exact ⟨rfl, rfl, .inr ⟨d, hd, hh.1, rfl⟩⟩
      · exact ⟨rfl, rfl, .inl rfl⟩
    · exact ⟨rfl, rfl, .inl rfl⟩
  have hl : s.LeavesTeardowns (s.reportFreed c b) :=
    ⟨fun d => by simp, fun d _ => by rw [hsl]; exact id, fun d _ => by simp [State.list]⟩
  refine ⟨by simpa using h.records, fun d e he => h.backed d e (by simpa [State.list] using he), fun j hj => ?_,
    fun k => (h.owned k).imp (by simp) fun ⟨j, g, a, x, y⟩ => ⟨j, g, a, by simpa [(hend (s.slot j)).1] using x, y⟩,
    fun z hz j hop hj => ?_⟩
  · have hst := State.Leaves.slotStands hl h.records (sl := s.slot j)
      (fun d _ _ => State.leaves_of_records (by simp [State.list]) (fun _ _ => ⟨rfl, rfl, rfl⟩) (fun _ _ _ _ => rfl))
      (h.stands j hj)
    rw [State.reportFreed_slot]
    obtain ⟨h1, h2, h3⟩ := hend (s.slot j)
    unfold State.slotStands at hst ⊢
    rw [endAbort_state, endAbort_client, h1, h2]
    rcases h3 with h3 | ⟨d, h3, h4, h5⟩
    · rw [h3]; exact hst
    · rw [h5]
      rw [h3] at hst
      by_cases hp : (s.slot j).state = .performing
      · rw [if_pos hp] at hst ⊢
        cases hcl : (s.slot j).client with
        | none => simp [hcl] at hst
        | some e =>
          cases hcm : (s.slot j).command with
          | none => simp [hcl, hcm] at hst
          | some r =>
            simp only [hcl, hcm, State.commandStands, Bool.and_eq_true, Bool.or_eq_true, beq_iff_eq] at hst ⊢
            obtain ⟨⟨⟨a1, a2⟩, -⟩, -⟩ := hst
            refine ⟨⟨⟨a1, a2⟩, .inr ?_⟩, trivial⟩
            rw [hsl, h4]
            exact hn
      · rw [if_neg hp] at hst ⊢
        exact hst
  · obtain ⟨a1, a2, m, a3⟩ := h.scatters z hz j hop hj
    rw [State.reportFreed_slot]
    obtain ⟨h1, h2, h3⟩ := hend (s.slot j)
    refine ⟨by rw [endAbort_state]; exact a1, by rw [h1]; exact a2, m, ?_⟩
    rcases h3 with h3 | ⟨d, h3, -⟩
    · rw [h3]; exact a3
    · rw [a3] at h3; cases h3

/-- A slot set aside becomes FREE. -/
theorem State.Holds.freeSlot (h : s.Holds (some i)) (ha : s.Apart) (hn : (s.slot i).state ≠ .free)
    (hb : ∀ z ∈ s.liveBus, z.op ≠ .scatter i) (b : Bool) : (s.freeSlot i b).Holds none := by
  have hso : ∀ j, some j ≠ some i → (s.setSlot i Slot.initial).slot j = s.slot j :=
    fun j hj => State.setSlot_slot_other _ (by simpa using hj) _
  have freed : (s.setSlot i Slot.initial).Holds none := by
    refine State.Holds.close (i := i) (h.same (some i) (fun _ => id) rfl (fun _ => rfl) (fun _ => id) (fun d _ hd => ?_) hso
      (fun j g a b => absurd b a) (fun _ => id)) ?_ (fun z hz hop => absurd hop (hb z hz))
    · rw [State.slotOf_none] at hd ⊢
      intro j
      by_cases hj : j = i
      · subst hj
        left
        rw [State.setSlot_slot_same]
        rfl
      · rw [hso j (by simpa using hj)]
        exact hd j
    · rw [State.setSlot_slot_same]
      rfl
  obtain ⟨c, hc⟩ := ha.named i hn
  unfold State.freeSlot
  dsimp only
  simp only [hc]
  split
  · refine (State.Holds.reportFreed freed ?_ b).settleHalt.readChoice
    rw [State.slotOf_none]
    intro j
    by_cases hj : j = i
    · subst hj
      left
      rw [State.setSlot_slot_same]
      rfl
    · rw [hso j (by simpa using hj)]
      by_contra hx
      simp only [not_or, not_not] at hx
      exact hj (ha.one j i c hx.1 hn hx.2 hc)
  · exact freed.settleHalt.readChoice

/-- A completion forms in a slot set aside: it is held, or discarded for a DRAINING client. -/
theorem State.Holds.formCompletion (h : s.Holds (some i)) (ha : s.Apart) (hn : (s.slot i).state ≠ .free)
    (hb : ∀ z ∈ s.liveBus, z.op ≠ .scatter i) (x : Completion) : (s.formCompletion i x).Holds none := by
  obtain ⟨c, hc⟩ := ha.named i hn
  by_cases hd : (s.client c).state = .draining
  · rw [State.formCompletion_draining _ x hc hd]
    exact h.freeSlot ha hn hb false
  · rw [State.formCompletion_held _ x hc hd]
    have key := h.setSlot (v := { s.slot i with state := .held, progress := .none, undo := none, completion := some x }) rfl hn rfl
      (fun z hz hop => absurd hop (hb z hz))
    split
    · exact key.same none (fun _ => id) rfl (fun _ => rfl) (fun _ => id) (fun _ _ => id) (fun _ _ => rfl)
        (fun j g _ b => by cases b) (fun _ => id)
    · exact key

end Closers

/-! ### A slot whose command acts -/

section Acting
variable {s t : State} {i : SlotId} {c : ClientId} {r : PostRecord}

theorem State.Holds.performed (h : s.Holds none) (hp : s.performing i = some (c, r)) :
    s.commandStands c r (s.slot i).undo (s.slot i).progress = true := by
  obtain ⟨-, h2, h3, h4⟩ := State.performing_iff.1 hp
  have := h.stands i (by simp)
  simpa [State.slotStands, h2, h3, h4] using this

theorem State.Holds.noScatter (h : s.Holds none) (hm : ∀ m, (s.slot i).progress ≠ .moving m) :
    ∀ z ∈ s.liveBus, z.op ≠ .scatter i := by
  intro z hz hop
  obtain ⟨-, -, m, hp⟩ := h.scatters z hz i hop (by simp)
  exact hm m hp

/-- A slot with no growth claim can be set aside. -/
theorem State.Holds.aside (h : s.Holds none) (hu : (s.slot i).undo = none) : s.Holds (some i) :=
  h.same (some i) (fun _ _ => by simp) rfl (fun _ => rfl) (fun _ => id) (fun _ _ => id) (fun _ _ => rfl)
    (fun j g _ b hg => by
      simp only [Option.some.injEq] at b
      subst b
      rw [hu] at hg
      cases hg) (fun _ => id)

theorem State.performing_of_taken {k : Nat} (h : s.takenCommand i k = some (c, r)) : s.performing i = some (c, r) := by
  obtain ⟨a, b, -, d, e, -⟩ := State.takenCommand_iff.1 h
  exact State.performing_iff.2 ⟨a, b, d, e⟩

/-- What a taken command's slot holds: nothing. -/
theorem State.Holds.taken {k : Nat} (h : s.Holds none) (ht : s.takenCommand i k = some (c, r)) :
    (s.slot i).state ≠ .free ∧ (s.slot i).undo = none ∧ (supervisorKind r.kind.toNat = true → c = 0) ∧
      (∀ z ∈ s.liveBus, z.op ≠ .scatter i) ∧ s.Holds (some i) := by
  obtain ⟨_, b, p, _, _, _⟩ := State.takenCommand_iff.1 ht
  have hc := h.performed (State.performing_of_taken ht)
  rw [p] at hc
  simp only [State.commandStands, Bool.and_eq_true, Option.isNone_iff_eq_none, Bool.or_eq_true, Bool.not_eq_true', beq_iff_eq] at hc
  exact ⟨by rw [b]; decide, hc.1, fun hk => hc.2.resolve_left (by simp [hk]), h.noScatter (fun m => by rw [p]; simp), h.aside hc.1⟩

/-- A growth in flight is the claim of a slot that performs, whose client built the parcel. -/
theorem State.Holds.growth_owner (h : s.Holds none) {k : Nat} (hk : (s.store.parcel k).growth ≠ none) :
    ∃ j d m g, (s.slot j).state = .performing ∧ (s.slot j).client = some d ∧ (s.slot j).undo = some g ∧
      (s.slot j).progress = .moving m ∧ g.index = k ∧ s.claimStands d m g = true := by
  obtain ⟨j, g, -, hu, hi⟩ := (h.owned k).resolve_left hk
  have hst := h.stands j (by simp)
  unfold State.slotStands at hst
  split at hst
  · rename_i hp
    split at hst
    · rename_i d r hd hm
      rw [hu] at hst
      cases hpr : (s.slot j).progress with
      | moving m =>
        rw [hpr] at hst
        exact ⟨j, d, m, g, hp, hd, hu, hpr, hi, hst⟩
      | _ => rw [hpr] at hst; simp [State.commandStands] at hst
    · cases hst
  · simp [hu] at hst

/-- A parcel of which a slot's client holds a reference has no growth in flight if the slot has no claim. -/
theorem State.Holds.noGrowth (h : s.Holds none) (ha : s.Apart) (hn : (s.slot i).state ≠ .free) (hc : (s.slot i).client = some c)
    (hu : (s.slot i).undo = none) {k : Nat} (hk : (s.store.parcel k).holder c ≠ 0) : (s.store.parcel k).growth = none := by
  by_contra hg
  obtain ⟨j, d, m, g, h1, h2, h3, -, h5, h6⟩ := h.growth_owner hg
  obtain ⟨-, -, -, b1, b2, b3, -⟩ := State.claimStands_iff.1 h6
  rw [h5] at b1 b2 b3
  obtain ⟨-, e, -, -, he⟩ := Parcel.building_sole (h.records.2.2 k).1 (h.records.2.2 k).2 b1
  have hcd : c = d := (he c hk).trans (he d (by omega)).symm
  subst hcd
  have := ha.one i j c hn (by rw [h1]; decide) hc h2
  subst this
  rw [hu] at h3
  cases h3

/-- A live handle is determined by its index. -/
theorem State.handle_ext {a b : Handle} (h1 : s.store.live a = true) (h2 : s.store.live b = true)
    (h : handleIndex a = handleIndex b) : a = b := by
  simp only [Store.live, Bool.and_eq_true, beq_iff_eq] at h1 h2
  have hg : handleGeneration a = handleGeneration b := by rw [← h1.2, ← h2.2, h]
  have hg' := congrArg BitVec.toNat hg
  simp only [handleIndex, handleGeneration, BitVec.extractLsb'_toNat, Nat.shiftRight_eq_div_pow] at h hg'
  have := a.isLt
  have := b.isLt
  apply BitVec.eq_of_toNat_eq
  omega

/-- A request of a slot's client on one record: the other clients' holdings on it are left, and what the client's own entries
name stays. -/
theorem State.Holds.act (h : s.Holds none) (ha : s.Apart) (hn : (s.slot i).state ≠ .free) (hc : (s.slot i).client = some c)
    {k : Nat} (hr : t.store.recordsSound) (ho : ∀ j, j ≠ k → t.store.parcel j = s.store.parcel j)
    (hlist : ∀ d, t.list d = s.list d) (hd : ∀ d, (s.client d).state = .draining → (t.client d).state = .draining)
    (hs : ∀ j, (t.slot j).state = (s.slot j).state ∧ (t.slot j).client = (s.slot j).client ∧ (j ≠ i → t.slot j = s.slot j))
    (hbus : t.liveBus ⊆ s.liveBus)
    (hothers : ∀ d, d ≠ c → (s.store.parcel k).holder d ≠ 0 → (t.store.parcel k).state = (s.store.parcel k).state ∧
      (t.store.parcel k).generation = (s.store.parcel k).generation ∧
      (t.store.parcel k).holder d = (s.store.parcel k).holder d ∧
      ((s.store.parcel k).refCount = 1 → t.store.parcel k = s.store.parcel k))
    (hactor : ∀ e ∈ s.list c, handleIndex e.handle = k → (t.store.parcel k).state = (s.store.parcel k).state ∧
      (t.store.parcel k).generation = (s.store.parcel k).generation ∧
      naming (s.list c) e.handle ≤ (t.store.parcel k).holder c)
    (hg : ∀ g, (s.slot i).undo = some g → g.index = k ∨ (s.store.parcel g.index).growth = none)
    (hg0 : (t.store.parcel k).growth = none) : t.Holds (some i) := by
  refine h.step (some i) (fun _ _ => by simp) hr (fun d e he => ?_) (fun j d hj hp hcl => ?_)
    ⟨hd, fun d _ hx => ?_, fun d _ e => by rw [hlist, e]⟩ (fun j hj => (hs j).2.2 (by simpa using hj)) (fun j => ?_) hbus
  · rw [hlist] at he ⊢
    obtain ⟨b1, b2, b3⟩ := h.backed d e he
    by_cases hk : handleIndex e.handle = k
    · have key : (t.store.parcel k).state = (s.store.parcel k).state ∧
          (t.store.parcel k).generation = (s.store.parcel k).generation ∧
          naming (s.list d) e.handle ≤ (t.store.parcel k).holder d := by
        by_cases hdc : d = c
        · subst hdc
          exact hactor e he hk
        · have hpos : 0 < naming (s.list d) e.handle := List.countP_pos_iff.2 ⟨e, he, by simp⟩
          obtain ⟨a1, a2, a3, -⟩ := hothers d hdc (by rw [← hk]; omega)
          exact ⟨a1, a2, by rw [a3, ← hk]; exact b3⟩
      simp only [Store.live, hk] at b1 b2 ⊢
      rw [key.1, key.2.1]
      exact ⟨b1, b2, key.2.2⟩
    · simp only [Store.live, ho _ hk] at b1 b2 ⊢
      exact ⟨b1, b2, b3⟩
  · have hdc : d ≠ c := by
      intro e
      subst e
      exact hj (congrArg some (ha.one j i d (by rw [hp]; decide) hn hcl hc))
    refine State.leaves_of_records (hlist d) (fun m hm => ?_) (fun m h1 _ h3 => ?_)
    · by_cases hk : m = k
      · subst hk
        obtain ⟨a1, a2, a3, -⟩ := hothers d hdc hm
        exact ⟨a1, a2, a3⟩
      · rw [ho m hk]; exact ⟨rfl, rfl, rfl⟩
    · by_cases hk : m = k
      · subst hk
        exact (hothers d hdc (by omega)).2.2.2 h1
      · exact ho m hk
  · rw [State.slotOf_none] at hx ⊢
    intro j
    rw [(hs j).1, (hs j).2.1]
    exact hx j
  · by_cases hk : j = k
    · subst hk; exact .inl hg0
    · rw [ho j hk]
      by_cases hz : (s.store.parcel j).growth = none
      · exact .inl hz
      · refine .inr ⟨hz, fun l g _ hl hu he => ?_⟩
        simp only [Option.some.injEq] at hl
        subst hl
        rcases hg g hu with e | e
        · exact hk (he.symm.trans e)
        · exact hz (he ▸ e)

/-- A request of the sole holder of a record. -/
theorem State.Holds.actSole (h : s.Holds none) (ha : s.Apart) (hn : (s.slot i).state ≠ .free) (hc : (s.slot i).client = some c)
    {k : Nat} (hk1 : (s.store.parcel k).refCount = 1) (hk2 : (s.store.parcel k).holder c = 1) (hr : t.store.recordsSound)
    (ho : ∀ j, j ≠ k → t.store.parcel j = s.store.parcel j) (hlist : ∀ d, t.list d = s.list d)
    (hd : ∀ d, (s.client d).state = .draining → (t.client d).state = .draining)
    (hs : ∀ j, (t.slot j).state = (s.slot j).state ∧ (t.slot j).client = (s.slot j).client ∧ (j ≠ i → t.slot j = s.slot j))
    (hbus : t.liveBus ⊆ s.liveBus)
    (hactor : ∀ e ∈ s.list c, handleIndex e.handle = k → (t.store.parcel k).state = (s.store.parcel k).state ∧
      (t.store.parcel k).generation = (s.store.parcel k).generation ∧
      naming (s.list c) e.handle ≤ (t.store.parcel k).holder c)
    (hg : ∀ g, (s.slot i).undo = some g → g.index = k ∨ (s.store.parcel g.index).growth = none)
    (hg0 : (t.store.parcel k).growth = none) : t.Holds (some i) :=
  h.act ha hn hc hr ho hlist hd hs hbus (fun d hd' hh => by
    have := Parcel.counted_le_two (h.records.2.2 k).2 hd'
    omega) hactor hg hg0

/-- No entry names a parcel that is not CLOSED. -/
theorem State.Holds.notNamed (h : s.Holds none) {k : Nat} (hk : (s.store.parcel k).state ≠ .closed) (d : ClientId) :
    ∀ e ∈ s.list d, handleIndex e.handle ≠ k := fun e he hx => hk (hx ▸ (h.backed d e he).2.1)

end Acting

end Sys2Proof.Machine
end

