-- ==== Sys2Proof/Tests/Slice0.lean ====
section
/-!
SUPPORT. The model's own tests: ill-formed commands, the layouts of chapter 10 byte by byte, the worked examples of the manual one
step at a time, and for each statement of the obligations states and operands that meet its hypotheses.
-/

namespace Sys2Proof.Tests

open Sys2Proof Sys2Proof.Machine

-- Each `decide +kernel` waits for the kernel, so that elaborating these theorems side by side only holds a thread each.
set_option Elab.async false

/-! ### Small states -/

/-- What a property says of the next state; false of a fault or a refusal. -/
def after (o : Result) (f : State → Bool) : Bool :=
  match o with
  | .next s => f s
  | _ => false

/-- A post record of a kind with every other field 0. -/
def record (kind : Nat) : PostRecord :=
  { kind := BitVec.ofNat 8 kind, flags := 0, cls := 0, count := 0, tag := 0, handle := 0, subject := 0, reserved := 0, key := 0,
    auxA := 0, auxB := 0, reserved2 := 0, frag0 := ⟨0, 0⟩, frag1 := ⟨0, 0⟩, frag2 := ⟨0, 0⟩, frag3 := ⟨0, 0⟩ }

/-- An aperture of 4096 bytes with both rights. -/
def window : Aperture := { base := 0x1000, length := 0x1000, system := 0x80000, readRight := true, writeRight := true }

/-- A valid client descriptor. -/
def grantOf : Descriptor :=
  { postBase := 0x10000, retBase := 0x20000, delBase := 0x30000, postSize := 16, retSize := 16, delSize := 16, learning := true,
    cxb := 0x40000, signalAddr := 0x50000, signalValue := 0xAB, refLimit := 4, segLimit := { short := 64, long := 16 },
    apertures := [window] }

/-- A client half of zeros but for its post tally. -/
def half (postTally : Tally) : ClientHalf := { postTally := postTally, retTaken := 0, delTaken := 0, retWake := 0, delWake := 0 }

/-- An ATTACHED context. -/
def context : Client := attachedContext grantOf (half 0)

/-- RUNNING, with clients 0, 1 and 2 attached and nothing else done. -/
def up : State :=
  { State.reset with
    port := { Port.initial with device := .running, tickRuns := true },
    clients := ((Vector.replicate 8 Client.initial).set 0 context).set 1 context |>.set 2 context }

/-- The state with client c FAULTED. -/
def fault (s : State) (c : ClientId) : State := s.setClient c { s.client c with state := .faulted, reason := some .postRead }

/-- Slot 0 performs a command of a client, at a stage. -/
def at_ (c : ClientId) (r : PostRecord) (p : Progress) (s : State) : State :=
  s.setSlot 0 { Slot.initial with state := .performing, client := some c, command := some r, progress := p }

/-- The bus carries a transaction. -/
def onBus (op : TxnOp) (s : State) : State :=
  s.setArb { s.arb with bus := some { txn := { op := op, addr := 0, len := 0, data := [] }, stale := false } }

/-- A SHORT parcel of 100 bytes in segments 0 and 1, built and held by client 1 alone. -/
def parcel (st : ParcelState) : Parcel :=
  { state := st, generation := 2, cls := .short, length := 100, headOffset := 0, growth := none, chain := [0, 1],
    charged := some 1, holders := (Vector.replicate 8 0).set 1 1, refCount := 1 }

/-- `up` with that parcel in record 5, handle 2 × 1024 + 5 = 2053. -/
def holding (p : Parcel) : State :=
  up.setStore { up.store with
    records := [(5, p)], pools := { short := { returned := [], fresh := 2 }, long := { returned := [], fresh := 0 } },
    accounts := up.store.accounts.set 1 { held := 1, charged := { short := 2, long := 0 } } }

/-- A pending entry for that parcel. -/
def entry (cls : BitVec 2) (tick : Tally) : PendingEntry :=
  { handle := 2053, key := 7, sender := 1, cls := cls, reply := none, tick := tick }

/-- A command of client 1 with one fragment, from the window's start. -/
def gatherOf (kind len : Nat) : PostRecord :=
  { record kind with count := 1, handle := 2053, frag0 := ⟨0x1000, BitVec.ofNat 16 len⟩ }

/-! ### Ill-formed commands (WellFormed) -/

theorem test_short_post_read_is_ill_formed : WellFormed (.postReadComplete (.data (List.replicate 63 0))) = false := by decide
theorem test_short_client_half_is_ill_formed :
    WellFormed (.clientHalfReadComplete (.data (List.replicate 31 0))) = false := by decide
theorem test_long_attach_half_is_ill_formed : WellFormed (.attachCxbReadComplete (.data (List.replicate 33 0))) = false := by
  decide
theorem test_empty_setup_read_is_ill_formed : WellFormed (.setupReadComplete (.data [])) = false := by decide
theorem test_long_setup_half_is_ill_formed : WellFormed (.setupCxbReadComplete (.data (List.replicate 64 0))) = false := by decide
theorem test_empty_gather_piece_is_ill_formed : WellFormed (.gatherPieceComplete (.data [])) = false := by decide
theorem test_empty_descriptor_piece_is_ill_formed : WellFormed (.attachDescriptorPieceComplete (.data [])) = false := by decide
theorem test_long_setup_piece_is_ill_formed :
    WellFormed (.setupDescriptorPieceComplete (.data (List.replicate 257 0))) = false := by decide +kernel
theorem test_bus_errors_are_well_formed : WellFormed (.postReadComplete .busError) = true := by decide
theorem test_a_short_post_read_is_refused : (match exec (.postReadComplete (.data [0])) (onBus (.postRead 1 0) up) with
    | .refused .wrongLength => true | _ => false) = true := by decide +kernel
theorem test_no_word_spells_a_command : decodeTableWord 32 0xFFFFFFFF = none := rfl

/-! ### Layouts of chapter 10, the bytes written out from its tables -/

/-- Section 10.2: each field of a post record at its offset, little-endian. -/
theorem test_post_record_layout :
    readPost ([0x12, 0x20, 0x05, 0x01] ++ [0x78, 0x56, 0x34, 0x12] ++ [0x11, 0x14, 0x03, 0x00] ++ [0xFF, 0x00, 0x00, 0x4A]
      ++ [0x00, 0x00, 0x00, 0xFF] ++ [0xA3, 0, 0, 0] ++ [0, 0, 0, 0, 0, 0, 0, 0]
      ++ [0xF0, 0x00, 0x00, 0x40, 0x00, 0x80, 0x58, 0x02] ++ List.replicate 24 0)
    = { record 0x12 with flags := 0x20, cls := 5, count := 1, tag := 0x12345678, handle := 0x1411, subject := 3,
                         key := 0x4A0000FF, auxA := 0xFF000000, auxB := 0xA3, frag0 := ⟨0x8000400000F0, 600⟩ } := by
  decide +kernel

/-- Section 10.3: the completion record. -/
theorem test_completion_layout :
    ({ (record 5).completion .ok 0 with
        tag := 0x11223344, handle := 0x1C28, length := 4000, routed := 0x40, refused := 0x10 } : Completion).bytes 1
    = [1, 1, 5, 0, 0x44, 0x33, 0x22, 0x11, 0, 0, 0x28, 0x1C, 0xA0, 0x0F, 0x40, 0x10] ++ List.replicate 16 0 := by decide +kernel
/-- Section 10.3: the fields of a teardown's completion. -/
theorem test_teardown_completion_layout :
    ({ ({ record 17 with subject := 5 } : PostRecord).completion .ok 0 with
        aborted := true, refsDropped := 1024, parcelsFreed := 3, pendingDropped := 32 } : Completion).bytes 0
    = [1, 0, 17, 0, 0, 0, 0, 0, 0, 0, 0, 0, 0, 0, 0, 0, 0, 0, 0, 0, 5, 0, 0, 2, 0, 4, 3, 0, 32, 0, 0, 0] := by decide +kernel
/-- Section 10.3: both notices. -/
theorem test_notice_layouts :
    QueuedNotice.bytes { notice := .clientFault 6 .signalWrite, tick := 0x01020304 } 0 0x0203
      = [2, 0, 1, 0, 4, 3, 2, 1, 6, 4, 0, 0, 3, 2] ++ List.replicate 18 0 ∧
    QueuedNotice.bytes { notice := .poolLow .short 14, tick := 9 } 1 0
      = [2, 1, 2, 0, 9, 0, 0, 0, 0, 0, 14, 0, 0, 0] ++ List.replicate 18 0 := by decide +kernel
/-- Section 10.4: a reply key of value 0 is present by bit 4 alone; the wait stops at 65,535. -/
theorem test_delivery_layout :
    PendingEntry.bytes { handle := 0x0808, key := 0x100, sender := 1, cls := 3, reply := some 0, tick := 4 } 1 40 52 0x20000
    = [3, 1, 1, 0x13, 0x08, 0x08, 40, 0, 0, 1, 0, 0, 0, 0, 0, 0, 52, 0, 0, 0, 0xFF, 0xFF] ++ List.replicate 10 0 := by
  decide +kernel
/-- Section 10.5: the part half of a faulted client. -/
theorem test_part_half_layout :
    partHalf 0x0102 3 4 .faulted (some .tally)
    = [2, 1, 0, 0, 3, 0, 0, 0, 4, 0, 0, 0, 2, 5] ++ List.replicate 18 0 := by decide +kernel
/-- Section 10.7: the setup block of the example of section 9.4.1. -/
theorem test_setup_block_layout :
    readSettings ([0x47, 0x48, 0x32, 0x38, 1, 0, 0xE8, 0x03, 4, 0, 200, 0, 64, 0, 8, 0, 0xC0, 0x01, 0, 0x80, 0, 0, 0, 0]
      ++ List.replicate 40 0)
    = some { agingPeriod := 1000, agingLimit := 4, linger := 200, reserves := { short := 64, long := 8 },
             descriptor := 0x800001C0 } := by decide +kernel
/-- Section 10.7 and R184: a reserve of 49 LONG segments fails. -/
theorem test_setup_block_reserve_is_judged :
    readSettings ([0x47, 0x48, 0x32, 0x38, 1, 0, 0, 0, 1, 0, 0, 0, 0, 0, 49, 0] ++ List.replicate 48 0) = none := by
  decide +kernel
/-- Section 10.6: a descriptor with one aperture. -/
theorem test_descriptor_layout :
    readDescriptor ([0, 0, 1, 0, 0, 0, 0, 0] ++ [0, 0, 2, 0, 0, 0, 0, 0] ++ [0, 0, 3, 0, 0, 0, 0, 0]
      ++ [16, 0, 16, 0, 16, 0, 1, 1] ++ [0, 0, 4, 0, 0, 0, 0, 0] ++ [0, 0, 5, 0, 0, 0, 0, 0] ++ [0xAB, 0, 0, 0, 4, 0, 64, 0, 16, 0]
      ++ List.replicate 6 0 ++ [0, 0x10, 0, 0, 0, 0, 0, 0] ++ [0, 0x10, 0, 0, 0, 0, 0, 0] ++ [0, 0, 8, 0, 0, 0, 0, 0]
      ++ [3, 0, 0, 0, 0, 0, 0, 0] ++ List.replicate 96 0xEE) = some grantOf := by decide +kernel
/-- R156: a ring of 24 slots is no ring. -/
theorem test_descriptor_ring_size_is_judged :
    readDescriptor (writeDescriptor { grantOf with retSize := 24 }) = none := by decide +kernel
/-- Section 10.8: the POOL report and the CLIENT report of an ABSENT client. -/
theorem test_report_layouts :
    poolReport 2048 192 1 { short := 512, long := 48 } { short := true, long := false }
      = [0, 0, 0, 0, 0, 8, 192, 0, 1, 0, 0, 2, 48, 1] ++ List.replicate 50 0 ∧
    clientReport 7 Client.initial.report { held := 0, charged := { short := 0, long := 0 } } 0 = [1, 7] ++ List.replicate 62 0 ∧
    keyReport 0x08 3 0x10 3 true 0x90 = [2, 0, 0, 0, 8, 0, 0, 0, 3, 0x10, 3, 1, 0x90] ++ List.replicate 51 0 ∧
    directoryReport 1 2 3 4 5 6 7 8
      = [3, 0, 0, 0, 1, 0, 2, 0, 3, 0, 4, 0, 5, 0, 0, 0, 6, 0, 0, 0, 7, 0, 0, 0, 8, 0, 0, 0] ++ List.replicate 36 0 := by
  decide +kernel

/-! ### The manual's worked values -/

/-- R5: record 17 at generation 5 has the handle 0x1411. -/
theorem test_handle : makeHandle 5 17 = 0x1411 ∧ handleIndex 0x1411 = 17 ∧ handleGeneration 0x1411 = 5 := by decide +kernel
/-- R29: buckets. -/
theorem test_buckets : bucket 0x12345678 = 8 ∧ bucket 0x01020304 = 4 ∧ bucket 0x01000009 = 8 ∧ bucket 0x08000000 = 8 := by
  decide +kernel
/-- R32: one pattern, two spellings; what it matches. -/
theorem test_pattern :
    let d := Directory.initial.addPattern 0xFF000000 0x4A000000 .joined 1
    (d.pattern 0xFF000000 0x4A777777).isSome = true ∧ d.patterns.all (fun p => p.matches 0x4A1234FF && !p.matches 0x4B000000)
      = true := by decide +kernel
/-- Section 2.4.1: a route set from three sources. -/
theorem test_route_set :
    let d := (({ Directory.initial with exact := [(place 0x4A0000FF 0, { key := 0x4A0000FF, kind := .joined 0x0A })] } :
      Directory).addPattern 0xFF000000 0x4A000000 .pinned 0x21).addPattern 0 0 .joined 0x80
    d.route 0x4A0000FF 3 false = 0xA3 ∧ d.route 0x4A0000FF 3 true = 0xAB ∧ d.route 0x4B000001 3 true = 0x80 := by decide +kernel
/-- Section 3.9: lap flags, and the signal test after records 31, 32 and 33. -/
theorem test_lap_and_signal :
    lapFlag 16 30 = 0 ∧ lapFlag 16 32 = 1 ∧ reached 31 31 = true ∧ reached 32 33 = false ∧
    ({ OutRing.initial with written := 31, lastWake := 31, signalled := 20 } : OutRing).signalDue = true ∧
    ({ OutRing.initial with written := 42, lastWake := 41, signalled := 41 } : OutRing).signalDue = false := by decide +kernel
/-- R65: a post tally of 140 at post taken 100 in a ring of 32 fails, and 132 passes. -/
theorem test_tally_check :
    tallyCheck (half 140) 100 0 0 32 16 16 = false ∧ tallyCheck (half 132) 100 0 0 32 16 16 = true ∧
    tallyCheck (half 99) 100 0 0 32 16 16 = false := by decide +kernel
/-- Section 7.3.1: two apertures, the pieces of one APPEND. -/
theorem test_pieces :
    let apertures : List Aperture :=
      [{ base := 0x40000000, length := 0x100000, system := 0x210000000, readRight := true, writeRight := true },
       { base := 0x70000000, length := 0x2000, system := 0x300000000, readRight := true, writeRight := false }]
    let frags : List (Nat × Fragment) := [(0, ⟨0x400000F0, 600⟩), (1, ⟨0, 0⟩), (2, ⟨0x70001F00, 200⟩)]
    (match checkFragments apertures .read frags with
      | .ok fr => (runPieces fr 0).map (fun p => (p.fragment, p.addr.toNat, p.len, p.run))
      | .error _ => []) = [(0, 0x2100000F0, 16, 0), (0, 0x210000100, 256, 16), (0, 0x210000200, 256, 272),
        (0, 0x210000300, 72, 528), (2, 0x300001F00, 200, 600)] ∧
    (match checkFragments apertures .write frags with | .ok _ => none | .error k => some k) = some 2 := by decide +kernel
/-- Section 1.6.1: a head cut of 70 and then a tail cut of 100 of a parcel of 200 bytes. -/
theorem test_cuts :
    let t := (holding { parcel .building with length := 200, chain := [0, 1, 2, 3] }).store
    ((t.cut 5 70 false).parcel 5).headOffset = 6 ∧ ((t.cut 5 70 false).parcel 5).chain = [1, 2, 3] ∧
    (((t.cut 5 70 false).cut 5 100 true).parcel 5).chain = [1] ∧ (((t.cut 5 70 false).cut 5 100 true).parcel 5).length = 30 ∧
    chainNeeded .short 6 30 100 = 3 := by decide +kernel
/-- R26: the SHORT reserve is 16 and 17 segments are free; a claim of 3 by client 0 raises POOL_LOW with 14. -/
theorem test_pool_low :
    let s := at_ 0 (gatherOf 5 192) .taken (up.setStore { up.store with
      reserves := { short := 16, long := 0 }, pools := { up.store.pools with short := { returned := [], fresh := 2031 } } })
    after (exec (.send 0) s) (fun t => t.unit.notices == [{ notice := .poolLow .short 14, tick := 0 }] && !t.store.arms.short)
      = true := by decide +kernel
/-- Section 2.6.1: learn, then three sweeps age the route out. -/
theorem test_learn_and_age :
    let d := ({ Directory.initial with agingLimit := 3 } : Directory).settle 9 none 4 (some 0x40000021) true true
    d.entry 0x40000021 = some { key := 0x40000021, kind := .ret 4 3 true } ∧ d.learned = 1 ∧
    (d.sweep.sweep.entry 0x40000021).isSome = true ∧ d.sweep.sweep.sweep.entry 0x40000021 = none ∧
    d.sweep.sweep.sweep.agedOut = 1 := by decide +kernel
/-- R37: a command whose reply key equals its key consumes the route that served it and learns a fresh one. -/
theorem test_consume_then_learn :
    let d := (Directory.initial.settle 9 none 4 (some 5) true true).settle 5 (some 4) 6 (some 5) true true
    d.consumed = 1 ∧ d.learned = 2 ∧ d.entry 5 = some { key := 5, kind := .ret 6 1 true } := by decide +kernel
/-- Section 6.9: the oldest entry of the highest class is claimed. -/
theorem test_claim_order : claimPlace [entry 1 1000, entry 3 1010, entry 1 1020, entry 3 1030] = some 1 := by decide +kernel

/-! ### One step each -/

/-- Section 9.4.1: GO at 0x80000040 begins the load; at 0x80000044 the device fails at once. -/
theorem test_go_checks_alignment :
    after (exec .go (State.reset.setPort { Port.initial with setupLo := 0x80000040 })) (fun s => s.port.stateWord == 1) = true ∧
    after (exec .go (State.reset.setPort { Port.initial with setupLo := 0x80000044 })) (fun s => s.port.stateWord == 0x205)
      = true := by decide +kernel
/-- Section 9.4.1: the descriptor at 0x800001C0 is read in pieces of 64 and 128 bytes. -/
theorem test_setup_descriptor_pieces :
    (cutPieces 0 0x800001C0 192 0).map (fun p => (p.addr.toNat, p.len)) = [(0x800001C0, 64), (0x80000200, 128)] := by
  decide +kernel
/-- Section 9.6.1: with W and F presenting W is granted, and at a wait count of 4 F is. -/
theorem test_grants :
    let f : Txn := { op := .clientHalf 1, addr := 0, len := 32, data := [] }
    let w : Txn := { op := .record 1 .del .delivery, addr := 0, len := 32, data := [] }
    let s := (up.setIntake { up.intake with fetch := some f }).enqueue w
    after (exec .grant s) (fun t => t.arb.bus == some { txn := w, stale := false } && t.arb.waitCount == 1) = true ∧
    after (exec .grant (s.setArb { s.arb with waitCount := 4 }))
      (fun t => t.arb.bus == some { txn := f, stale := false } && t.arb.waitCount == 0) = true := by decide +kernel
/-- R178: RESTART whatever GO and HALT hold; GO and HALT together are ignored. -/
theorem test_control :
    let w (v : BitVec 32) := exec (.registerWrite { offset := 4, width := .word, kind := .write v }) up
    after (w 7) (fun s => s.port.device == .off) = true ∧ after (w 3) (fun s => s.port.device == .running) = true ∧
    after (w 0xFFFFFFFA) (fun s => s.port.device == .halted) = true := by decide +kernel
/-- R175: a byte access is a bus error; IDENT reads 0x28570003. -/
theorem test_window :
    after (exec (.registerWrite { offset := 4, width := .byte, kind := .write 4 }) up) (fun s => s.port.answer == .busError
      && s.port.device == .running) = true ∧
    after (exec (.registerWrite { offset := 0, width := .word, kind := .read }) up)
      (fun s => s.port.answer == .value 0x28570003) = true := by decide +kernel
/-- R190: the period that completes 25,000 is the tick; the one before it is not. -/
theorem test_tick_divides :
    after (step (up.setPort { up.port with tickDivider := 24999 })) (fun s => s.port.tickCount == 1 && s.port.tickDivider == 0)
      = true ∧
    after (step (up.setPort { up.port with tickDivider := 24998 })) (fun s => s.port.tickCount == 0 && s.port.tickDivider == 24999)
      = true := by decide +kernel
/-- R81: a supervisor kind of client 1 ends with NOT_PERMITTED, a flag bit 7 with BAD_COMMAND before it. -/
theorem test_common_validation :
    (record 16).validate 1 = some .notPermitted ∧ (record 16).validate 0 = none ∧
    ({ record 16 with flags := 0x80 } : PostRecord).validate 1 = some .badCommand ∧
    (record 0).validate 0 = some .badCommand ∧ ({ record 1 with cls := 2 } : PostRecord).validate 1 = some .badCommand ∧
    ({ record 4 with cls := 3 } : PostRecord).validate 1 = none := by decide +kernel
/-- R78 and R70: a taken OPEN, the claim of its completion and its record write. -/
theorem test_open_to_completion :
    after (exec (.postReadComplete (.data (writePost (record 1)))) (onBus (.postRead 1 0) (up.setSlot 0 {
      Slot.initial with state := .bound, client := some 1 }))) (fun s => (s.slot 0).state == .performing
        && (s.client 1).post.taken == 1) = true ∧
    after (exec (.openParcel 0) (at_ 1 (record 1) .taken up)) (fun s => (s.slot 0).state == .held
      && after (exec (.returnClaim 1) s) (fun t => (t.slot 0).state == .writing && (t.client 1).ret.claimed == 1)) = true := by
  decide +kernel
/-- R133: two references with one behind an entry, of which one can be released. -/
theorem test_release_of_free_references :
    let s := (holding { parcel .closed with holders := (Vector.replicate 8 0).set 1 2, refCount := 2 }).setList 1 [entry 0 0]
    let release (n : BitVec 32) := exec (.release 0) (at_ 1 { record 8 with handle := 2053, auxA := n } .taken s)
    after (release 2) (fun t => (t.slot 0).completion.map (fun x => x.status) == some .notHeld) = true ∧
    after (release 1) (fun t => (t.store.parcel 5).refCount == 1) = true ∧
    after (release 16) (fun t => (t.slot 0).completion.map (fun x => x.status) == some .badRange) = true := by decide +kernel
/-- R126: an entry expires at the age of the limit, and its parcel goes with its last reference. -/
theorem test_expiry :
    let s := ((holding (parcel .closed)).setList 1 [entry 1 1000, entry 1 1001]).setPort { up.port with tickCount := 1050 }
    after (exec (.lingerExpiry 1) (s.setUnit { s.unit with lingerLimit := 50, expiryDue := 2 }))
      (fun t => (t.list 1).length == 1 && (t.client 1).expired == 1 && (t.client 1).sequence == 1
        && (t.store.parcel 5).state == .free && (t.store.parcel 5).generation == 3) = true := by decide +kernel
/-- R46: a PIN that names an ABSENT client. -/
theorem test_pin_of_an_absent_client :
    after (exec (.pin 0) (at_ 0 { record 18 with auxB := 0x08 } .taken up))
      (fun t => (t.slot 0).completion.map (fun x => x.status) == some .badState) = true ∧
    after (exec (.pin 0) (at_ 0 { record 18 with auxB := 0x100 } .taken up))
      (fun t => (t.slot 0).completion.map (fun x => x.status) == some .badRange) = true := by decide +kernel
/-- R85: client 0's completion waits behind the notices that were ready before it. -/
theorem test_notices_before_the_completion :
    let s := (at_ 0 (record 1) .taken up).queueNotice (.clientFault 6 .tally)
    after (exec (.openParcel 0) s) (fun t => after (exec (.returnClaim 0) t)
      (fun u => u.unit.notices.isEmpty && (u.slot 0).state == .held)) = true := by decide +kernel

/-- R68: the write-back is asked for before another record is taken, and carries the post taken tally of its grant. -/
theorem test_write_back_bytes_are_of_the_grant :
    let t : Txn := { op := .writeBack 1 .ret, addr := 0x40020, len := 32, data := [] }
    let s := (up.enqueue t).setClient 1 { context with post := { context.post with taken := 3 } }
    after (exec .grant s) (fun u => u.arb.bus == some { stale := false, txn := { t with
      data := [3, 0, 0, 0] ++ List.replicate 8 0 ++ [1] ++ List.replicate 19 0 } }) = true := by decide +kernel
/-- R136 and R151: a transaction in flight at the reset pin completes on the bus after it, and its result is discarded. -/
theorem test_abandoned_transaction_completes :
    after (exec .resetPinAssert (onBus (.postRead 1 0) up)) (fun s => s.arb.bus.all (fun b => b.stale) && s.arb.bus.isSome
      && after (exec .resetPinRelease s) (fun t => t.arb.bus.isSome
        && after (exec (.postReadComplete .busError) t) (fun u => u == State.reset.setStore u.store))) = true := by decide +kernel
/-- A command whose step is not due changes nothing. -/
theorem test_a_step_not_due_changes_nothing :
    ∀ x ∈ [Instr.settlement 2, .signalWriteComplete .done], after (exec x up) (fun s => s == up) = true := by decide +kernel
/-- R68: after POST_READ the final write-back joins the queue at once; with a record write in flight it waits for its end. -/
theorem test_final_write_back :
    let busy := up.setClient 1 { context with del := { context.del with inFlight := true } }
    (up.clientFault 1 .postRead).unit.writer = [{ op := .finalWriteBack 1, addr := 0x40020, len := 32, data := [] }] ∧
    (busy.clientFault 1 .tally).unit.writer = [] ∧ ((busy.clientFault 1 .tally).client 1).finalDue = true ∧
    after (exec (.recordWriteComplete .done) (onBus (.record 1 .del .delivery) (busy.clientFault 1 .tally)))
      (fun t => t.unit.writer == [{ op := .finalWriteBack 1, addr := 0x40020, len := 32, data := [] }]
        && (t.client 1).placed == 1) = true := by decide +kernel

/-! ### Witnesses: for each statement with hypotheses, states and operands that meet them, one for each clause -/

/-- A slot's client, DRAINING for a teardown by client 0. -/
def teardown (stage : TeardownStage) (s : State) : State :=
  at_ 0 { record 17 with subject := 1 } (.teardown { Teardown.start 1 with stage := stage })
    (s.setClient 1 { s.client 1 with state := .draining })

/-- What a routing command carries of a route to clients 1 and 2. -/
def routing (toOffer : List ClientId) (routed refused : ClientSet) : Routing :=
  { handle := 2053, length := 100, routeSet := 0x06, toOffer := toOffer, routed := routed, refused := refused, candidate := none,
    settled := false, handedOver := false }

/-- One piece of a run, 28 bytes from its start. -/
def piece (fragment : Nat) : Piece := { fragment := fragment, addr := 0x80000, len := 28, run := 0 }

/-- A movement of two pieces on parcel 2053. -/
def movement (pieces : List Piece) : Movement := { handle := 2053, base := 100, pieces := pieces, length := 100, total := 28 }

/-- A growth claim on record 5 by client 1. -/
def growth (segments : Nat) (isSend : Bool) : GrowthClaim := { index := 5, client := 1, segments := segments, isSend := isSend }

/-- A part whose 1024 records are all live. -/
def crowded : State :=
  up.setStore { up.store with records := (List.range' 0 1024).map (fun k => (k, { parcel .closed with chain := [] })) }

/-- The state with the undo information of slot 0 set. -/
def claiming (g : GrowthClaim) (s : State) : State := s.setSlot 0 { s.slot 0 with undo := some g }

/-- Client 1 is DRAINING and slot 0 performs its command at a stage, with an abort requested or not and a growth claim or not. -/
def aborting (asked : Bool) (undo : Option GrowthClaim) (r : PostRecord) (p : Progress) : State :=
  ((holding (parcel .building)).setClient 1 { context with state := .draining }).setSlot 0 { Slot.initial with
    state := .performing, client := some 1, command := some r, progress := p, undo := undo, abortRequested := asked }

/-- A state in which 25,000 periods are all but complete. -/
theorem witness_TickReachesThreeBlocks :
    (up.port.tickRuns = true ∧ up.port.resetAsserted = false) ∧ up.pending = [] ∧ State.reset.port.tickRuns = false ∧
    (up.setPort { up.port with resetAsserted := true }).port.resetAsserted = true := by decide +kernel

theorem witness_RestartReturnsEveryBlock :
    (onBus .setupRead up).port.resetAsserted = false ∧ (∃ b, (onBus .setupRead up).arb.bus = some b) ∧ up.arb.bus = none :=
  ⟨by decide, ⟨_, rfl⟩, by decide⟩

theorem witness_ResetPinReturnsEveryBlock : (up.setPort { up.port with resetAsserted := true }).port.resetAsserted = true := by
  decide

theorem witness_OldResultsAreDiscarded :
    (∃ b, (onBus (.gather 3) (up.failDevice .noticeWrite none)).arb.bus = some b ∧
      completes (.gatherPieceComplete .busError) b.txn.op = true) ∧
    (up.failDevice .noticeWrite none).port.device = .failed ∧
    (∃ b, (up.setArb { up.arb with bus := some {
        txn := { op := .finalWriteBack 1, addr := 0, len := 32, data := [] }, stale := true } }).arb.bus = some b ∧
      b.stale = true ∧ completes (.writeBackComplete .done) b.txn.op = true) :=
  ⟨⟨_, rfl, by decide⟩, by decide, ⟨_, rfl, by decide, by decide⟩⟩

/-- A FAILED part whose bus carries nothing, and one whose bus carries what the command does not complete. -/
theorem witness_OldResultsAreDiscarded_failed :
    let s := up.failDevice .noticeWrite none
    s.port.sound = true ∧ s.port.device = .failed ∧ s.arb.bus = none ∧
    (onBus (.gather 3) s).arb.bus.isSome = true ∧ completes .grant (.gather 3) = false ∧
    completes (.scatterPieceComplete .done) (.gather 3) = false := by decide +kernel

theorem witness_GoAndHaltFollowTheTable :
    (State.reset.port.resetAsserted = false ∧ State.reset.port.device = .off ∧
      (State.reset.port.setupHi ++ State.reset.port.setupLo).toNat % 64 = 0) ∧
    (up.port.device = .running ∧ ∀ i, (up.slot i).state = .free) ∧
    (∃ i, ((at_ 1 (record 1) .taken up).slot i).state ≠ .free) := by decide +kernel

theorem witness_ControlWritesActByTheirBits : up.port.resetAsserted = false := rfl

theorem witness_SetupAddressIsReplacedByHalves :
    up.port.resetAsserted = false ∧ (up.setPort { up.port with resetAsserted := true }).port.resetAsserted = true := by decide

theorem witness_AttendAddsAttachedClients :
    up.port.resetAsserted = false ∧ up.port.device = .running ∧ State.reset.port.device = .off ∧
    (up.client 1).state = .attached ∧ (up.client 3).state = .absent := by decide +kernel

theorem witness_WindowAnswersAlignedWords :
    up.port.resetAsserted = false ∧ (({ offset := 0x1F, width := .byte, kind := .read } : PortAccess).width ≠ .word) ∧
    (({ offset := 0x1D, width := .word, kind := .read } : PortAccess).offset.toNat % 4 ≠ 0) := by decide

/-- A valid setup block, and two in which one test fails; a load at each of its reads. -/
theorem witness_SetupReadsLeadToTheSettings :
    let load : State := State.reset.setPort { Port.initial with device := .loading }
    let settings : Settings :=
      { agingPeriod := 65535, agingLimit := 255, linger := 65535, reserves := { short := 512, long := 48 }, descriptor := 0xC0 }
    let reading := (onBus .setupDescriptor load).setLoad (.descriptor settings [piece 0] [])
    (onBus .setupRead load).carriesLive { op := .setupRead, addr := 0, len := 0, data := [] } = true ∧
    (writeSettings settings).length = 64 ∧ readSettings (writeSettings settings) = some settings ∧
    readSettings (List.replicate 64 0) = none ∧
    reading.carriesLive { op := .setupDescriptor, addr := 0, len := 0, data := [] } = true ∧
    reading.load = .descriptor settings [piece 0] [] ∧ (List.replicate 28 (0 : Byte)).length = (piece 0).len ∧
    readDescriptor (((writeDescriptor grantOf).take 164) ++ (writeDescriptor grantOf).drop 164) = some grantOf := by
  decide +kernel

theorem witness_SetupAttachMakesTheDeviceRun :
    let load : State := State.reset.setPort { Port.initial with device := .loading }
    let reading := (onBus .setupHalf load).setLoad (.half grantOf)
    let writing := (onBus .setupWriteBack load).setLoad (.writeBack grantOf (half 16))
    (reading.carriesLive { op := .setupHalf, addr := 0, len := 0, data := [] } = true ∧ reading.load = .half grantOf ∧
      (writeHalf (half 16) ++ List.replicate 12 0).length = 32 ∧
      (readHalf (writeHalf (half 16))).postTally.toNat ≤ grantOf.postSize ∧
      ¬ (readHalf (writeHalf (half 17))).postTally.toNat ≤ grantOf.postSize) ∧
    writing.carriesLive { op := .setupWriteBack, addr := 0, len := 0, data := [] } = true ∧
    writing.load = .writeBack grantOf (half 16) := by decide +kernel

theorem witness_PostReadTakesTheCommand :
    let s := (onBus (.postRead 1 0) up).setSlot 0 { Slot.initial with state := .bound, client := some 1 }
    s.carriesLive { op := .postRead 1 0, addr := 0, len := 0, data := [] } = true ∧ (s.client 1).state = .attached ∧
    (writePost (record 1)).length = 64 ∧ (record 1).validate 1 = none ∧ (record 20).validate 1 = some .notPermitted ∧
    ((fault s 1).client 1).state ≠ .attached ∧
    (fault s 1).carriesLive { op := .postRead 1 0, addr := 0, len := 0, data := [] } = true ∧
    (onBus (.postRead 0 0) up).carriesLive { op := .postRead 0 0, addr := 0, len := 0, data := [] } = true ∧
    (up.client 0).state = .attached := by decide +kernel

/-- R81 and R91: each way of being malformed comes before the permission, and kinds 16 to 20 are client 0's alone. -/
theorem test_malformed_before_permission :
    (∀ r ∈ [record 0, record 11, record 15, record 21, { record 20 with flags := 0x80 }, { record 20 with reserved := 1 },
        { record 20 with reserved2 := 1 }, { record 20 with count := 5 }, { record 20 with cls := 0x10 },
        { record 1 with cls := 2 }, { record 5 with cls := 3 }], r.validate 1 = some .badCommand) ∧
    (∀ r ∈ [record 10, { record 5 with cls := 2 }, { record 2 with cls := 3 }, { record 1 with count := 4, flags := 0x7F, cls := 13 }],
      r.validate 1 = none) ∧
    (record 16).validate 7 = some .notPermitted ∧ (record 16).validate 0 = none := by decide +kernel

theorem witness_ClientHalfReadIsJudged :
    let s := onBus (.clientHalf 1) up
    s.carriesLive { op := .clientHalf 1, addr := 0, len := 0, data := [] } = true ∧ (s.client 1).state = .attached ∧
    (writeHalf (half 16) ++ List.replicate 12 0).length = 32 ∧
    ((readHalf (writeHalf (half 16))).postTally - (s.client 1).post.taken).toNat ≤ (s.client 1).post.size ∧
    ¬ ((readHalf (writeHalf (half 17))).postTally - (s.client 1).post.taken).toNat ≤ (s.client 1).post.size ∧
    ((fault s 1).client 1).state ≠ .attached := by decide +kernel

/-- The pointer names client 0: client 2's client half is chosen with k = 2, or its post read when one record waits. -/
theorem witness_IntakeServesInRotation :
    let attending := up.setIntake { up.intake with attendSet := 0x04 }
    let posting := up.setClient 2 { up.client 2 with post := { (up.client 2).post with lastPost := 1 } }
    (up.active = true ∧ up.intake.fetch = none ∧ ∀ c, up.halfEligible c = false ∧ up.postEligible c = false) ∧
    (attending.halfEligible (attending.intake.pointer + 2) = true ∧ ∀ j : Fin 8, j < 2 →
      attending.halfEligible (attending.intake.pointer + j) = false ∧
        attending.postEligible (attending.intake.pointer + j) = false) ∧
    (posting.halfEligible (posting.intake.pointer + 2) = false ∧ posting.postEligible (posting.intake.pointer + 2) = true ∧
      (posting.slot 0).state = .free) := by decide +kernel

/-- A position of the second lap; a fetcher that waits, and a device that reads nothing. -/
theorem witness_IntakeServesInRotation_rest :
    (0x10000 : Addr).toNat + (0x11 : Tally).toNat % 16 * 64 < 2 ^ 64 ∧ ringAddr 0x10000 16 64 0x11 = 0x10040 ∧
    (up.setIntake { up.intake with fetch := some { op := .clientHalf 1, addr := 0, len := 32, data := [] } }).intake.fetch ≠ none ∧
    State.reset.port.device = .off := by decide +kernel

/-- A client without a write in flight; with one whose record is on its way; with one whose write-back waits. -/
theorem witness_ClientFaultsByState :
    let busy := up.setClient 1 { context with ret := { context.ret with inFlight := true } }
    let queued := busy.enqueue { op := .writeBack 1 .ret, addr := 0x40020, len := 32, data := [] }
    ((up.client 1).state = .attached ∧ (1 : ClientId) ≠ 0 ∧ up.unit.notices.length < 8) ∧
    8 ≤ (up.setUnit { up.unit with notices := List.replicate 8 { notice := .poolLow .long 0, tick := 0 } }).unit.notices.length ∧
    ((up.client 1).ret.inFlight = false ∧ (up.client 1).del.inFlight = false) ∧
    ((busy.client 1).state = .attached ∧ ((busy.client 1).ring .ret).inFlight = true ∧ busy.unit.writer = []) ∧
    ((queued.client 1).state = .attached ∧ ((queued.client 1).ring .del).inFlight = false ∧
      ∃ x ∈ queued.unit.writer, x.op = .writeBack 1 .ret ∨ x.op = .signal 1 .ret) ∧
    (FaultReason.recordWrite ≠ .postRead ∧ FaultReason.recordWrite ≠ .cxbRead ∧ FaultReason.recordWrite ≠ .tally) ∧
    (up.client 0).state = .attached ∧ (up.client 3).state ≠ .attached := by decide +kernel

/-- Record 0 is live and record 1 is FREE; client 1 is one below its reference limit. -/
theorem witness_OpenTakesTheLowestFreeRecord :
    let s := at_ 1 (record 1) .taken (up.setStore { up.store with
      records := [(0, parcel .closed)], accounts := up.store.accounts.set 1 { held := 3, charged := { short := 0, long := 0 } } })
    s.serves 0 1 1 (record 1) = true ∧ (s.store.parcel 1).state = .free ∧ (∀ j, j < 1 → (s.store.parcel j).state ≠ .free) ∧
    (s.store.account 1).held < (s.client 1).refLimit := by decide +kernel

/-- 100 bytes and 29 more need a third segment, which brings client 1 to its limit; 28 more need none, and so do none. -/
theorem witness_AppendClaimsItsSegments :
    let s (r : PostRecord) := at_ 1 r .taken ((holding (parcel .building)).setClient 1 {
      context with segLimit := { short := 3, long := 0 } })
    (∃ fr, (s (gatherOf 2 29)).serves 0 2 1 (gatherOf 2 29) = true ∧
      checkFragments context.apertures .read (gatherOf 2 29).fragments = .ok fr ∧
      (holding (parcel .building)).store.resolve 2053 1 = none ∧ 100 + (gatherOf 2 29).totalLength = 129 ∧
      (129 + 63) / 64 - (parcel .building).chain.length = 1 ∧
      ((s (gatherOf 2 29)).store.account 1).charged.get .short + 1 ≤ ((s (gatherOf 2 29)).client 1).segLimit.get .short ∧
      1 + 0 ≤ (s (gatherOf 2 29)).store.freeCount .short) ∧
    (∃ fr, (s (gatherOf 2 0)).serves 0 2 1 (gatherOf 2 0) = true ∧ (gatherOf 2 0).totalLength = 0 ∧
      checkFragments context.apertures .read (gatherOf 2 0).fragments = .ok fr ∧
      (100 + 63) / 64 - (parcel .building).chain.length = 0) :=
  ⟨⟨_, by decide +kernel, rfl, by decide +kernel, by decide +kernel, by decide, by decide +kernel, by decide +kernel⟩,
    ⟨_, by decide +kernel, by decide +kernel, rfl, by decide⟩⟩

/-- AUTO with 512 bytes: eight SHORT segments, with 64 charged segments allowed and none charged. -/
theorem witness_SendClaimsAParcel :
    let r : PostRecord := { gatherOf 5 512 with cls := 2 }
    (∃ fr, (at_ 1 r .taken up).serves 0 5 1 r = true ∧ checkFragments context.apertures .read r.fragments = .ok fr ∧
      (up.store.parcel 0).state = .free ∧ (up.store.account 1).held < (up.client 1).refLimit ∧ r.parcelClass = 2 ∧
      r.totalLength ≤ 512 ∧ (r.totalLength + 63) / 64 = 8 ∧ (up.store.account 1).charged.get .short + 8 ≤
        (up.client 1).segLimit.get .short ∧ 8 + up.store.reserves.get .short ≤ up.store.freeCount .short) ∧
    (∃ fr, (at_ 1 (record 5) .taken up).serves 0 5 1 (record 5) = true ∧
      checkFragments context.apertures .read (record 5).fragments = .ok fr ∧ (record 5).totalLength = 0) :=
  ⟨⟨_, by decide +kernel, rfl, by decide +kernel⟩, ⟨_, by decide +kernel, rfl, by decide +kernel⟩⟩

/-- A table with one value at every key of a range. -/
theorem sparseGet_range {α : Type} (v : α) : ∀ n a k, a ≤ k → k < a + n →
    sparseGet ((List.range' a n).map (fun j => (j, v))) k = some v := by
  intro n
  induction n with
  | zero => intro a k h g; omega
  | succ n ih =>
    intro a k h g
    by_cases e : a = k
    · subst e; simp [List.range', sparseGet]
    · simpa [List.range', sparseGet, e] using ih (a + 1) k (by omega) (by omega)

theorem crowded_is_full : ∀ k, k < 1024 → (crowded.store.parcel k).state ≠ .free := by
  intro k h
  have : crowded.store.parcel k = { parcel .closed with chain := [] } := by
    have := sparseGet_range ({ parcel .closed with chain := [] } : Parcel) 1024 0 k (by omega) (by omega)
    simp only [crowded, State.setStore, Store.parcel, this, Option.getD_some]
  rw [this]; decide

/-- No record; the reference limit reached; 65 segments; the segment limit reached; the free count at the reserve; an empty
pool for client 0. -/
theorem witness_ClaimRefusalsFollowTheOrder :
    (at_ 1 (record 1) .taken crowded).serves 0 1 1 (record 1) = true ∧
    (at_ 1 (record 5) .taken crowded).serves 0 5 1 (record 5) = true ∧
    (up.store.parcel 0).state = .free ∧
    (up.client 1).refLimit ≤ ((up.store.setHeld 1 4).account 1).held ∧
    SegClass.short.maxChain < (4097 + 63) / 64 ∧
    (∃ fr, checkFragments context.apertures .read (gatherOf 5 64).fragments = .ok fr ∧
      (at_ 1 (gatherOf 5 64) .taken up).serves 0 5 1 (gatherOf 5 64) = true ∧ (gatherOf 5 64).sendClass = .short ∧
      ((up.setStore (up.store.charge 1 .short 64)).client 1).segLimit.get .short <
        ((up.store.charge 1 .short 64).account 1).charged.get .short + 1) ∧
    (let t : Store := { up.store with
        reserves := { short := 16, long := 0 }, pools := { up.store.pools with short := { returned := [], fresh := 2032 } } };
      (t.account 1).charged.get .short + 1 ≤ context.segLimit.get .short ∧ t.freeCount .short < 1 + t.reserves.get .short ∧
        ¬ t.freeCount .short < 0 + t.reserves.get .short) ∧
    (let t : Store := { up.store with pools := { up.store.pools with short := { returned := [], fresh := 2048 } } };
      t.freeCount .short < 1) ∧
    (at_ 1 (gatherOf 2 64) .taken (holding (parcel .building))).serves 0 2 1 (gatherOf 2 64) = true :=
  ⟨by decide +kernel, by decide +kernel, by decide +kernel, by decide +kernel, by decide,
    ⟨_, rfl, by decide +kernel, by decide +kernel, by decide +kernel⟩, by decide +kernel, by decide +kernel, by decide +kernel⟩

/-- An APPEND of one byte to a parcel that is CLOSED. -/
theorem witness_ClaimRefusalsFollowTheOrder_closed :
    let s := at_ 1 (gatherOf 2 1) .taken (holding (parcel .closed))
    s.serves 0 2 1 (gatherOf 2 1) = true ∧ (checkFragments (s.client 1).apertures .read (gatherOf 2 1).fragments).isOk = true ∧
    s.store.resolve (gatherOf 2 1).handle 1 = none ∧
    (s.store.parcel (handleIndex (gatherOf 2 1).handle)).state = .closed := by decide +kernel

theorem witness_CutMovesTheEnds :
    let r (n : BitVec 32) : PostRecord := { record 3 with handle := 2053, auxA := n }
    let s (n : BitVec 32) (p : Parcel) := at_ 1 (r n) .taken (holding p)
    ((s 100 (parcel .closed)).serves 0 3 1 (r 100) = true ∧ (s 100 (parcel .closed)).store.resolve 2053 1 = none ∧
      (parcel .closed).holder 1 = 1 ∧ (parcel .closed).refCount = 1 ∧ (r 100).auxA.toNat ≤ (parcel .closed).length) ∧
    ((s 1 { parcel .closed with refCount := 2 }).serves 0 3 1 (r 1) = true ∧
      (s 1 { parcel .closed with refCount := 2 }).store.resolve 2053 1 = none) ∧
    (s 101 (parcel .closed)).serves 0 3 1 (r 101) = true ∧ (parcel .closed).length < (r 101).auxA.toNat := by decide +kernel

theorem witness_DispatchClosesAndForwardChecks :
    let r (k : Nat) : PostRecord := { record k with handle := 2053 }
    let s (k : Nat) (st : ParcelState) := at_ 1 (r k) .taken (holding (parcel st))
    (s 4 .building).store.resolve 2053 1 = none ∧ (s 4 .building).serves 0 4 1 (r 4) = true ∧
    (s 4 .closed).serves 0 4 1 (r 4) = true ∧ (s 6 .building).serves 0 6 1 (r 6) = true ∧
    ((s 6 .closed).serves 0 6 1 (r 6) = true ∧
      ((s 6 .closed).list 1).countP (fun e => e.handle == (r 6).handle) < (parcel .closed).holder 1) ∧
    (((s 6 .closed).setList 1 [entry 0 0]).serves 0 6 1 (r 6) = true ∧
      (parcel .closed).holder 1 ≤ (((s 6 .closed).setList 1 [entry 0 0]).list 1).countP (fun e => e.handle == (r 6).handle)) := by
  decide +kernel

/-- Record 5 is FREE; of another generation; live and not held by client 2: for each command that resolves a handle. -/
theorem witness_UnresolvedHandlesEndTheCommand :
    let r (k : Nat) : PostRecord := { record k with handle := 2053, auxA := 15 }
    (∀ k ∈ [2, 3, 4, 6, 7, 8], (at_ 1 (r k) .taken up).serves 0 k 1 (r k) = true) ∧
    (up.store.parcel (2053 % 1024)).state = .free ∧
    ((holding { parcel .closed with generation := 3 }).store.parcel 5).generation.toNat ≠ 2053 / 1024 ∧
    (((holding (parcel .closed)).store.parcel 5).state ≠ .free ∧
      ((holding (parcel .closed)).store.parcel 5).generation.toNat = 2053 / 1024 ∧
      ((holding (parcel .closed)).store.parcel 5).holder 2 = 0) := by decide +kernel

/-- The last byte of a growth of 28 on 100 bytes is the last of the second segment; a piece that is not the last, the last of an
APPEND, and the last of a SEND. -/
theorem witness_GatherWritesItsBytes :
    let s (ps : List Piece) (b : Bool) :=
      onBus (.gather 0) (claiming (growth 0 b) (at_ 1 (gatherOf 2 28) (.moving (movement ps)) (holding (parcel .building))))
    (∀ ps ∈ [[piece 0], [piece 0, piece 1]], ∀ b : Bool,
      (s ps b).carriesLive { op := .gather 0, addr := 0, len := 0, data := [] } = true ∧
      (s ps b).works 0 1 (gatherOf 2 28) = true ∧ ((s ps b).slot 0).progress = .moving (movement ps) ∧
      ((s ps b).slot 0).undo = some (growth 0 b)) ∧
    (List.replicate 28 (0 : Byte)).length = (piece 0).len ∧ (parcel .building).chain.Nodup ∧
    (parcel .building).headOffset + 100 + (piece 0).run + (piece 0).len
      ≤ (parcel .building).chain.length * (parcel .building).cls.size := by decide +kernel

theorem witness_FailedGatherIsUndone :
    let s (b : Bool) := onBus (.gather 0)
      (claiming (growth 2 b) (at_ 1 (gatherOf 2 28) (.moving (movement [piece 0])) (holding (parcel .building))))
    (∀ b : Bool, (s b).carriesLive { op := .gather 0, addr := 0, len := 0, data := [] } = true ∧
      (s b).works 0 1 (gatherOf 2 28) = true ∧ ((s b).slot 0).undo = some (growth 2 b)) ∧
    ((s true).store.parcel 5).chain.length = 2 ∧ ((s true).store.parcel 5).holder 1 = 1 ∧
    ((s true).store.parcel 5).refCount = 1 := by decide +kernel

theorem witness_ScatterEndsTheFetch :
    let s (r : PostRecord) (ps : List Piece) :=
      onBus (.scatter 0) (at_ 1 r (.moving { movement ps with base := 0 }) (holding (parcel .closed)))
    let drop : PostRecord := { gatherOf 7 28 with flags := 2 }
    (∀ r ∈ [gatherOf 7 28, drop], ∀ ps ∈ [[piece 0], [piece 0, piece 1]],
      (s r ps).carriesLive { op := .scatter 0, addr := 0, len := 0, data := [] } = true ∧ (s r ps).works 0 1 r = true) ∧
    drop.flags.getLsbD 1 = true ∧ (gatherOf 7 28).flags.getLsbD 1 = false := by decide +kernel

/-- The window ends at 0x2000: a fragment of 0x1001 bytes from 0x1000 reaches one byte past it. -/
theorem witness_ApertureRefusalsComeFirst :
    let refused (k : Nat) : PostRecord := { gatherOf k 0x1001 with frag0 := ⟨0x1000, 0x1001⟩ }
    (∀ k ∈ [2, 5, 7], (at_ 1 (refused k) .taken up).takenCommand 0 k = some (1, refused k)) ∧
    (refused 2).fragments = [] ++ (0, (refused 2).frag0) :: [] ∧ (refused 2).frag0.len ≠ 0 ∧
    translate context.apertures .read 0x1000 0x1001 = none ∧ (translate context.apertures .read 0x1000 0x1000).isSome = true ∧
    (let r : PostRecord := { record 16 with subject := 7 };
      (at_ 0 r .taken up).takenCommand 0 16 = some (0, r) ∧ r.count = 0 ∧ r.subject.toNat = (7 : ClientId).val ∧
        (up.client 7).state = .absent) ∧
    (let r : PostRecord := { record 20 with auxA := 3, count := 1, frag0 := ⟨0xFC1, 0⟩ };
      (at_ 0 r .taken up).takenCommand 0 20 = some (0, r) ∧ translate context.apertures .write r.frag0.addr.toNat 64 = none) := by
  decide +kernel

theorem witness_ServingApertureIsTheLowest :
    window.base.toNat ≤ 0x1000 ∧ 0x1000 + 0x1000 ≤ window.base.toNat + window.length.toNat ∧ 0x1000 + 0x1000 ≤ 2 ^ 48 ∧
    window.writeRight = true ∧ ¬ (0x1000 + 0x1001 ≤ window.base.toNat + window.length.toNat) := by decide +kernel

theorem witness_PiecesCoverTheRange : (0xFFFFFFFFFFFFFF00 : Addr).toNat + 256 ≤ 2 ^ 64 := by decide

/-- R142 and R145: fragments beyond the count and of length 0 bring no piece, and the run goes on over the others. -/
theorem test_pieces_of_a_command :
    let r : PostRecord := { record 2 with
      count := 3, frag0 := ⟨0x10F0, 32⟩, frag1 := ⟨0x9000, 0⟩, frag2 := ⟨0x1000, 8⟩, frag3 := ⟨0x1000, 8⟩ }
    r.totalLength = 40 ∧ (match checkFragments context.apertures .read r.fragments with
      | .ok fr => runPieces fr 0 == [{ fragment := 0, addr := 0x800F0, len := 16, run := 0 },
          { fragment := 0, addr := 0x80100, len := 16, run := 16 }, { fragment := 2, addr := 0x80000, len := 8, run := 32 }]
      | .error _ => false) = true := by decide +kernel

theorem witness_LookupReturnsTheRouteSet :
    let s := at_ 1 (record 5) (.toLookup 2053 100) (holding (parcel .closed))
    s.works 0 1 (record 5) = true ∧ (s.slot 0).progress = .toLookup 2053 100 := by decide +kernel

/-- Client 2 at 14 references of 15, 3 of 4 and 31 entries of 32, and past each bound. -/
theorem witness_AdmissionAcceptsOrRefuses :
    let p : Parcel := { parcel .closed with holders := ((Vector.replicate 8 0).set 1 1).set 2 14, refCount := 15 }
    let q := routing [2] 0 0
    let s := at_ 1 (record 5) (.offering q) ((holding p).setStore ((holding p).store.setHeld 2 3))
    let room := s.setList 2 (List.replicate 31 (entry 0 0))
    (room.performing 0 = some (1, record 5) ∧ (room.slot 0).progress = .offering q ∧ q.toOffer = 2 :: [] ∧
      (room.client 2).state = .attached ∧ (room.store.parcel (handleIndex q.handle)).holder 2 < 15 ∧
      (room.store.account 2).held < (room.client 2).refLimit ∧ (room.list 2).length < 32) ∧
    ((fault room 2).client 2).state ≠ .attached ∧
    15 ≤ ({ p with holders := p.holders.set 2 15 } : Parcel).holder 2 ∧
    (room.client 2).refLimit ≤ ((room.store.setHeld 2 4).account 2).held ∧
    32 ≤ ((s.setList 2 (List.replicate 32 (entry 0 0))).list 2).length := by decide +kernel

/-- A settlement that consumes nothing and one that consumes the one-shot route of client 2. -/
theorem witness_SettlementConsumesThenLearns :
    let dir : Directory := { Directory.initial with exact := [(place 0 0, { key := 0, kind := .ret 2 1 true })] }
    let q : Routing := { routing [] 0x04 0 with candidate := some 2 }
    let s := at_ 1 (record 5) (.settling q) (up.setDir dir)
    s.dir.exactSound = true ∧ s.performing 0 = some (1, record 5) ∧ (s.slot 0).progress = .settling q ∧ q.settled = false ∧
    (true = true ↔ ∃ d life, q.candidate = some d ∧ has q.routed d = true ∧
      s.dir.entry (record 5).key = some { key := (record 5).key, kind := .ret d life true }) ∧
    ({ q with handedOver := true }.settled = false ∧ (s.client 1).state ≠ .draining ∧
      s.setProgress 0 (.settling { q with handedOver := true }) =
        at_ 1 (record 5) (.settling { q with handedOver := true }) (up.setDir dir)) ∧
    (let t := at_ 1 (record 6) (.settling (routing [] 0 0x06)) up;
      t.dir.exactSound = true ∧ t.performing 0 = some (1, record 6) ∧ (record 6).kind = 6 ∧ (routing [] 0 0x06).routed = 0) ∧
    (false = true ↔ ∃ d life, (routing [] 0 0).candidate = some d ∧ has (routing [] 0 0).routed d = true ∧
      s.dir.entry (record 5).key = some { key := (record 5).key, kind := .ret d life true }) :=
  ⟨by decide +kernel, by decide +kernel, by decide +kernel, rfl, ⟨fun _ => ⟨2, 1, rfl, by decide, by decide +kernel⟩, fun _ => rfl⟩,
    by decide +kernel, by decide +kernel, ⟨fun h => (nomatch h), fun ⟨_, _, h, _⟩ => (nomatch h)⟩⟩

theorem witness_HandOverEndsTheRouting :
    let s (k : Nat) (q : Routing) := at_ 1 (record k) (.settling q) (holding (parcel .closed))
    (∀ k ∈ [4, 5, 6], (s k (routing [] 0x04 0x02)).performing 0 = some (1, record k) ∧
      ((s k (routing [] 0x04 0x02)).slot 0).progress = .settling (routing [] 0x04 0x02)) ∧
    (routing [] 0 0x06).routed = 0 ∧ (s 4 (routing [] 0 0x06)).performing 0 = some (1, record 4) ∧
    (∀ b : Bool, let q : Routing := { routing [] 0x04 0 with settled := b };
      (aborting true none (record 5) (.settling q)).performing 0 = some (1, record 5) ∧
      ((aborting true none (record 5) (.settling q)).slot 0).progress = .settling q ∧
      ((aborting true none (record 5) (.settling q)).client 1).state = .draining) ∧
    1 ≤ ((s 5 (routing [] 0x04 0x02)).store.parcel (handleIndex 2053)).holder 1 ∧
    1 ≤ ((s 5 (routing [] 0x04 0x02)).store.parcel (handleIndex 2053)).refCount := by decide +kernel

theorem witness_FetchChecksBeforeItScatters :
    let s := at_ 1 (gatherOf 7 100) .taken (holding (parcel .closed))
    ∃ fr, s.serves 0 7 1 (gatherOf 7 100) = true ∧
      checkFragments (s.client 1).apertures .write (gatherOf 7 100).fragments = .ok fr ∧ s.store.resolve 2053 1 = none :=
  ⟨_, by decide +kernel, rfl, by decide +kernel⟩

theorem witness_ReleaseDropsReferences :
    let r (n : Nat) : PostRecord := { record 8 with handle := 2053, auxA := BitVec.ofNat 32 n }
    let p : Parcel := { parcel .closed with holders := (Vector.replicate 8 0).set 1 15, refCount := 15 }
    let s (n : Nat) := at_ 1 (r n) .taken (holding p)
    (∀ n ∈ [0, 1, 15, 16], (s n).serves 0 8 1 (r n) = true) ∧ (s 15).store.resolve 2053 1 = none ∧
    (15 + ((s 15).list 1).countP (fun e => e.handle == (2053 : Handle)) ≤ p.holder 1 ∧ 15 ≤ p.refCount) ∧
    p.holder 1 < 15 + (((s 15).setList 1 [entry 0 0]).list 1).countP (fun e => e.handle == (2053 : Handle)) ∧
    (let t := at_ 1 (r 0) (.dropAfter 2053 100 100) (holding (parcel .closed));
      t.works 0 1 (r 0) = true ∧ 1 ≤ (t.store.parcel (handleIndex 2053)).holder 1 ∧
        1 ≤ (t.store.parcel (handleIndex 2053)).refCount) := by decide +kernel

theorem witness_ExactSubscriptionsFollowTheEntry :
    (record 9).flags.getLsbD 4 = false ∧ (up.client 1).state ≠ .draining ∧ up.dir.exactSound = true ∧
    (at_ 1 (record 9) .taken up).takenCommand 0 9 = some (1, record 9) ∧
    (at_ 1 (record 10) .taken up).takenCommand 0 10 = some (1, record 10) := by decide +kernel

theorem witness_PatternSubscriptionsFollowTheList :
    let r (k : Nat) : PostRecord := { record k with flags := 0x10 }
    (r 9).flags.getLsbD 4 = true ∧ (up.client 1).state ≠ .draining ∧
    (at_ 1 (r 9) .taken up).takenCommand 0 9 = some (1, r 9) ∧ (at_ 1 (r 10) .taken up).takenCommand 0 10 = some (1, r 10) := by
  decide +kernel

theorem witness_PinsReplaceAndUnpinsRemove :
    let r (n : Nat) : PostRecord := { record 18 with auxB := BitVec.ofNat 32 n }
    (up.client 0).state ≠ .draining ∧ up.dir.exactSound = true ∧
    (∀ n ∈ [7, 255, 256], (at_ 0 (r n) .taken up).takenCommand 0 18 = some (0, r n)) ∧
    255 < (r 256).auxB.toNat ∧ (r 255).auxB.getLsbD (3 : ClientId).val = true ∧ (up.client 3).state = .absent ∧
    (∀ d : ClientId, (r 7).auxB.getLsbD d.val = true → (up.client d).state ≠ .absent) ∧
    (at_ 0 (record 19) .taken up).takenCommand 0 19 = some (0, record 19) := by decide +kernel

theorem witness_SweepAgesReturnEntries :
    let s := up.setDir { Directory.initial with exact := [(place 0 0, { key := 0, kind := .ret 2 1 true })], sweepsDue := 1 }
    s.dir.exactSound = true ∧ s.ticking = true ∧ 0 < s.dir.sweepsDue := by decide +kernel

theorem witness_PurgeTakesTheClientOut :
    (teardown .directory up).dir.exactSound = true ∧ (teardown .directory up).teardownOf 0 =
      some ({ record 17 with subject := 1 }, { Teardown.start 1 with stage := .directory }) := by decide +kernel

/-- The second of two entries is of the higher class; one place of sixteen is free. -/
theorem witness_DeliveryClaimTakesTheHighestClass :
    let c : Client := { context with del := { context.del with claimed := 31, lastTaken := 16 } }
    let s := ((holding (parcel .closed)).setClient 1 c).setList 1 [entry 1 1000, entry 3 1010]
    s.active = true ∧ (s.client 1).state = .attached ∧
    ((s.client 1).del.claimed - (s.client 1).del.lastTaken).toNat < (s.client 1).del.size ∧ (s.client 1).del.inFlight = false ∧
    (s.list 1)[1]? = some (entry 3 1010) ∧ (∀ f ∈ s.list 1, f.cls.toNat ≤ (entry 3 1010).cls.toNat) ∧
    (s.list 1)[0]? = some (entry 1 1000) ∧ (entry 1 1000).cls.toNat < (entry 3 1010).cls.toNat := by decide +kernel

theorem witness_ReturnClaimTakesTheOldest :
    let x := (record 1).completion .ok 0
    let s (c : ClientId) : State := up.setSlot 0 { Slot.initial with state := .held, client := some c, completion := some x }
    let n : QueuedNotice := { notice := .poolLow .short 14, tick := 0 }
    let noticed := (s 0).setUnit { up.unit with notices := [n], noticesAhead := 1 }
    (∀ c : ClientId, c < 2 → (s c).active = true ∧ ((s c).client c).state = .attached ∧
      (((s c).client c).ret.claimed - ((s c).client c).ret.lastTaken).toNat < ((s c).client c).ret.size ∧
      ((s c).client c).ret.inFlight = false ∧ ((s c).slot 0).client = some c ∧ ((s c).slot 0).state = .held ∧
      ((s c).slot 0).completion = some x ∧ (s c).unit.notices = []) ∧
    noticed.unit.notices = n :: [] ∧ 0 < noticed.unit.noticesAhead ∧ up.heldCompletion 0 = none := by decide +kernel

/-- A slot of client 0 whose command ends while a notice waits. -/
theorem witness_ReturnClaimTakesTheOldest_order :
    let s := (at_ 0 (record 1) .taken up).queueNotice (.clientFault 6 .tally)
    (s.slot 0).client = some 0 ∧ (s.client 0).state ≠ .draining ∧ s.unit.notices.length < 8 := by decide +kernel

/-- R89 and R179: the last occupied slot becomes FREE, and HALTING ends. -/
theorem test_halting_ends_with_the_last_slot :
    let s := (onBus (.record 1 .ret (.completion 2)) up).setSlot 2 { Slot.initial with
      state := .writing, client := some 1, completion := some ((record 1).completion .ok 0) }
    after (exec (.recordWriteComplete .done) (s.setPort { s.port with device := .halting }))
      (fun t => t.port.device == .halted && !t.port.tickRuns) = true := by decide +kernel

theorem witness_RecordWriteAdvancesTheRing :
    let s (what : RecordKind) : State := (onBus (.record 1 .ret what) up).setSlot 2 { Slot.initial with
      state := .writing, client := some 1, completion := some ((record 1).completion .ok 0) }
    (∀ what ∈ [.completion 2, .delivery],
      (s what).carriesLive { op := .record 1 .ret what, addr := 0, len := 0, data := [] } = true) ∧
    ((s .delivery).client 1).state = .attached ∧ ((fault (s .delivery) 1).client 1).state = .faulted ∧
    (∀ what ∈ [.notice, .completion 2],
      (onBus (.record 0 .ret what) up).carriesLive { op := .record 0 .ret what, addr := 0, len := 0, data := [] } = true) ∧
    (up.client 0).state = .attached ∧
    (∀ idle : Bool, let t := onBus (.record 1 .ret .delivery) (up.setClient 1 { context with
        state := .faulted, reason := some .tally, finalDue := true, ret := { context.ret with inFlight := true },
        del := { context.del with inFlight := !idle } });
      t.carriesLive { op := .record 1 .ret .delivery, addr := 0, len := 0, data := [] } = true ∧
        (t.client 1).state = .faulted ∧ (t.client 1).finalDue = true) ∧
    ((teardown .abort (s .delivery)).client 1).state = .draining := by decide +kernel

/-- The written tally at the mark, 2^31 past it, and at a mark already signalled. -/
theorem witness_WriteBackTestsForTheSignal :
    let s := onBus (.writeBack 1 .del) up
    s.carriesLive { op := .writeBack 1 .del, addr := 0, len := 0, data := [] } = true ∧ (s.client 1).state = .attached ∧
    (((31 : Tally) - 31).toNat < 2 ^ 31 ∧ (31 : Tally) ≠ 20 ∧ (s.client 1).signalAddr ≠ 0) ∧
    2 ^ 31 ≤ ((0x8000001F : Tally) - 31).toNat ∧
    (onBus (.signal 1 .del) up).carriesLive { op := .signal 1 .del, addr := 0, len := 0, data := [] } = true ∧
    (onBus (.finalWriteBack 1) up).carriesLive { op := .finalWriteBack 1, addr := 0, len := 0, data := [] } = true ∧
    (∀ op ∈ [.writeBack 0 .ret, .signal 0 .ret], (onBus op up).carriesLive { op := op, addr := 0, len := 0, data := [] } = true) ∧
    (up.client 0).state = .attached ∧
    (∀ op ∈ [.writeBack 1 .del, .signal 1 .del],
      (onBus op (fault up 1)).carriesLive { op := op, addr := 0, len := 0, data := [] } = true) ∧
    ((fault up 1).client 1).state ≠ .attached := by decide +kernel

/-- The fetcher waits alone, at a wait count of 4, behind the record writer, and behind slot 0 that moves a piece. -/
theorem witness_GrantChoosesInOrder :
    let f : Txn := { op := .clientHalf 1, addr := 0, len := 32, data := [] }
    let s := up.setIntake { up.intake with fetch := some f }
    let moving := claiming (growth 0 false) (at_ 1 (gatherOf 2 28) (.moving (movement [piece 0])) s)
    (s.arb.bus = none ∧ s.port.resetAsserted = false ∧ s.port.device ≠ .failed ∧ s.intake.fetch = some f ∧ s.arb.waitCount ≠ 4 ∧
      s.unit.writer = [] ∧ ∀ i, s.presents i = .nothing) ∧
    (s.setArb { s.arb with waitCount := 4 }).arb.waitCount = 4 ∧ (s.enqueue f).unit.writer = f :: [] ∧
    (∀ op ∈ [.writeBack 1 .ret, .finalWriteBack 1, .record 1 .ret .delivery],
      (up.enqueue { f with op := op }).unit.writer = { f with op := op } :: []) ∧
    (moving.presents (moving.arb.slotPointer + 1 + 0) = .txn { op := .gather 0, addr := 0x80000, len := 28, data := [] }) := by
  decide +kernel

/-- A slot at each stage that presents a transaction; the scatter carries bytes 64 to 91 of its parcel, from its second segment. -/
theorem witness_GrantChoosesInOrder_presents :
    let m : Movement := { movement [piece 0] with base := 60, pieces := [{ piece 0 with run := 4 }] }
    let stored := (holding (parcel .closed)).setStore { (holding (parcel .closed)).store with memory := [(64, 7), (91, 9)] }
    let bytes : List Byte := [7] ++ List.replicate 26 0 ++ [9]
    let scatter := at_ 1 (gatherOf 7 28) (.moving m) stored
    let s (p : Progress) := at_ 0 (record 16) p up
    (bytes.length = 28 ∧ (scatter.slot 0).undo = none ∧ (∀ j : Fin 28, (parcel .closed).chain[(60 + 4 + j.val) / 64]? = some 1 ∧
      bytes[j.val]? = some (Memory.read scatter.store.memory (SegClass.segmentBase .short 1 + (60 + 4 + j.val) % 64)))) ∧
    scatter.presents 0 = .txn { op := .scatter 0, addr := 0x80000, len := 28, data := bytes } ∧
    (∀ p ∈ [.attachDescriptor [piece 0] [], .attachHalf grantOf, .reporting [piece 0] bytes],
      ((s p).slot 0).state = .performing ∧ ((s p).slot 0).progress = p ∧ (s p).presents 0 ≠ .nothing) := by decide +kernel

theorem witness_ExpiryAndPurgeEmptyTheList :
    let s := up.setUnit { up.unit with expiryDue := 0x02, lingerLimit := 1 }
    s.ticking = true ∧ has s.unit.expiryDue 1 = true ∧
    (let t := (s.setPort { s.port with tickCount := 1 }).setList 1 [entry 0 0, entry 0 1];
      t.ticking = true ∧ has t.unit.expiryDue 1 = true ∧
        1 = (t.list 1).countP (fun e => decide (t.unit.lingerLimit ≤ (t.port.tickCount - e.tick).toNat))) ∧
    (teardown .pending (up.setList 1 [entry 0 0])).teardownOf 0 =
      some ({ record 17 with subject := 1 }, { Teardown.start 1 with stage := .pending }) := by decide +kernel

/-- The walk at record 5, whose last reference is client 1's, and at record 1023, which is FREE. -/
theorem witness_WalkDropsAndUncharges :
    let s := teardown (.walk 5) (holding (parcel .closed))
    s.teardownOf 0 = some ({ record 17 with subject := 1 }, { Teardown.start 1 with stage := .walk 5 }) ∧
    (s.store.parcel 5).holder 1 ≤ (s.store.parcel 5).refCount ∧ 0 < (s.store.parcel 5).refCount ∧
    (s.store.parcel 1023).state = .free ∧
    (teardown (.walk 1023) up).teardownOf 0
      = some ({ record 17 with subject := 1 }, { Teardown.start 1 with stage := .walk 1023 }) := by decide +kernel

theorem witness_TeardownMakesTheClientAbsent :
    let s := teardown .complete up
    s.works 0 0 { record 17 with subject := 1 } = true ∧
    (s.slot 0).progress = .teardown { Teardown.start 1 with stage := .complete } ∧ (0 : ClientId) ≠ 1 ∧ s.arb.bus = none := by
  decide +kernel

theorem witness_AttachGoesThroughItsStages :
    let r : PostRecord := { record 16 with subject := 7, count := 1, frag0 := ⟨0x1F40, 0⟩ }
    let twice : PostRecord := { r with subject := 1 }
    let reading := onBus (.attachDescriptor 0) (at_ 0 r (.attachDescriptor [piece 0] []) up)
    let checking := onBus (.attachHalf 0) (at_ 0 r (.attachHalf grantOf) up)
    let writing := onBus (.attachWriteBack 0) (at_ 0 r (.attachWriteBack grantOf (half 16)) up)
    (at_ 0 r .taken up).takenCommand 0 16 = some (0, r) ∧ (up.client 7).state = .absent ∧
    translate (up.client 0).apertures .read r.frag0.addr.toNat 192 = some 0x80F40 ∧
    ((at_ 0 twice .taken up).takenCommand 0 16 = some (0, twice) ∧
      ∀ d : ClientId, twice.subject.toNat = d.val → d = 0 ∨ (up.client d).state ≠ .absent) ∧
    (reading.carriesLive { op := .attachDescriptor 0, addr := 0, len := 0, data := [] } = true ∧ reading.works 0 0 r = true) ∧
    (checking.carriesLive { op := .attachHalf 0, addr := 0, len := 0, data := [] } = true ∧ checking.works 0 0 r = true) ∧
    (writing.carriesLive { op := .attachWriteBack 0, addr := 0, len := 0, data := [] } = true ∧ writing.works 0 0 r = true) := by
  decide +kernel

theorem witness_DetachBeginsTheTeardown :
    let r (c : Nat) : PostRecord := { record 17 with subject := BitVec.ofNat 8 c }
    let s (c : Nat) (sl : Slot) := (at_ 0 (r c) .taken up).setSlot 1 sl
    let held : Slot := { Slot.initial with state := .held, client := some 1, completion := some ((record 1).completion .ok 0) }
    (∀ c ∈ [0, 1, 2, 7, 8], (s c held).takenCommand 0 17 = some (0, r c)) ∧ (up.client 0).state ≠ .draining ∧
    (∀ c : ClientId, (r 8).subject.toNat = c.val → c ≠ 0 ∧ (up.client c).state ≠ .attached ∧ (up.client c).state ≠ .faulted) ∧
    ((s 2 held).client 2).state = .attached ∧
    (∀ j, ((s 2 held).slot j).state = .free ∨ ((s 2 held).slot j).client ≠ some 2) ∧
    (((s 1 held).slot 1).client = some 1 ∧
      (∀ k, k ≠ 1 → ((s 1 held).slot k).state = .free ∨ ((s 1 held).slot k).client ≠ some 1) ∧
      ((s 1 held).slot 1).state = .held) := by decide +kernel

/-- The slot of a client to be torn down, with what makes it stop at once, and with what keeps it until its abort point. -/
theorem witness_DetachBeginsTheTeardown_stops :
    let r : PostRecord := { record 17 with subject := 1 }
    let s (sl : Slot) := (at_ 0 r .taken up).setSlot 1 sl
    let held : Slot := { Slot.initial with state := .held, client := some 1, completion := some ((record 1).completion .ok 0) }
    let bound : Slot := { Slot.initial with state := .bound, client := some 1 }
    let read : Txn := { op := .postRead 1 1, addr := 0x10000, len := 64, data := [] }
    let fetching := (s bound).setIntake { up.intake with fetch := some read }
    let write : Txn := { op := .record 1 .ret (.completion 1), addr := 0x20000, len := 32, data := [] }
    let writing := s { held with state := .writing }
    let working (p : Progress) : Slot := { Slot.initial with
      state := .performing, client := some 1, command := some (gatherOf 2 28), progress := p }
    (∀ sl ∈ [held, bound, { held with state := .writing }, working .taken, working (.moving (movement [piece 0]))],
      (s sl).takenCommand 0 17 = some (0, r) ∧ ((s sl).slot 1).client = some 1 ∧ ((s sl).slot 1).state ≠ .free ∧
      ∀ k, k ≠ 1 → ((s sl).slot k).state = .free ∨ ((s sl).slot k).client ≠ some 1) ∧
    (fetching.intake.fetch = some read ∧ fetching.arb.bus = none ∧
      ((onBus read.op fetching).arb.bus.map (fun b => b.txn.op)) = some read.op) ∧
    ((writing.enqueue write).unit.writer = write :: [] ∧ writing.unit.writer = []) ∧
    ((s (working (.moving (movement [piece 0])))).arb.bus = none ∧
      ((onBus (.gather 1) (s (working (.moving (movement [piece 0]))))).arb.bus.map (fun b => b.txn.op)) = some (.gather 1)) := by
  decide +kernel

/-- Every abort point. -/
theorem witness_DetachBeginsTheTeardown_abort_points :
    let two := [piece 0, piece 1]
    (∀ k ∈ [1, 2, 3, 4, 5, 6, 7, 8], let r : PostRecord := { gatherOf k 28 with auxA := 15 };
      (aborting true none r .taken).performing 0 = some (1, r) ∧ (aborting true none r .taken).takenCommand 0 k = some (1, r) ∧
      ((aborting true none r .taken).slot 0).abortRequested = true ∧ ((aborting true none r .taken).client 1).state = .draining ∧
      1 ≤ r.auxA.toNat ∧ r.auxA.toNat ≤ 15 ∧ (checkFragments context.apertures .read r.fragments).isOk = true ∧
      (checkFragments context.apertures .write r.fragments).isOk = true) ∧
    (∀ p ∈ [.toLookup 2053 100, .dropAfter 2053 100 28], (aborting true none (record 7) p).performing 0 = some (1, record 7) ∧
      ((aborting true none (record 7) p).slot 0).progress = p) ∧
    (let t := onBus (.gather 0) (aborting true (some (growth 0 false)) (gatherOf 2 28) (.moving (movement two)));
      t.carriesLive { op := .gather 0, addr := 0, len := 0, data := [] } = true ∧
      (t.slot 0).progress = .moving (movement two) ∧ (t.slot 0).undo ≠ none) ∧
    (∀ ps ∈ [two, [piece 0]], let r : PostRecord := { gatherOf 7 28 with flags := 2 };
      let t := onBus (.scatter 0) (aborting true none r (.moving (movement ps)));
      t.carriesLive { op := .scatter 0, addr := 0, len := 0, data := [] } = true ∧
      (t.slot 0).progress = .moving (movement ps) ∧ r.flags.getLsbD 1 = true ∧ t.performing 0 = some (1, r)) := by decide +kernel

/-- Every command that ends before its abort point, asked to stop or not. -/
theorem witness_DetachBeginsTheTeardown_ends :
    (∀ k ∈ [9, 10], (aborting true none (record k) .taken).takenCommand 0 k = some (1, record k)) ∧
    (∀ b : Bool, let q : Routing := { routing [] 0x04 0 with settled := b, handedOver := !b };
      (aborting true none (record 5) (.settling q)).performing 0 = some (1, record 5) ∧
      ((aborting true none (record 5) (.settling q)).slot 0).progress = .settling q ∧ ¬ ((record 5).kind = 6)) ∧
    (let t := onBus (.scatter 0) (aborting true none (gatherOf 7 28) (.moving (movement [piece 0])));
      t.carriesLive { op := .scatter 0, addr := 0, len := 0, data := [] } = true ∧
      (t.slot 0).progress = .moving (movement [piece 0]) ∧ (gatherOf 7 28).flags.getLsbD 1 = false) := by decide +kernel

/-- The last piece of a gather and of a scatter: an APPEND and a SEND asked to stop, and a FETCH. -/
theorem witness_DetachBeginsTheTeardown_last_piece :
    let t (isSend : Bool) := onBus (.gather 0)
      (aborting true (some (growth 0 isSend)) (gatherOf 2 28) (.moving (movement [piece 0])))
    let f := onBus (.scatter 0) (aborting false none (gatherOf 7 28) (.moving (movement [piece 0])))
    (∀ b : Bool, (t b).carriesLive { op := .gather 0, addr := 0, len := 0, data := [] } = true ∧
      (t b).performing 0 = some (1, gatherOf 2 28) ∧ ((t b).client 1).state = .draining ∧
      ((t b).slot 0).progress = .moving (movement [piece 0]) ∧ ((t b).slot 0).undo = some (growth 0 b) ∧
      ((t b).slot 0).abortRequested = true ∧ (t b).store.parcel (handleIndex 2053) = parcel .building) ∧
    (parcel .building).chain.Nodup ∧ 0 + 100 + 0 + 28 ≤ (parcel .building).chain.length * 64 ∧
    f.carriesLive { op := .scatter 0, addr := 0, len := 0, data := [] } = true ∧ f.performing 0 = some (1, gatherOf 7 28) := by
  decide +kernel

/-- What ends before any abort point: refusals at the apertures, a RELEASE of 0 and of 16, the settlement of a FORWARD that queued
nothing. -/
theorem witness_DetachBeginsTheTeardown_refused :
    let far (k : Nat) : PostRecord := { gatherOf k 28 with frag0 := ⟨0x9000, 28⟩ }
    let release (n : Nat) : PostRecord := { record 8 with auxA := BitVec.ofNat 32 n }
    (∀ k ∈ [2, 5, 7], (aborting true none (far k) .taken).takenCommand 0 k = some (1, far k)) ∧
    (∀ right ∈ [Right.read, .write], (checkFragments context.apertures right (far 2).fragments).isOk = false) ∧
    (∀ n ∈ [0, 16], (aborting true none (release n) .taken).takenCommand 0 8 = some (1, release n) ∧
      ((release n).auxA.toNat = 0 ∨ 15 < (release n).auxA.toNat)) ∧
    (let q : Routing := { routing [] 0 0x06 with settled := false, handedOver := false };
      (aborting true none (record 6) (.settling q)).performing 0 = some (1, record 6) ∧ (record 6).kind = 6 ∧ q.routed = 0) := by
  decide +kernel

/-- R103 and R100: the hand-over of a sender under teardown drops its reference, and without the settlement its slot waits. -/
theorem test_hand_over_of_a_draining_sender :
    let q : Routing := { routing [] 0x04 0 with settled := false, handedOver := false }
    after (exec (.handOver 0) (aborting true none (record 5) (.settling q)))
      (fun t => (t.slot 0).state == .performing && (t.store.parcel 5).state == .free && (t.store.account 1).held == 0) = true := by
  decide +kernel

/-- Client 1 is DRAINING in the abort stage of its teardown in slot 0, and its own slot 2 is in this state. -/
def leaving (st : SlotState) : State :=
  (teardown .abort up).setSlot 2 { Slot.initial with state := st, client := some 1, abortRequested := true }

/-- R162 and R87: the end of its record write and of its post read frees the slot and ends the abort stage, the flag clear. -/
theorem test_abort_stage_ends_with_the_slot :
    let ended (t : State) : Bool :=
      (t.slot 0).progress == .teardown { Teardown.start 1 with stage := .directory } && (t.slot 2).state == .free
    after (exec (.recordWriteComplete .done) (onBus (.record 1 .ret (.completion 2)) (leaving .writing))) ended = true ∧
    after (exec (.postReadComplete .busError) (onBus (.postRead 1 2) (leaving .bound))) ended = true := by decide +kernel

theorem witness_PostReadTakesTheCommand_draining :
    let s := onBus (.postRead 1 2) (leaving .bound)
    s.carriesLive { op := .postRead 1 2, addr := 0, len := 0, data := [] } = true ∧ (s.client 1).state = .draining ∧
    (s.slot 2).client = some 1 ∧ ReadOutcome.busError.hasLength 64 = true := by decide +kernel

theorem witness_RecordWriteAdvancesTheRing_draining :
    let s := onBus (.record 1 .ret (.completion 2)) (leaving .writing)
    s.carriesLive { op := .record 1 .ret (.completion 2), addr := 0, len := 0, data := [] } = true ∧
    (s.client 1).state = .draining ∧ (s.slot 2).client = some 1 := by decide +kernel

/-- A gather stopped between its pieces: the claimed segments return, and nothing is held for the client. -/
theorem test_abort_undoes_a_gather :
    let s := onBus (.gather 0) (aborting true (some (growth 1 false)) (gatherOf 2 28) (.moving (movement [piece 0, piece 1])))
    after (exec (.gatherPieceComplete (.data (List.replicate 28 0))) s) (fun t => (t.slot 0).state == .free
      && (t.store.parcel 5).chain == [0] && (t.store.account 1).charged.short == 1) = true := by decide +kernel

theorem witness_QueryFormsAndWritesItsReport :
    let r (a c : Nat) : PostRecord := { record 20 with
      auxA := BitVec.ofNat 32 a, subject := BitVec.ofNat 8 c, count := 1, flags := 0x20, frag0 := ⟨0x1FC0, 0⟩ }
    let asking (q : QueryStage) := at_ 0 (r 1 7) (.query 0x80FC0 q) up
    let reporting := onBus (.report 0) (at_ 0 (r 1 7) (.reporting [piece 0] []) up)
    (∀ a ∈ [0, 1, 2, 3, 4], (at_ 0 (r a 7) .taken up).takenCommand 0 20 = some (0, r a 7)) ∧
    (3 < (r 4 7).auxA.toNat ∧ 7 < (r 1 8).subject.toNat ∧ (at_ 0 (r 1 8) .taken up).takenCommand 0 20 = some (0, r 1 8)) ∧
    translate (up.client 0).apertures .write (r 0 7).frag0.addr.toNat 64 = some 0x80FC0 ∧
    (∀ q ∈ [QueryStage.pool, .directory, .clientStore 7 Client.initial.report,
        .clientUnit 7 Client.initial.report { held := 0, charged := { short := 0, long := 0 } }],
      (asking q).works 0 0 (r 1 7) = true ∧ ((asking q).slot 0).progress = .query 0x80FC0 q) ∧
    reporting.carriesLive { op := .report 0, addr := 0, len := 0, data := [] } = true ∧ reporting.works 0 0 (r 1 7) = true ∧
    (r 1 7).flags.getLsbD 5 = true := by decide +kernel

/-- A key that client 1 has joined and a pattern of client 2 matches; one live record, that of the parcel. -/
theorem witness_QueryFormsAndWritesItsReport_contents :
    let d : Directory := { State.reset.dir with
      exact := [(28, { key := 7, kind := .joined 2 })], patterns := [{ key := 0, mask := 0, kind := .joined, set := 4 }] }
    d.entry 7 = some { key := 7, kind := .joined 2 } ∧ (7 : Key) &&& 0 = 0 ∧
    (∀ c : ClientId, has 6 c = true ↔ has 2 c = true ∨ has 4 c = true) ∧
    d.reportKey 7 = keyReport 7 2 2 0 false 6 ∧
    (holding (parcel .closed)).store.recordsWf = true ∧ (holding (parcel .closed)).store.liveCount = [5].length := by
  decide +kernel

theorem witness_ValidDescriptorsReadBack : grantOf.valid = true := by decide +kernel

theorem witness_SetupBlocksAndHalvesReadBack :
    ({ agingPeriod := 65535, agingLimit := 255, linger := 65535, reserves := { short := 512, long := 48 },
       descriptor := 0xFFFFFFFFFFFFFF40 } : Settings).valid = true := by decide +kernel

/-- A part that runs, with a SUBSCRIBE of client 1 next. -/
def subscribing : State := (at_ 1 (record 9) .taken (holding (parcel .closed))).setPending [.subscribe 0]

theorem witness_DirectoryStaysSound :
    subscribing.directorySound = true ∧ ∃ t, step subscribing = .next t ∧ t.dir.exact.length = 1 :=
  ⟨by decide +kernel, _, rfl, by decide +kernel⟩

theorem witness_StoreStaysWhole :
    subscribing.storeCanonical = true ∧ subscribing.store.segmentsWhole = true ∧ subscribing.store.referencesCounted = true ∧
    subscribing.sound = true ∧ ∃ t, step subscribing = .next t :=
  ⟨by decide +kernel, by decide +kernel, by decide +kernel, by decide +kernel, _, rfl⟩

theorem witness_DeviceAndSlotsStaySound :
    subscribing.deviceSound = true ∧ subscribing.slotsApart = true ∧ ∃ t, step subscribing = .next t :=
  ⟨by decide +kernel, by decide +kernel, _, rfl⟩

theorem witness_RingsAndListsStayWithinBounds :
    subscribing.ringsFit = true ∧ subscribing.withinCapacity = true ∧ ∃ t, step subscribing = .next t :=
  ⟨by decide +kernel, by decide +kernel, _, rfl⟩

end Sys2Proof.Tests
end

/-!
PROOF. What a served command of chapter 1 and 5 does in its own step, and how a failed check ends it: the statements about single
commands on parcels (R5, R13 to R16, R19, R22 to R24, R27), and the state after reset.
-/

namespace Sys2Proof.Machine

-- Elaborated one after the other: side by side, each declaration holds a thread with memory of its own.
set_option Elab.async false

/-! ### The state after reset -/

/-- Settles O60: reset is one fixed state, and every property of `State.sound` is decidable. -/
theorem resetIsSound : Obligations.ResetIsSound := by
  unfold Obligations.ResetIsSound
  decide

/-! ### A served command takes its own step -/

section Served
variable {s : State} {i : SlotId} {c : ClientId} {r : PostRecord} {fr : List Accepted}

theorem exec_openParcel_served (h : s.serves i 1 c r = true) : exec (.openParcel i) s = .next (s.openStep i c r) := by
  obtain ⟨ht, ha, -⟩ := State.serves_iff.1 h
  simp [exec, execOpen, ht, ha]

theorem exec_append_served (h : s.serves i 2 c r = true) (hf : checkFragments (s.client c).apertures .read r.fragments = .ok fr) :
    exec (.append i) s = .next (s.appendClaim i c r fr) := by
  obtain ⟨ht, ha, -⟩ := State.serves_iff.1 h
  simp [exec, execAppend, ht, ha, hf]

theorem exec_cut_served (h : s.serves i 3 c r = true) : exec (.cut i) s = .next (s.cutStep i c r) := by
  obtain ⟨ht, ha, -⟩ := State.serves_iff.1 h
  simp [exec, execCut, ht, ha]

theorem exec_dispatch_served (h : s.serves i 4 c r = true) : exec (.dispatch i) s = .next (s.closeStep i c r) := by
  obtain ⟨ht, ha, -⟩ := State.serves_iff.1 h
  simp [exec, execDispatch, ht, ha]

theorem exec_send_served (h : s.serves i 5 c r = true) (hf : checkFragments (s.client c).apertures .read r.fragments = .ok fr) :
    exec (.send i) s = .next (s.sendClaim i c r fr) := by
  obtain ⟨ht, ha, -⟩ := State.serves_iff.1 h
  simp [exec, execSend, ht, ha, hf]

theorem exec_forward_served (h : s.serves i 6 c r = true) : exec (.forward i) s = .next (s.forwardCheck i c r) := by
  obtain ⟨ht, ha, -⟩ := State.serves_iff.1 h
  simp [exec, execForward, ht, ha]

theorem exec_fetch_served (h : s.serves i 7 c r = true) (hf : checkFragments (s.client c).apertures .write r.fragments = .ok fr) :
    exec (.fetch i) s = .next (s.fetchCheck i c r fr) := by
  obtain ⟨ht, ha, -⟩ := State.serves_iff.1 h
  simp [exec, execFetch, ht, ha, hf]

theorem exec_release_served (h : s.serves i 8 c r = true) (h1 : 1 ≤ r.auxA.toNat) (h2 : r.auxA.toNat ≤ 15) :
    exec (.release i) s = .next (s.releaseStep i c r) := by
  obtain ⟨ht, ha, -⟩ := State.serves_iff.1 h
  have hn : ¬ (r.auxA.toNat < 1 ∨ Config.maxHolder < r.auxA.toNat) := by unfold Config.maxHolder; omega
  simp only [exec, execRelease, ht, ha, hn, if_false, Bool.false_eq_true]

/-- The slot of a served command belongs to its client, which is not DRAINING. -/
theorem State.serves_client {k : Nat} (h : s.serves i k c r = true) :
    (s.slot i).client = some c ∧ (s.client c).state ≠ .draining := by
  obtain ⟨ht, -, hd⟩ := State.serves_iff.1 h
  exact ⟨(State.takenCommand_iff.1 ht).2.2.2.1, hd⟩

/-- A served command whose step answers a failed check ends with its status, and nothing else changes. -/
theorem State.serves_refused {k d : Nat} {x : Instr} {st : Status} (h : s.serves i k c r = true)
    (hx : exec x s = .next (s.endWith i r st d)) :
    ∃ t, exec x s = .next t ∧ s.ends t i (r.completion st d) ∧ s.sameBlocks t :=
  ⟨_, hx, State.endWith_ends r st d (State.serves_client h).1 (State.serves_client h).2⟩

end Served

/-! ### Resolution (R5) -/

theorem handleIndex_eq (h : Handle) : handleIndex h = h.toNat % 1024 := by simp [handleIndex]

theorem handleGeneration_toNat (h : Handle) : (handleGeneration h).toNat = h.toNat / 1024 := by
  have := h.isLt
  simp only [handleGeneration, BitVec.extractLsb'_toNat, Nat.shiftRight_eq_div_pow]
  omega

theorem Store.live_iff {t : Store} {h : Handle} : t.live h = true ↔
    (t.parcel (handleIndex h)).state ≠ .free ∧ (t.parcel (handleIndex h)).generation.toNat = h.toNat / 1024 := by
  simp [Store.live, ← BitVec.toNat_inj, handleGeneration_toNat]

theorem Store.resolve_none_iff {t : Store} {h : Handle} {c : ClientId} : t.resolve h c = none ↔
    t.live h = true ∧ (t.parcel (handleIndex h)).holder c ≠ 0 := by
  unfold Store.resolve
  cases t.live h <;> simp

theorem Store.resolve_badHandle {t : Store} {h : Handle} (c : ClientId) (hl : t.live h = false) :
    t.resolve h c = some .badHandle := by simp [Store.resolve, hl]

theorem Store.resolve_notHeld {t : Store} {h : Handle} {c : ClientId} (hl : t.live h = true)
    (hh : (t.parcel (handleIndex h)).holder c = 0) : t.resolve h c = some .notHeld := by simp [Store.resolve, hl, hh]

/-- Settles O24: in each of the six commands the failed resolution is the first check of the step. -/
theorem unresolvedHandlesEndTheCommand : Obligations.UnresolvedHandlesEndTheCommand := by
  intro s i c r p st hp hst x hx
  have hres : s.store.resolve r.handle c = some st := by
    rw [← handleIndex_eq] at hp
    subst hp
    rcases hst with ⟨h, rfl⟩ | ⟨h1, h2, h3, rfl⟩
    · refine Store.resolve_badHandle c (Bool.eq_false_iff.2 fun hl => ?_)
      have := Store.live_iff.1 hl
      tauto
    · exact Store.resolve_notHeld (Store.live_iff.2 ⟨h1, h2⟩) h3
  rcases hx with ⟨rfl, h⟩ | ⟨rfl, h⟩ | ⟨rfl, h⟩ | ⟨rfl, h, h1, h2⟩ | ⟨rfl, h, fr, hf⟩ | ⟨rfl, h, fr, hf⟩
  · exact State.serves_refused h (by rw [exec_cut_served h]; simp only [State.cutStep, hres])
  · exact State.serves_refused h (by rw [exec_dispatch_served h]; simp only [State.closeStep, hres])
  · exact State.serves_refused h (by rw [exec_forward_served h]; simp only [State.forwardCheck, hres])
  · exact State.serves_refused h (by rw [exec_release_served h h1 h2]; simp only [State.releaseStep, hres])
  · exact State.serves_refused h (by rw [exec_append_served h hf]; simp only [State.appendClaim, hres])
  · exact State.serves_refused h (by rw [exec_fetch_served h hf]; simp only [State.fetchCheck, hres])

/-! ### Cuts (R22 to R24) -/

/-- Settles O22: the cut that the store makes is the one R23 and R24 state (`Store.cut_spec`). -/
theorem cutMovesTheEnds : Obligations.CutMovesTheEnds := by
  intro s i c r p h hp hres
  have hx := exec_cut_served h
  obtain ⟨hc, hd⟩ := State.serves_client h
  unfold State.cutStep at hx
  simp only [hres, ← hp] at hx
  refine ⟨fun h1 h2 hn => ?_, fun hb => ?_, fun h1 h2 hn => ?_⟩
  · have hb : ¬ (p.holder c ≠ p.refCount ∨ p.holder c ≠ 1) := by omega
    simp only [hb, if_false, Nat.not_lt.2 hn] at hx
    obtain ⟨hcut, hother, hheld, hret⟩ := s.store.cut_spec (handleIndex r.handle) r.auxA.toNat r.tail hp
    refine ⟨_, hx, ?_⟩
    simp only [State.endParcel, State.formCompletion_store, State.setStore_store, State.formCompletion_dir,
      State.formCompletion_clients, State.setStore_dir, State.setStore_clients]
    exact ⟨hother, hcut, hret, hheld, State.ends_congr rfl rfl (State.formCompletion_ends _ hc hd),
      State.formCompletion_sameRest (s := s.setStore _) _ hc hd, trivial, trivial⟩
  · simp only [hb, if_true] at hx
    exact State.serves_refused h hx
  · have hb : ¬ (p.holder c ≠ p.refCount ∨ p.holder c ≠ 1) := by omega
    simp only [hb, if_false, hn, if_true] at hx
    exact State.serves_refused h hx

/-! ### The checks of a claim (R13 to R16) -/

theorem Store.lowestFree_none {t : Store} (h : ∀ k, k < 1024 → (t.parcel k).state ≠ .free) : t.lowestFree = none := by
  rcases t.lowestFree_cases with ⟨k, -, hk, hf, -⟩ | ⟨h1, -⟩
  · exact absurd hf (h k hk)
  · exact h1

theorem Store.lowestFree_some {t : Store} (h : ∃ k, k < 1024 ∧ (t.parcel k).state = .free) : ∃ k, t.lowestFree = some k := by
  obtain ⟨k, hk, hf⟩ := h
  rcases t.lowestFree_cases with ⟨j, hj, -⟩ | ⟨-, h2⟩
  · exact ⟨j, hj⟩
  · exact absurd hf (h2 k hk)

/-- Checks 1 and 2 of R14 as they fail and pass. -/
theorem Store.recordChecks_full {t : Store} (h : ∀ k, k < 1024 → (t.parcel k).state ≠ .free) (c : ClientId) (limit : Nat) :
    t.recordChecks c limit = .error (.noSpace, 1) := by simp [Store.recordChecks, Store.lowestFree_none h]

theorem Store.recordChecks_limit {t : Store} (h : ∃ k, k < 1024 ∧ (t.parcel k).state = .free) {c : ClientId} {limit : Nat}
    (hl : limit ≤ (t.account c).held) : t.recordChecks c limit = .error (.noQuota, 1) := by
  obtain ⟨k, hk⟩ := Store.lowestFree_some h
  simp [Store.recordChecks, hk, Nat.not_lt.2 hl]

theorem Store.recordChecks_ok {t : Store} (h : ∃ k, k < 1024 ∧ (t.parcel k).state = .free) {c : ClientId} {limit : Nat}
    (hl : (t.account c).held < limit) : ∃ k, t.recordChecks c limit = .ok k := by
  obtain ⟨k, hk⟩ := Store.lowestFree_some h
  exact ⟨k, by simp [Store.recordChecks, hk, hl]⟩

section SegmentChecks
variable {t : Store} {c : ClientId} {limit : PerClass Nat} {k : SegClass} {chain length need : Nat}

/-- Checks 3 to 6 of R14, each as it fails first. -/
theorem Store.segmentChecks_tooLong (h : k.maxChain < chain ∨ 65535 < length) :
    t.segmentChecks c limit k chain length need = some (.tooLong, 0) := by
  have h' : k.maxChain < chain ∨ Config.maxLength < length := h
  simp only [Store.segmentChecks, h', if_true]

theorem Store.segmentChecks_noQuota (h1 : chain ≤ k.maxChain) (h2 : length ≤ 65535) (h3 : 0 < need)
    (h : limit.get k < (t.account c).charged.get k + need) :
    t.segmentChecks c limit k chain length need = some (.noQuota, k.detail) := by
  have h' : ¬ (k.maxChain < chain ∨ Config.maxLength < length) := by unfold Config.maxLength; omega
  simp only [Store.segmentChecks, h', if_false, Nat.ne_of_gt h3, h, if_true]

theorem Store.segmentChecks_noSpace (h1 : chain ≤ k.maxChain) (h2 : length ≤ 65535) (h3 : 0 < need)
    (h4 : (t.account c).charged.get k + need ≤ limit.get k)
    (h : (c ≠ 0 ∧ t.freeCount k < need + t.reserves.get k) ∨ t.freeCount k < need) :
    t.segmentChecks c limit k chain length need = some (.noSpace, k.detail) := by
  have h' : ¬ (k.maxChain < chain ∨ Config.maxLength < length) := by unfold Config.maxLength; omega
  simp only [Store.segmentChecks, h', if_false, Nat.ne_of_gt h3, Nat.not_lt.2 h4]
  split
  · rfl
  · rw [if_pos (h.resolve_left (by assumption))]

end SegmentChecks

section ClaimRefusals
variable {s : State} {i : SlotId} {c : ClientId} {r : PostRecord} {fr : List Accepted} {st : Status} {d : Nat}

/-- A failed record claim ends OPEN, and SEND too once its fragments have passed. -/
theorem openStep_refused (h : s.store.recordChecks c (s.client c).refLimit = .error (st, d)) :
    s.openStep i c r = s.endWith i r st d := by simp only [State.openStep, h]

theorem sendClaim_refused_record (h : s.store.recordChecks c (s.client c).refLimit = .error (st, d)) :
    s.sendClaim i c r fr = s.endWith i r st d := by simp only [State.sendClaim, h]

theorem chainNeeded_eq (k : SegClass) (offset n g : Nat) : chainNeeded k offset n g =
    if n + g = 0 then 0 else (offset + (n + g) + k.size - 1) / k.size := by
  simp only [chainNeeded, SegClass.segmentsFor, Nat.add_assoc]

/-- An empty parcel's segments are those of its growth, for every size. -/
theorem chainNeeded_new (k : SegClass) (g : Nat) : chainNeeded k 0 0 g = (g + k.size - 1) / k.size := by
  rw [chainNeeded_eq]
  by_cases hg : g = 0
  · have := k.size_pos
    simp only [hg, Nat.add_zero, if_true, Nat.zero_add]
    exact (Nat.div_eq_of_lt (by omega)).symm
  · simp [hg]

end ClaimRefusals

/-- Settles O21: each check of R14 as the one that fails first. -/
theorem claimRefusalsFollowTheOrder : Obligations.ClaimRefusalsFollowTheOrder := by
  refine ⟨by decide, fun s i c r h => ⟨fun hf => ?_, fun hf hl => ?_⟩, fun s i c r fr h hfr => ⟨fun hf => ?_, fun hf hl => ?_⟩,
    fun s i c r fr h hfr hres hcl => ?_, ?_⟩
  · exact State.serves_refused h (by rw [exec_openParcel_served h, openStep_refused (Store.recordChecks_full hf _ _)])
  · exact State.serves_refused h (by rw [exec_openParcel_served h, openStep_refused (Store.recordChecks_limit hf hl)])
  · exact State.serves_refused h (by rw [exec_send_served h hfr, sendClaim_refused_record (Store.recordChecks_full hf _ _)])
  · exact State.serves_refused h (by rw [exec_send_served h hfr, sendClaim_refused_record (Store.recordChecks_limit hf hl)])
  · exact State.serves_refused h (by rw [exec_append_served h hfr]; simp only [State.appendClaim, hres, hcl, if_true])
  · intro s i c r fr x cls chain growth need hfr hx
    -- A failed segment check ends either command, whichever it is.
    have key : ∀ st d, s.store.segmentChecks c (s.client c).segLimit cls chain growth need = some (st, d) →
        ∃ t, exec x s = .next t ∧ s.ends t i (r.completion st d) ∧ s.sameBlocks t := by
      intro st d hchk
      rcases hx with ⟨rfl, h, hres, hb, rfl, rfl, hch, rfl⟩ | ⟨rfl, h, hf, hl, rfl, rfl, rfl, rfl⟩
      · refine State.serves_refused h ?_
        have hnc : (s.store.parcel (handleIndex r.handle)).state ≠ .closed := by rw [hb]; decide
        rw [exec_append_served h hfr]
        simp only [State.appendClaim, hres, hnc, if_false, chainNeeded_eq, ← hch, hchk]
      · obtain ⟨k, hk⟩ := Store.recordChecks_ok hf hl
        refine State.serves_refused h ?_
        rw [exec_send_served h hfr]
        simp only [State.sendClaim, hk, chainNeeded_new, hchk]
    exact ⟨fun h => key _ _ (Store.segmentChecks_tooLong h), fun h1 h2 h3 =>
      ⟨fun h => key _ _ (Store.segmentChecks_noQuota h1 h2 h3 h),
        fun h4 h => key _ _ (Store.segmentChecks_noSpace h1 h2 h3 h4 h)⟩⟩

/-! ### A gather that fails (R19, R147) -/

/-- Settles O26: the undo is what `Store.undo_append` and `Store.undo_send` say, and the completion forms in the same step. -/
theorem failedGatherIsUndone : Obligations.FailedGatherIsUndone := by
  intro s x i c r m p rest g q hlive hop hw hprog hpieces hundo hq hseg hsend
  obtain ⟨hperf, hab, hd⟩ := State.works_iff.1 hw
  obtain ⟨-, -, hc, -⟩ := State.performing_iff.1 hperf
  subst hq
  have hbus : s.onBus TxnOp.gatherOf = .live i x := State.onBus_live hlive (by rw [hop]; rfl)
  have hx : exec (.gatherPieceComplete .busError) s =
      .next ((s.clearBus.setStore (s.store.undo g)).endWith i r .busError p.fragment) := by
    simp only [exec, execGatherPieceComplete, hbus, hperf, hprog, hundo, hpieces, hab, Bool.false_and, Bool.false_eq_true,
      if_false, State.gatherFailed, State.sendUndo, State.clearBus_slot, State.clearBus_store]
  have hends := State.formCompletion_ends (s := s.clearBus.setStore (s.store.undo g)) (r.completion .busError p.fragment) hc hd
  have hrest := State.formCompletion_sameRest (s := s.clearBus.setStore (s.store.undo g)) (r.completion .busError p.fragment) hc hd
  refine ⟨_, hx, State.ends_congr rfl rfl hends, by simp [State.endWith], by simp [State.endWith], hrest, ?_⟩
  simp only [State.endWith, State.formCompletion_store, State.setStore_store]
  cases hs : g.isSend with
  | false =>
    obtain ⟨h1, h2, h3, h4⟩ := s.store.undo_append g hs hseg
    exact ⟨h2, h4, fun _ => ⟨h1, h3⟩, fun h => by cases h⟩
  | true =>
    obtain ⟨a1, a2, a3⟩ := hsend hs
    obtain ⟨h1, h2, h3, h4⟩ := s.store.undo_send g hs a1 a2 a3
    exact ⟨h2, h4, fun h => (by cases h), fun _ => ⟨h1, h3⟩⟩

/-! ### The reference walk (R27, R164) -/

theorem State.teardownOf_iff {s : State} {i : SlotId} {r : PostRecord} {d : Teardown} : s.teardownOf i = some (r, d) ↔
    ∃ c, s.performing i = some (c, r) ∧ (s.slot i).progress = .teardown d := by
  unfold State.teardownOf
  constructor
  · intro h
    split at h
    · rename_i c r' t h1 h2
      simp only [Option.some.injEq, Prod.mk.injEq] at h
      obtain ⟨rfl, rfl⟩ := h
      exact ⟨c, h1, h2⟩
    · cases h
  · rintro ⟨c, h1, h2⟩
    simp only [h1, h2]

/-- Settles O48: the visit is what `Store.visit_spec` says, and the teardown counts it. -/
theorem walkDropsAndUncharges : Obligations.WalkDropsAndUncharges := by
  intro s i r d k p htd hst hp hle hpos
  have hx : exec (.referenceWalkVisit i) s = .next ((s.setStore (s.store.visit d.subject k).1).setProgress i
      (.teardown { d with stage := nextVisit k, walkDropped := d.walkDropped + (s.store.visit d.subject k).2.1,
                          walkFreed := d.walkFreed + flagBit (s.store.visit d.subject k).2.2 })) := by
    simp only [exec, execReferenceWalkVisit, htd, hst]
  obtain ⟨hgo, hsame, -, hdir, hcl⟩ := State.setProgress_goesOn (s.setStore (s.store.visit d.subject k).1) i
    (.teardown { d with stage := nextVisit k, walkDropped := d.walkDropped + (s.store.visit d.subject k).2.1,
                        walkFreed := d.walkFreed + flagBit (s.store.visit d.subject k).2.2 })
  have hgo := State.goesOn_congr (s := s) rfl rfl hgo
  refine ⟨_, (s.store.visit d.subject k).2.2, hx, hsame, hdir, hcl, ?_⟩
  simp only [State.setProgress_store, State.setStore_store, nextVisit, Config.parcels, flagBit] at hgo ⊢
  by_cases hf : p.state = .free
  · have hv : s.store.visit d.subject k = (s.store, 0, false) := by simp only [Store.visit, ← hp, hf, if_true]
    rw [hv] at hgo ⊢
    simp only [hf, if_true, ne_eq, not_true_eq_false, false_and, Bool.false_eq_true, if_false]
    exact ⟨hgo, trivial, fun _ _ => trivial, fun _ => trivial, fun h => h.elim, fun h => h.elim⟩
  · obtain ⟨h1, h2, h3, h4, h5⟩ := s.store.visit_spec d.subject k hp hf hle (hpos hf)
    rw [h1] at hgo ⊢
    rw [if_neg hf, h2]
    refine ⟨by rw [← h2]; exact hgo, by simp [hf], h3, fun h => absurd h hf, fun he => ?_, fun _ he => ?_⟩
    · have he : p.holder d.subject = p.refCount := by simpa using he
      obtain ⟨-, hheld, hfree⟩ := h4 he
      rw [← hp, if_pos he.symm] at hfree
      exact ⟨hfree.1, by rw [hheld]; simp, hfree.2⟩
    · have he : p.holder d.subject ≠ p.refCount := by simpa using he
      obtain ⟨a1, a2, a3, -, a5, a6, -⟩ := h5 he
      exact ⟨a1, a2, a3, a5, a6⟩

end Sys2Proof.Machine

/-!
PROOF. The first half of O57: what R2 and R7 say of the Parcel Store alone, with the canonical forms of its tables, is kept by each
request of the store, and so by each step. The segments are counted: a number stands once in its pool or in one chain if it was ever
taken, and nowhere otherwise.
-/

namespace Sys2Proof.Machine

-- Elaborated one after the other: side by side, each declaration holds a thread with memory of its own.
set_option Elab.async false

/-! ### What a step leads to -/

/-- The state that a step answers, if it answers one, has a property. -/
def leadsTo (P : State → Prop) : Result → Prop
  | .next t => P t
  | _ => True

@[simp] theorem leadsTo_next (P : State → Prop) (t : State) : leadsTo P (.next t) ↔ P t := Iff.rfl
@[simp] theorem leadsTo_noStep (P : State → Prop) (t : State) : leadsTo P (noStep t) ↔ P t := Iff.rfl

theorem leadsTo.of_next {P : State → Prop} {o : Result} {t : State} (h : leadsTo P o) (e : o = .next t) : P t := by
  subst e
  exact h

theorem leadsTo.imp {P Q : State → Prop} {o : Result} (hpq : ∀ t, P t → Q t) (h : leadsTo P o) : leadsTo Q o := by
  cases o with
  | next t => exact hpq t h
  | fault _ => trivial
  | refused _ => trivial

/-! ### The places of a segment (R2) -/

/-- How often a segment of a class stands in a record's chain. -/
def Parcel.places (p : Parcel) (k : SegClass) (a : Nat) : Nat := if p.cls = k then p.chain.count a else 0

/-- How often a segment of a class stands in the pool's returned list and in the chains together. -/
def Store.places (t : Store) (k : SegClass) (a : Nat) : Nat :=
  (t.pools.get k).returned.count a + (t.records.map (fun r => r.2.places k a)).sum

/-- How often it stands there in a whole store: once if it was ever taken. -/
def Pool.share (p : Pool) (a : Nat) : Nat := if a < p.fresh then 1 else 0

theorem Parcel.places_initial (k : SegClass) (a : Nat) : Parcel.initial.places k a = 0 := by
  unfold Parcel.places
  split <;> rfl

theorem Parcel.places_nil {p : Parcel} (h : p.chain = []) (k : SegClass) (a : Nat) : p.places k a = 0 := by
  simp [Parcel.places, h]

theorem Store.count_chainsOf (t : Store) (k : SegClass) (a : Nat) :
    (t.chainsOf k).count a = (t.records.map (fun r => r.2.places k a)).sum := by
  unfold Store.chainsOf
  rw [List.count_flatMap]
  refine congrArg List.sum (List.map_congr_left fun r _ => ?_)
  unfold Parcel.places
  simp only [Function.comp_apply]
  split <;> simp

theorem count_range (n a : Nat) : (List.range n).count a = if a < n then 1 else 0 := by
  simp [List.nodup_range.count]

theorem Store.classWhole_iff {t : Store} {k : SegClass} : t.classWhole k = true ↔
    (∀ a, t.places k a = (t.pools.get k).share a) ∧ (t.pools.get k).fresh ≤ k.segments := by
  unfold Store.classWhole
  rw [Bool.and_eq_true, decide_eq_true_eq, List.isPerm_iff, List.perm_iff_count]
  simp only [List.count_append, Store.count_chainsOf, count_range, Store.places, Pool.share]

/-! ### The whole store -/

/-- R2 and R7 with the canonical forms: what the store alone keeps. -/
structure Store.Whole (t : Store) : Prop where
  memory : Memory.wf t.memory = true
  table : t.recordsWf = true
  once : ∀ k a, t.places k a = (t.pools.get k).share a
  bounded : ∀ k, (t.pools.get k).fresh ≤ k.segments
  vacant : ∀ i, (t.parcel i).state = .free → (t.parcel i).chain = []
  counted : ∀ i, (t.parcel i).counted = true

theorem Store.whole_iff {s : State} : s.store.Whole ↔
    s.storeCanonical = true ∧ s.store.segmentsWhole = true ∧ s.store.referencesCounted = true := by
  have hvacant : ∀ hw : s.store.recordsWf = true,
      s.store.records.all (fun r => r.2.state != .free || r.2.chain.isEmpty) = true ↔
        ∀ i, (s.store.parcel i).state = .free → (s.store.parcel i).chain = [] := fun hw => by
    rw [Store.all_records_iff (Store.recordsWf_rise hw) (fun p => p.state != .free || p.chain.isEmpty) (by decide)]
    simp [or_iff_not_imp_left]
  have hcounted : ∀ hw : s.store.recordsWf = true, s.store.referencesCounted = true ↔ ∀ i, (s.store.parcel i).counted = true :=
    fun hw => Store.all_records_iff (Store.recordsWf_rise hw) Parcel.counted (by decide)
  simp only [State.storeCanonical, Store.segmentsWhole, Bool.and_eq_true, Store.classWhole_iff]
  constructor
  · rintro ⟨h1, h2, h3, h4, h5, h6⟩
    exact ⟨⟨h1, h2⟩, ⟨⟨⟨Store.recordsWf_rise h2, h3 _, h4 _⟩, h3 _, h4 _⟩, (hvacant h2).2 h5⟩, (hcounted h2).2 h6⟩
  · rintro ⟨⟨h1, h2⟩, ⟨⟨⟨-, h3, h4⟩, h5, h6⟩, h7⟩, h8⟩
    refine ⟨h1, h2, fun k => ?_, fun k => ?_, (hvacant h2).1 h7, (hcounted h2).1 h8⟩
    · cases k
      · exact h3
      · exact h5
    · cases k
      · exact h4
      · exact h6

section Whole
variable {t u : Store}

/-- Only the accounts, the reserves and the arms change. -/
theorem Store.Whole.congr (h : t.Whole) (hr : u.records = t.records) (hp : u.pools = t.pools) (hm : u.memory = t.memory) :
    u.Whole := by
  have e : ∀ i, u.parcel i = t.parcel i := fun i => by simp only [Store.parcel, hr]
  refine ⟨hm ▸ h.memory, Store.recordsWf_congr hr h.table, fun k a => ?_, fun k => hp ▸ h.bounded k,
    fun i => by rw [e]; exact h.vacant i, fun i => by rw [e]; exact h.counted i⟩
  have := h.once k a
  simpa only [Store.places, hr, hp] using this

/-- One record changes, and a segment that it wins or loses is lost or won by its pool. -/
theorem Store.Whole.step (h : t.Whole) {i : Nat} (hm : u.memory = t.memory) (hw : u.recordsWf = true)
    (ho : ∀ j, j ≠ i → u.parcel j = t.parcel j)
    (hs : ∀ k a, (u.pools.get k).returned.count a + (u.parcel i).places k a + (t.pools.get k).share a =
      (t.pools.get k).returned.count a + (t.parcel i).places k a + (u.pools.get k).share a)
    (hb : ∀ k, (u.pools.get k).fresh ≤ k.segments) (hv : (u.parcel i).state = .free → (u.parcel i).chain = [])
    (hc : (u.parcel i).counted = true) : u.Whole := by
  refine ⟨hm ▸ h.memory, hw, fun k a => ?_, hb, fun j => ?_, fun j => ?_⟩
  · have h1 := Store.sum_step (Store.recordsWf_rise h.table) (Store.recordsWf_rise hw) (fun p => p.places k a)
      (Parcel.places_initial k a) ho
    have h2 := h.once k a
    have h3 := hs k a
    simp only [Store.places] at h2 ⊢
    omega
  · by_cases hj : j = i
    · exact hj ▸ hv
    · rw [ho j hj]; exact h.vacant j
  · by_cases hj : j = i
    · exact hj ▸ hc
    · rw [ho j hj]; exact h.counted j

/-- A record is replaced by one with the same chain. -/
theorem Store.Whole.setParcel (h : t.Whole) {i : Nat} {q : Parcel} (hk : q.cls = (t.parcel i).cls)
    (hch : q.chain = (t.parcel i).chain) (hv : q.state = .free → (t.parcel i).state = .free) (hc : q.counted = true) :
    (t.setParcel i q).Whole := by
  refine h.step (i := i) rfl (Store.recordsWf_setParcel h.table i q) (fun j hj => Store.parcel_setParcel_other t hj q)
    (fun k a => ?_) h.bounded (fun hf => ?_) ?_ <;> rw [Store.parcel_setParcel_same] at *
  · simp [Parcel.places, hk, hch]
  · exact hch.trans (h.vacant i (hv hf))
  · exact hc

/-- Segments of a record's chain return to their pool. -/
theorem Store.Whole.giveBack (h : t.Whole) {i : Nat} {q : Parcel} {segs : List Nat} (c : Option ClientId)
    (hk : q.cls = (t.parcel i).cls) (hch : (q.chain ++ segs).Perm (t.parcel i).chain)
    (hv : q.state = .free → (t.parcel i).state = .free ∨ q.chain = []) (hc : q.counted = true) :
    ((t.setParcel i q).giveBack (t.parcel i).cls c segs).Whole := by
  have hpool : ∀ k, (((t.setParcel i q).giveBack (t.parcel i).cls c segs).pools.get k) =
      if k = (t.parcel i).cls then (t.pools.get k).give segs else t.pools.get k := by
    intro k
    rw [Store.giveBack_pools]
    split
    · rename_i e; subst e; simp
    · rename_i e; simp [PerClass.get_set_other _ e]
  refine h.step (i := i) (by simp) (Store.recordsWf_congr (Store.giveBack_records _ _ _ _) (Store.recordsWf_setParcel h.table i q))
    (fun j hj => by rw [Store.giveBack_parcel, Store.parcel_setParcel_other t hj]) (fun k a => ?_) (fun k => ?_) (fun hf => ?_) ?_
  · have hcount := hch.count_eq a
    rw [List.count_append] at hcount
    rw [Store.giveBack_parcel, Store.parcel_setParcel_same, hpool]
    by_cases e : k = (t.parcel i).cls
    · subst e
      simp only [if_true, Pool.give, List.count_append, Parcel.places, hk, Pool.share]
      omega
    · simp [e, Parcel.places, hk, Ne.symm e]
  · rw [hpool]
    have := h.bounded k
    split <;> exact this
  · rw [Store.giveBack_parcel, Store.parcel_setParcel_same] at hf ⊢
    rcases hv hf with hx | hx
    · rw [h.vacant i hx] at hch
      exact (List.append_eq_nil_iff.1 hch.eq_nil).1
    · exact hx
  · rw [Store.giveBack_parcel, Store.parcel_setParcel_same]
    exact hc

/-! ### Each request keeps it -/

theorem Store.Whole.freeParcel (h : t.Whole) (i : Nat) : (t.freeParcel i).Whole :=
  h.giveBack _ rfl (by simp [Parcel.initial]) (fun _ => .inr rfl) (Parcel.counted_free _ _)

theorem Store.Whole.drop (h : t.Whole) (i : Nat) (c : ClientId) (n : Nat) : (t.drop i c n).1.Whole := by
  by_cases hn : (t.parcel i).holder c < n
  · rw [Store.drop_refused t hn]; exact h
  have hle := Parcel.counted_le (h.counted i) c
  have hmax := (Parcel.counted_iff.1 (h.counted i)).2 c
  have held : ((t.setParcel i { t.parcel i with
      holders := (t.parcel i).holders.set c.val ((t.parcel i).holder c - n),
      refCount := (t.parcel i).refCount - n }).setHeld c ((t.account c).held - n)).Whole :=
    (h.setParcel (i := i) (q := { t.parcel i with
      holders := (t.parcel i).holders.set c.val ((t.parcel i).holder c - n),
      refCount := (t.parcel i).refCount - n }) rfl rfl id
      (Parcel.counted_set (h.counted i) c (by omega) (by omega))).congr rfl rfl rfl
  unfold Store.drop
  simp only [hn, if_false]
  split
  · exact held.freeParcel i
  · exact held

theorem Store.Whole.createRef (h : t.Whole) {i : Nat} {c : ClientId} (hn : (t.parcel i).holder c < 15) :
    (t.createRef i c).Whole :=
  (h.setParcel (i := i) (q := { t.parcel i with
    holders := (t.parcel i).holders.set c.val ((t.parcel i).holder c + 1), refCount := (t.parcel i).refCount + 1 }) rfl rfl id
    (Parcel.counted_set (h.counted i) c (by omega) (by omega))).congr rfl rfl rfl

theorem Store.Whole.openRecord (h : t.Whole) {i : Nat} (hf : (t.parcel i).state = .free) (k : SegClass) (c : ClientId) :
    (t.openRecord i k c).Whole := by
  have hch : ∀ l a, (t.parcel i).places l a = 0 := Parcel.places_nil (h.vacant i hf)
  refine h.step (i := i) rfl (Store.openRecord_recordsWf h.table i k c)
    (fun j hj => by rw [Store.openRecord_parcel, if_neg hj]) (fun l a => ?_) h.bounded (fun _ => ?_) ?_ <;>
    rw [Store.openRecord_parcel, if_pos rfl]
  · rw [hch l a, Parcel.places_nil rfl, Store.openRecord_pools]
  · have := Parcel.counted_set (Parcel.counted_free 0 k) c (n := 1) (m := 1) (by omega) (by simp [Parcel.holder, Parcel.initial])
    simpa [Parcel.counted, Parcel.initial] using this

theorem Store.Whole.setParcelState (h : t.Whole) (i : Nat) {st : ParcelState} (hst : st ≠ .free) :
    (t.setParcelState i st).Whole :=
  h.setParcel rfl rfl (fun e => absurd e hst) (h.counted i)

theorem Store.Whole.commit (h : t.Whole) (i : Nat) (close : Bool) : (t.commit i close).Whole := by
  refine h.setParcel rfl rfl (fun e => ?_) (h.counted i)
  cases close
  · exact e
  · cases e

@[simp] theorem Pool.taken_fresh (p : Pool) (n : Nat) : (p.taken n).fresh = p.fresh + (n - p.returned.length) := rfl
@[simp] theorem Pool.taken_returned (p : Pool) (n : Nat) : (p.taken n).returned = p.returned.drop n := rfl

/-- A pool's segments after a claim: those it keeps and those the claim takes. -/
theorem Pool.count_taken (p : Pool) (n a : Nat) :
    (p.taken n).returned.count a + (p.pick n).count a + p.share a = p.returned.count a + (p.taken n).share a := by
  have h1 : p.returned.count a = (p.returned.take n).count a + (p.returned.drop n).count a := by
    rw [← List.count_append, List.take_append_drop]
  have h2 : (List.range' p.fresh (n - p.returned.length)).count a + p.share a = (p.taken n).share a := by
    rw [(List.nodup_range' (step := 1)).count]
    unfold Pool.share Pool.taken
    simp only [List.mem_range'_1]
    split_ifs <;> omega
  simp only [Pool.pick, List.count_append, Pool.taken_returned]
  omega

theorem Pool.fresh_taken_le {p : Pool} {n m : Nat} (hf : p.fresh ≤ m) (h : n ≤ p.returned.length + (m - p.fresh)) :
    (p.taken n).fresh ≤ m := by
  rw [Pool.taken_fresh]
  omega

theorem Store.grow_pools (i : Nat) (c : ClientId) (n g : Nat) :
    (t.grow i c n g).pools = t.pools.set (t.parcel i).cls ((t.pools.get (t.parcel i).cls).taken n) := rfl

theorem Store.grow_parcel_same (i : Nat) (c : ClientId) (n g : Nat) : (t.grow i c n g).parcel i =
    { t.parcel i with chain := (t.parcel i).chain ++ (t.pools.get (t.parcel i).cls).pick n, growth := some g } := by
  simp [Store.grow]

theorem Store.Whole.grow (h : t.Whole) {i : Nat} (c : ClientId) {n : Nat} (g : Nat) (hs : (t.parcel i).state ≠ .free)
    (hn : n ≤ t.freeCount (t.parcel i).cls) : (t.grow i c n g).Whole := by
  obtain ⟨-, ho, -⟩ := t.grow_spec i c g hn
  refine h.step (i := i) rfl (Store.grow_recordsWf h.table i c n g) ho (fun k a => ?_) (fun k => ?_) (fun hx => ?_) ?_
  · rw [Store.grow_parcel_same, Store.grow_pools]
    by_cases e : k = (t.parcel i).cls
    · subst e
      have := (t.pools.get (t.parcel i).cls).count_taken n a
      simp only [PerClass.get_set_same, Parcel.places, if_true, List.count_append]
      omega
    · simp [PerClass.get_set_other _ e, Parcel.places, Ne.symm e]
  · rw [Store.grow_pools]
    by_cases e : k = (t.parcel i).cls
    · subst e
      rw [PerClass.get_set_same]
      exact Pool.fresh_taken_le (h.bounded _) hn
    · rw [PerClass.get_set_other _ e]
      exact h.bounded k
  · rw [Store.grow_parcel_same] at hx
    exact absurd hx hs
  · rw [Store.grow_parcel_same]
    exact h.counted i

theorem Store.Whole.undo (h : t.Whole) (g : GrowthClaim) : (t.undo g).Whole := by
  have back := h.giveBack (i := g.index) (q := { t.parcel g.index with
      chain := (t.parcel g.index).chain.take ((t.parcel g.index).chain.length - g.segments), growth := none })
    (segs := (t.parcel g.index).chain.drop ((t.parcel g.index).chain.length - g.segments)) (t.parcel g.index).charged rfl
    (by rw [List.take_append_drop]) .inl (h.counted g.index)
  unfold Store.undo
  dsimp only
  split
  · exact back.drop _ _ _
  · exact back

theorem Store.Whole.cut (h : t.Whole) (i n : Nat) (tail : Bool) : (t.cut i n tail).Whole := by
  have back : ∀ (q : Parcel) (segs : List Nat), q.cls = (t.parcel i).cls → (q.chain ++ segs).Perm (t.parcel i).chain →
      q.state = (t.parcel i).state → q.refCount = (t.parcel i).refCount → q.holders = (t.parcel i).holders →
      ((t.setParcel i q).giveBack (t.parcel i).cls (t.parcel i).charged segs).Whole := fun q segs hk hch hst hr hh =>
    h.giveBack _ hk hch (fun e => .inl (hst ▸ e)) (by
      have := h.counted i
      simpa only [Parcel.counted, hr, hh] using this)
  unfold Store.cut Store.cutTail Store.cutHead
  dsimp only
  split
  · exact h
  · split <;> split
    · exact back _ _ rfl (by simp) rfl rfl rfl
    · exact back _ _ rfl (by rw [List.take_append_drop]) rfl rfl rfl
    · exact back _ _ rfl (by simp) rfl rfl rfl
    · exact back _ _ rfl (List.perm_append_comm.trans (by rw [List.take_append_drop])) rfl rfl rfl

theorem Store.Whole.visit (h : t.Whole) (c : ClientId) (i : Nat) : (t.visit c i).1.Whole := by
  have dropped : (if (t.parcel i).holder c = 0 then (t, false) else t.drop i c ((t.parcel i).holder c)).1.Whole := by
    split
    · exact h
    · exact h.drop _ _ _
  unfold Store.visit
  dsimp only
  generalize (if (t.parcel i).holder c = 0 then (t, false) else t.drop i c ((t.parcel i).holder c)) = d at dropped
  split
  · exact h
  · split
    · exact (dropped.setParcel (i := i) (q := { d.1.parcel i with charged := none }) rfl rfl id (dropped.counted i)).congr
        (Store.uncharge_records _ _ _ _) (Store.uncharge_pools _ _ _ _) (Store.uncharge_memory _ _ _ _)
    · exact dropped

theorem Store.Whole.dropEntries (h : t.Whole) (c : ClientId) (l : List PendingEntry) : (t.dropEntries c l).1.Whole := by
  induction l generalizing t with
  | nil => exact h
  | cons e rest ih => exact ih (h.drop _ _ _)

/-- A run of bytes written into parcel memory. -/
theorem writeRun_wf {p : Parcel} : ∀ {bs : List Byte} {m m' : List Host.Cell} {pos : Nat}, Memory.wf m = true →
    writeRun p m pos bs = some m' → Memory.wf m' = true
  | [], m, m', pos, h, e => by
    simp only [writeRun, Option.some.injEq] at e
    exact e ▸ h
  | b :: bs, m, m', pos, h, e => by
    simp only [writeRun] at e
    split at e
    · exact writeRun_wf (Memory.wf_write h _ _) e
    · cases e

theorem Store.Whole.setMemory (h : t.Whole) {m : List Host.Cell} (hm : Memory.wf m = true) :
    ({ t with memory := m } : Store).Whole :=
  ⟨hm, h.table, h.once, h.bounded, h.vacant, h.counted⟩

/-- An empty store with the memory kept (R181, R182). -/
theorem Store.Whole.initial (h : t.Whole) : ({ Store.initial with memory := t.memory } : Store).Whole := by
  refine ⟨h.memory, rfl, fun k a => ?_, fun k => ?_, fun _ _ => rfl, fun _ => Parcel.counted_free 0 .short⟩
  · cases k <;> rfl
  · cases k <;> exact Nat.zero_le _

end Whole

end Sys2Proof.Machine

/-!
PROOF. The first half of O57 for each command: most leave the store alone, and the others make requests of it, each in a store that
`Store.Whole` holds of.
-/

namespace Sys2Proof.Machine

-- Elaborated one after the other: side by side, each declaration holds a thread with memory of its own.
set_option Elab.async false

/-! ### The store after a shared operation -/

section Stores
variable (s : State) (i : SlotId) (c : ClientId) (r : PostRecord)

@[simp] theorem State.endWith_store (st : Status) (d : Nat) : (s.endWith i r st d).store = s.store := by simp [State.endWith]
@[simp] theorem State.endParcel_store (h : Handle) (n : Nat) : (s.endParcel i r h n).store = s.store := by
  simp [State.endParcel]
@[simp] theorem State.endFetched_store (h : Handle) (n k : Nat) : (s.endFetched i r h n k).store = s.store := by
  simp [State.endFetched]
@[simp] theorem State.endDirectory_store (a : DirAnswer) : (s.endDirectory i r a).store = s.store := by
  simp [State.endDirectory]
@[simp] theorem State.scattered_store (h : Handle) (n k : Nat) : (s.scattered i r h n k).store = s.store := by
  unfold State.scattered; split <;> simp
@[simp] theorem State.startGather_store (m : Movement) (g : GrowthClaim) : (s.startGather i m g).store = s.store := by
  simp [State.startGather]
@[simp] theorem State.commitGrowth_store (k : Nat) (b : Bool) : (s.commitGrowth k b).store = s.store.commit k b := by
  simp [State.commitGrowth]
@[simp] theorem State.failDevice_store (code : DeviceFault) (reason : Option FaultReason) :
    (s.failDevice code reason).store = s.store := rfl
@[simp] theorem State.fetchSetup_store (op : TxnOp) (a : Addr) (n : Nat) : (s.fetchSetup op a n).store = s.store := rfl
@[simp] theorem State.answered_store (a : PortAnswer) : (s.answered a).store = s.store := rfl
@[simp] theorem State.attachCommit_store (d : Descriptor) (h : ClientHalf) : (s.attachCommit c d h).store = s.store := rfl
@[simp] theorem State.failLoad_store (code : DeviceFault) (reason : Option FaultReason) :
    (s.failLoad code reason).store = s.store := rfl
@[simp] theorem State.fetchPiece_store (g : Settings) (ps : List Piece) (bs : List Byte) :
    (s.fetchPiece g ps bs).store = s.store := by unfold State.fetchPiece; split <;> rfl
@[simp] theorem State.startDraining_store : (s.startDraining c).store = s.store := rfl
@[simp] theorem State.requestAbort_store : (s.requestAbort i).store = s.store := rfl
@[simp] theorem State.leaveSets_store : (s.leaveSets c).store = s.store := rfl
@[simp] theorem State.endWaiting_store (n : OutRingName) : (s.endWaiting c n).store = s.store := by
  unfold State.endWaiting; split <;> rfl
@[simp] theorem State.withdrawWrites_store : (s.withdrawWrites c).store = s.store := by simp [State.withdrawWrites]
@[simp] theorem State.withdrawRead_store : (s.withdrawRead c).store = s.store := by
  unfold State.withdrawRead; split <;> rfl
@[simp] theorem State.routingAnswered_store (q : Routing) : (s.routingAnswered i c r q).store = s.store := by
  unfold State.routingAnswered; split <;> [split; skip] <;> simp
@[simp] theorem State.countWritten_store (n : OutRingName) (w : RecordKind) : (s.countWritten c n w).store = s.store := by
  simp [State.countWritten]
@[simp] theorem State.releaseRecord_store (w : RecordKind) : (s.releaseRecord w).store = s.store := by
  unfold State.releaseRecord; split <;> simp

end Stores

section WholeState
variable {s : State}

/-- A slot's undo information is sent to a whole store. -/
theorem State.sendUndo_whole (h : s.store.Whole) (i : SlotId) : (s.sendUndo i).store.Whole := by
  unfold State.sendUndo
  split
  · exact h.undo _
  · exact h

theorem State.abortSlot_whole (h : s.store.Whole) (i : SlotId) : (s.abortSlot i).store.Whole := by
  simpa [State.abortSlot] using State.sendUndo_whole h i

/-- A claim that the pool can serve (R17, R26). -/
theorem State.claimSegments_whole (h : s.store.Whole) {k : Nat} (c : ClientId) {n : Nat} (g : Nat)
    (hs : (s.store.parcel k).state ≠ .free) (hn : n ≤ s.store.freeCount (s.store.parcel k).cls) :
    (s.claimSegments k c n g).store.Whole := by
  have grown := h.grow c g hs hn
  unfold State.claimSegments State.lowerTest
  dsimp only
  split
  · exact grown
  · split
    · rw [State.queueNotice_store]
      exact grown.congr rfl rfl rfl
    · exact grown

/-- A claim that passes its checks is one that the pool can serve (R16). -/
theorem Store.segmentChecks_none {t : Store} {c : ClientId} {limit : PerClass Nat} {k : SegClass} {chain length need : Nat}
    (h : t.segmentChecks c limit k chain length need = none) : need ≤ t.freeCount k := by
  unfold Store.segmentChecks at h
  split at h
  · cases h
  · split at h
    · omega
    · split at h
      · cases h
      · split at h
        · cases h
        · split at h
          · cases h
          · omega

theorem State.admits_iff {h : Handle} {c : ClientId} : s.admits h c = true ↔
    (s.client c).state = .attached ∧ (s.store.parcel (handleIndex h)).holder c < 15 ∧
      (s.store.account c).held < (s.client c).refLimit ∧ (s.list c).length < 32 := by
  simp only [State.admits, Bool.and_eq_true, beq_iff_eq, and_assoc, Config.maxHolder, Config.pendingList]
  exact and_congr_right fun _ => and_congr decide_eq_true_iff (and_congr decide_eq_true_iff decide_eq_true_iff)

theorem Store.recordChecks_free {t : Store} {c : ClientId} {limit k : Nat} (h : t.recordChecks c limit = .ok k) :
    k < 1024 ∧ (t.parcel k).state = .free := by
  unfold Store.recordChecks at h
  rcases t.lowestFree_cases with ⟨j, hj, hlt, hf, -⟩ | ⟨hn, -⟩
  · simp only [hj] at h
    split at h
    · cases h
      exact ⟨hlt, hf⟩
    · cases h
  · simp only [hn] at h
    cases h

/-! ### The commands that make requests of the store -/

theorem execOpen_whole (h : s.store.Whole) (i : SlotId) : leadsTo (fun t => t.store.Whole) (execOpen i s) := by
  unfold execOpen
  split
  · exact h
  · split
    · exact State.abortSlot_whole h i
    · rw [leadsTo_next]
      unfold State.openStep
      split
      · simpa using h
      · rename_i hk
        simpa using h.openRecord (Store.recordChecks_free hk).2 _ _

theorem execAppend_whole (h : s.store.Whole) (i : SlotId) : leadsTo (fun t => t.store.Whole) (execAppend i s) := by
  unfold execAppend
  split
  · exact h
  · rename_i c r _
    split
    · simpa using h
    · rename_i fr _
      split
      · exact State.abortSlot_whole h i
      · rw [leadsTo_next]
        unfold State.appendClaim
        dsimp only
        split
        · simpa using h
        · rename_i hres
          have hlive := (Store.live_iff.1 (Store.resolve_none_iff.1 hres).1).1
          split
          · simpa using h
          · split
            · simpa using h
            · rename_i hchk
              have claimed := State.claimSegments_whole h c r.totalLength hlive (Store.segmentChecks_none hchk)
              split
              · simpa using claimed.commit _ false
              · simpa using claimed

theorem execCut_whole (h : s.store.Whole) (i : SlotId) : leadsTo (fun t => t.store.Whole) (execCut i s) := by
  unfold execCut
  split
  · exact h
  · split
    · exact State.abortSlot_whole h i
    · rw [leadsTo_next]
      unfold State.cutStep
      dsimp only
      split
      · simpa using h
      · split
        · simpa using h
        · split
          · simpa using h
          · simpa using h.cut _ _ _

theorem execDispatch_whole (h : s.store.Whole) (i : SlotId) : leadsTo (fun t => t.store.Whole) (execDispatch i s) := by
  unfold execDispatch
  split
  · exact h
  · split
    · exact State.abortSlot_whole h i
    · rw [leadsTo_next]
      unfold State.closeStep
      dsimp only
      split
      · simpa using h
      · split
        · simpa using h
        · exact h.setParcelState _ (by decide)

theorem execSend_whole (h : s.store.Whole) (i : SlotId) : leadsTo (fun t => t.store.Whole) (execSend i s) := by
  unfold execSend
  split
  · exact h
  · rename_i c r _
    split
    · simpa using h
    · rename_i fr _
      split
      · exact State.abortSlot_whole h i
      · rw [leadsTo_next]
        unfold State.sendClaim
        dsimp only
        split
        · simpa using h
        · rename_i k hk
          split
          · simpa using h
          · rename_i hchk
            have opened := h.openRecord (Store.recordChecks_free hk).2 r.sendClass c
            have claimed := State.claimSegments_whole (s := s.setStore (s.store.openRecord k r.sendClass c)) opened (k := k) c
              (n := chainNeeded r.sendClass 0 0 r.totalLength) r.totalLength (by simp [Store.openRecord_parcel])
              (by simpa [Store.openRecord_parcel] using Store.segmentChecks_none hchk)
            split
            · simpa using claimed.commit _ true
            · simpa using claimed

theorem execForward_whole (h : s.store.Whole) (i : SlotId) : leadsTo (fun t => t.store.Whole) (execForward i s) := by
  unfold execForward
  split
  · exact h
  · split
    · exact State.abortSlot_whole h i
    · rw [leadsTo_next]
      unfold State.forwardCheck
      dsimp only
      repeat' split
      all_goals simpa using h

theorem execFetch_whole (h : s.store.Whole) (i : SlotId) : leadsTo (fun t => t.store.Whole) (execFetch i s) := by
  unfold execFetch
  split
  · exact h
  · split
    · simpa using h
    · split
      · exact State.abortSlot_whole h i
      · rw [leadsTo_next]
        unfold State.fetchCheck
        dsimp only
        repeat' split
        all_goals simpa using h

theorem execReleaseAfterDrop_whole (h : s.store.Whole) (i : SlotId) :
    leadsTo (fun t => t.store.Whole) (execReleaseAfterDrop i s) := by
  unfold execReleaseAfterDrop
  split
  · exact h
  · split
    · split
      · exact State.abortSlot_whole h i
      · simpa using h.drop _ _ _
    · exact h

theorem execRelease_whole (h : s.store.Whole) (i : SlotId) : leadsTo (fun t => t.store.Whole) (execRelease i s) := by
  unfold execRelease
  split
  · exact h
  · split
    · simpa using h
    · split
      · exact State.abortSlot_whole h i
      · rw [leadsTo_next]
        unfold State.releaseStep
        dsimp only
        split
        · simpa using h
        · split
          · simpa using h
          · simpa using h.drop _ _ _

theorem execGatherPieceComplete_whole (h : s.store.Whole) (o : ReadOutcome) :
    leadsTo (fun t => t.store.Whole) (execGatherPieceComplete o s) := by
  unfold execGatherPieceComplete
  split
  · exact h
  · exact h
  · rename_i i _ _
    split
    · rename_i rec m g _ _ _
      split
      · rename_i p rest _
        split
        · exact State.abortSlot_whole (s := s.clearBus) h i
        · cases o with
          | busError =>
            simp only [leadsTo_next, State.gatherFailed, State.endWith_store]
            exact State.sendUndo_whole (s := s.clearBus) h i
          | data bs =>
            dsimp only
            split
            · unfold State.gatherData
              split
              · trivial
              · rename_i mem hmem
                have written : ({ s.store with memory := mem } : Store).Whole := h.setMemory (writeRun_wf h.memory hmem)
                dsimp only
                split
                · rw [leadsTo_next]
                  unfold State.gathered
                  dsimp only
                  have done := written.commit g.index g.isSend
                  repeat' split
                  · exact State.abortSlot_whole (by simpa using done) i
                  · simpa using done
                  · simpa using done
                · exact written
            · trivial
      · exact h
    · exact h

theorem execScatterPieceComplete_whole (h : s.store.Whole) (w : WriteOutcome) :
    leadsTo (fun t => t.store.Whole) (execScatterPieceComplete w s) := by
  unfold execScatterPieceComplete
  split
  · exact h
  · exact h
  · rename_i i _ _
    split
    · split
      · split
        · exact State.abortSlot_whole (s := s.clearBus) h i
        · cases w with
          | busError => simpa using h
          | done =>
            dsimp only
            split
            · rw [leadsTo_next]
              unfold State.scatterDone
              split
              · exact State.abortSlot_whole (s := s.clearBus) h i
              · simpa using h
            · exact h
      · exact h
    · exact h

theorem execLookup_whole (h : s.store.Whole) (i : SlotId) : leadsTo (fun t => t.store.Whole) (execLookup i s) := by
  unfold execLookup
  split
  · exact h
  · split
    · split
      · exact State.abortSlot_whole h i
      · exact h
    · exact h

theorem execAdmission_whole (h : s.store.Whole) (i : SlotId) : leadsTo (fun t => t.store.Whole) (execAdmission i s) := by
  unfold execAdmission
  split
  · exact h
  · split
    · split
      · rw [leadsTo_next]
        unfold State.offerStep
        split
        · rename_i hadm
          exact h.createRef (State.admits_iff.1 hadm).2.1
        · split <;> exact h
      · exact h
    · exact h

theorem execHandOver_whole (h : s.store.Whole) (i : SlotId) : leadsTo (fun t => t.store.Whole) (execHandOver i s) := by
  unfold execHandOver
  split
  · exact h
  · split
    · split
      · exact h
      · split
        · exact h
        · rw [leadsTo_next, State.routingAnswered_store]
          unfold State.handOverStep
          split
          · exact h.setParcelState _ (by decide)
          · exact h.drop _ _ _
    · exact h

theorem execLingerExpiry_whole (h : s.store.Whole) (c : ClientId) :
    leadsTo (fun t => t.store.Whole) (execLingerExpiry c s) := by
  unfold execLingerExpiry
  split
  · exact h.dropEntries _ _
  · exact h

theorem execPendingPurge_whole (h : s.store.Whole) (i : SlotId) : leadsTo (fun t => t.store.Whole) (execPendingPurge i s) := by
  unfold execPendingPurge
  split
  · exact h
  · split
    · exact h.dropEntries _ _
    · exact h

theorem execReferenceWalkVisit_whole (h : s.store.Whole) (i : SlotId) :
    leadsTo (fun t => t.store.Whole) (execReferenceWalkVisit i s) := by
  unfold execReferenceWalkVisit
  split
  · exact h
  · split
    · exact h.visit _ _
    · exact h

theorem execDetach_whole (h : s.store.Whole) (i : SlotId) : leadsTo (fun t => t.store.Whole) (execDetach i s) := by
  have drained : ∀ (t before : State) (c : ClientId) (j : SlotId), t.store.Whole → (t.drainSlot before c j).store.Whole := by
    intro t before c j ht
    unfold State.drainSlot
    split
    · simpa using ht
    · split
      · simpa using ht
      · exact ht
    · split
      · simpa using ht
      · exact ht
    · split
      · exact State.abortSlot_whole ht j
      · exact ht
    · exact ht
  unfold execDetach
  split
  · exact h
  · rw [leadsTo_next]
    unfold State.detachStep
    split
    · simpa using h
    · split
      · simpa using h
      · split
        · unfold State.stateStage
          dsimp only
          split
          · rw [State.readChoice_store]
            exact drained _ _ _ _ (by simpa using h)
          · simpa using h
        · simpa using h

theorem execSetupDescriptorPieceComplete_whole (h : s.store.Whole) (o : ReadOutcome) :
    leadsTo (fun t => t.store.Whole) (execSetupDescriptorPieceComplete o s) := by
  unfold execSetupDescriptorPieceComplete
  split
  · exact h
  · exact h
  · split
    · cases o with
      | busError => exact h
      | data bs =>
        dsimp only
        split
        · rw [leadsTo_next]
          unfold State.setupPiece
          split
          · split
            · exact h.congr rfl rfl rfl
            · exact h
          · simpa using h
        · trivial
    · exact h

/-! ### RESTART and the reset pin -/

theorem State.goEvent_store (s : State) : s.goEvent.store = s.store := by
  unfold State.goEvent State.startLoad
  split
  · split <;> rfl
  · simp
  · simp
  · rfl

theorem State.haltEvent_store (s : State) : s.haltEvent.store = s.store := by
  unfold State.haltEvent
  split
  · split <;> rfl
  · rfl

theorem State.restartEvent_whole (h : s.store.Whole) : s.restartEvent.store.Whole := h.initial

theorem State.controlEvent_whole (h : s.store.Whole) (v : BitVec 32) : (s.controlEvent v).store.Whole := by
  unfold State.controlEvent
  repeat' split
  · exact State.restartEvent_whole h
  · exact h
  · rwa [State.goEvent_store]
  · rwa [State.haltEvent_store]
  · exact h

theorem State.windowWrite_whole (h : s.store.Whole) {f : State → State} (hf : (f s).store.Whole) :
    (s.windowWrite f).store.Whole := by
  unfold State.windowWrite
  split
  · exact h
  · exact hf

theorem State.attendEvent_store (s : State) (v : BitVec 32) : (s.attendEvent v).store = s.store := by
  unfold State.attendEvent
  split <;> simp

theorem State.setupEvent_store (s : State) (high : Bool) (v : BitVec 32) : (s.setupEvent high v).store = s.store := by
  unfold State.setupEvent
  split <;> rfl

theorem State.access_whole (h : s.store.Whole) (a : PortAccess) : (s.access a).store.Whole := by
  unfold State.access
  split
  · split <;> exact h
  · split
    · exact h
    · split
      · exact h
      · rw [State.answered_store]
        unfold State.writeWord
        repeat' split
        · exact State.controlEvent_whole h _
        · rwa [State.attendEvent_store]
        · rwa [State.setupEvent_store]
        · rwa [State.setupEvent_store]
        · exact h

theorem execResetPinRelease_whole (h : s.store.Whole) : leadsTo (fun t => t.store.Whole) (execResetPinRelease s) := by
  unfold execResetPinRelease
  rw [leadsTo_next]
  split
  · exact h.initial
  · exact h

end WholeState

/-! ### The commands that leave the store alone -/

section Same
variable (s : State)

theorem execPostReadComplete_store (o : ReadOutcome) : leadsTo (fun t => t.store = s.store) (execPostReadComplete o s) := by
  unfold execPostReadComplete
  split
  · rfl
  · rfl
  · split
    · rw [leadsTo_next, State.readChoice_store]
      unfold State.endPostRead
      split
      · cases o with
        | busError => simp
        | data bs =>
          dsimp only
          unfold State.takeCommand
          dsimp only
          split <;> simp
      · simp
    · trivial

theorem execSubscribe_store (i : SlotId) : leadsTo (fun t => t.store = s.store) (execSubscribe i s) := by
  unfold execSubscribe
  split <;> simp

theorem execUnsubscribe_store (i : SlotId) : leadsTo (fun t => t.store = s.store) (execUnsubscribe i s) := by
  unfold execUnsubscribe
  split <;> simp

theorem execPin_store (i : SlotId) : leadsTo (fun t => t.store = s.store) (execPin i s) := by
  unfold execPin
  split
  · rfl
  · split
    · simp
    · split <;> simp

theorem execUnpin_store (i : SlotId) : leadsTo (fun t => t.store = s.store) (execUnpin i s) := by
  unfold execUnpin
  split <;> simp

theorem execAttach_store (i : SlotId) : leadsTo (fun t => t.store = s.store) (execAttach i s) := by
  unfold execAttach
  split
  · rfl
  · split
    · simp
    · split <;> simp

theorem execQuery_store (i : SlotId) : leadsTo (fun t => t.store = s.store) (execQuery i s) := by
  unfold execQuery
  split
  · rfl
  · split
    · simp
    · split
      · simp
      · split <;> simp

theorem execSettlement_store (i : SlotId) : leadsTo (fun t => t.store = s.store) (execSettlement i s) := by
  unfold execSettlement
  split
  · rfl
  · split
    · split <;> simp
    · rfl

theorem State.endHalfRead_store (c : ClientId) (o : ReadOutcome) : (s.endHalfRead c o).store = s.store := by
  unfold State.endHalfRead
  split
  · cases o with
    | busError => simp
    | data bs => dsimp only; split <;> simp
  · rfl

theorem execClientHalfReadComplete_store (o : ReadOutcome) :
    leadsTo (fun t => t.store = s.store) (execClientHalfReadComplete o s) := by
  unfold execClientHalfReadComplete
  split
  · rfl
  · rfl
  · split
    · simp [State.endHalfRead_store]
    · trivial

theorem execDeliveryClaim_store (c : ClientId) : leadsTo (fun t => t.store = s.store) (execDeliveryClaim c s) := by
  unfold execDeliveryClaim
  split
  · split
    · split
      · simp [State.claimDelivery]
      · rfl
    · rfl
  · rfl

theorem State.claimSupervisor_store {t : State} (h : s.claimSupervisor = some t) : t.store = s.store := by
  unfold State.claimSupervisor at h
  split at h
  · cases h; simp [State.claimCompletion]
  · split at h <;> cases h <;> simp [State.claimCompletion, State.claimNotice]
  · cases h; simp [State.claimNotice]
  · cases h

theorem State.claimClient_store {c : ClientId} {t : State} (h : s.claimClient c = some t) : t.store = s.store := by
  unfold State.claimClient at h
  split at h
  · cases h; simp [State.claimCompletion]
  · cases h

theorem execReturnClaim_store (c : ClientId) : leadsTo (fun t => t.store = s.store) (execReturnClaim c s) := by
  unfold execReturnClaim
  split
  · split
    · rename_i t ht
      rw [leadsTo_next, State.readChoice_store]
      split at ht
      · exact s.claimSupervisor_store ht
      · exact s.claimClient_store ht
    · rfl
  · rfl

theorem execRecordWriteComplete_store (w : WriteOutcome) :
    leadsTo (fun t => t.store = s.store) (execRecordWriteComplete w s) := by
  unfold execRecordWriteComplete
  split
  · rfl
  · rfl
  · rw [leadsTo_next]
    unfold State.endRecord
    split
    · simp
    · unfold State.recordFailed
      dsimp only
      split
      · simp
      · simp
      · split <;> simp
    · simp
    · simp
    · simp

theorem State.signalTest_store (c : ClientId) (n : OutRingName) : (s.signalTest c n).store = s.store := by
  unfold State.signalTest
  dsimp only
  split
  · split <;> simp
  · simp

theorem execWriteBackComplete_store (w : WriteOutcome) : leadsTo (fun t => t.store = s.store) (execWriteBackComplete w s) := by
  unfold execWriteBackComplete
  split
  · rfl
  · rfl
  · rw [leadsTo_next]
    unfold State.endWriteBack
    split <;> simp [State.signalTest_store]
  · rfl

theorem execSignalWriteComplete_store (w : WriteOutcome) :
    leadsTo (fun t => t.store = s.store) (execSignalWriteComplete w s) := by
  unfold execSignalWriteComplete
  split
  · rfl
  · rfl
  · rw [leadsTo_next]
    unfold State.endSignal
    split <;> simp

theorem State.grantRest_store : leadsTo (fun t => t.store = s.store) s.grantRest := by
  unfold State.grantRest
  split
  · split
    · rfl
    · trivial
    · rfl
  · split <;> rfl

theorem State.grantOther_store : leadsTo (fun t => t.store = s.store) s.grantOther := by
  unfold State.grantOther
  split
  · rfl
  · exact s.grantRest_store

theorem execGrant_store : leadsTo (fun t => t.store = s.store) (execGrant s) := by
  unfold execGrant
  split
  · split
    · split
      · rfl
      · exact s.grantOther_store
    · exact s.grantOther_store
  · rfl

theorem State.tickEvent_store : s.tickEvent.store = s.store := by simp [State.tickEvent]

theorem State.idlePeriod_store : s.idlePeriod.store = s.store := by
  unfold State.idlePeriod
  split
  · split
    · rfl
    · exact s.tickEvent_store
  · rfl

theorem execTick_store : leadsTo (fun t => t.store = s.store) (execTick s) := by
  unfold execTick
  rw [leadsTo_next]
  split
  · exact s.tickEvent_store
  · rfl

theorem execSweep_store : leadsTo (fun t => t.store = s.store) (execSweep s) := by
  unfold execSweep
  split <;> rfl

theorem execDirectoryPurge_store (i : SlotId) : leadsTo (fun t => t.store = s.store) (execDirectoryPurge i s) := by
  unfold execDirectoryPurge
  split
  · rfl
  · split <;> rfl

theorem execTeardownCompletion_store (i : SlotId) :
    leadsTo (fun t => t.store = s.store) (execTeardownCompletion i s) := by
  unfold execTeardownCompletion
  split
  · rfl
  · split
    · simp
    · rfl

theorem execAttachDescriptorPieceComplete_store (o : ReadOutcome) :
    leadsTo (fun t => t.store = s.store) (execAttachDescriptorPieceComplete o s) := by
  unfold execAttachDescriptorPieceComplete
  split
  · rfl
  · rfl
  · split
    · cases o with
      | busError => simp
      | data bs =>
        dsimp only
        split
        · rw [leadsTo_next]
          unfold State.descriptorRead
          split
          · split <;> simp
          · simp
        · trivial
    · rfl

theorem execAttachCxbReadComplete_store (o : ReadOutcome) :
    leadsTo (fun t => t.store = s.store) (execAttachCxbReadComplete o s) := by
  unfold execAttachCxbReadComplete
  split
  · rfl
  · rfl
  · split
    · cases o with
      | busError => simp
      | data bs =>
        dsimp only
        split
        · rw [leadsTo_next]
          unfold State.attachHalfRead
          split <;> simp
        · trivial
    · rfl

theorem execAttachWriteBackComplete_store (w : WriteOutcome) :
    leadsTo (fun t => t.store = s.store) (execAttachWriteBackComplete w s) := by
  unfold execAttachWriteBackComplete
  split
  · rfl
  · rfl
  · split
    · cases w with
      | busError => simp
      | done =>
        rw [leadsTo_next]
        unfold State.attachDone
        split <;> simp
    · rfl

theorem execCountRead_store (i : SlotId) : leadsTo (fun t => t.store = s.store) (execCountRead i s) := by
  unfold execCountRead
  split <;> rfl

theorem execReportRead_store (i : SlotId) : leadsTo (fun t => t.store = s.store) (execReportRead i s) := by
  unfold execReportRead
  split <;> rfl

theorem execReportWritePieceComplete_store (w : WriteOutcome) :
    leadsTo (fun t => t.store = s.store) (execReportWritePieceComplete w s) := by
  unfold execReportWritePieceComplete
  split
  · rfl
  · rfl
  · split
    · cases w with
      | busError => simp
      | done =>
        dsimp only
        split
        · rw [leadsTo_next]
          unfold State.reported State.clearCounters
          split <;> [split; skip] <;> simp
        · rfl
    · rfl

theorem execSetupReadComplete_store (o : ReadOutcome) :
    leadsTo (fun t => t.store = s.store) (execSetupReadComplete o s) := by
  unfold execSetupReadComplete
  split
  · rfl
  · rfl
  · cases o with
    | busError => rfl
    | data bs =>
      dsimp only
      split
      · rw [leadsTo_next]
        unfold State.setupRead
        split <;> simp
      · trivial

theorem execSetupCxbReadComplete_store (o : ReadOutcome) :
    leadsTo (fun t => t.store = s.store) (execSetupCxbReadComplete o s) := by
  unfold execSetupCxbReadComplete
  split
  · rfl
  · rfl
  · split
    · cases o with
      | busError => rfl
      | data bs =>
        dsimp only
        split
        · rw [leadsTo_next]
          unfold State.setupHalfRead
          split <;> simp
        · trivial
    · rfl

theorem execSetupWriteBackComplete_store (w : WriteOutcome) :
    leadsTo (fun t => t.store = s.store) (execSetupWriteBackComplete w s) := by
  unfold execSetupWriteBackComplete
  split
  · rfl
  · rfl
  · split
    · cases w with
      | busError => rfl
      | done => simp [State.loadDone]
    · rfl

end Same

/-! ### Every step -/

/-- A command that leaves the store alone keeps it whole. -/
theorem leadsTo_whole_of_same {s : State} {o : Result} (h : s.store.Whole) (ho : leadsTo (fun t => t.store = s.store) o) :
    leadsTo (fun t => t.store.Whole) o :=
  ho.imp fun t (e : t.store = s.store) => by rw [e]; exact h

theorem exec_whole {s : State} (h : s.store.Whole) (x : Instr) : leadsTo (fun t => t.store.Whole) (exec x s) := by
  cases x with
  | postReadComplete o => exact leadsTo_whole_of_same h (execPostReadComplete_store s o)
  | openParcel i => exact execOpen_whole h i
  | append i => exact execAppend_whole h i
  | cut i => exact execCut_whole h i
  | dispatch i => exact execDispatch_whole h i
  | send i => exact execSend_whole h i
  | forward i => exact execForward_whole h i
  | fetch i => exact execFetch_whole h i
  | release i => exact execRelease_whole h i
  | subscribe i => exact leadsTo_whole_of_same h (execSubscribe_store s i)
  | unsubscribe i => exact leadsTo_whole_of_same h (execUnsubscribe_store s i)
  | pin i => exact leadsTo_whole_of_same h (execPin_store s i)
  | unpin i => exact leadsTo_whole_of_same h (execUnpin_store s i)
  | attach i => exact leadsTo_whole_of_same h (execAttach_store s i)
  | detach i => exact execDetach_whole h i
  | query i => exact leadsTo_whole_of_same h (execQuery_store s i)
  | gatherPieceComplete o => exact execGatherPieceComplete_whole h o
  | scatterPieceComplete w => exact execScatterPieceComplete_whole h w
  | lookup i => exact execLookup_whole h i
  | admission i => exact execAdmission_whole h i
  | settlement i => exact leadsTo_whole_of_same h (execSettlement_store s i)
  | handOver i => exact execHandOver_whole h i
  | releaseAfterDrop i => exact execReleaseAfterDrop_whole h i
  | clientHalfReadComplete o => exact leadsTo_whole_of_same h (execClientHalfReadComplete_store s o)
  | deliveryClaim c => exact leadsTo_whole_of_same h (execDeliveryClaim_store s c)
  | returnClaim c => exact leadsTo_whole_of_same h (execReturnClaim_store s c)
  | recordWriteComplete w => exact leadsTo_whole_of_same h (execRecordWriteComplete_store s w)
  | writeBackComplete w => exact leadsTo_whole_of_same h (execWriteBackComplete_store s w)
  | signalWriteComplete w => exact leadsTo_whole_of_same h (execSignalWriteComplete_store s w)
  | grant => exact leadsTo_whole_of_same h (execGrant_store s)
  | tick => exact leadsTo_whole_of_same h (execTick_store s)
  | sweep => exact leadsTo_whole_of_same h (execSweep_store s)
  | lingerExpiry c => exact execLingerExpiry_whole h c
  | directoryPurge i => exact leadsTo_whole_of_same h (execDirectoryPurge_store s i)
  | pendingPurge i => exact execPendingPurge_whole h i
  | referenceWalkVisit i => exact execReferenceWalkVisit_whole h i
  | teardownCompletion i => exact leadsTo_whole_of_same h (execTeardownCompletion_store s i)
  | attachDescriptorPieceComplete o => exact leadsTo_whole_of_same h (execAttachDescriptorPieceComplete_store s o)
  | attachCxbReadComplete o => exact leadsTo_whole_of_same h (execAttachCxbReadComplete_store s o)
  | attachWriteBackComplete w => exact leadsTo_whole_of_same h (execAttachWriteBackComplete_store s w)
  | countRead i => exact leadsTo_whole_of_same h (execCountRead_store s i)
  | reportRead i => exact leadsTo_whole_of_same h (execReportRead_store s i)
  | reportWritePieceComplete w => exact leadsTo_whole_of_same h (execReportWritePieceComplete_store s w)
  | go => exact State.windowWrite_whole h (by rwa [State.goEvent_store])
  | halt => exact State.windowWrite_whole h (by rwa [State.haltEvent_store])
  | restart => exact State.windowWrite_whole h (State.restartEvent_whole h)
  | attend v => exact State.windowWrite_whole h (by rwa [State.attendEvent_store])
  | setupAddressWrite high v => exact State.windowWrite_whole h (by rwa [State.setupEvent_store])
  | registerWrite a => exact State.access_whole h a
  | setupReadComplete o => exact leadsTo_whole_of_same h (execSetupReadComplete_store s o)
  | setupDescriptorPieceComplete o => exact execSetupDescriptorPieceComplete_whole h o
  | setupCxbReadComplete o => exact leadsTo_whole_of_same h (execSetupCxbReadComplete_store s o)
  | setupWriteBackComplete w => exact leadsTo_whole_of_same h (execSetupWriteBackComplete_store s w)
  | resetPinAssert => exact h
  | resetPinRelease => exact execResetPinRelease_whole h

/-- Every step keeps the store whole. -/
theorem step_whole {s t : State} (h : s.store.Whole) (e : step s = .next t) : t.store.Whole := by
  unfold step at e
  split at e
  · cases e
    rwa [State.idlePeriod_store]
  · rename_i x rest _
    exact (exec_whole (s := s.setPending rest) h x).of_next e

end Sys2Proof.Machine

/-!
PROOF. The layer that the second half of O57 rests on: for each shared operation and each request of a slot's client, one lemma that
says how the holdings of a sound state (`State.Holds`) pass through it.
-/

namespace Sys2Proof.Machine

-- Elaborated one after the other: side by side, each declaration holds a thread with memory of its own.
set_option Elab.async false

/-! ### What a sound state gives -/

section Sound
variable {s : State}

theorem State.Holds.sound (h : s.Holds none) : s.holdingsSound = true :=
  (State.holdingsSound_iff h.records.1 ((Store.recordsSound_iff h.records.1).1 h.records).2.2).2 h

theorem State.sound_holds (h : s.sound = true) : s.Holds none := by
  simp only [State.sound, State.storeCanonical, Bool.and_eq_true] at h
  obtain ⟨⟨⟨⟨⟨⟨⟨⟨-, -, hw⟩, -⟩, hr⟩, -⟩, -⟩, -⟩, -⟩, hh⟩ := h
  exact (State.holdingsSound_iff hw hr).1 hh

theorem State.sound_slotsApart (h : s.sound = true) : s.slotsApart = true := by
  simp only [State.sound, Bool.and_eq_true] at h
  exact h.1.2

theorem State.sound_apart (h : s.sound = true) : s.Apart := State.apart_of_slotsApart (State.sound_slotsApart h)

/-- The fetcher's transaction is its own, and a post read is bound to a BOUND slot of its client (R77, R188). -/
theorem State.sound_fetch (h : s.sound = true) {x : Txn} (hx : s.intake.fetch = some x) :
    x.op.ofFetcher = true ∧ ∀ c i, x.op = .postRead c i → (s.slot i).state = .bound ∧ (s.slot i).client = some c := by
  have ha := State.sound_slotsApart h
  simp only [State.slotsApart, Bool.and_eq_true, hx] at ha
  obtain ⟨⟨⟨⟨⟨-, hf, hb⟩, -⟩, -⟩, -⟩, -⟩ := ha
  refine ⟨hf, fun c i hop => ?_⟩
  simpa [State.boundFor, hop] using hb

/-- The record writer's transactions are its own (R188). -/
theorem State.sound_writer (h : s.sound = true) {x : Txn} (hx : x ∈ s.unit.writer) : x.op.ofWriter = true := by
  have ha := State.sound_slotsApart h
  simp only [State.slotsApart, Bool.and_eq_true, List.all_eq_true] at ha
  exact ha.1.1.1.2 x hx

/-- A live transaction is the one on the bus, neither stale nor of a FAILED device. -/
theorem State.onBus_liveBus {α : Type} {kind : TxnOp → Option α} {a : α} {x : Txn} (h : s.onBus kind = .live a x) :
    s.liveBus = [x] ∧ kind x.op = some a ∧ (∃ b, s.arb.bus = some b ∧ b.txn = x ∧ b.stale = false) ∧
      s.port.device ≠ .failed := by
  unfold State.onBus at h
  split at h
  · cases h
  · rename_i b hb
    split at h
    · rename_i y hk
      split at h
      · cases h
      · rename_i hl
        cases h
        simp only [Bool.or_eq_true, not_or, Bool.not_eq_true] at hl
        refine ⟨?_, hk, ⟨b, hb, rfl, hl.1⟩, by simpa using hl.2⟩
        simp [State.liveBus, hb, hl.1, hl.2]
    · cases h

/-- A post read on the bus is the fetcher's, and so bound to a slot (R77). -/
theorem State.sound_postRead (h : s.sound = true) {c : ClientId} {i : SlotId} {x : Txn}
    (hx : s.onBus TxnOp.postReadOf = .live (c, i) x) : (s.slot i).state = .bound ∧ (s.slot i).client = some c := by
  obtain ⟨-, hk, ⟨b, hb, rfl, hst⟩, hd⟩ := State.onBus_liveBus hx
  have hop : b.txn.op = .postRead c i := by
    unfold TxnOp.postReadOf at hk
    split at hk
    · rename_i e
      cases hk
      exact e
    · cases hk
  have ha := State.sound_slotsApart h
  simp only [State.slotsApart, Bool.and_eq_true] at ha
  have hfollow := ha.1.1.2
  simp only [State.busFollowsFetcher, hb, hop, hst, Bool.false_or, Bool.or_eq_true, beq_iff_eq, hd, false_or] at hfollow
  exact (State.sound_fetch h hfollow).2 c i hop

/-- The record of a completion on the bus is that of a WRITING slot (R84). -/
theorem State.sound_completion (h : s.sound = true) {c : ClientId} {n : OutRingName} {i : SlotId} {x : Txn}
    (hx : s.onBus TxnOp.recordOf = .live (c, n, .completion i) x) : (s.slot i).state = .writing := by
  obtain ⟨hl, hk, -, -⟩ := State.onBus_liveBus hx
  have hop : x.op.completionSlot = some i := by
    unfold TxnOp.recordOf at hk
    split at hk
    · rename_i e
      cases hk
      rw [e]
      rfl
    · cases hk
  have ha := State.sound_slotsApart h
  simp only [State.slotsApart, Bool.and_eq_true, List.all_eq_true, beq_iff_eq] at ha
  refine ha.2 i ?_
  simp [State.writingSlots, hl, hop]

/-- No slot tears client 0 down (R55). -/
theorem State.sound_subject (h : s.sound = true) {i : SlotId} {t : Teardown} (hp : (s.slot i).progress = .teardown t) :
    t.subject ≠ 0 := by
  simp only [State.sound, State.deviceSound, Bool.and_eq_true] at h
  have hs := (Slots.all_iff _ s).1 h.1.1.1.2.1.2 i
  simpa [Slot.sparesSupervisor, hp] using hs

end Sound

/-! ### Steps beside the store -/

section Beside
variable {s t : State} {x : Option SlotId} {i : SlotId} {c : ClientId} {r : PostRecord}

theorem State.Apart.congr (h : s.Apart) (hs : ∀ j, (t.slot j).state = (s.slot j).state ∧ (t.slot j).client = (s.slot j).client) :
    t.Apart := by
  refine ⟨fun i j c hi hj ci cj => ?_, fun i hi => ?_⟩
  · rw [(hs _).1] at hi hj
    rw [(hs _).2] at ci cj
    exact h.one i j c hi hj ci cj
  · rw [(hs i).1] at hi
    rw [(hs i).2]
    exact h.named i hi

/-- What a slot stands on is the store, the lists, the DRAINING clients and the slots: a step that changes none of them. -/
theorem State.Holds.frame (h : s.Holds x) (hst : t.store = s.store) (hl : ∀ d, t.list d = s.list d)
    (hc : ∀ d, (s.client d).state = .draining → (t.client d).state = .draining) (hs : ∀ j, t.slot j = s.slot j)
    (hb : t.liveBus ⊆ s.liveBus) : t.Holds x := by
  refine h.same x (fun _ => id) hst hl hc (fun d _ hd => ?_) (fun j _ => hs j) (fun j g a b => absurd b a) hb
  rw [State.slotOf_none] at hd ⊢
  intro j
  rw [hs j]
  exact hd j

/-- The same with the clients as they were. -/
theorem State.Holds.frame_clients (h : s.Holds x) (hst : t.store = s.store) (hl : t.unit.lists = s.unit.lists)
    (hc : t.clients = s.clients) (hs : t.slots = s.slots) (hb : t.liveBus ⊆ s.liveBus) : t.Holds x :=
  h.frame hst (fun d => by simp only [State.list, hl]) (fun d => by simp only [State.client, hc]; exact id)
    (fun j => by simp only [State.slot, hs]) hb

/-- The bus is free. -/
theorem State.Holds.clearBus (h : s.Holds x) : s.clearBus.Holds x :=
  h.frame_clients rfl rfl rfl rfl (List.nil_subset _)

@[simp] theorem State.clearBus_liveBus (s : State) : s.clearBus.liveBus = [] := rfl

theorem State.Holds.endFetch (h : s.Holds x) : s.endFetch.Holds x :=
  h.frame_clients rfl rfl rfl rfl (List.nil_subset _)

/-- A FAILED device uses no result, so a live transaction stays live unless the device fails. -/
theorem State.liveBus_of_port (ha : t.arb.bus = s.arb.bus) (hp : s.port.device = .failed → t.port.device = .failed) :
    t.liveBus ⊆ s.liveBus := by
  unfold State.liveBus
  rw [ha]
  split
  · rename_i b _
    by_cases hs : s.port.device = .failed
    · simp [hs, hp hs]
    · cases b.stale <;> by_cases ht : t.port.device = .failed <;> simp [hs, ht]
  · exact List.nil_subset _

/-- The port changes, and a FAILED device stays so. -/
theorem State.Holds.setPort (h : s.Holds x) {p : Port} (hp : s.port.device = .failed → p.device = .failed) :
    (s.setPort p).Holds x :=
  h.frame_clients rfl rfl rfl rfl (State.liveBus_of_port rfl hp)

theorem State.Holds.setLoad (h : s.Holds x) (l : Load) : (s.setLoad l).Holds x :=
  h.frame_clients rfl rfl rfl rfl (List.Subset.refl _)

theorem State.Holds.setIntake (h : s.Holds x) (v : Intake) : (s.setIntake v).Holds x :=
  h.frame_clients rfl rfl rfl rfl (List.Subset.refl _)

theorem State.Holds.setDir (h : s.Holds x) (v : Directory) : (s.setDir v).Holds x :=
  h.frame_clients rfl rfl rfl rfl (List.Subset.refl _)

theorem State.Holds.setUnit (h : s.Holds x) {v : DeliveryUnit} (hv : v.lists = s.unit.lists) : (s.setUnit v).Holds x :=
  h.frame_clients rfl hv rfl rfl (List.Subset.refl _)

theorem State.Holds.enqueue (h : s.Holds x) (y : Txn) : (s.enqueue y).Holds x := h.setUnit rfl

theorem State.Holds.failDevice (h : s.Holds x) (code : DeviceFault) (reason : Option FaultReason) :
    (s.failDevice code reason).Holds x := h.setPort fun _ => rfl

/-- The context of a client changes. A DRAINING client stays so, or is the subject of no teardown outside the slot set aside. -/
theorem State.Holds.setClient (h : s.Holds x) {d : ClientId} {v : Client}
    (hd : (s.client d).state = .draining → v.state = .draining ∨
      ∀ j, some j ≠ x → (s.slot j).state = .performing → ∀ td, (s.slot j).progress = .teardown td → td.subject ≠ d) :
    (s.setClient d v).Holds x := by
  refine ⟨h.records, h.backed, fun j hj => ?_, h.owned, h.scatters⟩
  have hst := h.stands j hj
  rw [State.setClient_slot]
  unfold State.slotStands at hst ⊢
  split at hst
  · rename_i hp
    rw [if_pos hp]
    cases hpr : (s.slot j).progress with
    | teardown td =>
      rw [hpr] at hst
      split at hst
      · simp only [State.commandStands, Bool.and_eq_true, beq_iff_eq] at hst ⊢
        obtain ⟨⟨⟨h1, h2⟩, h3⟩, h4⟩ := hst
        refine ⟨⟨⟨h1, ?_⟩, h3⟩, h4⟩
        by_cases he : td.subject = d
        · subst he
          rw [State.setClient_client_same]
          exact (hd h2).resolve_right fun hn => hn j hj hp td hpr rfl
        · rw [State.setClient_client_other _ he]
          exact h2
      · cases hst
    | _ => rw [hpr] at hst; exact hst
  · rename_i hp
    rw [if_neg hp]
    exact hst

/-- A client's context keeps its state. -/
theorem State.Holds.setClient_state (h : s.Holds x) {d : ClientId} {v : Client} (hv : v.state = (s.client d).state) :
    (s.setClient d v).Holds x := h.setClient fun hd => .inl (hv.trans hd)

/-- A client that is not DRAINING gets another context. -/
theorem State.Holds.setClient_of_ne (h : s.Holds x) {d : ClientId} {v : Client} (hd : (s.client d).state ≠ .draining) :
    (s.setClient d v).Holds x := h.setClient fun e => absurd e hd

theorem State.Holds.endRing (h : s.Holds x) (d : ClientId) (n : OutRingName) : (s.endRing d n).Holds x :=
  h.setClient_state (by simp)

theorem State.Holds.queueNotice (h : s.Holds x) (n : Notice) : (s.queueNotice n).Holds x := by
  unfold State.queueNotice
  split <;> exact h.setUnit rfl

theorem State.Holds.withdrawTail (h : s.Holds x) (d : ClientId) (n : OutRingName) : (s.withdrawTail d n).Holds x := by
  unfold State.withdrawTail
  split
  · exact (h.endRing d n).setUnit rfl
  · exact h

theorem State.Holds.requestFinal (h : s.Holds x) (d : ClientId) : (s.requestFinal d).Holds x := by
  unfold State.requestFinal
  dsimp only
  split
  · exact (h.enqueue _).setClient_state rfl
  · exact h

/-- A client fault (R56) leaves the holdings. -/
theorem State.Holds.clientFault (h : s.Holds x) (d : ClientId) (reason : FaultReason) : (s.clientFault d reason).Holds x := by
  unfold State.clientFault
  split
  · rename_i hatt
    have hne : (s.client d).state ≠ .draining := by rw [hatt]; decide
    split
    · exact (((h.setClient_of_ne hne).failDevice _ _).withdrawTail _ _).withdrawTail _ _
    · exact (((((h.setClient_of_ne hne).setIntake _).queueNotice _).withdrawTail _ _).withdrawTail _ _).requestFinal _
  · exact h

theorem State.Holds.addRefresh (h : s.Holds x) (d : ClientId) : (s.addRefresh d).Holds x := by
  unfold State.addRefresh
  split
  · exact h.setIntake _
  · exact h

theorem State.Holds.claimRing (h : s.Holds x) (d : ClientId) (n : OutRingName) (w : RecordKind) (b : Byte → List Byte) :
    (s.claimRing d n w b).Holds x := by
  have made := fun y => (h.setClient_state (d := d)
    (v := (s.client d).setRing n { (s.client d).ring n with claimed := ((s.client d).ring n).claimed + 1, inFlight := true })
    (by simp)).enqueue y
  unfold State.claimRing
  dsimp only
  split
  · exact (made _).addRefresh d
  · exact made _

/-- A transaction is put on the bus; a scatter is that of a slot that moves data with no growth claim. -/
theorem State.Holds.setArb (h : s.Holds none) {a : Arbiter}
    (hb : ∀ y ∈ (s.setArb a).liveBus, y ∈ s.liveBus ∨ ∀ j, y.op = .scatter j →
      (s.slot j).state = .performing ∧ (s.slot j).undo = none ∧ ∃ m, (s.slot j).progress = .moving m) :
    (s.setArb a).Holds none :=
  ⟨h.records, h.backed, h.stands, h.owned, fun y hy j hop hj =>
    (hb y hy).elim (fun hm => h.scatters y hm j hop hj) fun hn => hn j hop⟩

/-- A pending list loses entries. -/
theorem State.Holds.setList (h : s.Holds x) {d : ClientId} {l : List PendingEntry} (hl : l.Subperm (s.list d)) :
    (s.setList d l).Holds x := by
  have hsub : ∀ e, ((s.setList d l).list e).Subperm (s.list e) := fun e => by
    by_cases he : e = d
    · subst he; rwa [State.setList_list_same]
    · rw [State.setList_list_other _ he]
  have hname : ∀ e y, naming ((s.setList d l).list e) y ≤ naming (s.list e) y := fun e y => (hsub e).countP_le _
  refine h.step x (fun _ => id) h.records (fun e y hy => ?_) (fun j e _ _ _ => ⟨fun y hy => ?_, fun _ _ _ _ => rfl⟩)
    ⟨fun _ => id, fun _ _ => id, fun e _ he => ?_⟩ (fun _ _ => rfl) (fun k => ?_) (List.Subset.refl _)
  · obtain ⟨b1, b2, b3⟩ := h.backed e y ((hsub e).subset hy)
    exact ⟨b1, b2, (hname e _).trans b3⟩
  · rw [State.ownsFree_iff] at hy ⊢
    exact ⟨⟨hy.1, (hname e y).trans_lt hy.2⟩, id⟩
  · have := hsub e
    rw [he] at this
    exact List.subperm_nil.1 this
  · exact (em ((s.store.parcel k).growth = none)).imp id fun hk => ⟨hk, fun j g a b => absurd b a⟩

end Beside

end Sys2Proof.Machine

/-!
PROOF. How the holdings of a sound state pass through the requests that a command makes of the store: undo, drops, opened records,
growths, admissions, the drops of a pending list's entries and the reference walk.
-/

namespace Sys2Proof.Machine

-- Elaborated one after the other: side by side, each declaration holds a thread with memory of its own.
set_option Elab.async false

/-! ### Records that a request leaves alone -/

section Records
variable {t u : Store}

theorem Store.recordsSound.congr (h : t.recordsSound) (hr : u.records = t.records) (ha : u.accounts = t.accounts) :
    u.recordsSound := by
  have hp : ∀ i, u.parcel i = t.parcel i := fun i => by simp only [Store.parcel, hr]
  refine ⟨Store.recordsWf_congr hr h.1, ?_, fun i => by rw [hp]; exact h.2.2 i⟩
  have := h.2.1
  simpa only [Store.accountsAgree, Store.account, Store.heldSum, Store.chargedSum, hr, ha] using this

theorem Store.drop_parcel_other (t : Store) {i j : Nat} (h : j ≠ i) (c : ClientId) (n : Nat) :
    (t.drop i c n).1.parcel j = t.parcel j := by
  unfold Store.drop
  dsimp only
  split
  · rfl
  · split
    · rw [Store.freeParcel_parcel_other _ h, Store.setHeld_parcel, Store.parcel_setParcel_other _ h]
    · rw [Store.setHeld_parcel, Store.parcel_setParcel_other _ h]

/-- A drop starts no growth. -/
theorem Store.drop_growth {i : Nat} (h : (t.parcel i).growth = none) (c : ClientId) (n : Nat) :
    ((t.drop i c n).1.parcel i).growth = none := by
  unfold Store.drop
  dsimp only
  split
  · exact h
  · split
    · rw [Store.freeParcel_parcel]
      rfl
    · rw [Store.setHeld_parcel, Store.parcel_setParcel_same]
      exact h

/-- A drop that leaves a reference changes the two counts and nothing else of the record. -/
theorem Store.drop_parcel {i : Nat} {c : ClientId} {n : Nat} (h : n ≤ (t.parcel i).holder c) (hr : n < (t.parcel i).refCount) :
    (t.drop i c n).1.parcel i = { t.parcel i with
      holders := (t.parcel i).holders.set c.val ((t.parcel i).holder c - n), refCount := (t.parcel i).refCount - n } := by
  obtain ⟨⟨-, -, h3⟩, -⟩ := t.drop_dropsTo h (Nat.le_of_lt hr)
  rw [if_neg (Nat.ne_of_gt hr)] at h3
  exact h3.1

/-- What it leaves of the record's state, generation and holders. -/
theorem Store.drop_keeps {i : Nat} {c : ClientId} {n : Nat} (h : n ≤ (t.parcel i).holder c) (hr : n < (t.parcel i).refCount) :
    ((t.drop i c n).1.parcel i).state = (t.parcel i).state ∧
      ((t.drop i c n).1.parcel i).generation = (t.parcel i).generation ∧
      ∀ d, ((t.drop i c n).1.parcel i).holder d = if d = c then (t.parcel i).holder c - n else (t.parcel i).holder d := by
  rw [Store.drop_parcel h hr]
  exact ⟨rfl, rfl, fun d => Parcel.holder_set _ c _ d rfl⟩

theorem Store.undo_parcel_other (t : Store) (g : GrowthClaim) {j : Nat} (h : j ≠ g.index) :
    (t.undo g).parcel j = t.parcel j := by
  unfold Store.undo
  dsimp only
  split
  · rw [Store.drop_parcel_other _ h, Store.giveBack_parcel, Store.parcel_setParcel_other _ h]
  · rw [Store.giveBack_parcel, Store.parcel_setParcel_other _ h]

theorem Store.undo_growth (t : Store) (g : GrowthClaim) : ((t.undo g).parcel g.index).growth = none := by
  unfold Store.undo
  dsimp only
  split
  · exact Store.drop_growth (by rw [Store.giveBack_parcel, Store.parcel_setParcel_same]) _ _
  · rw [Store.giveBack_parcel, Store.parcel_setParcel_same]

/-- A FREE record has no holder. -/
theorem Parcel.free_holder {p : Parcel} (hs : p.shaped = true) (hc : p.counted = true) (hf : p.state = .free) (c : ClientId) :
    p.holder c = 0 := by
  have := Parcel.counted_le hc c
  simp only [Parcel.shaped, hf, Bool.and_eq_true, beq_iff_eq] at hs
  omega

/-- A CLOSED parcel has no growth in flight. -/
theorem Parcel.closed_growth {p : Parcel} (hs : p.shaped = true) (hc : p.state = .closed) : p.growth = none := by
  simp only [Parcel.shaped, hc, Bool.and_eq_true, Option.isNone_iff_eq_none] at hs
  exact hs.1.2

/-- With no growth in flight a chain has the segments that the length needs (R17). -/
theorem Parcel.chain_length {p : Parcel} (hs : p.shaped = true) (hg : p.growth = none) :
    p.chain.length = chainNeeded p.cls p.headOffset p.length 0 := by
  simp only [Parcel.shaped, hg, Option.getD_none, Bool.and_eq_true, beq_iff_eq] at hs
  exact hs.2

end Records

/-! ### A slot's own command -/

section Acting
variable {s t : State} {i : SlotId} {c : ClientId} {r : PostRecord}

/-- A taken command ends. -/
theorem State.Holds.endTaken (h : s.Holds none) (ha : s.Apart) {k : Nat} (ht : s.takenCommand i k = some (c, r))
    (x : Completion) : (s.formCompletion i x).Holds none := by
  obtain ⟨hn, -, -, hb, h'⟩ := h.taken ht
  exact h'.formCompletion ha hn hb x

/-- A taken command goes on to a stage that stands. -/
theorem State.Holds.goTaken (h : s.Holds none) {k : Nat} (ht : s.takenCommand i k = some (c, r)) {p : Progress}
    (hst : s.commandStands c r none p = true) : (s.setProgress i p).Holds none := by
  obtain ⟨-, hu, -, hb, h'⟩ := h.taken ht
  obtain ⟨-, hp, -, hc, hm, -⟩ := State.takenCommand_iff.1 ht
  exact h'.setProgress hp hc hm (by rw [hu]; exact hst) (.inl hb)

/-- A slot with a growth claim moves data for it (R17, R19). -/
theorem State.Holds.claimed (h : s.Holds none) {g : GrowthClaim} (hu : (s.slot i).undo = some g) :
    ∃ c m, (s.slot i).state = .performing ∧ (s.slot i).client = some c ∧ (s.slot i).progress = .moving m ∧
      s.claimStands c m g = true := by
  have hst := h.stands i (by simp)
  unfold State.slotStands at hst
  split at hst
  · rename_i hp
    split at hst
    · rename_i c r hc _
      rw [hu] at hst
      cases hpr : (s.slot i).progress with
      | moving m =>
        rw [hpr] at hst
        exact ⟨c, m, hp, hc, rfl, hst⟩
      | _ => rw [hpr] at hst; simp [State.commandStands] at hst
    · cases hst
  · simp [hu] at hst

/-- A slot's growth is undone. -/
theorem State.Holds.undo (h : s.Holds none) (ha : s.Apart) {g : GrowthClaim} (hu : (s.slot i).undo = some g) :
    (s.setStore (s.store.undo g)).Holds (some i) := by
  obtain ⟨c, m, hp, hc, -, hcl⟩ := h.claimed hu
  obtain ⟨-, -, -, hb, hch, hh, -, hlen⟩ := State.claimStands_iff.1 hcl
  obtain ⟨hr1, -⟩ := Parcel.building_sole (h.records.2.2 g.index).1 (h.records.2.2 g.index).2 hb
  exact h.actSole ha (by rw [hp]; decide) hc hr1 hh (Store.undo_sound h.records hb hlen)
    (fun j hj => Store.undo_parcel_other _ g hj) (fun _ => rfl) (fun _ => id) (fun _ => ⟨rfl, rfl, fun _ => rfl⟩)
    (List.Subset.refl _) (fun e he hk => absurd hk (h.notNamed (by rw [hb]; decide) c e he))
    (fun g' hg' => .inl (by rw [hu] at hg'; cases hg'; rfl)) (Store.undo_growth _ g)

/-- A slot's undo information is sent to the store. -/
theorem State.Holds.sendUndo (h : s.Holds none) (ha : s.Apart) (i : SlotId) : (s.sendUndo i).Holds (some i) := by
  unfold State.sendUndo
  split
  · rename_i g hu
    exact h.undo ha hu
  · rename_i hu
    exact h.aside hu

theorem State.sendUndo_slots (s : State) (i : SlotId) : (s.sendUndo i).slots = s.slots := by
  unfold State.sendUndo
  split <;> rfl

theorem State.sendUndo_liveBus (s : State) (i : SlotId) : (s.sendUndo i).liveBus = s.liveBus := by
  unfold State.sendUndo
  split <;> rfl

theorem State.sendUndo_slot (s : State) (i j : SlotId) : (s.sendUndo i).slot j = s.slot j := by
  simp only [State.slot, State.sendUndo_slots]

/-- A command is stopped at an abort point (R88). -/
theorem State.Holds.abortSlot (h : s.Holds none) (ha : s.Apart) (hn : (s.slot i).state ≠ .free)
    (hb : ∀ z ∈ s.liveBus, z.op ≠ .scatter i) : (s.abortSlot i).Holds none :=
  (h.sendUndo ha i).freeSlot (ha.congr fun j => by rw [State.sendUndo_slot]; exact ⟨rfl, rfl⟩)
    (by rwa [State.sendUndo_slot]) (by rwa [State.sendUndo_liveBus]) true

theorem State.Holds.abortTaken (h : s.Holds none) (ha : s.Apart) {k : Nat} (ht : s.takenCommand i k = some (c, r)) :
    (s.abortSlot i).Holds none := by
  obtain ⟨hn, -, -, hb, -⟩ := h.taken ht
  exact h.abortSlot ha hn hb

/-- A slot's client drops free references (R8, R120). -/
theorem State.Holds.dropRefs (h : s.Holds none) (ha : s.Apart) (hn : (s.slot i).state ≠ .free) (hc : (s.slot i).client = some c)
    (hu : (s.slot i).undo = none) {y : Handle} {n : Nat} (hl : s.store.live y = true) (h1 : 1 ≤ n)
    (hf : naming (s.list c) y + n ≤ (s.store.parcel (handleIndex y)).holder c) :
    (s.setStore (s.store.drop (handleIndex y) c n).1).Holds (some i) := by
  have hcount := (h.records.2.2 (handleIndex y)).2
  have hle : n ≤ (s.store.parcel (handleIndex y)).holder c := by omega
  have hg := h.noGrowth ha hn hc hu (k := handleIndex y) (by omega)
  refine h.act ha hn hc (k := handleIndex y) (Store.drop_sound h.records _ _ _) (fun j hj => Store.drop_parcel_other _ hj _ _)
    (fun _ => rfl) (fun _ => id) (fun _ => ⟨rfl, rfl, fun _ => rfl⟩) (List.Subset.refl _) (fun d hd hh => ?_) (fun e he hk => ?_)
    (fun g hg' => by rw [hu] at hg'; cases hg') (Store.drop_growth hg _ _)
  · have h2 := Parcel.counted_le_two hcount hd
    obtain ⟨a1, a2, a3⟩ := Store.drop_keeps (t := s.store) hle (by omega)
    exact ⟨a1, a2, (a3 d).trans (if_neg hd), fun e => by omega⟩
  · have hy : e.handle = y := State.handle_ext (h.backed c e he).1 hl hk
    have hpos : 0 < naming (s.list c) y := List.countP_pos_iff.2 ⟨e, he, by simp [hy]⟩
    have h2 := Parcel.counted_le hcount c
    obtain ⟨a1, a2, a3⟩ := Store.drop_keeps (t := s.store) hle (by omega)
    refine ⟨a1, a2, ?_⟩
    rw [State.setStore_store, a3 c, if_pos rfl, hy]
    omega

/-- A request of a slot's client on a FREE record. -/
theorem State.Holds.actFree (h : s.Holds none) (ha : s.Apart) (hn : (s.slot i).state ≠ .free) (hc : (s.slot i).client = some c)
    (hu : (s.slot i).undo = none) {k : Nat} (hf : (s.store.parcel k).state = .free) (hr : t.store.recordsSound)
    (ho : ∀ j, j ≠ k → t.store.parcel j = s.store.parcel j) (hl : t.unit.lists = s.unit.lists) (hcl : t.clients = s.clients)
    (hs : t.slots = s.slots) (hbus : t.liveBus ⊆ s.liveBus) (hg : (t.store.parcel k).growth = none) : t.Holds (some i) := by
  have hslot : ∀ j, t.slot j = s.slot j := fun j => by simp only [State.slot, hs]
  refine h.act ha hn hc hr ho (fun d => by simp only [State.list, hl]) (fun d => by simp only [State.client, hcl]; exact id)
    (fun j => by rw [hslot]; exact ⟨rfl, rfl, fun _ => rfl⟩) hbus (fun d _ hh => ?_) (fun e he hk => ?_)
    (fun g hg' => by rw [hu] at hg'; cases hg') hg
  · exact absurd (Parcel.free_holder (h.records.2.2 k).1 (h.records.2.2 k).2 hf d) hh
  · exact absurd hk (h.notNamed (by rw [hf]; decide) c e he)

/-- What a claim of segments does: the store grows, an arm may clear, and a notice may be queued. -/
theorem State.claimSegments_eq (s : State) (k : Nat) (c : ClientId) (n g : Nat) : ∃ arms unit, unit.lists = s.unit.lists ∧
    s.claimSegments k c n g = (s.setStore { s.store.grow k c n g with arms := arms }).setUnit unit := by
  unfold State.claimSegments State.lowerTest State.queueNotice
  dsimp only
  split
  · exact ⟨_, s.unit, rfl, rfl⟩
  · split
    · split <;> (refine ⟨_, _, ?_, rfl⟩; rfl)
    · exact ⟨_, s.unit, rfl, rfl⟩

section Claimed
variable (s : State) (k : Nat) (c : ClientId) (n g : Nat)

@[simp] theorem State.claimSegments_parcel (j : Nat) :
    (s.claimSegments k c n g).store.parcel j = (s.store.grow k c n g).parcel j := by
  obtain ⟨arms, unit, -, e⟩ := s.claimSegments_eq k c n g
  rw [e]
  rfl
@[simp] theorem State.claimSegments_records : (s.claimSegments k c n g).store.records = (s.store.grow k c n g).records := by
  obtain ⟨arms, unit, -, e⟩ := s.claimSegments_eq k c n g
  rw [e]
  rfl
@[simp] theorem State.claimSegments_accounts : (s.claimSegments k c n g).store.accounts = (s.store.grow k c n g).accounts := by
  obtain ⟨arms, unit, -, e⟩ := s.claimSegments_eq k c n g
  rw [e]
  rfl
@[simp] theorem State.claimSegments_slots : (s.claimSegments k c n g).slots = s.slots := by
  obtain ⟨arms, unit, -, e⟩ := s.claimSegments_eq k c n g
  rw [e]
  rfl
@[simp] theorem State.claimSegments_clients : (s.claimSegments k c n g).clients = s.clients := by
  obtain ⟨arms, unit, -, e⟩ := s.claimSegments_eq k c n g
  rw [e]
  rfl
@[simp] theorem State.claimSegments_lists : (s.claimSegments k c n g).unit.lists = s.unit.lists := by
  obtain ⟨arms, unit, hu, e⟩ := s.claimSegments_eq k c n g
  rw [e]
  exact hu
@[simp] theorem State.claimSegments_liveBus : (s.claimSegments k c n g).liveBus = s.liveBus := by
  obtain ⟨arms, unit, -, e⟩ := s.claimSegments_eq k c n g
  rw [e]
  rfl

@[simp] theorem State.claimSegments_slot (j : SlotId) : (s.claimSegments k c n g).slot j = s.slot j := by
  simp only [State.slot, State.claimSegments_slots]
@[simp] theorem State.claimSegments_client (d : ClientId) : (s.claimSegments k c n g).client d = s.client d := by
  simp only [State.client, State.claimSegments_clients]
@[simp] theorem State.claimSegments_list (d : ClientId) : (s.claimSegments k c n g).list d = s.list d := by
  simp only [State.list, State.claimSegments_lists]

end Claimed

section Committed
variable (s : State) (k : Nat) (b : Bool)

@[simp] theorem State.commitGrowth_slot (j : SlotId) : (s.commitGrowth k b).slot j = s.slot j := rfl
@[simp] theorem State.commitGrowth_client (d : ClientId) : (s.commitGrowth k b).client d = s.client d := rfl
@[simp] theorem State.commitGrowth_list (d : ClientId) : (s.commitGrowth k b).list d = s.list d := rfl
@[simp] theorem State.commitGrowth_liveBus : (s.commitGrowth k b).liveBus = s.liveBus := rfl

end Committed

/-- A growth begins: the slot set aside comes back with its claim on a parcel of which its client is the builder (R17, R19). -/
theorem State.Holds.bringClaim {u : State} (h : s.Holds (some i)) (ha : s.Apart) (hp : (s.slot i).state = .performing)
    (hc : (s.slot i).client = some c) (hm : (s.slot i).command = some r) (hb : ∀ z ∈ s.liveBus, z.op ≠ .scatter i)
    {m : Movement} {g : GrowthClaim} (hs : (s.store.parcel g.index).state = .building)
    (hch : (s.store.parcel g.index).charged = some c) (hr : u.store.recordsSound)
    (ho : ∀ j, j ≠ g.index → u.store.parcel j = s.store.parcel j) (hl : u.unit.lists = s.unit.lists)
    (hcl : u.clients = s.clients) (hsl : u.slots = s.slots) (hbus : u.liveBus = s.liveBus)
    (hst : u.claimStands c m g = true) : (u.startGather i m g).Holds none := by
  obtain ⟨-, d, hd, -, hsole⟩ := Parcel.building_sole (h.records.2.2 g.index).1 (h.records.2.2 g.index).2 hs
  obtain rfl : d = c := by rw [hch] at hd; exact (Option.some.inj hd).symm
  have hi : (u.startGather i m g).slot i = { s.slot i with progress := .moving m, undo := some g } := by
    rw [State.startGather, State.setSlot_slot_same]
    simp only [State.slot, hsl]
  have hslot : ∀ j, j ≠ i → (u.startGather i m g).slot j = s.slot j := fun j hj => by
    rw [State.startGather, State.setSlot_slot_other _ hj]
    simp only [State.slot, hsl]
  have hlist : ∀ e, (u.startGather i m g).list e = s.list e := fun e => congrArg (fun v => v[e.val]) hl
  refine ⟨by simpa using hr, fun e y hy => ?_, fun j _ => ?_, fun l => ?_, fun z hz j hop _ => ?_⟩
  · rw [hlist] at hy ⊢
    obtain ⟨b1, b2, b3⟩ := h.backed e y hy
    have hne : handleIndex y.handle ≠ g.index := fun x => by rw [x, hs] at b2; cases b2
    simp only [Store.live, State.startGather_store, ho _ hne] at b1 ⊢
    exact ⟨b1, b2, b3⟩
  · by_cases hj : j = i
    · subst hj
      rw [hi]
      simp only [State.slotStands, hp, hc, hm, if_true]
      exact hst
    · rw [hslot j hj]
      refine State.Leaves.slotStands ⟨fun e he => ?_, fun e _ hx => ?_, fun e _ hx => (hlist e).trans hx⟩ h.records
        (fun e hpe hce => ?_) (h.stands j (by simpa using hj))
      · rw [← he]
        exact congrArg (fun v => v[e.val].state) hcl
      · rw [State.slotOf_none] at hx ⊢
        intro l
        by_cases hl : l = i
        · subst hl
          rw [hi]
          exact hx l
        · rw [hslot l hl]
          exact hx l
      · have hed : e ≠ d := fun x => hj (ha.one j i d (by rw [hpe]; decide) (by rw [hp]; decide) (x ▸ hce) hc)
        have hother : ∀ l, (s.store.parcel l).holder e ≠ 0 → (u.startGather i m g).store.parcel l = s.store.parcel l :=
          fun l hl => by
            rw [State.startGather_store]
            exact ho l fun x => hed (hsole e (x ▸ hl))
        exact State.leaves_of_records (hlist e) (fun l hl => by rw [hother l hl]; exact ⟨rfl, rfl, rfl⟩)
          (fun l _ _ hl => hother l (by omega))
  · by_cases hl : l = g.index
    · subst hl
      exact .inr ⟨i, g, by simp, by rw [hi], rfl⟩
    · rw [State.startGather_store, ho l hl]
      exact (h.owned l).imp_right fun ⟨j, g', hj, hu, hgi⟩ =>
        ⟨j, g', by simp, by rw [hslot j (by simpa using hj)]; exact hu, hgi⟩
  · have hz' : z ∈ s.liveBus := hbus ▸ hz
    have hj : j ≠ i := fun x => hb z hz' (x ▸ hop)
    rw [hslot j hj]
    exact h.scatters z hz' j hop (by simpa using hj)

/-- A claim of segments for a growth that begins with it (R17). -/
theorem State.Holds.startGather (h : s.Holds (some i)) (ha : s.Apart) (hp : (s.slot i).state = .performing)
    (hc : (s.slot i).client = some c) (hm : (s.slot i).command = some r) (hb : ∀ z ∈ s.liveBus, z.op ≠ .scatter i)
    {m : Movement} {k n g : Nat} {isSend : Bool} (hk : handleIndex m.handle = k) (hlive : s.store.live m.handle = true)
    (hs : (s.store.parcel k).state = .building) (hch : (s.store.parcel k).charged = some c)
    (hg : (s.store.parcel k).growth = none) (hn : n ≤ s.store.freeCount (s.store.parcel k).cls)
    (hlen : (s.store.parcel k).chain.length + n =
      chainNeeded (s.store.parcel k).cls (s.store.parcel k).headOffset (s.store.parcel k).length g) :
    ((s.claimSegments k c n g).startGather i m { index := k, client := c, segments := n, isSend := isSend }).Holds none := by
  obtain ⟨⟨segs, hseg, hpar⟩, hoth, -⟩ := s.store.grow_spec k c g hn
  refine h.bringClaim ha hp hc hm hb hs hch ((Store.grow_sound h.records hs hch hn hlen).congr (by simp) (by simp))
    (fun j hj => by rw [State.claimSegments_parcel]; exact hoth j hj) (by simp) (by simp) (by simp) (by simp)
    (State.claimStands_iff.2 ⟨rfl, hk.symm, ?_, ?_⟩)
  · simpa [Store.live, hk, hpar] using hlive
  · obtain ⟨-, d, hd, hh, -⟩ := Parcel.building_sole (h.records.2.2 k).1 (h.records.2.2 k).2 hs
    obtain rfl : d = c := by rw [hch] at hd; exact (Option.some.inj hd).symm
    have := Parcel.chain_length (h.records.2.2 k).1 hg
    rw [State.claimSegments_parcel, hpar]
    refine ⟨hs, hch, hh, rfl, ?_⟩
    simp only [List.length_append, hseg]
    omega

/-- No more entries name a live parcel than their client holds references on it (R119). -/
theorem State.Holds.naming_le (h : s.Holds none) {y : Handle} (d : ClientId) :
    naming (s.list d) y ≤ (s.store.parcel (handleIndex y)).holder d := by
  rcases Nat.eq_zero_or_pos (naming (s.list d) y) with h0 | h0
  · omega
  · obtain ⟨e, he, hy⟩ := List.countP_pos_iff.1 h0
    have hy : e.handle = y := by simpa using hy
    have := (h.backed d e he).2.2
    rwa [hy] at this

theorem naming_append (l : List PendingEntry) (e : PendingEntry) (y : Handle) :
    naming (l ++ [e]) y = naming l y + if e.handle = y then 1 else 0 := by
  simp [naming, List.countP_append, List.countP_cons]

theorem naming_cons (l : List PendingEntry) (e : PendingEntry) (y : Handle) :
    naming (e :: l) y = naming l y + if e.handle = y then 1 else 0 := by
  simp [naming, List.countP_cons]

/-- An accepted offer: its target wins a reference and an entry that names the parcel (R115, R116). -/
theorem State.Holds.queueOffer (h : s.Holds none) (ha : s.Apart) (hn : (s.slot i).state ≠ .free) (hc : (s.slot i).client = some c)
    (hu : (s.slot i).undo = none) {y : Handle} {d : ClientId} {e : PendingEntry} (hy : e.handle = y)
    (hl : s.store.live y = true) (hcl : (s.store.parcel (handleIndex y)).state = .closed)
    (hc1 : (s.store.parcel (handleIndex y)).holder c ≠ 0) (hroom : (s.store.parcel (handleIndex y)).holder d < 15)
    (hatt : (s.client d).state = .attached) :
    ((s.setStore (s.store.createRef (handleIndex y) d)).setList d (s.list d ++ [e])).Holds (some i) := by
  obtain ⟨hshape, hcount⟩ := h.records.2.2 (handleIndex y)
  have hpar : ∀ j, ((s.store.createRef (handleIndex y) d).parcel j).state = (s.store.parcel j).state ∧
      ((s.store.createRef (handleIndex y) d).parcel j).generation = (s.store.parcel j).generation ∧
      ((s.store.createRef (handleIndex y) d).parcel j).growth = (s.store.parcel j).growth ∧
      ∀ f, ((s.store.createRef (handleIndex y) d).parcel j).holder f =
        (s.store.parcel j).holder f + if f = d ∧ j = handleIndex y then 1 else 0 := by
    intro j
    rw [Store.createRef_parcel]
    split
    · rename_i hj
      subst hj
      refine ⟨rfl, rfl, rfl, fun f => ?_⟩
      rw [Parcel.holder_set _ d _ f rfl]
      by_cases hf : f = d
      · subst hf; simp
      · simp [hf]
    · rename_i hj
      exact ⟨rfl, rfl, rfl, fun f => by simp [hj]⟩
  have hlive : ∀ z, (s.store.createRef (handleIndex y) d).live z = s.store.live z := fun z => by
    simp only [Store.live, (hpar _).1, (hpar _).2.1]
  -- A client's entries that name a live parcel rise by one where its holder count does.
  have hname : ∀ f z, s.store.live z = true → naming (((s.setStore (s.store.createRef (handleIndex y) d)).setList d
      (s.list d ++ [e])).list f) z = naming (s.list f) z + if f = d ∧ handleIndex z = handleIndex y then 1 else 0 := by
    intro f z hz
    by_cases hf : f = d
    · subst hf
      rw [State.setList_list_same, naming_append, hy]
      have : y = z ↔ handleIndex z = handleIndex y := ⟨fun x => by rw [x], fun x => State.handle_ext hl hz x.symm⟩
      simp [this]
    · rw [State.setList_list_other _ hf]
      simp [hf]
  refine h.step (some i) (fun _ _ => by simp) (Store.createRef_sound h.records hcl hroom) (fun f z hz => ?_)
    (fun j f hj hp hcf => ⟨fun z hz => ?_, fun k hk1 hk2 hk3 => ?_⟩)
    ⟨fun _ => id, fun _ _ => id, fun f hdr he => ?_⟩ (fun _ _ => rfl) (fun k => ?_) (List.Subset.refl _)
  · have hzl : s.store.live z.handle = true ∧ (s.store.parcel (handleIndex z.handle)).state = .closed := by
      by_cases hf : f = d
      · subst hf
        rw [State.setList_list_same] at hz
        rcases List.mem_append.1 hz with hz | hz
        · exact ⟨(h.backed f z hz).1, (h.backed f z hz).2.1⟩
        · rw [List.mem_singleton.1 hz, hy]
          exact ⟨hl, hcl⟩
      · rw [State.setList_list_other _ hf] at hz
        exact ⟨(h.backed f z hz).1, (h.backed f z hz).2.1⟩
    refine ⟨by simpa [hlive] using hzl.1, ((hpar _).1).trans hzl.2, ?_⟩
    rw [hname f _ hzl.1, State.setList_store, State.setStore_store, (hpar _).2.2.2 f]
    have := h.naming_le (y := z.handle) f
    omega
  · rw [State.ownsFree_iff] at hz ⊢
    rw [hname f z hz.1, State.setList_store, State.setStore_store, (hpar _).2.2.2 f, hlive]
    exact ⟨⟨hz.1, by omega⟩, fun hx => ((hpar _).1).trans hx⟩
  · have hfc : f ≠ c := fun x => hj (congrArg some (ha.one j i c (by rw [hp]; decide) hn (x ▸ hcf) hc))
    have hk : k ≠ handleIndex y := by
      rintro rfl
      have := Parcel.counted_le_two hcount hfc
      omega
    rw [State.setList_store, State.setStore_store, Store.createRef_parcel, if_neg hk]
  · have hf : f ≠ d := fun x => by rw [x] at hdr; rw [show (s.client d).state = _ from hatt] at hdr; cases hdr
    rw [State.setList_list_other _ hf]
    exact he
  · rw [State.setList_store, State.setStore_store, (hpar k).2.2.1]
    exact (em ((s.store.parcel k).growth = none)).imp id fun hk => ⟨hk, fun j g _ hj hg => by
      cases hj
      rw [hu] at hg
      cases hg⟩

end Acting

/-! ### The drops of a pending list's entries (R126, R135) -/

/-- What a client stands on is left, so far as no entry names it: the live parcels of which it has a free reference, unchanged if it
holds the only one, and those that it builds. (`State.Leaves` asks more, which the drop of a client's own entry does not give.) -/
structure State.LeavesFree (s t : State) (c : ClientId) : Prop where
  owns : ∀ y, s.ownsFree c y = true → t.ownsFree c y = true ∧
    ((s.store.parcel (handleIndex y)).state = .closed → (t.store.parcel (handleIndex y)).state = .closed)
  sole : ∀ y, s.ownsFree c y = true → (s.store.parcel (handleIndex y)).refCount = 1 →
    t.store.parcel (handleIndex y) = s.store.parcel (handleIndex y)
  builds : ∀ k, (s.store.parcel k).state = .building → t.store.parcel k = s.store.parcel k

section Entries
variable {s t : State} {x : Option SlotId} {c d : ClientId} {r : PostRecord}

theorem State.LeavesFree.routes (h : s.LeavesFree t c) {y : Handle} {b : Bool} (ho : s.routes c r y b = true) :
    t.routes c r y b = true := by
  simp only [State.routes, Bool.and_eq_true, beq_iff_eq, Bool.or_eq_true, bne_iff_ne] at ho ⊢
  obtain ⟨⟨h1, h2⟩, h3⟩ := ho
  obtain ⟨o1, o2⟩ := h.owns y h1
  refine ⟨⟨o1, o2 h2⟩, h3.imp_right fun ⟨a, b⟩ => ?_⟩
  rw [h.sole y h1 a]
  exact ⟨a, b⟩

/-- A teardown stands where the clients, slots and lists are left to it. -/
theorem State.LeavesTeardowns.teardownStands (ht : s.LeavesTeardowns t) {u : Option GrowthClaim} {td : Teardown}
    (ho : s.commandStands c r u (.teardown td) = true) : t.commandStands c r u (.teardown td) = true := by
  simp only [State.commandStands, Bool.and_eq_true, Bool.or_eq_true, beq_iff_eq] at ho ⊢
  obtain ⟨⟨⟨h1, h2⟩, h3⟩, h4⟩ := ho
  refine ⟨⟨⟨h1, ht.draining _ h2⟩, h3.imp_right (ht.slotless _ h2)⟩, ?_⟩
  cases hst : td.stage with
  | walk k => rw [hst] at h4; simpa using ht.emptied _ h2 (by simpa using h4)
  | complete => rw [hst] at h4; simpa using ht.emptied _ h2 (by simpa using h4)
  | _ => rfl

theorem State.LeavesFree.commandStands (h : s.LeavesFree t c) (ht : s.LeavesTeardowns t) {u : Option GrowthClaim} {p : Progress}
    (ho : s.commandStands c r u p = true) : t.commandStands c r u p = true := by
  cases p with
  | moving m =>
    cases u with
    | some g =>
      obtain ⟨h1, h2, h3, h4, h5⟩ := State.claimStands_iff.1 ho
      have e := h.builds g.index h4
      refine State.claimStands_iff.2 ⟨h1, h2, ?_, by rw [e]; exact ⟨h4, h5⟩⟩
      rw [h2] at e
      simpa only [Store.live, e] using h3
    | none => exact (h.owns m.handle ho).1
  | toLookup y n =>
    simp only [State.commandStands, Bool.and_eq_true] at ho ⊢
    exact ⟨ho.1, h.routes ho.2⟩
  | offering q =>
    simp only [State.commandStands, Bool.and_eq_true] at ho ⊢
    exact ⟨ho.1, h.routes ho.2⟩
  | settling q =>
    simp only [State.commandStands, Bool.and_eq_true, Bool.or_eq_true] at ho ⊢
    exact ⟨ho.1, ho.2.imp_right h.routes⟩
  | dropAfter y n k =>
    simp only [State.commandStands, Bool.and_eq_true] at ho ⊢
    exact ⟨ho.1, (h.owns y ho.2).1⟩
  | teardown td => exact ht.teardownStands ho
  | _ => exact ho

/-- The drop of one entry of a pending list with the reference it stands for. -/
theorem State.Holds.dropEntry (h : s.Holds x) {e : PendingEntry} {rest : List PendingEntry} (hp : (s.list d).Perm (e :: rest)) :
    ((s.setStore (s.store.drop (handleIndex e.handle) d 1).1).setList d rest).Holds x := by
  have hsub : ∀ z, z ∈ rest → z ∈ s.list d := fun z hz => hp.mem_iff.2 (List.mem_cons_of_mem _ hz)
  have hname : ∀ y, naming (s.list d) y = naming rest y + if e.handle = y then 1 else 0 := fun y =>
    (hp.countP_eq _).trans (naming_cons rest e y)
  obtain ⟨hl, hcl, hle⟩ := h.backed d e (hp.mem_iff.2 List.mem_cons_self)
  rw [hname, if_pos rfl] at hle
  obtain ⟨hshape, hcount⟩ := h.records.2.2 (handleIndex e.handle)
  have hother : ∀ j, j ≠ handleIndex e.handle →
      (s.store.drop (handleIndex e.handle) d 1).1.parcel j = s.store.parcel j := fun j hj => Store.drop_parcel_other _ hj d 1
  have hlist : ∀ f, f ≠ d → ((s.setStore (s.store.drop (handleIndex e.handle) d 1).1).setList d rest).list f = s.list f :=
    fun f hf => State.setList_list_other _ hf _
  -- Where a reference is left, the record keeps its state and generation, and only the client's own count falls.
  have hkeep : ∀ f, (s.store.parcel (handleIndex e.handle)).holder f ≠ 0 →
      (f = d → 2 ≤ (s.store.parcel (handleIndex e.handle)).holder d) →
      2 ≤ (s.store.parcel (handleIndex e.handle)).refCount := by
    intro f h1 h2
    by_cases hf : f = d
    · have := Parcel.counted_le hcount d
      have := h2 hf
      omega
    · have := Parcel.counted_le_two hcount hf
      omega
  have hdrop := fun hr : 2 ≤ (s.store.parcel (handleIndex e.handle)).refCount =>
    Store.drop_keeps (t := s.store) (i := handleIndex e.handle) (c := d) (n := 1) (by omega) (by omega)
  have hlive : 2 ≤ (s.store.parcel (handleIndex e.handle)).refCount →
      (s.store.drop (handleIndex e.handle) d 1).1.live e.handle = true := fun hr => by
    simp only [Store.live, (hdrop hr).1, (hdrop hr).2.1] at hl ⊢
    exact hl
  -- Entries and free references that name the parcel are backed by a reference that is left.
  have hback : ∀ f y, s.store.live y = true → handleIndex y = handleIndex e.handle →
      (f = d → 2 ≤ (s.store.parcel (handleIndex e.handle)).holder d) →
      (s.store.parcel (handleIndex e.handle)).holder f ≠ 0 →
      y = e.handle ∧ (s.store.drop (handleIndex e.handle) d 1).1.live y = true ∧
        ((s.store.drop (handleIndex e.handle) d 1).1.parcel (handleIndex y)).state = .closed ∧
        ∀ n, n + (if f = d then 1 else 0) ≤ (s.store.parcel (handleIndex y)).holder f →
          n ≤ ((s.store.drop (handleIndex e.handle) d 1).1.parcel (handleIndex y)).holder f := by
    intro f y hy hk h2 h0
    obtain rfl := State.handle_ext hy hl hk
    have hr := hkeep f h0 h2
    refine ⟨rfl, hlive hr, (hdrop hr).1.trans hcl, fun n hn => ?_⟩
    rw [(hdrop hr).2.2 f]
    split
    · rename_i hf
      subst hf
      rw [if_pos rfl] at hn
      omega
    · rename_i hf
      rw [if_neg hf] at hn
      exact hn
  have hnot : ∀ y, s.store.live y = true → handleIndex y ≠ handleIndex e.handle → e.handle ≠ y := fun y _ hk x => hk (by rw [x])
  have hfree : ∀ f, s.LeavesFree ((s.setStore (s.store.drop (handleIndex e.handle) d 1).1).setList d rest) f := by
    intro f
    refine ⟨fun y hy => ?_, fun y hy hr => ?_, fun k hk => hother k fun x => by rw [x, hcl] at hk; cases hk⟩
    · rw [State.ownsFree_iff] at hy ⊢
      by_cases hk : handleIndex y = handleIndex e.handle
      · have hy' : y = e.handle := State.handle_ext hy.1 hl hk
        by_cases hf : f = d
        · subst hf
          have hn := hname y
          rw [if_pos hy'.symm] at hn
          obtain ⟨-, b1, b2, b3⟩ := hback f y hy.1 hk (fun _ => by rw [← hk]; omega) (by rw [← hk]; omega)
          refine ⟨⟨b1, ?_⟩, fun _ => b2⟩
          rw [State.setList_list_same]
          exact b3 (naming rest y + 1) (by simp; omega)
        · obtain ⟨-, b1, b2, b3⟩ := hback f y hy.1 hk (fun e => absurd e hf) (by rw [← hk]; omega)
          refine ⟨⟨b1, ?_⟩, fun _ => b2⟩
          rw [hlist f hf]
          exact b3 (naming (s.list f) y + 1) (by rw [if_neg hf]; omega)
      · simp only [State.setList_store, State.setStore_store, Store.live, hother _ hk] at hy ⊢
        refine ⟨⟨hy.1, ?_⟩, id⟩
        by_cases hf : f = d
        · subst hf
          rw [State.setList_list_same]
          have := hname y
          omega
        · rw [hlist f hf]
          exact hy.2
    · rw [State.ownsFree_iff] at hy
      refine hother _ fun hk => ?_
      have hy' : y = e.handle := State.handle_ext hy.1 hl hk
      rw [hk] at hr hy
      have := hkeep f (by omega) (fun hf => by
        subst hf
        have hn := hname y
        rw [if_pos hy'.symm] at hn
        omega)
      omega
  have hdown : s.LeavesTeardowns ((s.setStore (s.store.drop (handleIndex e.handle) d 1).1).setList d rest) := by
    refine ⟨fun _ => id, fun _ _ => id, fun f _ hf => ?_⟩
    by_cases hfd : f = d
    · subst hfd
      rw [hf] at hp
      exact absurd hp.symm.eq_nil (by simp)
    · rw [hlist f hfd]
      exact hf
  refine ⟨Store.drop_sound h.records _ _ _, fun f z hz => ?_, fun j hj => ?_, fun k => ?_, h.scatters⟩
  · by_cases hf : f = d
    · subst hf
      rw [State.setList_list_same] at hz ⊢
      obtain ⟨b1, b2, b3⟩ := h.backed f z (hsub z hz)
      have hpos : 0 < naming rest z.handle := List.countP_pos_iff.2 ⟨z, hz, by simp⟩
      rw [hname] at b3
      by_cases hk : handleIndex z.handle = handleIndex e.handle
      · have hy' : z.handle = e.handle := State.handle_ext b1 hl hk
        rw [if_pos hy'.symm] at b3
        obtain ⟨-, c1, c2, c3⟩ := hback f z.handle b1 hk (fun _ => by rw [← hk]; omega) (by rw [← hk]; omega)
        exact ⟨c1, c2, c3 _ (by simpa using b3)⟩
      · simp only [State.setList_store, State.setStore_store, Store.live, hother _ hk] at b1 ⊢
        exact ⟨b1, b2, by omega⟩
    · rw [hlist f hf] at hz ⊢
      obtain ⟨b1, b2, b3⟩ := h.backed f z hz
      have hpos : 0 < naming (s.list f) z.handle := List.countP_pos_iff.2 ⟨z, hz, by simp⟩
      by_cases hk : handleIndex z.handle = handleIndex e.handle
      · obtain ⟨-, c1, c2, c3⟩ := hback f z.handle b1 hk (fun e => absurd e hf) (by rw [← hk]; omega)
        exact ⟨c1, c2, c3 _ (by rw [if_neg hf]; exact b3)⟩
      · simp only [State.setList_store, State.setStore_store, Store.live, hother _ hk] at b1 ⊢
        exact ⟨b1, b2, b3⟩
  · have hst := h.stands j hj
    unfold State.slotStands at hst ⊢
    rw [State.setList_slot, State.setStore_slot]
    split at hst
    · rename_i hpf
      rw [if_pos hpf]
      split at hst
      · exact (hfree _).commandStands hdown hst
      · cases hst
    · rename_i hpf
      rw [if_neg hpf]
      exact hst
  · by_cases hk : k = handleIndex e.handle
    · subst hk
      exact .inl (Store.drop_growth (Parcel.closed_growth hshape hcl) d 1)
    · rw [State.setList_store, State.setStore_store, hother k hk]
      exact h.owned k

/-- The drops of some of a list's entries, the others kept. -/
theorem State.Holds.dropEntries {old kept : List PendingEntry} (h : s.Holds x) (hp : (s.list d).Perm (old ++ kept)) :
    ((s.setStore (s.store.dropEntries d old).1).setList d kept).Holds x := by
  induction old generalizing s with
  | nil => exact h.setList hp.symm.subperm
  | cons e rest ih =>
    have := ih (h.dropEntry (rest := rest ++ kept) hp) (by rw [State.setList_list_same])
    simpa [Store.dropEntries, State.setList, State.setStore, State.setUnit] using this

/-! ### The reference walk (R27) -/

/-- A visit leaves what every other client stands on. -/
theorem State.Holds.visit {i : SlotId} (h : s.Holds (some i)) {k : Nat} (hl : s.list d = [])
    (hs : ∀ j, j ≠ i → (s.slot j).state = .free ∨ (s.slot j).client ≠ some d) :
    (s.setStore (s.store.visit d k).1).Holds (some i) := by
  by_cases hf : (s.store.parcel k).state = .free
  · have : s.store.visit d k = (s.store, 0, false) := by simp only [Store.visit, hf, if_true]
    rw [this]
    exact h
  obtain ⟨hshape, hcount⟩ := h.records.2.2 k
  have hpos : 0 < (s.store.parcel k).refCount := by
    unfold Parcel.shaped at hshape
    cases hx : (s.store.parcel k).state <;> simp only [hx, Bool.and_eq_true, beq_iff_eq, decide_eq_true_eq] at hshape
    · exact absurd hx hf
    · omega
    · omega
  obtain ⟨-, -, hother, hfreed, hkept⟩ := s.store.visit_spec d k rfl hf (Parcel.counted_le hcount d) hpos
  have hne : ∀ f, f ≠ d → (s.store.parcel k).holder f ≠ 0 → (s.store.parcel k).holder d ≠ (s.store.parcel k).refCount :=
    fun f hfd h0 e => by
      have := Parcel.counted_le_two hcount hfd
      omega
  have hkeep : ∀ f, f ≠ d → ∀ j, (s.store.parcel j).holder f ≠ 0 →
      ((s.store.visit d k).1.parcel j).state = (s.store.parcel j).state ∧
      ((s.store.visit d k).1.parcel j).generation = (s.store.parcel j).generation ∧
      ((s.store.visit d k).1.parcel j).holder f = (s.store.parcel j).holder f := by
    intro f hfd j h0
    by_cases hj : j = k
    · subst hj
      rw [(hkept (hne f hfd h0)).1]
      exact ⟨rfl, rfl, (Parcel.holder_set _ d 0 f rfl).trans (if_neg hfd)⟩
    · rw [hother j hj]
      exact ⟨rfl, rfl, rfl⟩
  refine h.step (some i) (fun _ => id) (Store.visit_sound h.records d k) (fun f e he => ?_) (fun j f hj hp hcf => ?_)
    ⟨fun _ => id, fun _ _ => id, fun _ _ => id⟩ (fun _ _ => rfl) (fun j => ?_) (List.Subset.refl _)
  · have hfd : f ≠ d := fun e' => by rw [e', State.setStore_list, hl] at he; cases he
    obtain ⟨b1, b2, b3⟩ := h.backed f e he
    have hpos : 0 < naming (s.list f) e.handle := List.countP_pos_iff.2 ⟨e, he, by simp⟩
    obtain ⟨a1, a2, a3⟩ := hkeep f hfd (handleIndex e.handle) (by omega)
    simp only [State.setStore_store, State.setStore_list, Store.live, a1, a2, a3] at b1 ⊢
    exact ⟨b1, b2, b3⟩
  · have hfd : f ≠ d := by
      rintro rfl
      rcases hs j (by simpa using hj) with e | e
      · rw [hp] at e; cases e
      · exact e hcf
    refine State.leaves_of_records rfl (hkeep f hfd) (fun l hl1 hl2 hl3 => ?_)
    by_cases hlk : l = k
    · subst hlk
      have hz : (s.store.parcel l).holder d = 0 := by
        have := Parcel.counted_le_two hcount hfd
        omega
      rw [State.setStore_store, (hkept (by omega)).1, hz, hl2, if_neg (by simpa using hfd)]
      have hv : (s.store.parcel l).holders.set d.val 0 = (s.store.parcel l).holders := by
        have e : (s.store.parcel l).holders[d.val] = 0 := hz
        conv_rhs => rw [← Vector.set_getElem_self (xs := (s.store.parcel l).holders) (i := d.val) (hi := d.isLt)]
        rw [e]
      rw [hv, ← hl2]
      rfl
    · exact hother l hlk
  · rw [State.setStore_store]
    by_cases hj : j = k
    · subst hj
      by_cases he : (s.store.parcel j).holder d = (s.store.parcel j).refCount
      · have := (hfreed he).2.2
        rw [if_pos he.symm] at this
        exact .inl this.1.2.2.2.2.1
      · rw [(hkept he).1]
        exact (em ((s.store.parcel j).growth = none)).imp id fun hg => ⟨hg, fun l g a b => absurd b a⟩
    · rw [hother j hj]
      exact (em ((s.store.parcel j).growth = none)).imp id fun hg => ⟨hg, fun l g a b => absurd b a⟩

end Entries

end Sys2Proof.Machine

/-!
PROOF. The second half of O57, command by command: each leads from a state that holds to one that holds. Here the lemmas that the
commands share, and OPEN, APPEND, CUT and DISPATCH.
-/

namespace Sys2Proof.Machine

-- Elaborated one after the other: side by side, each declaration holds a thread with memory of its own.
set_option Elab.async false

section Parcels
variable {s t : State} {i : SlotId} {c : ClientId} {r : PostRecord}

/-! ### What the commands of a slot find -/

theorem State.Apart.setStore (ha : s.Apart) (v : Store) : (s.setStore v).Apart := ha.congr fun _ => ⟨rfl, rfl⟩
theorem State.Apart.clearBus (ha : s.Apart) : s.clearBus.Apart := ha.congr fun _ => ⟨rfl, rfl⟩

theorem chainNeeded_le (k : SegClass) (offset n g : Nat) : chainNeeded k offset n 0 ≤ chainNeeded k offset n g := by
  simp only [chainNeeded_eq]
  split
  · exact Nat.zero_le _
  · rw [if_neg (by omega)]
    exact Nat.div_le_div_right (by omega)

theorem handleIndex_makeHandle {g : BitVec 6} {k : Nat} (hk : k < 1024) : handleIndex (makeHandle g k) = k := by
  have := g.isLt
  rw [handleIndex_eq, makeHandle, BitVec.toNat_ofNat]
  omega

theorem handleGeneration_makeHandle {g : BitVec 6} {k : Nat} (hk : k < 1024) : handleGeneration (makeHandle g k) = g := by
  have := g.isLt
  apply BitVec.eq_of_toNat_eq
  rw [handleGeneration_toNat, makeHandle, BitVec.toNat_ofNat]
  omega

theorem Store.live_makeHandle {u : Store} {g : BitVec 6} {k : Nat} (hk : k < 1024) : u.live (makeHandle g k) = true ↔
    (u.parcel k).state ≠ .free ∧ (u.parcel k).generation = g := by
  simp [Store.live, handleIndex_makeHandle hk, handleGeneration_makeHandle hk]

theorem State.freeRefs_iff {y : Handle} {n : Nat} (hn : 1 ≤ n) :
    ¬ s.freeRefs c y < n ↔ naming (s.list c) y + n ≤ (s.store.parcel (handleIndex y)).holder c := by
  unfold State.freeRefs
  omega

/-- A parcel of which a client has a free reference, by the checks of a command. -/
theorem State.ownsFree_of {y : Handle} (hr : s.store.resolve y c = none) (hf : ¬ s.freeRefs c y < 1) : s.ownsFree c y = true :=
  State.ownsFree_iff.2 ⟨(Store.resolve_none_iff.1 hr).1, (State.freeRefs_iff (Nat.le_refl 1)).1 hf⟩

/-- No entry names a parcel that is not CLOSED. -/
theorem State.Holds.naming_zero (h : s.Holds none) {y : Handle} (hy : (s.store.parcel (handleIndex y)).state ≠ .closed)
    (d : ClientId) : naming (s.list d) y = 0 := by
  refine List.countP_eq_zero.2 fun e he => ?_
  have := h.notNamed hy d e he
  simp only [beq_iff_eq]
  exact fun x => this (by rw [x])

/-- A client that has resolved a parcel which is not CLOSED is its builder, and no growth is in flight. -/
theorem State.Holds.builder (h : s.Holds none) (ha : s.Apart) (hn : (s.slot i).state ≠ .free) (hc : (s.slot i).client = some c)
    (hu : (s.slot i).undo = none) {y : Handle} (hr : s.store.resolve y c = none)
    (hs : (s.store.parcel (handleIndex y)).state ≠ .closed) :
    s.store.live y = true ∧ (s.store.parcel (handleIndex y)).state = .building ∧
      (s.store.parcel (handleIndex y)).charged = some c ∧ (s.store.parcel (handleIndex y)).holder c = 1 ∧
      (s.store.parcel (handleIndex y)).refCount = 1 ∧ (s.store.parcel (handleIndex y)).growth = none := by
  obtain ⟨hl, hh⟩ := Store.resolve_none_iff.1 hr
  have hb : (s.store.parcel (handleIndex y)).state = .building := by
    have := (Store.live_iff.1 hl).1
    cases hx : (s.store.parcel (handleIndex y)).state with
    | building => rfl
    | free => exact absurd hx this
    | closed => exact absurd hx hs
  obtain ⟨h1, d, h2, h3, h4⟩ := Parcel.building_sole (h.records.2.2 _).1 (h.records.2.2 _).2 hb
  obtain rfl := h4 c hh
  exact ⟨hl, hb, h2, h3, h1, h.noGrowth ha hn hc hu hh⟩

/-- A slot set aside is given other contents, its client and its occupation as they were. -/
theorem State.Holds.setSlot_aside (h : s.Holds (some i)) {v : Slot} (hc : v.client = (s.slot i).client)
    (hn : (s.slot i).state ≠ .free) : (s.setSlot i v).Holds (some i) := by
  have hso : ∀ j, some j ≠ some i → (s.setSlot i v).slot j = s.slot j :=
    fun j hj => State.setSlot_slot_other _ (by simpa using hj) _
  refine h.same (some i) (fun _ => id) rfl (fun _ => rfl) (fun _ => id) (fun d _ hd => ?_) hso (fun j g a b => absurd b a)
    (List.Subset.refl _)
  rw [State.slotOf_none] at hd ⊢
  intro j
  by_cases hj : j = i
  · subst hj
    rw [State.setSlot_slot_same, hc]
    exact .inr ((hd j).resolve_left hn)
  · rw [hso j (by simpa using hj)]
    exact hd j

/-- A slot is given other contents that stand as well, its client, its occupation and its growth claim as they were. -/
theorem State.Holds.setSlot_stands (h : s.Holds none) {v : Slot} (hc : v.client = (s.slot i).client)
    (hn : (s.slot i).state ≠ .free) (hu : v.undo = (s.slot i).undo) (hst : s.slotStands v = true)
    (hsc : ∀ z ∈ s.liveBus, z.op = .scatter i → v.state = .performing ∧ v.undo = none ∧ ∃ m, v.progress = .moving m) :
    (s.setSlot i v).Holds none := by
  have hso : ∀ j, j ≠ i → (s.setSlot i v).slot j = s.slot j := fun j hj => State.setSlot_slot_other _ hj _
  have hdown : s.LeavesTeardowns (s.setSlot i v) := by
    refine ⟨fun _ => id, fun d _ hd => ?_, fun _ _ => id⟩
    rw [State.slotOf_none] at hd ⊢
    intro j
    by_cases hj : j = i
    · subst hj
      rw [State.setSlot_slot_same, hc]
      exact .inr ((hd j).resolve_left hn)
    · rw [hso j hj]
      exact hd j
  have hleaves : ∀ d, s.Leaves (s.setSlot i v) d :=
    fun d => State.leaves_of_records rfl (fun _ _ => ⟨rfl, rfl, rfl⟩) (fun _ _ _ _ => rfl)
  have hundo : ∀ j, ((s.setSlot i v).slot j).undo = (s.slot j).undo := fun j => by
    by_cases hj : j = i
    · subst hj
      rw [State.setSlot_slot_same, hu]
    · rw [hso j hj]
  refine ⟨h.records, h.backed, fun j _ => ?_, fun k => ?_, fun z hz j hop _ => ?_⟩
  · by_cases hj : j = i
    · subst hj
      rw [State.setSlot_slot_same]
      exact State.Leaves.slotStands hdown h.records (fun d _ _ => hleaves d) hst
    · rw [hso j hj]
      exact State.Leaves.slotStands hdown h.records (fun d _ _ => hleaves d) (h.stands j (by simp))
  · simp only [hundo]
    exact h.owned k
  · by_cases hj : j = i
    · subst hj
      rw [State.setSlot_slot_same]
      exact hsc z hz hop
    · rw [hso j hj]
      exact h.scatters z hz j hop (by simp)

/-- What the command of a performing slot stands on. -/
theorem State.Holds.performs (h : s.Holds none) (hp : s.performing i = some (c, r)) {u : Option GrowthClaim} {p : Progress}
    (hu : (s.slot i).undo = u) (hpr : (s.slot i).progress = p) : s.commandStands c r u p = true := by
  have := h.performed hp
  rwa [hu, hpr] at this

/-- A performing slot goes on to a stage that stands, its growth claim as it was. -/
theorem State.Holds.goOn (h : s.Holds none) (hp : s.performing i = some (c, r)) {u : Option GrowthClaim} {p : Progress}
    (hu : (s.slot i).undo = u) (hst : s.commandStands c r u p = true)
    (hsc : (∀ z ∈ s.liveBus, z.op ≠ .scatter i) ∨ u = none ∧ ∃ m, p = .moving m) : (s.setProgress i p).Holds none := by
  obtain ⟨-, hp, hc, hm⟩ := State.performing_iff.1 hp
  subst hu
  refine h.setSlot_stands rfl (by rw [hp]; decide) rfl ?_ (fun z hz hop => ?_)
  · simp only [State.slotStands, hp, hc, hm, if_true]
    exact hst
  · rcases hsc with hsc | ⟨a, b⟩
    · exact absurd hop (hsc z hz)
    · exact ⟨hp, a, b⟩

/-- The command of a performing slot with no growth claim ends. -/
theorem State.Holds.endPerforming (h : s.Holds none) (ha : s.Apart) (hp : s.performing i = some (c, r))
    (hu : (s.slot i).undo = none) (hb : ∀ z ∈ s.liveBus, z.op ≠ .scatter i) (x : Completion) :
    (s.formCompletion i x).Holds none :=
  (h.aside hu).formCompletion ha (by rw [(State.performing_iff.1 hp).2.1]; decide) hb x

/-- A performing slot is stopped at an abort point. -/
theorem State.Holds.abortPerforming (h : s.Holds none) (ha : s.Apart) (hp : s.performing i = some (c, r))
    (hb : ∀ z ∈ s.liveBus, z.op ≠ .scatter i) : (s.abortSlot i).Holds none :=
  h.abortSlot ha (by rw [(State.performing_iff.1 hp).2.1]; decide) hb

/-! ### Building and sending -/

/-- A record is set up as a BUILDING parcel of a slot's client (R3). -/
theorem State.Holds.opened (h : s.Holds none) (ha : s.Apart) (hn : (s.slot i).state ≠ .free) (hc : (s.slot i).client = some c)
    (hu : (s.slot i).undo = none) {k : Nat} (hf : (s.store.parcel k).state = .free) (cls : SegClass) :
    (s.setStore (s.store.openRecord k cls c)).Holds (some i) :=
  h.actFree ha hn hc hu hf (Store.openRecord_sound h.records hf cls c)
    (fun j hj => by rw [State.setStore_store, Store.openRecord_parcel, if_neg hj]) rfl rfl rfl (List.Subset.refl _)
    (by rw [State.setStore_store, Store.openRecord_parcel, if_pos rfl])

theorem execOpen_holds (h : s.Holds none) (ha : s.Apart) (i : SlotId) : leadsTo (fun t => t.Holds none) (execOpen i s) := by
  unfold execOpen
  split
  · exact h
  · rename_i c r ht
    obtain ⟨hn, hu, -, hb, -⟩ := h.taken ht
    have hc := (State.takenCommand_iff.1 ht).2.2.2.1
    split
    · exact h.abortTaken ha ht
    · rw [leadsTo_next]
      unfold State.openStep
      split
      · exact h.endTaken ha ht _
      · rename_i k hk
        have opened := h.opened ha hn hc hu (Store.recordChecks_free hk).2 r.openClass
        exact opened.formCompletion (ha.setStore _) hn hb _

theorem State.Holds.appendClaim (h : s.Holds none) (ha : s.Apart) (ht : s.takenCommand i 2 = some (c, r)) (fr : List Accepted) :
    (s.appendClaim i c r fr).Holds none := by
  obtain ⟨hn, hu, -, hb, -⟩ := h.taken ht
  obtain ⟨-, hp, -, hc, hm, -⟩ := State.takenCommand_iff.1 ht
  unfold State.appendClaim
  dsimp only
  split
  · exact h.endTaken ha ht _
  · rename_i hres
    split
    · exact h.endTaken ha ht _
    · rename_i hncl
      split
      · exact h.endTaken ha ht _
      · rename_i hchk
        obtain ⟨hl, hbd, hch, hh, hr1, hg⟩ := h.builder ha hn hc hu hres hncl
        have hroom := Store.segmentChecks_none hchk
        have hlen := Parcel.chain_length (h.records.2.2 (handleIndex r.handle)).1 hg
        have hle := chainNeeded_le (s.store.parcel (handleIndex r.handle)).cls (s.store.parcel (handleIndex r.handle)).headOffset
          (s.store.parcel (handleIndex r.handle)).length r.totalLength
        have hsum : (s.store.parcel (handleIndex r.handle)).chain.length +
            (chainNeeded (s.store.parcel (handleIndex r.handle)).cls (s.store.parcel (handleIndex r.handle)).headOffset
              (s.store.parcel (handleIndex r.handle)).length r.totalLength -
              (s.store.parcel (handleIndex r.handle)).chain.length) =
            chainNeeded (s.store.parcel (handleIndex r.handle)).cls (s.store.parcel (handleIndex r.handle)).headOffset
              (s.store.parcel (handleIndex r.handle)).length r.totalLength := by omega
        split
        · -- No byte is claimed: the growth is committed at once (R18).
          generalize hneed : chainNeeded (s.store.parcel (handleIndex r.handle)).cls _ _ r.totalLength - _ = need at *
          obtain ⟨⟨segs, -, hpar⟩, hoth, -⟩ := s.store.grow_spec (handleIndex r.handle) c r.totalLength hroom
          have grown := (Store.grow_sound h.records hbd hch hroom hsum).congr
            (State.claimSegments_records s (handleIndex r.handle) c need r.totalLength)
            (State.claimSegments_accounts s (handleIndex r.handle) c need r.totalLength)
          have committed := Store.commit_sound grown (i := handleIndex r.handle)
            (by rw [State.claimSegments_parcel, hpar]; exact hbd) false
          have done : ((s.claimSegments (handleIndex r.handle) c need r.totalLength).commitGrowth
              (handleIndex r.handle) false).Holds (some i) :=
            h.actSole ha hn hc hr1 hh (by rw [State.commitGrowth_store]; exact committed)
              (fun j hj => by
                rw [State.commitGrowth_store, Store.commit_parcel, if_neg hj, State.claimSegments_parcel, hoth j hj])
              (by simp) (by simp) (by simp) (by simp)
              (fun e he hk => absurd hk (h.notNamed hncl c e he))
              (fun g' hg' => by rw [hu] at hg'; cases hg')
              (by rw [State.commitGrowth_store, Store.commit_parcel, if_pos rfl])
          exact done.formCompletion (ha.congr (by simp)) (by simpa using hn) (by simpa using hb) _
        · exact (h.aside hu).startGather ha hp hc hm hb rfl hl hbd hch hg hroom hsum

theorem execAppend_holds (h : s.Holds none) (ha : s.Apart) (i : SlotId) :
    leadsTo (fun t => t.Holds none) (execAppend i s) := by
  unfold execAppend
  split
  · exact h
  · rename_i c r ht
    split
    · exact h.endTaken ha ht _
    · rename_i fr _
      split
      · exact h.abortTaken ha ht
      · exact h.appendClaim ha ht fr

/-- A request of the builder of a parcel with no growth in flight. -/
theorem State.Holds.actBuilder (h : s.Holds none) (ha : s.Apart) (hn : (s.slot i).state ≠ .free) (hc : (s.slot i).client = some c)
    (hu : (s.slot i).undo = none) {k : Nat} (hr1 : (s.store.parcel k).refCount = 1) (hh : (s.store.parcel k).holder c = 1)
    (hb : (s.store.parcel k).state ≠ .closed) {v : Store} (hr : v.recordsSound)
    (ho : ∀ j, j ≠ k → v.parcel j = s.store.parcel j) (hg : (v.parcel k).growth = none) : (s.setStore v).Holds (some i) :=
  h.actSole ha hn hc hr1 hh hr ho (fun _ => rfl) (fun _ => id) (fun _ => ⟨rfl, rfl, fun _ => rfl⟩) (List.Subset.refl _)
    (fun e he hk => absurd hk (h.notNamed hb c e he)) (fun g' hg' => by rw [hu] at hg'; cases hg') hg

theorem execCut_holds (h : s.Holds none) (ha : s.Apart) (i : SlotId) : leadsTo (fun t => t.Holds none) (execCut i s) := by
  unfold execCut
  split
  · exact h
  · rename_i c r ht
    obtain ⟨hn, hu, -, hb, -⟩ := h.taken ht
    have hc := (State.takenCommand_iff.1 ht).2.2.2.1
    split
    · exact h.abortTaken ha ht
    · rw [leadsTo_next]
      unfold State.cutStep
      dsimp only
      split
      · exact h.endTaken ha ht _
      · rename_i hres
        split
        · exact h.endTaken ha ht _
        · rename_i hsole
          split
          · exact h.endTaken ha ht _
          · rename_i hlen
            obtain ⟨hl, -⟩ := Store.resolve_none_iff.1 hres
            have hh : (s.store.parcel (handleIndex r.handle)).holder c = 1 := by omega
            have hr1 : (s.store.parcel (handleIndex r.handle)).refCount = 1 := by omega
            have hg := h.noGrowth ha hn hc hu (k := handleIndex r.handle) (by omega)
            obtain ⟨hpar, hoth, -⟩ := s.store.cut_spec (handleIndex r.handle) r.auxA.toNat r.tail rfl
            have hkeep : ((s.store.cut (handleIndex r.handle) r.auxA.toNat r.tail).parcel (handleIndex r.handle)).state =
                  (s.store.parcel (handleIndex r.handle)).state ∧
                ((s.store.cut (handleIndex r.handle) r.auxA.toNat r.tail).parcel (handleIndex r.handle)).generation =
                  (s.store.parcel (handleIndex r.handle)).generation ∧
                ((s.store.cut (handleIndex r.handle) r.auxA.toNat r.tail).parcel (handleIndex r.handle)).holder c =
                  (s.store.parcel (handleIndex r.handle)).holder c ∧
                ((s.store.cut (handleIndex r.handle) r.auxA.toNat r.tail).parcel (handleIndex r.handle)).growth =
                  (s.store.parcel (handleIndex r.handle)).growth := by
              rw [hpar]
              repeat' split
              all_goals exact ⟨rfl, rfl, rfl, rfl⟩
            obtain ⟨k1, k2, k3, k4⟩ := hkeep
            have cut : (s.setStore (s.store.cut (handleIndex r.handle) r.auxA.toNat r.tail)).Holds (some i) :=
              h.actSole ha hn hc hr1 hh (Store.cut_sound h.records hg (Store.live_iff.1 hl).1 (Nat.not_lt.1 hlen) _) hoth
                (fun _ => rfl) (fun _ => id) (fun _ => ⟨rfl, rfl, fun _ => rfl⟩) (List.Subset.refl _)
                (fun e he hk => ⟨k1, k2, by
                  have := h.naming_le (y := e.handle) c
                  rw [hk] at this
                  rw [State.setStore_store, k3]
                  exact this⟩)
                (fun g' hg' => by rw [hu] at hg'; cases hg') (k4.trans hg)
            exact cut.formCompletion (ha.setStore _) hn hb _

theorem execDispatch_holds (h : s.Holds none) (ha : s.Apart) (i : SlotId) :
    leadsTo (fun t => t.Holds none) (execDispatch i s) := by
  unfold execDispatch
  split
  · exact h
  · rename_i c r ht
    obtain ⟨hn, hu, -, hb, -⟩ := h.taken ht
    obtain ⟨-, hp, -, hc, hm, -⟩ := State.takenCommand_iff.1 ht
    split
    · exact h.abortTaken ha ht
    · rw [leadsTo_next]
      unfold State.closeStep
      dsimp only
      split
      · exact h.endTaken ha ht _
      · rename_i hres
        split
        · exact h.endTaken ha ht _
        · rename_i hncl
          obtain ⟨hl, hbd, hch, hh, hr1, hg⟩ := h.builder ha hn hc hu hres hncl
          have hpar : (s.store.setParcelState (handleIndex r.handle) .closed).parcel (handleIndex r.handle) =
              { s.store.parcel (handleIndex r.handle) with state := .closed } := by
            rw [Store.setParcelState_parcel, if_pos rfl]
          have closed : (s.setStore (s.store.setParcelState (handleIndex r.handle) .closed)).Holds (some i) :=
            h.actBuilder ha hn hc hu hr1 hh hncl (Store.close_sound h.records hbd hg)
              (fun j hj => by rw [Store.setParcelState_parcel, if_neg hj]) (by rw [hpar]; exact hg)
          refine closed.setProgress hp hc hm ?_ (.inl hb)
          have hz := h.naming_zero hncl c
          have hgen := (Store.live_iff.1 hl).2
          simp only [State.commandStands, State.routes, State.setStore_slot, hu, State.ownsFree, State.setStore_store,
            State.setStore_list, Store.live, hpar, hz, Parcel.holder] at hh hl ⊢
          simp [hh, hr1, hch, (Bool.and_eq_true _ _ ▸ hl).2]

end Parcels

end Sys2Proof.Machine

/-!
PROOF. The second half of O57, continued: sending, taking delivery, data movement and the routing stage.
-/

namespace Sys2Proof.Machine

-- Elaborated one after the other: side by side, each declaration holds a thread with memory of its own.
set_option Elab.async false

section Parcels
variable {s t : State} {i : SlotId} {c : ClientId} {r : PostRecord}

theorem State.routes_iff {y : Handle} {b : Bool} : s.routes c r y b = true ↔
    s.ownsFree c y = true ∧ (s.store.parcel (handleIndex y)).state = .closed ∧
      (r.kind.toNat ≠ 4 ∨ b = true ∨
        (s.store.parcel (handleIndex y)).refCount = 1 ∧ (s.store.parcel (handleIndex y)).charged = some c) := by
  simp [State.routes, and_assoc, or_assoc]

/-! ### SEND and FORWARD -/

/-- SEND's claim of no byte: the parcel is built and closed in one event (R18, R107). -/
theorem State.Holds.sendNothing (h : s.Holds none) (ha : s.Apart) (ht : s.takenCommand i 5 = some (c, r)) {k : Nat}
    (hk : k < 1024) (hf : (s.store.parcel k).state = .free) :
    ((((s.setStore (s.store.openRecord k r.sendClass c)).claimSegments k c 0 0).commitGrowth k true).setProgress i
      (.toLookup (makeHandle (s.store.parcel k).generation k) 0)).Holds none := by
  obtain ⟨hn, hu, -, hb, -⟩ := h.taken ht
  obtain ⟨-, hp, -, hc, hm, h5⟩ := State.takenCommand_iff.1 ht
  generalize hop : s.setStore (s.store.openRecord k r.sendClass c) = opened
  have hso : opened.store = s.store.openRecord k r.sendClass c := by rw [← hop]; rfl
  have sound := Store.openRecord_sound h.records hf r.sendClass c
  have grown := ((Store.grow_sound sound (i := k) (c := c) (n := 0) (g := 0) (by simp [Store.openRecord_parcel])
    (by simp [Store.openRecord_parcel]) (Nat.zero_le _) (by simp [Store.openRecord_parcel, chainNeeded])).congr
      (u := (opened.claimSegments k c 0 0).store) (by rw [State.claimSegments_records, hso])
      (by rw [State.claimSegments_accounts, hso]))
  have hgrow := ((s.store.openRecord k r.sendClass c).grow_zero k c 0).1
  have committed := Store.commit_sound grown (i := k)
    (by rw [State.claimSegments_parcel, hso, hgrow, if_pos rfl, Store.openRecord_parcel, if_pos rfl]) true
  generalize hdone : (opened.claimSegments k c 0 0).commitGrowth k true = done
  have hpar : done.store.parcel k =
      { state := .closed, generation := (s.store.parcel k).generation, cls := r.sendClass, length := 0, headOffset := 0,
        growth := none, chain := [], charged := some c, holders := (Vector.replicate 8 0).set c.val 1, refCount := 1 } := by
    rw [← hdone, State.commitGrowth_store, Store.commit_parcel, if_pos rfl, State.claimSegments_parcel, hso, hgrow, if_pos rfl,
      Store.openRecord_parcel, if_pos rfl]
    rfl
  have hslot : ∀ j, done.slot j = s.slot j := fun j => by rw [← hdone, ← hop]; simp
  have hlist : done.list c = s.list c := by rw [← hdone, ← hop]; simp
  have hbus : done.liveBus = s.liveBus := by rw [← hdone, State.commitGrowth_liveBus, State.claimSegments_liveBus, ← hop]; rfl
  have closed : done.Holds (some i) :=
    h.actFree ha hn hc hu hf (by rw [← hdone, State.commitGrowth_store]; exact committed)
      (fun j hj => by
        rw [← hdone, State.commitGrowth_store, Store.commit_parcel, if_neg hj, State.claimSegments_parcel, hso, hgrow, if_neg hj,
          Store.openRecord_parcel, if_neg hj])
      (by rw [← hdone, ← hop]; simp [State.commitGrowth]) (by rw [← hdone, ← hop]; simp [State.commitGrowth])
      (by rw [← hdone, ← hop]; simp [State.commitGrowth]) (by rw [hbus]; exact List.Subset.refl _) (by rw [hpar])
  have hzero : naming (s.list c) (makeHandle (s.store.parcel k).generation k) = 0 :=
    h.naming_zero (by rw [handleIndex_makeHandle hk, hf]; decide) c
  refine closed.setProgress (by rwa [hslot]) (by rwa [hslot]) (by rwa [hslot]) ?_ (.inl (by rwa [hbus]))
  rw [hslot, hu]
  refine State.routes_iff.2 ⟨State.ownsFree_iff.2 ?_, ?_, .inl (by omega)⟩
  · rw [Store.live_makeHandle hk, hlist, hzero, handleIndex_makeHandle hk, hpar]
    simp [Parcel.holder]
  · rw [handleIndex_makeHandle hk, hpar]

theorem execSend_holds (h : s.Holds none) (ha : s.Apart) (i : SlotId) : leadsTo (fun t => t.Holds none) (execSend i s) := by
  unfold execSend
  split
  · exact h
  · rename_i c r ht
    obtain ⟨hn, hu, -, hb, -⟩ := h.taken ht
    obtain ⟨-, hp, -, hc, hm, -⟩ := State.takenCommand_iff.1 ht
    split
    · exact h.endTaken ha ht _
    · rename_i fr _
      split
      · exact h.abortTaken ha ht
      · rw [leadsTo_next]
        unfold State.sendClaim
        dsimp only
        split
        · exact h.endTaken ha ht _
        · rename_i k hk
          obtain ⟨hlt, hf⟩ := Store.recordChecks_free hk
          split
          · exact h.endTaken ha ht _
          · rename_i hchk
            split
            · rename_i h0
              rw [h0]
              exact h.sendNothing ha ht hlt hf
            · have opened := h.opened ha hn hc hu hf r.sendClass
              refine opened.startGather (ha.setStore _) hp hc hm hb (handleIndex_makeHandle hlt) ?_ ?_ ?_ ?_ ?_ ?_
              · simp [Store.live_makeHandle hlt, Store.openRecord_parcel]
              · simp [Store.openRecord_parcel]
              · simp [Store.openRecord_parcel]
              · simp [Store.openRecord_parcel]
              · simpa [Store.openRecord_parcel] using Store.segmentChecks_none hchk
              · simp [Store.openRecord_parcel]

theorem execForward_holds (h : s.Holds none) (ha : s.Apart) (i : SlotId) :
    leadsTo (fun t => t.Holds none) (execForward i s) := by
  unfold execForward
  split
  · exact h
  · rename_i c r ht
    obtain ⟨-, -, -, -, -, h6⟩ := State.takenCommand_iff.1 ht
    split
    · exact h.abortTaken ha ht
    · rw [leadsTo_next]
      unfold State.forwardCheck
      dsimp only
      split
      · exact h.endTaken ha ht _
      · rename_i hres
        split
        · exact h.endTaken ha ht _
        · rename_i hcl
          split
          · exact h.endTaken ha ht _
          · rename_i hfree
            exact h.goTaken ht (State.routes_iff.2 ⟨State.ownsFree_of hres hfree, not_not.1 hcl, .inl (by omega)⟩)

/-! ### Taking delivery -/

/-- What follows the last piece of a FETCH, in a slot that holds no growth. -/
theorem State.Holds.scattered (h : s.Holds none) (ha : s.Apart) (hp : s.performing i = some (c, r)) (hu : (s.slot i).undo = none)
    (hb : ∀ z ∈ s.liveBus, z.op ≠ .scatter i) {y : Handle} (ho : s.ownsFree c y = true) (n k : Nat) :
    (s.scattered i r y n k).Holds none := by
  unfold State.scattered
  split
  · exact h.goOn hp hu ho (.inl hb)
  · exact h.endPerforming ha hp hu hb _

theorem execFetch_holds (h : s.Holds none) (ha : s.Apart) (i : SlotId) : leadsTo (fun t => t.Holds none) (execFetch i s) := by
  unfold execFetch
  split
  · exact h
  · rename_i c r ht
    obtain ⟨-, hu, -, hb, -⟩ := h.taken ht
    split
    · exact h.endTaken ha ht _
    · split
      · exact h.abortTaken ha ht
      · rw [leadsTo_next]
        unfold State.fetchCheck
        dsimp only
        split
        · exact h.endTaken ha ht _
        · rename_i hres
          split
          · exact h.endTaken ha ht _
          · rename_i hfree
            have ho := State.ownsFree_of hres hfree
            split
            · exact h.endTaken ha ht _
            · split
              · exact h.scattered ha (State.performing_of_taken ht) hu hb ho _ _
              · exact h.goTaken ht ho

theorem execRelease_holds (h : s.Holds none) (ha : s.Apart) (i : SlotId) :
    leadsTo (fun t => t.Holds none) (execRelease i s) := by
  unfold execRelease
  split
  · exact h
  · rename_i c r ht
    obtain ⟨hn, hu, -, hb, -⟩ := h.taken ht
    have hc := (State.takenCommand_iff.1 ht).2.2.2.1
    split
    · exact h.endTaken ha ht _
    · rename_i hrange
      split
      · exact h.abortTaken ha ht
      · rw [leadsTo_next]
        unfold State.releaseStep
        dsimp only
        split
        · exact h.endTaken ha ht _
        · rename_i hres
          split
          · exact h.endTaken ha ht _
          · rename_i hfree
            have h1 : 1 ≤ r.auxA.toNat := by omega
            exact (h.dropRefs ha hn hc hu (Store.resolve_none_iff.1 hres).1 h1 ((State.freeRefs_iff h1).1 hfree)).formCompletion
              (ha.setStore _) hn hb _

theorem execReleaseAfterDrop_holds (h : s.Holds none) (ha : s.Apart) (i : SlotId) :
    leadsTo (fun t => t.Holds none) (execReleaseAfterDrop i s) := by
  unfold execReleaseAfterDrop
  split
  · exact h
  · rename_i c r hp
    split
    · rename_i y n k hpr
      obtain ⟨-, hperf, hc, -⟩ := State.performing_iff.1 hp
      have hn : (s.slot i).state ≠ .free := by rw [hperf]; decide
      have hb := h.noScatter (i := i) fun m => by rw [hpr]; simp
      have hst := h.performed hp
      rw [hpr] at hst
      simp only [State.commandStands, Bool.and_eq_true, Option.isNone_iff_eq_none] at hst
      obtain ⟨hu, ho⟩ := hst
      obtain ⟨hl, hf⟩ := State.ownsFree_iff.1 ho
      split
      · exact h.abortPerforming ha hp hb
      · exact (h.dropRefs ha hn hc hu hl (Nat.le_refl 1) hf).formCompletion (ha.setStore _) hn hb _
    · exact h

/-! ### Data movement -/

/-- A store with the records and accounts as they were. -/
theorem State.Holds.setStore_congr {x : Option SlotId} {v : Store} (h : s.Holds x) (hr : v.records = s.store.records)
    (ha : v.accounts = s.store.accounts) : (s.setStore v).Holds x := by
  have hp : ∀ k, (s.setStore v).store.parcel k = s.store.parcel k := fun k => by
    simp only [State.setStore_store, Store.parcel, hr]
  refine h.step x (fun _ => id) (h.records.congr hr ha) (fun d e he => ?_) (fun j d _ _ _ => ?_)
    ⟨fun _ => id, fun _ _ => id, fun _ _ => id⟩ (fun _ _ => rfl) (fun k => ?_) (List.Subset.refl _)
  · simp only [Store.live, hp]
    exact h.backed d e he
  · exact State.leaves_of_records rfl (fun k _ => by rw [hp]; exact ⟨rfl, rfl, rfl⟩) (fun k _ _ _ => hp k)
  · rw [hp]
    exact (em ((s.store.parcel k).growth = none)).imp id fun hk => ⟨hk, fun j g a b => absurd b a⟩

/-- A slot set aside with no growth claim is stopped at an abort point. -/
theorem State.Holds.abortAside (h : s.Holds (some i)) (ha : s.Apart) (hn : (s.slot i).state ≠ .free)
    (hu : (s.slot i).undo = none) (hb : ∀ z ∈ s.liveBus, z.op ≠ .scatter i) : (s.abortSlot i).Holds none := by
  have : s.sendUndo i = s := by simp only [State.sendUndo, hu]
  unfold State.abortSlot
  rw [this]
  exact h.freeSlot ha hn hb true

/-- The last piece of a gather has been written: its growth is committed (R18, R95, R107). -/
theorem State.Holds.gathered (h : s.Holds none) (ha : s.Apart) (hp : s.performing i = some (c, r)) {m : Movement} {g : GrowthClaim}
    (hpr : (s.slot i).progress = .moving m) (hu : (s.slot i).undo = some g) (hb : ∀ z ∈ s.liveBus, z.op ≠ .scatter i) :
    (s.gathered i r m g).Holds none := by
  obtain ⟨-, hperf, hc, hm⟩ := State.performing_iff.1 hp
  have hn : (s.slot i).state ≠ .free := by rw [hperf]; decide
  have hst := h.performs hp hu hpr
  obtain ⟨-, hidx, hl, hbd, hch, hh, -, -⟩ := State.claimStands_iff.1 hst
  obtain ⟨hr1, -⟩ := Parcel.building_sole (h.records.2.2 g.index).1 (h.records.2.2 g.index).2 hbd
  have hncl : (s.store.parcel g.index).state ≠ .closed := by rw [hbd]; decide
  have committed : (s.commitGrowth g.index g.isSend).Holds (some i) :=
    h.actSole ha hn hc hr1 hh (Store.commit_sound h.records hbd g.isSend)
      (fun j hj => by rw [State.commitGrowth_store, Store.commit_parcel, if_neg hj])
      (fun _ => rfl) (fun _ => id) (fun _ => ⟨rfl, rfl, fun _ => rfl⟩) (List.Subset.refl _)
      (fun e he hk => absurd hk (h.notNamed hncl c e he))
      (fun g' hg' => .inl (by rw [hu] at hg'; cases hg'; rfl))
      (by rw [State.commitGrowth_store, Store.commit_parcel, if_pos rfl])
  unfold State.gathered
  generalize hv : ({ s.slot i with undo := none } : Slot) = v
  have hvs : v.state = .performing ∧ v.client = some c ∧ v.command = some r ∧ v.undo = none := by
    rw [← hv]
    exact ⟨hperf, hc, hm, rfl⟩
  obtain ⟨v1, v2, v3, v4⟩ := hvs
  generalize hd : (s.commitGrowth g.index g.isSend).setSlot i v = done
  have hslot : done.slot i = v := by rw [← hd, State.setSlot_slot_same]
  have aside : done.Holds (some i) := by
    rw [← hd]
    exact committed.setSlot_aside (v2.trans hc.symm) hn
  have hapart : done.Apart := ha.congr fun j => by
    by_cases hj : j = i
    · subst hj
      rw [hslot, v1, v2, hperf, hc]
      exact ⟨rfl, rfl⟩
    · rw [← hd, State.setSlot_slot_other _ hj]
      exact ⟨rfl, rfl⟩
  have hbus : ∀ z ∈ done.liveBus, z.op ≠ .scatter i := by
    rw [← hd]
    exact hb
  have hnd : (done.slot i).state ≠ .free := by rw [hslot, v1]; decide
  dsimp only
  split
  · rename_i hsend
    split
    · exact aside.abortAside hapart hnd (by rw [hslot, v4]) hbus
    · refine aside.setProgress (by rw [hslot, v1]) (by rw [hslot, v2]) (by rw [hslot, v3]) ?_ (.inl hbus)
      have hpar : done.store.parcel (handleIndex m.handle) = { s.store.parcel g.index with
          length := (s.store.parcel g.index).length + (s.store.parcel g.index).growth.getD 0, growth := none, state := .closed } := by
        rw [← hd, State.setSlot_store, State.commitGrowth_store, Store.commit_parcel, ← hidx, if_pos rfl, if_pos hsend]
      have hz : naming (done.list c) m.handle = 0 := by
        rw [← hd]
        exact h.naming_zero (by rw [← hidx]; exact hncl) c
      rw [hslot, v4]
      refine State.routes_iff.2 ⟨State.ownsFree_iff.2 ?_, by rw [hpar], .inr (.inr (by rw [hpar]; exact ⟨hr1, hch⟩))⟩
      rw [hz, hpar]
      refine ⟨?_, by show 0 < (s.store.parcel g.index).holder c; omega⟩
      simp only [Store.live, hpar]
      rw [Store.live, ← hidx, Bool.and_eq_true] at hl
      rw [hl.2]
      rfl
  · exact aside.formCompletion hapart hnd hbus _

theorem execGatherPieceComplete_holds (h : s.Holds none) (ha : s.Apart) (o : ReadOutcome) :
    leadsTo (fun t => t.Holds none) (execGatherPieceComplete o s) := by
  unfold execGatherPieceComplete
  have h' := h.clearBus
  split
  · exact h
  · exact h'
  · rename_i i _ _
    split
    · rename_i c rec m g hp hpr hu
      have hb : ∀ z ∈ s.clearBus.liveBus, z.op ≠ .scatter i := by simp
      have hn : (s.slot i).state ≠ .free := by rw [(State.performing_iff.1 hp).2.1]; decide
      split
      · rename_i p rest _
        split
        · exact h'.abortPerforming ha.clearBus hp hb
        · cases o with
          | busError =>
            refine (h'.sendUndo ha.clearBus i).formCompletion (ha.clearBus.congr fun j => ?_) ?_ ?_ _
            · rw [State.sendUndo_slot]
              exact ⟨rfl, rfl⟩
            · rw [State.sendUndo_slot]
              exact hn
            · rw [State.sendUndo_liveBus]
              exact hb
          | data bs =>
            dsimp only
            split
            · unfold State.gatherData
              split
              · trivial
              · rename_i mem _
                have written := h'.setStore_congr (v := { s.store with memory := mem }) rfl rfl
                dsimp only
                split
                · exact written.gathered (ha.clearBus.setStore _) hp hpr hu hb
                · have hst := written.performs hp hu hpr
                  exact written.goOn hp hu hst (.inl hb)
            · trivial
      · exact h'
    · exact h'

theorem execScatterPieceComplete_holds (h : s.Holds none) (ha : s.Apart) (w : WriteOutcome) :
    leadsTo (fun t => t.Holds none) (execScatterPieceComplete w s) := by
  unfold execScatterPieceComplete
  have h' := h.clearBus
  split
  · exact h
  · exact h'
  · rename_i i x hx
    obtain ⟨hlive, hk, -, -⟩ := State.onBus_liveBus hx
    have hop : x.op = .scatter i := by
      unfold TxnOp.scatterOf at hk
      split at hk
      · rename_i e
        cases hk
        exact e
      · cases hk
    obtain ⟨-, hu, -⟩ := h.scatters x (by rw [hlive]; exact List.mem_singleton_self x) i hop (by simp)
    split
    · rename_i c rec m hp hpr
      have hb : ∀ z ∈ s.clearBus.liveBus, z.op ≠ .scatter i := by simp
      have ho := h.performs hp hu hpr
      split
      · split
        · exact h'.abortPerforming ha.clearBus hp hb
        · cases w with
          | busError => exact h'.endPerforming ha.clearBus hp hu hb _
          | done =>
            dsimp only
            split
            · rw [leadsTo_next]
              unfold State.scatterDone
              split
              · exact h'.abortPerforming ha.clearBus hp hb
              · exact h'.scattered ha.clearBus hp hu hb ho _ _
            · exact h'.goOn hp hu ho (.inl hb)
      · exact h'
    · exact h'

end Parcels

end Sys2Proof.Machine

/-!
PROOF. The second half of O57, continued: the routing stage, the commands at the Channel Directory, QUERY and ATTACH.
-/

namespace Sys2Proof.Machine

-- Elaborated one after the other: side by side, each declaration holds a thread with memory of its own.
set_option Elab.async false

section Routing
variable {s t : State} {x : Option SlotId} {i : SlotId} {c : ClientId} {r : PostRecord}

theorem State.Apart.setDir (ha : s.Apart) (v : Directory) : (s.setDir v).Apart := ha.congr fun _ => ⟨rfl, rfl⟩
theorem State.Apart.setClient (ha : s.Apart) (d : ClientId) (v : Client) : (s.setClient d v).Apart := ha.congr fun _ => ⟨rfl, rfl⟩

/-! ### The routing stage -/

/-- The stage of a routing command stands: it has found members to offer to, or has queued nothing. -/
theorem State.stage_stands {q : Routing} (hq : q.routeSet ≠ 0 ∨ q.toOffer = [] ∧ q.routed = 0)
    (ho : s.routes c r q.handle (q.routed != 0) = true) : s.commandStands c r none q.stage = true := by
  unfold Routing.stage
  split
  · simp only [State.commandStands, Bool.and_eq_true, Bool.or_eq_true]
    refine ⟨rfl, .inr ?_⟩
    have : (q.status == .ok) = (q.routed != 0) := by
      unfold Routing.status
      rcases hq with hq | ⟨-, hq⟩
      · rw [if_neg hq]
        split
        · rename_i h0
          rw [h0]
          rfl
        · rename_i h0
          exact (bne_iff_ne.2 h0).symm
      · rw [hq]
        split <;> rfl
    rw [this]
    exact ho
  · rename_i hne
    simp only [State.commandStands, Bool.and_eq_true]
    refine ⟨⟨rfl, bne_iff_ne.2 (hq.resolve_right fun hx => hne ?_)⟩, ho⟩
    rw [hx.1]
    rfl

theorem members_zero : members 0 = [] := by decide

theorem execLookup_holds (h : s.Holds none) (ha : s.Apart) (i : SlotId) :
    leadsTo (fun t => t.Holds none) (execLookup i s) := by
  unfold execLookup
  split
  · exact h
  · rename_i c r hp
    split
    · rename_i y n hpr
      have hb := h.noScatter (i := i) fun m => by rw [hpr]; simp
      have hst := h.performs hp rfl hpr
      simp only [State.commandStands, Bool.and_eq_true, Option.isNone_iff_eq_none] at hst
      obtain ⟨hu, ho⟩ := hst
      split
      · exact h.abortPerforming ha hp hb
      · rw [leadsTo_next]
        unfold State.lookupStep
        refine h.goOn hp hu (State.stage_stands ?_ ho) (.inl hb)
        by_cases h0 : s.dir.route r.key c r.self = 0
        · exact .inr ⟨by simp only [h0, members_zero], rfl⟩
        · exact .inl h0
    · exact h

theorem withClient_ne_zero (v : ClientSet) (d : ClientId) : withClient v d ≠ 0 := by
  intro h0
  have := congrArg (fun w : ClientSet => w.getLsbD d.val) h0
  simp [withClient, only] at this

/-- With a target's entry the parcel is queued, and the sender keeps its free reference. -/
theorem State.routes_admitted {y : Handle} {d : ClientId} {e : PendingEntry} {b : Bool} (he : e.handle = y)
    (ho : s.routes c r y b = true) :
    ((s.setStore (s.store.createRef (handleIndex y) d)).setList d (s.list d ++ [e])).routes c r y true = true := by
  obtain ⟨hown, hcl, -⟩ := State.routes_iff.1 ho
  obtain ⟨hl, hfree⟩ := State.ownsFree_iff.1 hown
  have hpar : (s.store.createRef (handleIndex y) d).parcel (handleIndex y) = { s.store.parcel (handleIndex y) with
      holders := (s.store.parcel (handleIndex y)).holders.set d.val ((s.store.parcel (handleIndex y)).holder d + 1),
      refCount := (s.store.parcel (handleIndex y)).refCount + 1 } := by
    rw [Store.createRef_parcel, if_pos rfl]
  refine State.routes_iff.2 ⟨State.ownsFree_iff.2 ⟨?_, ?_⟩, ?_, .inr (.inl rfl)⟩
  · simp only [State.setList_store, State.setStore_store, Store.live, hpar]
    exact hl
  · rw [State.setList_store, State.setStore_store, hpar, Parcel.holder_set _ d _ c rfl]
    by_cases hd : c = d
    · subst hd
      rw [State.setList_list_same, naming_append, he, if_pos rfl, if_pos rfl]
      exact Nat.add_lt_add_right hfree 1
    · rw [State.setList_list_other _ hd, if_neg hd]
      exact hfree
  · rw [State.setList_store, State.setStore_store, hpar]
    exact hcl

/-- An accepted offer leaves the sender its free reference, and the parcel is queued (R115, R116). -/
theorem State.Holds.accepted (h : s.Holds none) (ha : s.Apart) (hp : s.performing i = some (c, r)) (hu : (s.slot i).undo = none)
    (hb : ∀ z ∈ s.liveBus, z.op ≠ .scatter i) {q : Routing} {d : ClientId} (rest : List ClientId)
    (ho : s.routes c r q.handle (q.routed != 0) = true) (hq : q.routeSet ≠ 0) (hadm : s.admits q.handle d = true) :
    (((s.setStore (s.store.createRef (handleIndex q.handle) d)).setList d (s.list d ++ [s.offerEntry c r q.handle])).setProgress i
      ({ q with toOffer := rest, routed := withClient q.routed d } : Routing).stage).Holds none := by
  obtain ⟨-, hperf, hc, hm⟩ := State.performing_iff.1 hp
  have hn : (s.slot i).state ≠ .free := by rw [hperf]; decide
  obtain ⟨hown, hcl, -⟩ := State.routes_iff.1 ho
  obtain ⟨hl, hfree⟩ := State.ownsFree_iff.1 hown
  obtain ⟨hatt, hroom, -, -⟩ := State.admits_iff.1 hadm
  have admitted := h.queueOffer ha hn hc hu (y := q.handle) (e := s.offerEntry c r q.handle) rfl hl hcl (by omega) hroom hatt
  refine admitted.setProgress hperf hc hm ?_ (.inl hb)
  show State.commandStands _ c r (s.slot i).undo _ = true
  rw [hu]
  refine State.stage_stands (.inl hq) ?_
  rw [bne_iff_ne.2 (withClient_ne_zero q.routed d)]
  exact State.routes_admitted rfl ho

theorem execAdmission_holds (h : s.Holds none) (ha : s.Apart) (i : SlotId) :
    leadsTo (fun t => t.Holds none) (execAdmission i s) := by
  unfold execAdmission
  split
  · exact h
  · rename_i c r hp
    split
    · rename_i q hpr
      split
      · rename_i d rest _
        have hb := h.noScatter (i := i) fun m => by rw [hpr]; simp
        have hst := h.performs hp rfl hpr
        simp only [State.commandStands, Bool.and_eq_true, Option.isNone_iff_eq_none, bne_iff_ne] at hst
        obtain ⟨⟨hu, hq⟩, ho⟩ := hst
        rw [leadsTo_next]
        unfold State.offerStep
        split
        · rename_i hadm
          exact h.accepted ha hp hu hb rest (by simpa using ho) hq hadm
        · split
          · exact h.goOn hp hu (State.stage_stands (.inl hq) ho) (.inl hb)
          · have counted := h.setClient_state (d := d) (v := { s.client d with refused := (s.client d).refused + 1 }) rfl
            exact counted.goOn hp hu (State.stage_stands (.inl hq) ho) (.inl hb)
      · exact h
    · exact h

/-- The answers of a routing command's last requests (R100, R114). -/
theorem State.Holds.routingAnswered (h : s.Holds (some i)) (ha : s.Apart) (hp : s.performing i = some (c, r))
    (hu : (s.slot i).undo = none) (hb : ∀ z ∈ s.liveBus, z.op ≠ .scatter i) {q : Routing}
    (hst : s.commandStands c r none (.settling q) = true) : (s.routingAnswered i c r q).Holds none := by
  obtain ⟨-, hperf, hc, hm⟩ := State.performing_iff.1 hp
  have hn : (s.slot i).state ≠ .free := by rw [hperf]; decide
  unfold State.routingAnswered
  split
  · split
    · have counted := h.setClient_state (d := c) (v := { s.client c with sent := (s.client c).sent + 1 }) rfl
      exact counted.formCompletion (ha.setClient _ _) hn hb _
    · exact h.formCompletion ha hn hb _
  · exact h.setProgress hperf hc hm (by rw [hu]; exact hst) (.inl hb)

theorem execSettlement_holds (h : s.Holds none) (ha : s.Apart) (i : SlotId) :
    leadsTo (fun t => t.Holds none) (execSettlement i s) := by
  unfold execSettlement
  split
  · exact h
  · rename_i c r hp
    split
    · rename_i q hpr
      split
      · exact h
      · have hb := h.noScatter (i := i) fun m => by rw [hpr]; simp
        have hst := h.performs hp rfl hpr
        have hu : (s.slot i).undo = none := by
          simp only [State.commandStands, Bool.and_eq_true, Option.isNone_iff_eq_none] at hst
          exact hst.1
        rw [hu] at hst
        rw [leadsTo_next]
        refine ((h.aside hu).setDir _).routingAnswered (ha.setDir _) ?_ ?_ ?_ ?_
        · exact hp
        · exact hu
        · exact hb
        · exact hst
    · exact h

/-- The hand-over at the store: the sender's reference is dropped, or its parcel reopened (R100). -/
theorem State.Holds.handOver (h : s.Holds none) (ha : s.Apart) (hp : s.performing i = some (c, r)) (hu : (s.slot i).undo = none)
    {q : Routing} (ho : s.routes c r q.handle (q.status == .ok) = true) : (s.handOverStep c r q).Holds (some i) := by
  obtain ⟨-, hperf, hc, -⟩ := State.performing_iff.1 hp
  have hn : (s.slot i).state ≠ .free := by rw [hperf]; decide
  obtain ⟨hown, hcl, hsole⟩ := State.routes_iff.1 ho
  obtain ⟨hl, hfree⟩ := State.ownsFree_iff.1 hown
  unfold State.handOverStep
  split
  · rename_i hback
    obtain ⟨hr1, hch⟩ := (hsole.resolve_left (not_not.2 hback.1)).resolve_left (by simpa using hback.2)
    obtain ⟨hshape, hcount⟩ := h.records.2.2 (handleIndex q.handle)
    have hle := Parcel.counted_le hcount c
    have hh : (s.store.parcel (handleIndex q.handle)).holder c = 1 := by omega
    refine h.actSole ha hn hc hr1 hh (Store.reopen_sound h.records hcl hr1 hch hh)
      (fun j hj => by rw [State.setStore_store, Store.setParcelState_parcel, if_neg hj]) (fun _ => rfl) (fun _ => id)
      (fun _ => ⟨rfl, rfl, fun _ => rfl⟩) (List.Subset.refl _) (fun e he hk => ?_)
      (fun g' hg' => by rw [hu] at hg'; cases hg') ?_
    · have hy : e.handle = q.handle := State.handle_ext (h.backed c e he).1 hl hk
      have hpos : 0 < naming (s.list c) q.handle := List.countP_pos_iff.2 ⟨e, he, by simp [hy]⟩
      omega
    · rw [State.setStore_store, Store.setParcelState_parcel, if_pos rfl]
      exact Parcel.closed_growth (p := s.store.parcel (handleIndex q.handle)) hshape hcl
  · exact h.dropRefs ha hn hc hu hl (Nat.le_refl 1) hfree

theorem State.handOverStep_slot (q : Routing) (j : SlotId) : (s.handOverStep c r q).slot j = s.slot j := by
  unfold State.handOverStep
  split <;> rfl

theorem State.handOverStep_liveBus (q : Routing) : (s.handOverStep c r q).liveBus = s.liveBus := by
  unfold State.handOverStep
  split <;> rfl

theorem State.handOverStep_performing (q : Routing) (j : SlotId) : (s.handOverStep c r q).performing j = s.performing j := by
  unfold State.handOverStep
  split <;> rfl

theorem execHandOver_holds (h : s.Holds none) (ha : s.Apart) (i : SlotId) :
    leadsTo (fun t => t.Holds none) (execHandOver i s) := by
  unfold execHandOver
  split
  · exact h
  · rename_i c r hp
    split
    · rename_i q hpr
      split
      · exact h
      · rename_i hnothing
        split
        · exact h
        · rename_i hover
          have hb := h.noScatter (i := i) fun m => by rw [hpr]; simp
          have hst := h.performs hp rfl hpr
          simp only [State.commandStands, Bool.and_eq_true, Option.isNone_iff_eq_none, Bool.or_eq_true, hover, hnothing] at hst
          obtain ⟨hu, ho⟩ := hst
          exact (h.handOver ha hp hu (by simpa using ho)).routingAnswered
            (ha.congr fun j => by rw [State.handOverStep_slot]; exact ⟨rfl, rfl⟩)
            (by rwa [State.handOverStep_performing]) (by rwa [State.handOverStep_slot]) (by rwa [State.handOverStep_liveBus]) rfl
    · exact h

/-! ### The Channel Directory's commands -/

theorem State.Holds.endDirectory (h : s.Holds none) (ha : s.Apart) {k : Nat} (ht : s.takenCommand i k = some (c, r)) (a : DirAnswer) :
    (s.endDirectory i r a).Holds none :=
  State.Holds.endTaken (h.setDir a.dir) (ha.setDir _) ht _

theorem execSubscribe_holds (h : s.Holds none) (ha : s.Apart) (i : SlotId) :
    leadsTo (fun t => t.Holds none) (execSubscribe i s) := by
  unfold execSubscribe
  split
  · exact h
  · rename_i ht
    exact h.endDirectory ha ht _

theorem execUnsubscribe_holds (h : s.Holds none) (ha : s.Apart) (i : SlotId) :
    leadsTo (fun t => t.Holds none) (execUnsubscribe i s) := by
  unfold execUnsubscribe
  split
  · exact h
  · rename_i ht
    exact h.endDirectory ha ht _

theorem execPin_holds (h : s.Holds none) (ha : s.Apart) (i : SlotId) : leadsTo (fun t => t.Holds none) (execPin i s) := by
  unfold execPin
  split
  · exact h
  · rename_i ht
    split
    · exact h.endTaken ha ht _
    · split
      · exact h.endTaken ha ht _
      · exact h.endDirectory ha ht _

theorem execUnpin_holds (h : s.Holds none) (ha : s.Apart) (i : SlotId) :
    leadsTo (fun t => t.Holds none) (execUnpin i s) := by
  unfold execUnpin
  split
  · exact h
  · rename_i ht
    exact h.endDirectory ha ht _

/-! ### QUERY -/

theorem execQuery_holds (h : s.Holds none) (ha : s.Apart) (i : SlotId) :
    leadsTo (fun t => t.Holds none) (execQuery i s) := by
  unfold execQuery
  split
  · exact h
  · rename_i c r ht
    split
    · exact h.endTaken ha ht _
    · split
      · exact h.endTaken ha ht _
      · split
        · exact h.endTaken ha ht _
        · exact h.goTaken ht rfl

/-- A slot that forms or writes a report holds no growth, and goes on to another part of it. -/
theorem State.Holds.reporting (h : s.Holds none) (hp : s.performing i = some (c, r)) {p q : Progress}
    (hpr : (s.slot i).progress = p) (hn : ∀ m, p ≠ .moving m)
    (hst : ∀ u, s.commandStands c r u p = u.isNone) (hgo : ∀ u, s.commandStands c r u q = u.isNone) :
    (s.setProgress i q).Holds none := by
  have hold := h.performs hp rfl hpr
  refine h.goOn hp rfl ?_ (.inl (h.noScatter fun m => hpr ▸ hn m))
  rw [hgo, ← hst]
  exact hold

theorem execCountRead_holds (h : s.Holds none) (i : SlotId) : leadsTo (fun t => t.Holds none) (execCountRead i s) := by
  unfold execCountRead
  split
  · rename_i hp hpr
    exact h.reporting hp hpr (by simp) (fun _ => rfl) (fun _ => rfl)
  · rename_i hp hpr
    exact h.reporting hp hpr (by simp) (fun _ => rfl) (fun _ => rfl)
  · rename_i hp hpr
    exact h.reporting hp hpr (by simp) (fun _ => rfl) (fun _ => rfl)
  · exact h

theorem execReportRead_holds (h : s.Holds none) (i : SlotId) : leadsTo (fun t => t.Holds none) (execReportRead i s) := by
  unfold execReportRead
  split
  · rename_i hp hpr
    exact h.reporting hp hpr (by simp) (fun _ => rfl) (fun _ => rfl)
  · exact h

/-- The last piece of a report has been written (R169, R171). -/
theorem State.Holds.reported (h : s.Holds (some i)) (ha : s.Apart) (hn : (s.slot i).state ≠ .free)
    (hb : ∀ z ∈ s.liveBus, z.op ≠ .scatter i) (r : PostRecord) : (s.reported i r).Holds none := by
  unfold State.reported State.clearCounters
  split
  · split
    · rename_i d _
      have cleared := h.setClient_state (d := d) (v := { s.client d with sent := 0, placed := 0, refused := 0, expired := 0 }) rfl
      exact cleared.formCompletion (ha.setClient _ _) hn hb _
    · exact h.formCompletion ha hn hb _
  · exact h.formCompletion ha hn hb _

theorem execReportWritePieceComplete_holds (h : s.Holds none) (ha : s.Apart) (w : WriteOutcome) :
    leadsTo (fun t => t.Holds none) (execReportWritePieceComplete w s) := by
  unfold execReportWritePieceComplete
  have h' := h.clearBus
  split
  · exact h
  · exact h'
  · rename_i i _ _
    split
    · rename_i c r p rest bytes hp hpr
      have hn : (s.slot i).state ≠ .free := by rw [(State.performing_iff.1 hp).2.1]; decide
      have hb : ∀ z ∈ s.clearBus.liveBus, z.op ≠ .scatter i := by simp
      have hst := h.performs hp rfl hpr
      have hu : (s.slot i).undo = none := Option.isNone_iff_eq_none.1 hst
      cases w with
      | busError => exact h'.endPerforming ha.clearBus hp hu hb _
      | done =>
        dsimp only
        split
        · exact (h'.aside hu).reported ha.clearBus hn hb r
        · exact h'.goOn hp hu rfl (.inl hb)
    · exact h'

/-! ### ATTACH (section 8.2) -/

theorem execAttach_holds (h : s.Holds none) (ha : s.Apart) (i : SlotId) :
    leadsTo (fun t => t.Holds none) (execAttach i s) := by
  unfold execAttach
  split
  · exact h
  · rename_i c r ht
    obtain ⟨-, -, hsup, -, -⟩ := h.taken ht
    have hc0 : c = 0 := hsup (by rw [(State.takenCommand_iff.1 ht).2.2.2.2.2]; rfl)
    split
    · exact h.endTaken ha ht _
    · split
      · exact h.endTaken ha ht _
      · refine h.goTaken ht ?_
        rw [hc0]
        rfl

/-- A slot that performs an ATTACH is client 0's and holds no growth. -/
theorem State.Holds.attaching (h : s.Holds none) (hp : s.performing i = some (c, r)) {p : Progress}
    (hpr : (s.slot i).progress = p) (hst : ∀ u, s.commandStands c r u p = (u.isNone && c == 0)) :
    (s.slot i).undo = none ∧ c = 0 := by
  have hold := h.performs hp rfl hpr
  rw [hst] at hold
  simpa using hold

theorem execAttachDescriptorPieceComplete_holds (h : s.Holds none) (ha : s.Apart) (o : ReadOutcome) :
    leadsTo (fun t => t.Holds none) (execAttachDescriptorPieceComplete o s) := by
  unfold execAttachDescriptorPieceComplete
  have h' := h.clearBus
  split
  · exact h
  · exact h'
  · rename_i i _ _
    split
    · rename_i c r p rest bytes hp hpr
      have hb : ∀ z ∈ s.clearBus.liveBus, z.op ≠ .scatter i := by simp
      obtain ⟨hu, rfl⟩ := h.attaching hp hpr fun _ => rfl
      cases o with
      | busError => exact h'.endPerforming ha.clearBus hp hu hb _
      | data bs =>
        dsimp only
        split
        · rw [leadsTo_next]
          unfold State.descriptorRead
          split
          · split
            · exact h'.goOn hp hu rfl (.inl hb)
            · exact h'.endPerforming ha.clearBus hp hu hb _
          · exact h'.goOn hp hu rfl (.inl hb)
        · trivial
    · exact h'

theorem execAttachCxbReadComplete_holds (h : s.Holds none) (ha : s.Apart) (o : ReadOutcome) :
    leadsTo (fun t => t.Holds none) (execAttachCxbReadComplete o s) := by
  unfold execAttachCxbReadComplete
  have h' := h.clearBus
  split
  · exact h
  · exact h'
  · rename_i i _ _
    split
    · rename_i c r d hp hpr
      have hb : ∀ z ∈ s.clearBus.liveBus, z.op ≠ .scatter i := by simp
      obtain ⟨hu, rfl⟩ := h.attaching hp hpr fun _ => rfl
      cases o with
      | busError => exact h'.endPerforming ha.clearBus hp hu hb _
      | data bs =>
        dsimp only
        split
        · rw [leadsTo_next]
          unfold State.attachHalfRead
          split
          · exact (h'.goOn hp hu rfl (.inl hb)).enqueue _
          · exact h'.endPerforming ha.clearBus hp hu hb _
        · trivial
    · exact h'

/-- A teardown is client 0's (R81). -/
theorem State.Holds.teardown_client (h : s.Holds x) {j : SlotId} (hj : some j ≠ x) (hp : (s.slot j).state = .performing)
    {td : Teardown} (hpr : (s.slot j).progress = .teardown td) : (s.slot j).client = some 0 := by
  have hst := h.stands j hj
  unfold State.slotStands at hst
  rw [if_pos hp] at hst
  split at hst
  · rename_i e _ he _
    simp only [hpr, State.commandStands, Bool.and_eq_true, beq_iff_eq] at hst
    rw [he, hst.1.1.1.2]
  · cases hst

/-- While a slot of client 0 does something else, no other slot tears a client down. -/
theorem State.Holds.no_teardown (h : s.Holds (some i)) (ha : s.Apart) (hn : (s.slot i).state ≠ .free)
    (hc : (s.slot i).client = some 0) {j : SlotId} (hj : some j ≠ some i) (hp : (s.slot j).state = .performing) (td : Teardown) :
    (s.slot j).progress ≠ .teardown td := fun hpr =>
  hj (congrArg some (ha.one j i 0 (by rw [hp]; decide) hn (h.teardown_client hj hp hpr) hc))

/-- A command of client 0 gives a client another context. -/
theorem State.Holds.setContext (h : s.Holds (some i)) (ha : s.Apart) (hn : (s.slot i).state ≠ .free)
    (hc : (s.slot i).client = some 0) (d : ClientId) (v : Client) : (s.setClient d v).Holds (some i) :=
  h.setClient fun _ => .inr fun _ hj hp td hpr => absurd hpr (h.no_teardown ha hn hc hj hp td)

theorem execAttachWriteBackComplete_holds (h : s.Holds none) (ha : s.Apart) (w : WriteOutcome) :
    leadsTo (fun t => t.Holds none) (execAttachWriteBackComplete w s) := by
  unfold execAttachWriteBackComplete
  have h' := h.clearBus
  split
  · exact h
  · exact h'
  · rename_i i _ _
    split
    · rename_i c r d x hp hpr
      obtain ⟨-, hperf, hc, -⟩ := State.performing_iff.1 hp
      have hn : (s.slot i).state ≠ .free := by rw [hperf]; decide
      have hb : ∀ z ∈ s.clearBus.liveBus, z.op ≠ .scatter i := by simp
      obtain ⟨hu, rfl⟩ := h.attaching hp hpr fun _ => rfl
      cases w with
      | busError => exact h'.endPerforming ha.clearBus hp hu hb _
      | done =>
        rw [leadsTo_next]
        unfold State.attachDone
        split
        · rename_i e _
          have attached := (h'.aside hu).setContext ha.clearBus hn hc e (attachedContext d x)
          exact (attached.formCompletion (ha.clearBus.setClient _ _) hn hb _).readChoice
        · exact h'.endPerforming ha.clearBus hp hu hb _
    · exact h'

end Routing

end Sys2Proof.Machine

/-!
PROOF. The second half of O57, continued: DETACH and the stages of a teardown.
-/

namespace Sys2Proof.Machine

-- Elaborated one after the other: side by side, each declaration holds a thread with memory of its own.
set_option Elab.async false

section Teardown
variable {s t : State} {x : Option SlotId} {i j : SlotId} {c d : ClientId} {r : PostRecord}

/-! ### The state stage (R161) -/

theorem State.Holds.endWaiting (h : s.Holds x) (d : ClientId) (n : OutRingName) : (s.endWaiting d n).Holds x := by
  unfold State.endWaiting
  split
  · exact h.endRing d n
  · exact h

/-- The end of a ring's waiting write leaves all but the rings of its client. -/
theorem State.endWaiting_same (s : State) (d : ClientId) (n : OutRingName) :
    (s.endWaiting d n).unit = s.unit ∧ (s.endWaiting d n).slots = s.slots ∧ (s.endWaiting d n).arb = s.arb ∧
      (s.endWaiting d n).port = s.port ∧ ((s.endWaiting d n).client d).state = (s.client d).state := by
  unfold State.endWaiting
  split
  · refine ⟨rfl, rfl, rfl, rfl, ?_⟩
    rw [State.endRing, State.setClient_client_same]
    cases n <;> rfl
  · exact ⟨rfl, rfl, rfl, rfl, rfl⟩

/-- What the withdrawals of the state stage leave alone, and the mark they find. -/
theorem State.withdrawn_same (s : State) (d : ClientId) :
    (((s.startDraining d).withdrawWrites d).withdrawRead d).slots = s.slots ∧
      (((s.startDraining d).withdrawWrites d).withdrawRead d).arb = s.arb ∧
      (((s.startDraining d).withdrawWrites d).withdrawRead d).port = s.port ∧
      ((((s.startDraining d).withdrawWrites d).withdrawRead d).client d).state = .draining := by
  have marked : ((s.startDraining d).client d).state = .draining := by
    rw [State.startDraining, State.leaveSets, State.setIntake_client, State.setClient_client_same]
  obtain ⟨-, s1, a1, p1, c1⟩ := (s.startDraining d).endWaiting_same d .ret
  obtain ⟨-, s2, a2, p2, c2⟩ := ((s.startDraining d).endWaiting d .ret).endWaiting_same d .del
  have writes := And.intro (s2.trans s1) (And.intro (a2.trans a1) (And.intro (p2.trans p1) ((c2.trans c1).trans marked)))
  unfold State.withdrawRead
  split <;> exact writes

/-- The client is marked, and its transactions that wait are withdrawn. -/
theorem State.Holds.withdrawn (h : s.Holds x) (d : ClientId) :
    (((s.startDraining d).withdrawWrites d).withdrawRead d).Holds x := by
  have marked : (s.startDraining d).Holds x :=
    State.Holds.setIntake (h.setClient (d := d) (v := { s.client d with state := .draining, finalDue := false }) fun _ => .inl rfl) _
  have writes : ((s.startDraining d).withdrawWrites d).Holds x := by
    unfold State.withdrawWrites
    refine ((marked.endWaiting d .ret).endWaiting d .del).setUnit ?_
    rw [(State.endWaiting_same _ d .del).1, (State.endWaiting_same _ d .ret).1]
  unfold State.withdrawRead
  split
  · exact writes.setIntake _
  · exact writes

/-- A slot that does not perform holds no growth and has no piece on the bus. -/
theorem State.Holds.idle (h : s.Holds none) (hp : (s.slot j).state ≠ .performing) :
    (s.slot j).undo = none ∧ ∀ z ∈ s.liveBus, z.op ≠ .scatter j := by
  refine ⟨?_, fun z hz hop => hp (h.scatters z hz j hop (by simp)).1⟩
  have hst := h.stands j (by simp)
  unfold State.slotStands at hst
  rw [if_neg hp] at hst
  exact Option.isNone_iff_eq_none.1 hst

/-- A slot that does not perform becomes FREE. -/
theorem State.Holds.freeIdle (h : s.Holds none) (ha : s.Apart) (hn : (s.slot j).state ≠ .free)
    (hp : (s.slot j).state ≠ .performing) (b : Bool) : (s.freeSlot j b).Holds none :=
  (h.aside (h.idle hp).1).freeSlot ha hn (h.idle hp).2 b

theorem State.Holds.requestAbort (h : s.Holds none) (hn : (s.slot j).state ≠ .free) : (s.requestAbort j).Holds none :=
  h.setSlot_stands rfl hn rfl (h.stands j (by simp)) fun z hz hop => h.scatters z hz j hop (by simp)

/-- A data piece that waits is not on the bus (R188). -/
theorem State.pieceWaits_bus {b : State} (hw : b.pieceWaits j = true) (hb : b.arb = s.arb) :
    ∀ z ∈ s.liveBus, z.op ≠ .scatter j := by
  unfold State.pieceWaits at hw
  split at hw
  · unfold State.carries at hw
    rw [hb] at hw
    unfold State.liveBus
    split
    · rename_i u hu
      intro z hz hop
      split at hz
      · cases hz
      · rename_i hlive
        obtain rfl := List.mem_singleton.1 hz
        simp only [Bool.or_eq_true, not_or, Bool.not_eq_true] at hlive
        simp [hu, hlive.1, hop] at hw
    · simp
  · cases hw

/-- What the state stage does to the slot of its client. -/
theorem State.Holds.drainSlot (h : s.Holds none) (ha : s.Apart) {b : State} (hs : b.slots = s.slots) (hb : b.arb = s.arb) :
    (s.drainSlot b d j).Holds none := by
  have hslot : b.slot j = s.slot j := by simp only [State.slot, hs]
  unfold State.drainSlot
  rw [hslot]
  split
  · rename_i hst
    exact h.freeIdle ha (by rw [hst]; decide) (by rw [hst]; decide) false
  · rename_i hst
    split
    · exact h.freeIdle ha (by rw [hst]; decide) (by rw [hst]; decide) false
    · exact h.requestAbort (by rw [hst]; decide)
  · rename_i hst
    split
    · exact h.freeIdle ha (by rw [hst]; decide) (by rw [hst]; decide) false
    · exact h.requestAbort (by rw [hst]; decide)
  · rename_i hst
    split
    · rename_i hw
      exact h.abortSlot ha (by rw [hst]; decide) (State.pieceWaits_bus hw hb)
    · exact h.requestAbort (by rw [hst]; decide)
  · exact h

/-- The state stage of a slot's DETACH (R161, R162). -/
theorem State.Holds.stateStage (h : s.Holds (some i)) (ha : s.Apart) (hp : (s.slot i).state = .performing)
    (hc : (s.slot i).client = some 0) (hm : (s.slot i).command = some r) (hu : (s.slot i).undo = none)
    (hb : ∀ z ∈ s.liveBus, z.op ≠ .scatter i) (hpr : (s.slot i).progress = .teardown (Teardown.start d)) :
    (s.stateStage d).Holds none := by
  obtain ⟨hs, harb, hport, hdr⟩ := s.withdrawn_same d
  unfold State.stateStage
  dsimp only
  generalize hw : ((s.startDraining d).withdrawWrites d).withdrawRead d = u at hs harb hport hdr ⊢
  have aside : u.Holds (some i) := hw ▸ h.withdrawn d
  have hslot : ∀ j, u.slot j = s.slot j := fun j => by simp only [State.slot, hs]
  have hbus : u.liveBus = s.liveBus := State.liveBus_congr harb (by rw [hport])
  have hapart : u.Apart := ha.congr fun j => by rw [hslot]; exact ⟨rfl, rfl⟩
  have closed : u.Holds none := by
    refine aside.close ?_ fun z hz hop => absurd hop (hb z (hbus ▸ hz))
    rw [hslot]
    simp only [State.slotStands, hp, hc, hm, hu, hpr, State.commandStands, Teardown.start, hdr]
    rfl
  split
  · exact (closed.drainSlot hapart hs.symm harb.symm).readChoice
  · rename_i hnone
    refine (closed.reportFreed ?_ false).readChoice
    rw [Option.isNone_iff_eq_none]
    simpa only [State.slotOf, hslot] using hnone

theorem execDetach_holds (h : s.Holds none) (ha : s.Apart) (i : SlotId) :
    leadsTo (fun t => t.Holds none) (execDetach i s) := by
  unfold execDetach
  split
  · exact h
  · rename_i c r ht
    obtain ⟨hn, hu, hsup, hb, h'⟩ := h.taken ht
    obtain ⟨-, hp, -, hc, hm, h17⟩ := State.takenCommand_iff.1 ht
    obtain rfl : c = 0 := hsup (by rw [h17]; rfl)
    rw [leadsTo_next]
    unfold State.detachStep
    split
    · exact h.endTaken ha ht _
    · rename_i d _
      split
      · exact h.endTaken ha ht _
      · split
        · have started : (s.setProgress i (.teardown (Teardown.start d))).Holds (some i) :=
            h'.setSlot_aside rfl hn
          have hi : (s.setProgress i (.teardown (Teardown.start d))).slot i =
              { s.slot i with progress := .teardown (Teardown.start d) } := State.setSlot_slot_same _ _ _
          refine started.stateStage (ha.congr fun j => ?_) (by rw [hi]; exact hp) (by rw [hi]; exact hc) (by rw [hi]; exact hm)
            (by rw [hi]; exact hu) hb (by rw [hi])
          by_cases hj : j = i
          · subst hj
            rw [hi]
            exact ⟨rfl, rfl⟩
          · rw [State.setProgress_slot_other s hj]
            exact ⟨rfl, rfl⟩
        · exact h.endTaken ha ht _

/-! ### The later stages (R163 to R165) -/

/-- What a slot that tears a client down stands on. -/
theorem State.Holds.tearing (h : s.Holds none) {td : Teardown} (ht : s.teardownOf i = some (r, td)) :
    s.performing i = some (0, r) ∧ (s.slot i).undo = none ∧ (s.client td.subject).state = .draining ∧
      (td.stage = .abort ∨ (s.slotOf td.subject).isNone = true) ∧
      (∀ k, td.stage = .walk k → s.list td.subject = []) ∧ ∀ z ∈ s.liveBus, z.op ≠ .scatter i := by
  obtain ⟨c, hp, hpr⟩ := State.teardownOf_iff.1 ht
  have hst := h.performs hp rfl hpr
  simp only [State.commandStands, Bool.and_eq_true, Bool.or_eq_true, beq_iff_eq, Option.isNone_iff_eq_none] at hst
  obtain ⟨⟨⟨⟨hu, rfl⟩, hdr⟩, hslot⟩, hlist⟩ := hst
  refine ⟨hp, hu, hdr, by simpa only [Option.isNone_iff_eq_none] using hslot, fun k hk => ?_, h.noScatter fun m => by rw [hpr]; simp⟩
  rw [hk] at hlist
  simpa using hlist

/-- The teardown goes on to a stage of which its client, without a slot, has what it asks. -/
theorem State.teardown_stands {td : Teardown} (hdr : (s.client td.subject).state = .draining)
    (hslot : (s.slotOf td.subject).isNone = true) (hlist : s.list td.subject = [] ∨ td.stage = .pending) :
    s.commandStands 0 r none (.teardown td) = true := by
  simp only [State.commandStands, hdr, hslot]
  rcases hlist with hl | hl
  · rw [hl]
    cases td.stage <;> rfl
  · rw [hl]
    rfl

theorem execDirectoryPurge_holds (h : s.Holds none) (i : SlotId) :
    leadsTo (fun t => t.Holds none) (execDirectoryPurge i s) := by
  unfold execDirectoryPurge
  split
  · exact h
  · rename_i r td ht
    obtain ⟨hp, hu, hdr, hslot, -, hb⟩ := h.tearing ht
    split
    · rename_i hstage
      have hslot := hslot.resolve_left (by rw [hstage]; decide)
      have purged := h.setDir (s.dir.purge td.subject)
      exact purged.goOn hp hu (State.teardown_stands (td := { td with stage := .pending }) hdr hslot (.inr rfl)) (.inl hb)
    · exact h

theorem execPendingPurge_holds (h : s.Holds none) (i : SlotId) :
    leadsTo (fun t => t.Holds none) (execPendingPurge i s) := by
  unfold execPendingPurge
  split
  · exact h
  · rename_i r td ht
    obtain ⟨hp, hu, hdr, hslot, -, hb⟩ := h.tearing ht
    split
    · rename_i hstage
      have hslot := hslot.resolve_left (by rw [hstage]; decide)
      have purged := h.dropEntries (d := td.subject) (old := s.list td.subject) (kept := []) (by rw [List.append_nil])
      exact purged.goOn hp hu (State.teardown_stands hdr hslot (.inl (State.setList_list_same _ _ _))) (.inl hb)
    · exact h

theorem execReferenceWalkVisit_holds (h : s.Holds none) (i : SlotId) :
    leadsTo (fun t => t.Holds none) (execReferenceWalkVisit i s) := by
  unfold execReferenceWalkVisit
  split
  · exact h
  · rename_i r td ht
    obtain ⟨hp, hu, hdr, hslot, hlist, hb⟩ := h.tearing ht
    obtain ⟨-, hperf, hc, hm⟩ := State.performing_iff.1 hp
    split
    · rename_i k hstage
      have hslot := hslot.resolve_left (by rw [hstage]; simp)
      have hlist := hlist k hstage
      have visited := (h.aside hu).visit (k := k) hlist fun j _ => State.slotOf_none.1 hslot j
      refine visited.setProgress hperf hc hm ?_ (.inl hb)
      show State.commandStands _ 0 r (s.slot i).undo _ = true
      rw [hu]
      exact State.teardown_stands hdr hslot (.inl hlist)
    · exact h

theorem execTeardownCompletion_holds (h : s.Holds none) (ha : s.Apart) (i : SlotId) :
    leadsTo (fun t => t.Holds none) (execTeardownCompletion i s) := by
  unfold execTeardownCompletion
  split
  · exact h
  · rename_i r td ht
    obtain ⟨hp, hu, -, -, -, hb⟩ := h.tearing ht
    obtain ⟨-, hperf, hc, -⟩ := State.performing_iff.1 hp
    have hn : (s.slot i).state ≠ .free := by rw [hperf]; decide
    split
    · exact ((h.aside hu).setContext ha hn hc td.subject Client.initial).formCompletion (ha.setClient _ _) hn hb _
    · exact h

end Teardown

end Sys2Proof.Machine

/-!
PROOF. The second half of O57, continued: the Intake, the Delivery Unit, the arbiter, the tick and the System Port.
-/

namespace Sys2Proof.Machine

-- Elaborated one after the other: side by side, each declaration holds a thread with memory of its own.
set_option Elab.async false

section Units
variable {s t : State} {x : Option SlotId} {i j : SlotId} {c d : ClientId} {r : PostRecord}

theorem State.Apart.of_slots (ha : s.Apart) (hs : t.slots = s.slots) : t.Apart :=
  ha.congr fun j => by simp only [State.slot, hs]; exact ⟨trivial, trivial⟩

theorem State.slot_of_slots (hs : t.slots = s.slots) (j : SlotId) : t.slot j = s.slot j := by simp only [State.slot, hs]

/-- An occupied slot gets other contents of its client. -/
theorem State.Apart.setSlot (ha : s.Apart) {v : Slot} (hc : v.client = (s.slot i).client) (hn : (s.slot i).state ≠ .free) :
    (s.setSlot i v).Apart := by
  have key : ∀ j, ((s.setSlot i v).slot j).client = (s.slot j).client ∧
      (((s.setSlot i v).slot j).state ≠ .free → (s.slot j).state ≠ .free) := fun j => by
    by_cases hj : j = i
    · subst hj
      rw [State.setSlot_slot_same]
      exact ⟨hc, fun _ => hn⟩
    · rw [State.setSlot_slot_other _ hj]
      exact ⟨rfl, id⟩
  refine ⟨fun j k e hj hk cj ck => ?_, fun j hj => ?_⟩
  · rw [(key _).1] at cj ck
    exact ha.one j k e ((key j).2 hj) ((key k).2 hk) cj ck
  · rw [(key j).1]
    exact ha.named j ((key j).2 hj)

/-! ### The Intake -/

/-- A command is taken into a BOUND slot, and validated (R78, R81). -/
theorem State.Holds.takeCommand (h : s.Holds none) (ha : s.Apart) (hbd : (s.slot i).state = .bound)
    (hc : (s.slot i).client = some c) (r : PostRecord) : (s.takeCommand c i r).Holds none := by
  have hn : (s.slot i).state ≠ .free := by rw [hbd]; decide
  obtain ⟨hu, hb⟩ := h.idle (j := i) (by rw [hbd]; decide)
  unfold State.takeCommand
  dsimp only
  generalize hx : ({ s.client c with post := { (s.client c).post with taken := (s.client c).post.taken + 1 } } : Client) = y
  have advanced : (s.setClient c y).Holds (some i) := (h.aside hu).setClient_state (by rw [← hx])
  generalize hv : ({ Slot.initial with state := .performing, client := some c, command := some r, progress := .taken } : Slot) = v
  have hvc : v.client = (s.slot i).client := by rw [hc, ← hv]
  split
  · refine (advanced.setSlot_aside hvc hn).formCompletion ((ha.setClient c y).setSlot hvc hn) ?_ hb _
    rw [State.setSlot_slot_same, ← hv]
    exact SlotState.noConfusion
  · rename_i hval
    refine advanced.setSlot hvc hn ?_ fun z hz hop => absurd hop (hb z hz)
    unfold PostRecord.validate at hval
    split at hval
    · cases hval
    · split at hval
      · cases hval
      · rename_i hsup
        rw [← hv]
        simp only [State.slotStands, if_true, State.commandStands, Slot.initial]
        cases hk : supervisorKind r.kind.toNat
        · rfl
        · simpa [hk] using hsup

theorem execPostReadComplete_holds (hs : s.sound = true) (o : ReadOutcome) :
    leadsTo (fun t => t.Holds none) (execPostReadComplete o s) := by
  have h := State.sound_holds hs
  have ha := State.sound_apart hs
  unfold execPostReadComplete
  split
  · exact h
  · exact h.clearBus
  · rename_i c i y hy
    obtain ⟨hbd, hc⟩ := State.sound_postRead hs hy
    have hend := h.endFetch
    have hapart : s.endFetch.Apart := ha.of_slots rfl
    have hn : (s.slot i).state ≠ .free := by rw [hbd]; decide
    have hp : (s.slot i).state ≠ .performing := by rw [hbd]; decide
    split
    · rw [leadsTo_next]
      refine State.Holds.readChoice ?_
      unfold State.endPostRead
      split
      · cases o with
        | data bs => exact hend.takeCommand hapart hbd hc _
        | busError =>
          have same : (s.endFetch.clientFault c .postRead).slot i = s.slot i :=
            State.slot_of_slots (t := s.endFetch.clientFault c .postRead) (s := s) (by simp) i
          exact (hend.clientFault c .postRead).freeIdle (ha.of_slots (by simp)) (by rw [same]; exact hn) (by rw [same]; exact hp) false
      · exact hend.freeIdle hapart hn hp false
    · trivial

theorem State.Holds.endHalfRead (h : s.Holds x) (c : ClientId) (o : ReadOutcome) : (s.endHalfRead c o).Holds x := by
  unfold State.endHalfRead
  split
  · cases o with
    | data bs =>
      dsimp only
      split
      · exact h.setClient_state rfl
      · exact h.clientFault _ _
    | busError => exact h.clientFault _ _
  · exact h

theorem execClientHalfReadComplete_holds (h : s.Holds none) (o : ReadOutcome) :
    leadsTo (fun t => t.Holds none) (execClientHalfReadComplete o s) := by
  unfold execClientHalfReadComplete
  split
  · exact h
  · exact h.clearBus
  · split
    · exact (h.endFetch.endHalfRead _ o).readChoice
    · trivial

/-! ### The Delivery Unit: claims -/

theorem execDeliveryClaim_holds (h : s.Holds none) (c : ClientId) :
    leadsTo (fun t => t.Holds none) (execDeliveryClaim c s) := by
  unfold execDeliveryClaim
  split
  · split
    · rename_i k _
      split
      · rw [leadsTo_next]
        refine State.Holds.readChoice (State.Holds.setClient_state ?_ rfl)
        exact (h.setList ((s.list c).eraseIdx_sublist k).subperm).claimRing _ _ _ _
      · exact h
    · exact h
  · exact h

/-- The claim of a held completion (R84). -/
theorem State.Holds.claimCompletion (h : s.Holds none) {y : Completion} (hh : s.heldCompletion c = some (i, y)) :
    (s.claimCompletion c i y).Holds none := by
  have held : (s.slot i).state = .held := by
    unfold State.heldCompletion at hh
    split at hh
    · split at hh
      · rename_i hst _
        cases hh
        exact hst
      · cases hh
    · cases hh
  obtain ⟨hu, hb⟩ := h.idle (j := i) (by rw [held]; decide)
  refine State.Holds.claimRing ?_ _ _ _ _
  refine h.setSlot_stands rfl (by rw [held]; decide) rfl ?_ fun z hz hop => absurd hop (hb z hz)
  simp only [State.slotStands, hu]
  rfl

theorem State.Holds.claimNotice (h : s.Holds x) (q : QueuedNotice) (rest : List QueuedNotice) : (s.claimNotice q rest).Holds x := by
  refine State.Holds.claimRing (h.setUnit ?_) _ _ _ _
  rfl

theorem State.Holds.claimSupervisor (h : s.Holds none) (e : s.claimSupervisor = some t) : t.Holds none := by
  unfold State.claimSupervisor at e
  split at e
  · rename_i hh _
    cases e
    exact h.claimCompletion hh
  · rename_i hh _
    split at e
    · cases e
      exact h.claimCompletion hh
    · cases e
      exact h.claimNotice _ _
  · cases e
    exact h.claimNotice _ _
  · cases e

theorem State.Holds.claimClient (h : s.Holds none) (e : s.claimClient c = some t) : t.Holds none := by
  unfold State.claimClient at e
  split at e
  · rename_i hh
    cases e
    exact h.claimCompletion hh
  · cases e

theorem execReturnClaim_holds (h : s.Holds none) (c : ClientId) :
    leadsTo (fun t => t.Holds none) (execReturnClaim c s) := by
  unfold execReturnClaim
  split
  · split
    · rename_i t ht
      split at ht
      · exact (h.claimSupervisor ht).readChoice
      · exact (h.claimClient ht).readChoice
    · exact h
  · exact h

/-! ### The Delivery Unit: writes -/

theorem State.Holds.countWritten (h : s.Holds x) (c : ClientId) (n : OutRingName) (w : RecordKind) : (s.countWritten c n w).Holds x := by
  unfold State.countWritten
  refine h.setClient_state ?_
  split <;> simp

/-- The slot of a completion whose record write has ended is WRITING, and becomes FREE. -/
theorem State.Holds.releaseRecord (h : s.Holds none) (ha : s.Apart) {w : RecordKind}
    (hw : ∀ i, w = .completion i → (s.slot i).state = .writing) : (s.releaseRecord w).Holds none := by
  unfold State.releaseRecord
  split
  · rename_i i
    have := hw i rfl
    exact h.freeIdle ha (by rw [this]; decide) (by rw [this]; decide) false
  · exact h

theorem State.Holds.recordFailed (h : s.Holds none) (ha : s.Apart) (c : ClientId) (n : OutRingName) {w : RecordKind}
    (hw : ∀ i, w = .completion i → (s.slot i).state = .writing) : (s.recordFailed c n w).Holds none := by
  have ended := h.endRing c n
  unfold State.recordFailed
  dsimp only
  split
  · exact ended.failDevice _ _
  · exact ended.clientFault _ _
  · rename_i i
    split
    · exact ended.clientFault _ _
    · have same : ((s.endRing c n).clientFault c .recordWrite).slots = s.slots := by simp
      exact State.Holds.releaseRecord (w := .completion i) (ended.clientFault _ _) (ha.of_slots same)
        fun j hj => by rw [State.slot_of_slots same]; exact hw j hj

theorem State.Holds.endRecord (h : s.Holds none) (ha : s.Apart) (c : ClientId) (n : OutRingName) {w : RecordKind}
    (hw : ∀ i, w = .completion i → (s.slot i).state = .writing) (o : WriteOutcome) : (s.endRecord c n w o).Holds none := by
  have release : ∀ u : State, u.Holds none → u.slots = s.slots → (u.releaseRecord w).Holds none := fun u hu same =>
    hu.releaseRecord (ha.of_slots same) fun j hj => by rw [State.slot_of_slots same]; exact hw j hj
  unfold State.endRecord
  dsimp only
  split
  · exact release _ ((h.countWritten c n w).enqueue _) (by simp [State.countWritten])
  · exact h.recordFailed ha c n hw
  · exact release _ (((h.countWritten c n w).endRing c n).requestFinal c) (by simp [State.countWritten])
  · exact release _ ((h.endRing c n).requestFinal c) (by simp)
  · exact release _ (h.endRing c n) rfl

theorem execRecordWriteComplete_holds (hs : s.sound = true) (o : WriteOutcome) :
    leadsTo (fun t => t.Holds none) (execRecordWriteComplete o s) := by
  have h := State.sound_holds hs
  unfold execRecordWriteComplete
  split
  · exact h
  · exact h.clearBus
  · rename_i c n w y hy
    exact h.clearBus.endRecord (State.sound_apart hs).clearBus c n (fun i hi => State.sound_completion hs (hi ▸ hy)) o

theorem State.Holds.signalTest (h : s.Holds x) (c : ClientId) (n : OutRingName) : (s.signalTest c n).Holds x := by
  unfold State.signalTest
  dsimp only
  split
  · have marked := h.setClient_state (d := c)
      (v := (s.client c).setRing n { (s.client c).ring n with signalled := ((s.client c).ring n).lastWake }) (by simp)
    split
    · exact marked.endRing c n
    · exact marked.enqueue _
  · exact h.endRing c n

theorem execWriteBackComplete_holds (h : s.Holds none) (o : WriteOutcome) :
    leadsTo (fun t => t.Holds none) (execWriteBackComplete o s) := by
  have h' := h.clearBus
  unfold execWriteBackComplete
  split
  · exact h
  · exact h'
  · rename_i c n _ _
    rw [leadsTo_next]
    unfold State.endWriteBack
    split
    · exact h'.signalTest c n
    · exact (h'.endRing c n).clientFault _ _
    · exact (h'.endRing c n).requestFinal _
  · exact h'

theorem execSignalWriteComplete_holds (h : s.Holds none) (o : WriteOutcome) :
    leadsTo (fun t => t.Holds none) (execSignalWriteComplete o s) := by
  have h' := h.clearBus
  unfold execSignalWriteComplete
  split
  · exact h
  · exact h'
  · rename_i c n _ _
    rw [leadsTo_next]
    unfold State.endSignal
    split
    · exact h'.endRing c n
    · exact (h'.endRing c n).clientFault _ _
    · exact (h'.endRing c n).requestFinal _

/-! ### Linger expiry (R126) -/

theorem execLingerExpiry_holds (h : s.Holds none) (c : ClientId) :
    leadsTo (fun t => t.Holds none) (execLingerExpiry c s) := by
  unfold execLingerExpiry
  split
  · have due := h.setUnit (v := { s.unit with expiryDue := without s.unit.expiryDue c }) rfl
    exact (due.dropEntries (List.filter_append_perm _ _).symm).setClient_state rfl
  · exact h

/-! ### The arbiter (R189) -/

/-- A granted transaction is the one on the bus. -/
theorem State.granted_liveBus {a : Arbiter} {y z : Txn} (ha : a.bus = some { txn := y, stale := false })
    (hz : z ∈ (s.setArb a).liveBus) : z = y := by
  simp only [State.liveBus, State.setArb_arb, ha, Bool.false_or] at hz
  split at hz
  · cases hz
  · exact List.mem_singleton.1 hz

/-- A slot that presents a scatter piece moves data with no growth claim (R146). -/
theorem State.presents_scatter {y : Txn} (hy : s.presents i = .txn y) (hop : y.op = .scatter j) :
    j = i ∧ (s.slot i).state = .performing ∧ (s.slot i).undo = none ∧ ∃ m, (s.slot i).progress = .moving m := by
  unfold State.presents at hy
  dsimp only at hy
  split at hy
  · rename_i hp
    split at hy
    · rename_i m hm
      split at hy
      · split at hy
        · cases hy
          cases hop
        · rename_i hu
          split at hy
          · cases hy
            cases hop
            exact ⟨rfl, hp, by simpa using hu, m, hm⟩
          · cases hy
      · cases hy
    · cases hy
      cases hop
    · cases hy
      cases hop
    · cases hy
      cases hop
    · cases hy
  · cases hy

theorem State.Holds.grantFetcher (hs : s.sound = true) {y : Txn} (hy : s.intake.fetch = some y) : (s.grantFetcher y).Holds none := by
  refine (State.sound_holds hs).setArb fun z hz => .inr fun j hop => ?_
  rw [State.granted_liveBus rfl hz] at hop
  have := (State.sound_fetch hs hy).1
  rw [hop] at this
  cases this

theorem State.issued_op (s : State) (y : Txn) : (s.issued y).op = y.op := by
  unfold State.issued
  split <;> rfl

theorem State.Holds.grantWriter (hs : s.sound = true) {y : Txn} {rest : List Txn} (hy : s.unit.writer = y :: rest) :
    (s.grantWriter y rest).Holds none := by
  refine State.Holds.setUnit ((State.sound_holds hs).setArb fun z hz => .inr fun j hop => ?_) rfl
  rw [State.granted_liveBus rfl hz, State.issued_op] at hop
  have := State.sound_writer hs (x := y) (by rw [hy]; exact List.mem_cons_self)
  rw [hop] at this
  cases this

theorem State.Holds.grantSlot (h : s.Holds none) {y : Txn} (hy : s.presents i = .txn y) : (s.grantSlot i y).Holds none := by
  refine h.setArb fun z hz => .inr fun j hop => ?_
  rw [State.granted_liveBus rfl hz] at hop
  obtain ⟨rfl, hp⟩ := State.presents_scatter hy hop
  exact hp

theorem State.grantOther_holds (hs : s.sound = true) : leadsTo (fun t => t.Holds none) s.grantOther := by
  have h := State.sound_holds hs
  unfold State.grantOther
  split
  · rename_i hw
    exact State.Holds.grantWriter hs hw
  · unfold State.grantRest
    split
    · split
      · rename_i hp
        exact h.grantSlot hp
      · trivial
      · exact h
    · split
      · rename_i hf
        exact State.Holds.grantFetcher hs hf
      · exact h

theorem execGrant_holds (hs : s.sound = true) : leadsTo (fun t => t.Holds none) (execGrant s) := by
  unfold execGrant
  split
  · split
    · rename_i hf
      split
      · exact State.Holds.grantFetcher hs hf
      · exact State.grantOther_holds hs
    · exact State.grantOther_holds hs
  · exact State.sound_holds hs

/-! ### The tick (R190) -/

theorem State.Holds.tickEvent (h : s.Holds none) : s.tickEvent.Holds none := by
  have counted : (s.setPort { s.port with tickDivider := 0, tickCount := s.port.tickCount + 1 }).Holds none := h.setPort id
  refine (State.Holds.setIntake (State.Holds.setUnit (counted.setDir _) ?_) _).readChoice
  rfl

theorem State.Holds.idlePeriod (h : s.Holds none) : s.idlePeriod.Holds none := by
  unfold State.idlePeriod
  split
  · split
    · exact h.setPort id
    · exact h.tickEvent
  · exact h

theorem execTick_holds (h : s.Holds none) : leadsTo (fun t => t.Holds none) (execTick s) := by
  unfold execTick
  rw [leadsTo_next]
  split
  · exact h.tickEvent
  · exact h

theorem execSweep_holds (h : s.Holds none) : leadsTo (fun t => t.Holds none) (execSweep s) := by
  unfold execSweep
  split
  · exact h.setDir _
  · exact h

/-! ### The register window (section 9.1) -/

theorem State.Holds.answered (h : s.Holds x) (a : PortAnswer) : (s.answered a).Holds x := h.setPort id

theorem State.Holds.fetchSetup (h : s.Holds x) (op : TxnOp) (a : Addr) (n : Nat) : (s.fetchSetup op a n).Holds x := h.setIntake _

theorem State.Holds.goEvent (h : s.Holds none) : s.goEvent.Holds none := by
  unfold State.goEvent
  split
  · rename_i hd
    unfold State.startLoad
    split
    · have loading := h.setPort (p := { s.port with device := .loading }) fun hf => by rw [hd] at hf; cases hf
      exact (loading.setLoad _).fetchSetup _ _ _
    · exact h.failDevice _ _
  · rename_i hd
    exact (h.setPort fun hf => by rw [hd] at hf; cases hf).readChoice
  · rename_i hd
    exact (h.setPort fun hf => by rw [hd] at hf; cases hf).readChoice
  · exact h

theorem State.Holds.haltEvent (h : s.Holds x) : s.haltEvent.Holds x := by
  unfold State.haltEvent
  split
  · rename_i hd
    split <;> exact h.setPort fun hf => by rw [hd] at hf; cases hf
  · exact h

/-- A state with every block at its reset values but parcel memory, in which the bus carries nothing live (R1, R181, R182). -/
theorem State.Holds.restarted {p : Port} {q : List Instr} (a : Arbiter) (m : List Host.Cell) :
    State.Holds { State.reset with pending := q, arb := a.restarted, store := { Store.initial with memory := m }, port := p }
      none := by
  have h := State.sound_holds resetIsSound
  have kept : (State.reset.setStore { Store.initial with memory := m }).Holds none := h.setStore_congr rfl rfl
  refine kept.frame_clients rfl rfl rfl rfl ?_
  have : State.liveBus { State.reset with
      pending := q, arb := a.restarted, store := { Store.initial with memory := m }, port := p } = [] := by
    cases a with
    | mk w n b => cases b <;> rfl
  rw [this]
  exact List.nil_subset _

theorem State.Holds.controlEvent (h : s.Holds none) (v : BitVec 32) : (s.controlEvent v).Holds none := by
  unfold State.controlEvent
  split
  · exact State.Holds.restarted _ _
  · split
    · exact h
    · split
      · exact h.goEvent
      · split
        · exact h.haltEvent
        · exact h

theorem State.Holds.attendEvent (h : s.Holds none) (v : BitVec 32) : (s.attendEvent v).Holds none := by
  unfold State.attendEvent
  split
  · exact (h.setIntake _).readChoice
  · exact h

theorem State.Holds.setupEvent (h : s.Holds x) (high : Bool) (v : BitVec 32) : (s.setupEvent high v).Holds x := by
  unfold State.setupEvent
  split <;> exact h.setPort id

theorem State.Holds.writeWord (h : s.Holds none) (n : Nat) (v : BitVec 32) : (s.writeWord n v).Holds none := by
  unfold State.writeWord
  split
  · exact h.controlEvent v
  · split
    · exact h.attendEvent v
    · split
      · exact h.setupEvent _ _
      · split
        · exact h.setupEvent _ _
        · exact h

theorem State.Holds.access (h : s.Holds none) (a : PortAccess) : (s.access a).Holds none := by
  unfold State.access
  split
  · split <;> exact h.answered _
  · split
    · exact h.answered _
    · split
      · exact h.answered _
      · exact (h.writeWord _ _).answered _

theorem State.Holds.windowWrite (h : s.Holds none) {f : State → State} (hf : (f s).Holds none) : (s.windowWrite f).Holds none := by
  unfold State.windowWrite
  split
  · exact h.answered _
  · exact hf.answered _

/-! ### The setup load (section 9.4) -/

theorem State.Holds.failLoad (h : s.Holds x) (code : DeviceFault) (reason : Option FaultReason) : (s.failLoad code reason).Holds x :=
  (h.setLoad _).failDevice _ _

theorem State.Holds.fetchPiece (h : s.Holds x) (g : Settings) (ps : List Piece) (bs : List Byte) : (s.fetchPiece g ps bs).Holds x := by
  unfold State.fetchPiece
  split
  · exact (h.setLoad _).fetchSetup _ _ _
  · exact h

theorem execSetupReadComplete_holds (h : s.Holds none) (o : ReadOutcome) :
    leadsTo (fun t => t.Holds none) (execSetupReadComplete o s) := by
  unfold execSetupReadComplete
  split
  · exact h
  · exact h.clearBus
  · cases o with
    | busError => exact h.endFetch.failLoad _ _
    | data bs =>
      dsimp only
      split
      · rw [leadsTo_next]
        unfold State.setupRead
        split
        · exact h.endFetch.fetchPiece _ _ _
        · exact h.endFetch.failLoad _ _
      · trivial

theorem State.Holds.loadSettings (h : s.Holds x) (g : Settings) : (s.loadSettings g).Holds x := by
  have kept : (s.setStore { s.store with reserves := g.reserves }).Holds x := h.setStore_congr rfl rfl
  exact State.Holds.setUnit (kept.setDir _) rfl

theorem execSetupDescriptorPieceComplete_holds (h : s.Holds none) (o : ReadOutcome) :
    leadsTo (fun t => t.Holds none) (execSetupDescriptorPieceComplete o s) := by
  unfold execSetupDescriptorPieceComplete
  split
  · exact h
  · exact h.clearBus
  · split
    · cases o with
      | busError => exact h.endFetch.failLoad _ _
      | data bs =>
        dsimp only
        split
        · rw [leadsTo_next]
          unfold State.setupPiece
          split
          · split
            · exact ((h.endFetch.loadSettings _).setLoad _).fetchSetup _ _ _
            · exact h.endFetch.failLoad _ _
          · exact h.endFetch.fetchPiece _ _ _
        · trivial
    · exact h.clearBus

theorem execSetupCxbReadComplete_holds (h : s.Holds none) (o : ReadOutcome) :
    leadsTo (fun t => t.Holds none) (execSetupCxbReadComplete o s) := by
  unfold execSetupCxbReadComplete
  split
  · exact h
  · exact h.clearBus
  · split
    · cases o with
      | busError => exact h.endFetch.failLoad _ _
      | data bs =>
        dsimp only
        split
        · rw [leadsTo_next]
          unfold State.setupHalfRead
          split
          · exact (h.endFetch.setLoad _).enqueue _
          · exact h.endFetch.failLoad _ _
        · trivial
    · exact h.clearBus

theorem execSetupWriteBackComplete_holds (hs : s.sound = true) (w : WriteOutcome) :
    leadsTo (fun t => t.Holds none) (execSetupWriteBackComplete w s) := by
  have h := State.sound_holds hs
  unfold execSetupWriteBackComplete
  split
  · exact h
  · exact h.clearBus
  · rename_i y hy
    obtain ⟨-, -, -, hd⟩ := State.onBus_liveBus hy
    split
    · rename_i e f _
      cases w with
      | busError => exact h.clearBus.failLoad _ _
      | done =>
        rw [leadsTo_next]
        have attached : (s.clearBus.attachCommit 0 e f).Holds none :=
          h.clearBus.setClient fun _ => .inr fun j _ _ td hpr => State.sound_subject hs hpr
        exact ((attached.setLoad _).setPort fun hf => absurd hf hd).readChoice
    · exact h.clearBus

/-! ### The reset pin (R182, R191) -/

theorem execResetPinAssert_holds (h : s.Holds none) : leadsTo (fun t => t.Holds none) (execResetPinAssert s) := by
  have asserted := h.setPort (p := { s.port with resetAsserted := true, faultPin := false }) id
  refine asserted.setArb fun y hy => ?_
  have none_live : State.liveBus ((s.setPort { s.port with resetAsserted := true, faultPin := false }).setArb
      { s.arb with bus := s.arb.abandoned }) = [] := by
    unfold State.liveBus
    simp only [State.setArb_arb, Arbiter.abandoned]
    cases s.arb.bus <;> rfl
  rw [none_live] at hy
  cases hy

theorem execResetPinRelease_holds (h : s.Holds none) : leadsTo (fun t => t.Holds none) (execResetPinRelease s) := by
  unfold execResetPinRelease
  rw [leadsTo_next]
  split
  · exact State.Holds.restarted _ _
  · exact h

/-! ### Every command, and the step -/

theorem exec_holds (hs : s.sound = true) (y : Instr) : leadsTo (fun t => t.Holds none) (exec y s) := by
  have h := State.sound_holds hs
  have ha := State.sound_apart hs
  cases y with
  | postReadComplete o => exact execPostReadComplete_holds hs o
  | openParcel i => exact execOpen_holds h ha i
  | append i => exact execAppend_holds h ha i
  | cut i => exact execCut_holds h ha i
  | dispatch i => exact execDispatch_holds h ha i
  | send i => exact execSend_holds h ha i
  | forward i => exact execForward_holds h ha i
  | fetch i => exact execFetch_holds h ha i
  | release i => exact execRelease_holds h ha i
  | subscribe i => exact execSubscribe_holds h ha i
  | unsubscribe i => exact execUnsubscribe_holds h ha i
  | pin i => exact execPin_holds h ha i
  | unpin i => exact execUnpin_holds h ha i
  | attach i => exact execAttach_holds h ha i
  | detach i => exact execDetach_holds h ha i
  | query i => exact execQuery_holds h ha i
  | gatherPieceComplete o => exact execGatherPieceComplete_holds h ha o
  | scatterPieceComplete w => exact execScatterPieceComplete_holds h ha w
  | lookup i => exact execLookup_holds h ha i
  | admission i => exact execAdmission_holds h ha i
  | settlement i => exact execSettlement_holds h ha i
  | handOver i => exact execHandOver_holds h ha i
  | releaseAfterDrop i => exact execReleaseAfterDrop_holds h ha i
  | clientHalfReadComplete o => exact execClientHalfReadComplete_holds h o
  | deliveryClaim c => exact execDeliveryClaim_holds h c
  | returnClaim c => exact execReturnClaim_holds h c
  | recordWriteComplete w => exact execRecordWriteComplete_holds hs w
  | writeBackComplete w => exact execWriteBackComplete_holds h w
  | signalWriteComplete w => exact execSignalWriteComplete_holds h w
  | grant => exact execGrant_holds hs
  | tick => exact execTick_holds h
  | sweep => exact execSweep_holds h
  | lingerExpiry c => exact execLingerExpiry_holds h c
  | directoryPurge i => exact execDirectoryPurge_holds h i
  | pendingPurge i => exact execPendingPurge_holds h i
  | referenceWalkVisit i => exact execReferenceWalkVisit_holds h i
  | teardownCompletion i => exact execTeardownCompletion_holds h ha i
  | attachDescriptorPieceComplete o => exact execAttachDescriptorPieceComplete_holds h ha o
  | attachCxbReadComplete o => exact execAttachCxbReadComplete_holds h ha o
  | attachWriteBackComplete w => exact execAttachWriteBackComplete_holds h ha w
  | countRead i => exact execCountRead_holds h i
  | reportRead i => exact execReportRead_holds h i
  | reportWritePieceComplete w => exact execReportWritePieceComplete_holds h ha w
  | go => exact h.windowWrite h.goEvent
  | halt => exact h.windowWrite h.haltEvent
  | restart => exact h.windowWrite (State.Holds.restarted _ _)
  | attend v => exact h.windowWrite (h.attendEvent v)
  | setupAddressWrite high v => exact h.windowWrite (h.setupEvent high v)
  | registerWrite a => exact h.access a
  | setupReadComplete o => exact execSetupReadComplete_holds h o
  | setupDescriptorPieceComplete o => exact execSetupDescriptorPieceComplete_holds h o
  | setupCxbReadComplete o => exact execSetupCxbReadComplete_holds h o
  | setupWriteBackComplete w => exact execSetupWriteBackComplete_holds hs w
  | resetPinAssert => exact execResetPinAssert_holds h
  | resetPinRelease => exact execResetPinRelease_holds h

/-- A step from a sound state keeps the holdings. -/
theorem step_holds (hs : s.sound = true) (e : step s = .next t) : t.Holds none := by
  unfold step at e
  split at e
  · cases e
    exact (State.sound_holds hs).idlePeriod
  · rename_i y rest _
    have waiting : (s.setPending rest).sound = true := hs
    exact (exec_holds waiting y).of_next e

end Units

/-- Settles O57: the store by what each request of it keeps (`step_whole`), the holdings by what each step leaves to the clients and
slots that it does not serve, and gives back to the one that it does (`step_holds`). -/
theorem storeStaysWhole : Obligations.StoreStaysWhole :=
  ⟨fun _ _ h1 h2 h3 e => Store.whole_iff.1 (step_whole (Store.whole_iff.2 ⟨h1, h2, h3⟩) e),
    fun _ _ hs e => (step_holds hs e).sound⟩

end Sys2Proof.Machine

/-!
PROOF. The layer that O56 rests on: the directory's invariant reads the directory and the setup load, and every command but those of
the directory, the setup load, the tick, the register window and the reset pin leaves both alone.
-/

namespace Sys2Proof.Machine

-- Elaborated one after the other: side by side, each declaration holds a thread with memory of its own.
set_option Elab.async false

/-! ### What the invariant reads -/

/-- All that `State.directorySound` reads: the directory, and the setup load with the settings that it carries. -/
def State.channels (s : State) : Directory × Load := (s.dir, s.load)

theorem State.directorySound_congr {s t : State} (h : t.channels = s.channels) : t.directorySound = s.directorySound := by
  simp only [State.channels, Prod.mk.injEq] at h
  simp only [State.directorySound, h]

/-- A step leaves the directory and the setup load alone. -/
def State.keepsChannels (s : State) (o : Result) : Prop := leadsTo (fun t => t.channels = s.channels) o

section Channels
variable (s : State) (i : SlotId) (c : ClientId) (r : PostRecord)

@[simp] theorem State.keepsChannels_next (t : State) : s.keepsChannels (.next t) ↔ t.channels = s.channels := Iff.rfl
@[simp] theorem State.keepsChannels_noStep (t : State) : s.keepsChannels (noStep t) ↔ t.channels = s.channels := Iff.rfl
@[simp] theorem State.keepsChannels_fault (x : Fault) : s.keepsChannels (.fault x) := trivial
@[simp] theorem State.keepsChannels_refused (x : Refusal) : s.keepsChannels (.refused x) := trivial

/-! ### The named updates and the shared operations -/

@[simp] theorem State.setPort_channels (v : Port) : (s.setPort v).channels = s.channels := rfl
@[simp] theorem State.setArb_channels (v : Arbiter) : (s.setArb v).channels = s.channels := rfl
@[simp] theorem State.setStore_channels (v : Store) : (s.setStore v).channels = s.channels := rfl
@[simp] theorem State.setIntake_channels (v : Intake) : (s.setIntake v).channels = s.channels := rfl
@[simp] theorem State.setUnit_channels (v : DeliveryUnit) : (s.setUnit v).channels = s.channels := rfl
@[simp] theorem State.setClient_channels (v : Client) : (s.setClient c v).channels = s.channels := rfl
@[simp] theorem State.setSlot_channels (v : Slot) : (s.setSlot i v).channels = s.channels := rfl
@[simp] theorem State.setList_channels (v : List PendingEntry) : (s.setList c v).channels = s.channels := rfl
@[simp] theorem State.setProgress_channels (p : Progress) : (s.setProgress i p).channels = s.channels := rfl
@[simp] theorem State.enqueue_channels (x : Txn) : (s.enqueue x).channels = s.channels := rfl
@[simp] theorem State.endRing_channels (n : OutRingName) : (s.endRing c n).channels = s.channels := rfl
@[simp] theorem State.clearBus_channels : s.clearBus.channels = s.channels := rfl
@[simp] theorem State.endFetch_channels : s.endFetch.channels = s.channels := rfl
@[simp] theorem State.failDevice_channels (code : DeviceFault) (reason : Option FaultReason) :
    (s.failDevice code reason).channels = s.channels := rfl
@[simp] theorem State.readChoice_channels : s.readChoice.channels = s.channels := by simp [State.channels]
@[simp] theorem State.reportFreed_channels (b : Bool) : (s.reportFreed c b).channels = s.channels := rfl
@[simp] theorem State.freeSlot_channels (b : Bool) : (s.freeSlot i b).channels = s.channels := by simp [State.channels]
@[simp] theorem State.formCompletion_channels (x : Completion) : (s.formCompletion i x).channels = s.channels := by
  simp [State.channels]
@[simp] theorem State.queueNotice_channels (n : Notice) : (s.queueNotice n).channels = s.channels := by simp [State.channels]
@[simp] theorem State.requestFinal_channels : (s.requestFinal c).channels = s.channels := by simp [State.channels]
@[simp] theorem State.clientFault_channels (x : FaultReason) : (s.clientFault c x).channels = s.channels := by
  simp [State.channels]
@[simp] theorem State.claimRing_channels (n : OutRingName) (w : RecordKind) (b : Byte → List Byte) :
    (s.claimRing c n w b).channels = s.channels := by simp [State.channels]
@[simp] theorem State.endWith_channels (st : Status) (d : Nat) : (s.endWith i r st d).channels = s.channels := by
  simp [State.endWith]
@[simp] theorem State.endParcel_channels (h : Handle) (n : Nat) : (s.endParcel i r h n).channels = s.channels := by
  simp [State.endParcel]
@[simp] theorem State.endFetched_channels (h : Handle) (n k : Nat) : (s.endFetched i r h n k).channels = s.channels := by
  simp [State.endFetched]
@[simp] theorem State.scattered_channels (h : Handle) (n k : Nat) : (s.scattered i r h n k).channels = s.channels := by
  unfold State.scattered; split <;> simp
@[simp] theorem State.sendUndo_channels : (s.sendUndo i).channels = s.channels := by
  unfold State.sendUndo; split <;> rfl
@[simp] theorem State.abortSlot_channels : (s.abortSlot i).channels = s.channels := by simp [State.abortSlot]
@[simp] theorem State.commitGrowth_channels (k : Nat) (b : Bool) : (s.commitGrowth k b).channels = s.channels := rfl
@[simp] theorem State.startGather_channels (m : Movement) (g : GrowthClaim) : (s.startGather i m g).channels = s.channels := rfl
@[simp] theorem State.claimSegments_channels (k n g : Nat) : (s.claimSegments k c n g).channels = s.channels := by
  unfold State.claimSegments State.lowerTest
  dsimp only
  split <;> [skip; split] <;> simp
@[simp] theorem State.releaseRecord_channels (w : RecordKind) : (s.releaseRecord w).channels = s.channels := by
  unfold State.releaseRecord; split <;> simp
@[simp] theorem State.countWritten_channels (n : OutRingName) (w : RecordKind) : (s.countWritten c n w).channels = s.channels := rfl
@[simp] theorem State.attachCommit_channels (d : Descriptor) (h : ClientHalf) : (s.attachCommit c d h).channels = s.channels := rfl
@[simp] theorem State.routingAnswered_channels (q : Routing) : (s.routingAnswered i c r q).channels = s.channels := by
  unfold State.routingAnswered; split <;> [split; skip] <;> simp

/-! ### Building and sending -/

theorem execOpen_channels : s.keepsChannels (execOpen i s) := by
  unfold execOpen State.openStep
  repeat' split
  all_goals simp

theorem execAppend_channels : s.keepsChannels (execAppend i s) := by
  unfold execAppend State.appendClaim
  dsimp only
  repeat' split
  all_goals simp

theorem execCut_channels : s.keepsChannels (execCut i s) := by
  unfold execCut State.cutStep
  dsimp only
  repeat' split
  all_goals simp

theorem execDispatch_channels : s.keepsChannels (execDispatch i s) := by
  unfold execDispatch State.closeStep
  dsimp only
  repeat' split
  all_goals simp

theorem execSend_channels : s.keepsChannels (execSend i s) := by
  unfold execSend State.sendClaim
  dsimp only
  repeat' split
  all_goals simp

theorem execForward_channels : s.keepsChannels (execForward i s) := by
  unfold execForward State.forwardCheck
  dsimp only
  repeat' split
  all_goals simp

/-! ### Data movement -/

theorem State.gathered_channels (m : Movement) (g : GrowthClaim) : (s.gathered i r m g).channels = s.channels := by
  unfold State.gathered
  dsimp only
  repeat' split
  all_goals simp

theorem execGatherPieceComplete_channels (o : ReadOutcome) : s.keepsChannels (execGatherPieceComplete o s) := by
  unfold execGatherPieceComplete State.gatherFailed State.gatherData
  dsimp only
  repeat' split
  all_goals simp [State.gathered_channels]

theorem execScatterPieceComplete_channels (w : WriteOutcome) : s.keepsChannels (execScatterPieceComplete w s) := by
  unfold execScatterPieceComplete State.scatterDone
  repeat' split
  all_goals simp

/-! ### Routing -/

theorem execLookup_channels : s.keepsChannels (execLookup i s) := by
  unfold execLookup State.lookupStep
  repeat' split
  all_goals simp

theorem execAdmission_channels : s.keepsChannels (execAdmission i s) := by
  unfold execAdmission State.offerStep
  repeat' split
  all_goals simp

theorem execHandOver_channels : s.keepsChannels (execHandOver i s) := by
  unfold execHandOver State.handOverStep
  repeat' split
  all_goals simp

/-! ### Taking delivery -/

theorem execFetch_channels : s.keepsChannels (execFetch i s) := by
  unfold execFetch State.fetchCheck
  dsimp only
  repeat' split
  all_goals simp

theorem execRelease_channels : s.keepsChannels (execRelease i s) := by
  unfold execRelease State.releaseStep
  dsimp only
  repeat' split
  all_goals simp

theorem execReleaseAfterDrop_channels : s.keepsChannels (execReleaseAfterDrop i s) := by
  unfold execReleaseAfterDrop
  repeat' split
  all_goals simp

theorem execDeliveryClaim_channels : s.keepsChannels (execDeliveryClaim c s) := by
  unfold execDeliveryClaim State.claimDelivery
  dsimp only
  repeat' split
  all_goals simp

theorem execLingerExpiry_channels : s.keepsChannels (execLingerExpiry c s) := by
  unfold execLingerExpiry State.expire
  split <;> simp

/-! ### The Intake -/

theorem State.takeCommand_channels : (s.takeCommand c i r).channels = s.channels := by
  unfold State.takeCommand
  dsimp only
  split <;> simp

theorem execPostReadComplete_channels (o : ReadOutcome) : s.keepsChannels (execPostReadComplete o s) := by
  unfold execPostReadComplete State.endPostRead
  repeat' split
  all_goals simp [State.takeCommand_channels]

theorem execClientHalfReadComplete_channels (o : ReadOutcome) : s.keepsChannels (execClientHalfReadComplete o s) := by
  unfold execClientHalfReadComplete State.endHalfRead
  repeat' split
  all_goals simp

/-! ### The record writer and the bus -/

theorem State.claimCompletion_channels (x : Completion) : (s.claimCompletion c i x).channels = s.channels := by
  simp [State.claimCompletion]

theorem State.claimNotice_channels (q : QueuedNotice) (rest : List QueuedNotice) :
    (s.claimNotice q rest).channels = s.channels := by
  simp [State.claimNotice]

/-- A return claim, whichever record it takes (R84, R85). -/
theorem State.returnClaim_channels {t : State} (h : (if c = 0 then s.claimSupervisor else s.claimClient c) = some t) :
    t.channels = s.channels := by
  unfold State.claimSupervisor State.claimClient at h
  repeat' split at h
  all_goals cases h
  all_goals simp only [State.claimCompletion_channels, State.claimNotice_channels]

theorem execReturnClaim_channels : s.keepsChannels (execReturnClaim c s) := by
  unfold execReturnClaim
  split
  · split
    · rename_i t ht
      simpa using s.returnClaim_channels c ht
    · rfl
  · rfl

theorem execRecordWriteComplete_channels (w : WriteOutcome) : s.keepsChannels (execRecordWriteComplete w s) := by
  unfold execRecordWriteComplete State.endRecord State.recordFailed
  dsimp only
  repeat' split
  all_goals simp

theorem execWriteBackComplete_channels (w : WriteOutcome) : s.keepsChannels (execWriteBackComplete w s) := by
  unfold execWriteBackComplete State.endWriteBack State.signalTest
  dsimp only
  repeat' split
  all_goals simp

theorem execSignalWriteComplete_channels (w : WriteOutcome) : s.keepsChannels (execSignalWriteComplete w s) := by
  unfold execSignalWriteComplete State.endSignal
  repeat' split
  all_goals simp

theorem execGrant_channels : s.keepsChannels (execGrant s) := by
  unfold execGrant State.grantOther State.grantRest State.grantFetcher State.grantWriter State.grantSlot
  repeat' split
  all_goals simp

/-! ### Teardown (section 8.3) -/

theorem State.endWaiting_channels (n : OutRingName) : (s.endWaiting c n).channels = s.channels := by
  unfold State.endWaiting; split <;> rfl

theorem State.withdrawn_channels : (((s.startDraining c).withdrawWrites c).withdrawRead c).channels = s.channels := by
  have writes : ((s.startDraining c).withdrawWrites c).channels = s.channels := by
    simp only [State.withdrawWrites, State.setUnit_channels, State.endWaiting_channels]
    rfl
  unfold State.withdrawRead
  split <;> simpa using writes

theorem State.drainSlot_channels (before : State) : (s.drainSlot before c i).channels = s.channels := by
  unfold State.drainSlot State.requestAbort
  repeat' split
  all_goals simp

theorem State.stateStage_channels : (s.stateStage c).channels = s.channels := by
  unfold State.stateStage
  dsimp only
  split <;> simp only [State.readChoice_channels, State.drainSlot_channels, State.reportFreed_channels, State.withdrawn_channels]

theorem execDetach_channels : s.keepsChannels (execDetach i s) := by
  unfold execDetach State.detachStep
  repeat' split
  all_goals simp [State.stateStage_channels]

theorem execPendingPurge_channels : s.keepsChannels (execPendingPurge i s) := by
  unfold execPendingPurge
  repeat' split
  all_goals simp

theorem execReferenceWalkVisit_channels : s.keepsChannels (execReferenceWalkVisit i s) := by
  unfold execReferenceWalkVisit
  repeat' split
  all_goals simp

theorem execTeardownCompletion_channels : s.keepsChannels (execTeardownCompletion i s) := by
  unfold execTeardownCompletion
  repeat' split
  all_goals simp

/-! ### ATTACH and QUERY -/

theorem execAttach_channels : s.keepsChannels (execAttach i s) := by
  unfold execAttach
  repeat' split
  all_goals simp

theorem execAttachDescriptorPieceComplete_channels (o : ReadOutcome) :
    s.keepsChannels (execAttachDescriptorPieceComplete o s) := by
  unfold execAttachDescriptorPieceComplete State.descriptorRead
  repeat' split
  all_goals simp

theorem execAttachCxbReadComplete_channels (o : ReadOutcome) : s.keepsChannels (execAttachCxbReadComplete o s) := by
  unfold execAttachCxbReadComplete State.attachHalfRead
  repeat' split
  all_goals simp

theorem execAttachWriteBackComplete_channels (w : WriteOutcome) : s.keepsChannels (execAttachWriteBackComplete w s) := by
  unfold execAttachWriteBackComplete State.attachDone
  repeat' split
  all_goals simp

theorem execQuery_channels : s.keepsChannels (execQuery i s) := by
  unfold execQuery
  repeat' split
  all_goals simp

theorem execCountRead_channels : s.keepsChannels (execCountRead i s) := by
  unfold execCountRead
  split <;> rfl

theorem execReportRead_channels : s.keepsChannels (execReportRead i s) := by
  unfold execReportRead
  split <;> rfl

theorem execReportWritePieceComplete_channels (w : WriteOutcome) : s.keepsChannels (execReportWritePieceComplete w s) := by
  unfold execReportWritePieceComplete State.reported State.clearCounters
  repeat' split
  all_goals simp

end Channels

end Sys2Proof.Machine

/-!
PROOF. What each request of the Channel Directory does, said once for O33, O37, O39 and O56: the entry of its key becomes a given
one and every other key keeps its own; and what it keeps of the shape that R29 to R32 give the directory.
-/

namespace Sys2Proof.Machine

-- Elaborated one after the other: side by side, each declaration holds a thread with memory of its own.
set_option Elab.async false

/-! ### A key's entry is set (R29 to R31) -/

section Exact
variable {d d' : Directory} {k : Key} {p : Nat} {e : ExactEntry} {v : Option ExactEntry} {a : DirAnswer} {x : ClientSet}

/-- The entry of a key becomes a given one, or none, in a table that is still well placed; every other key keeps its entry. -/
def Directory.sets (d d' : Directory) (k : Key) (v : Option ExactEntry) : Prop :=
  d'.placed ∧ ∀ l, d'.entry l = if l = k then v else d.entry l

theorem Directory.sets.same (h : d.sets d' k v) : d'.entry k = v := by rw [h.2, if_pos rfl]

theorem Directory.sets.other (h : d.sets d' k v) {l : Key} (hl : l ≠ k) : d'.entry l = d.entry l := by rw [h.2, if_neg hl]

theorem Directory.entry_of_find (hf : d.find k = some (p, e)) : d.entry k = some e := by rw [Directory.entry_eq_map_find, hf]; rfl

theorem Directory.entry_none_iff : d.entry k = none ↔ d.find k = none := by
  rw [Directory.entry_eq_map_find, Option.map_eq_none_iff]

/-- A key has an entry at a place, and then its own. -/
theorem Directory.find_cases (d : Directory) (k : Key) :
    (∃ p kind, d.find k = some (p, { key := k, kind := kind }) ∧ d.entry k = some { key := k, kind := kind }) ∨
      (d.find k = none ∧ d.entry k = none) := by
  cases hf : d.find k with
  | none => exact .inr ⟨rfl, Directory.entry_none_iff.2 hf⟩
  | some y =>
    obtain ⟨p, key, kind⟩ := y
    obtain rfl : key = k := (Directory.find_some hf).2.1
    exact .inl ⟨p, kind, rfl, Directory.entry_of_find hf⟩

/-- An entry takes a free way of its key's bucket, the key having none (R31). -/
theorem Directory.put_freeWay (h : d.placed) (hf : d.find k = none) (hw : d.freeWay k = some p) (he : e.key = k) :
    d.sets (d.put p e) k (some e) := by
  rcases d.freeWay_cases k with ⟨q, hq, -, hn, hb⟩ | ⟨hn, -⟩
  · rw [hw] at hq
    cases hq
    exact Directory.put_new h hf hn hb he
  · rw [hw] at hn
    cases hn

/-- A well placed table is sound exactly when the entry of every key is shaped (R30). -/
theorem Directory.placed.exactSound_iff (h : d.placed) : d.exactSound = true ↔ ∀ l g, d.entry l = some g → g.shaped = true := by
  rw [Directory.exactSound_iff, and_iff_right h]
  constructor
  · intro hs l g hg
    obtain ⟨⟨q, hm⟩, -⟩ := (Directory.entry_iff h).1 hg
    exact hs _ hm
  · intro hs y hy
    exact hs _ _ ((Directory.entry_iff h).2 ⟨⟨y.1, hy⟩, rfl⟩)

/-- A sound table in which a key's entry becomes one that is shaped is sound. -/
theorem Directory.sets.exactSound (h : d.sets d' k v) (hd : d.exactSound = true) (hv : ∀ g, v = some g → g.shaped = true) :
    d'.exactSound = true := by
  rw [h.1.exactSound_iff]
  intro l g hg
  rw [h.2] at hg
  split at hg
  · exact hv g hg
  · exact ((Directory.exactSound_iff.1 hd).1.exactSound_iff.1 hd) l g hg

/-! ### The requests on the exact table (R42, R44, R47, R49) -/

/-- A request for a key is granted: the status is OK with a set, and the key's entry becomes a given one, or none. -/
def Directory.grants (d : Directory) (k : Key) (a : DirAnswer) (x : ClientSet) (v : Option ExactEntry) : Prop :=
  a.status = .ok ∧ a.set = x ∧ d.sameButExact a.dir ∧ d.sets a.dir k v

theorem Directory.grants_put (h : d.placed) (hf : d.find k = some (p, e)) (x : ClientSet) (kind : ExactKind) :
    d.grants k { status := .ok, set := x, dir := d.put p { key := k, kind := kind } } x (some { key := k, kind := kind }) :=
  ⟨rfl, rfl, rfl, Directory.put_found h hf rfl⟩

theorem Directory.grants_clearWay (h : d.placed) (hf : d.find k = some (p, e)) (x : ClientSet) :
    d.grants k { status := .ok, set := x, dir := d.clearWay p } x none :=
  have ⟨hp, he, _⟩ := Directory.clearWay_found h hf
  ⟨rfl, rfl, rfl, hp, he⟩

/-- An entry is asked for a key that has none: it takes a free way, or the table is full (R31). -/
theorem Directory.create_spec (h : d.placed) (hf : d.find k = none) (x : ClientSet) (kind : ExactKind)
    (ha : a = match d.freeWay k with
      | some q => { status := .ok, set := x, dir := d.put q { key := k, kind := kind } }
      | none => d.refuse .tableFull) :
    if d.hasRoom k then d.grants k a x (some { key := k, kind := kind }) else a = d.refuse .tableFull := by
  subst ha
  rcases d.freeWay_cases k with ⟨q, hq, hr, -⟩ | ⟨hn, hr⟩
  · rw [if_pos hr, hq]
    exact ⟨rfl, rfl, rfl, Directory.put_freeWay h hf hq rfl⟩
  · rw [if_neg (by simp [hr]), hn]

theorem Directory.subscribeExact_spec (h : d.placed) (c : ClientId) (k : Key) :
    match d.entry k with
    | some { kind := .joined x, .. } =>
      d.grants k (d.subscribeExact c k) (withClient x c) (some { key := k, kind := .joined (withClient x c) })
    | some { kind := .pinned _, .. } => d.subscribeExact c k = d.refuse .notPermitted
    | some { kind := .ret .., .. } => d.subscribeExact c k = d.refuse .keyInUse
    | none =>
      if d.hasRoom k then d.grants k (d.subscribeExact c k) (only c) (some { key := k, kind := .joined (only c) })
      else d.subscribeExact c k = d.refuse .tableFull := by
  unfold Directory.subscribeExact
  rcases d.find_cases k with ⟨p, kind, hf, he⟩ | ⟨hf, he⟩
  · cases kind with
    | joined x => simpa only [hf, he] using Directory.grants_put h hf _ _
    | pinned x => simp only [hf, he]
    | ret c' life once => simp only [hf, he]
  · simp only [hf, he]
    exact Directory.create_spec h hf _ _ rfl

theorem Directory.unsubscribeExact_spec (h : d.placed) (c : ClientId) (k : Key) :
    match d.entry k with
    | some { kind := .joined x, .. } =>
      if has x c then d.grants k (d.unsubscribeExact c k) (without x c)
        (if without x c = 0 then none else some { key := k, kind := .joined (without x c) })
      else d.unsubscribeExact c k = d.refuse .notFound
    | some { kind := .pinned _, .. } => d.unsubscribeExact c k = d.refuse .notPermitted
    | _ => d.unsubscribeExact c k = d.refuse .notFound := by
  unfold Directory.unsubscribeExact
  rcases d.find_cases k with ⟨p, kind, hf, he⟩ | ⟨hf, he⟩
  · cases kind with
    | joined x =>
      simp only [hf, he]
      split
      · split
        · exact Directory.grants_clearWay h hf _
        · exact Directory.grants_put h hf _ _
      · rfl
    | pinned x => simp only [hf, he]
    | ret c' life once => simp only [hf, he]
  · simp only [hf, he]

theorem Directory.pinExact_spec (h : d.placed) (k : Key) (x : ClientSet) :
    if (d.entry k).isSome ∨ d.hasRoom k then d.grants k (d.pinExact k x) x (some { key := k, kind := .pinned x })
    else d.pinExact k x = d.refuse .tableFull := by
  unfold Directory.pinExact
  rcases d.find_cases k with ⟨p, kind, hf, he⟩ | ⟨hf, he⟩
  · simpa [hf, he] using Directory.grants_put h hf x _
  · simp only [hf, he, Option.isSome_none, Bool.false_eq_true, false_or]
    exact Directory.create_spec h hf _ _ rfl

theorem Directory.unpinExact_spec (h : d.placed) (k : Key) :
    match d.entry k with
    | some { kind := .pinned _, .. } => d.grants k (d.unpinExact k) 0 none
    | some _ => d.unpinExact k = d.refuse .badState
    | none => d.unpinExact k = d.refuse .notFound := by
  unfold Directory.unpinExact
  rcases d.find_cases k with ⟨p, kind, hf, he⟩ | ⟨hf, he⟩
  · cases kind with
    | pinned x => simpa only [hf, he] using Directory.grants_clearWay h hf 0
    | joined x => simp only [hf, he]
    | ret c' life once => simp only [hf, he]
  · simp only [hf, he]

/-! ### Settlement (R35 to R37) -/

/-- What a consumption leaves: with `taken` the entry of a key is gone, which frees a way of its bucket, and is counted; without,
the directory is as it was (R35). -/
structure Directory.Consumes (d d' : Directory) (k : Key) (taken : Bool) : Prop where
  placed : d'.placed
  entry : ∀ l, d'.entry l = if taken ∧ l = k then none else d.entry l
  hasRoom : ∀ l, d'.hasRoom l = (d.hasRoom l || (taken && bucket l == bucket k))
  same : { d' with exact := d.exact, consumed := d.consumed } = d
  counted : d'.consumed = d.consumed + (if taken then 1 else 0)

theorem Directory.Consumes.nothing (h : d.placed) : d.Consumes d k false := ⟨h, by simp, by simp, rfl, by simp⟩

/-- The consumption takes exactly the one-shot entry of an accepted candidate (R35). -/
theorem Directory.consume_spec (h : d.placed) (k : Key) (accepted : Option ClientId) (taken : Bool)
    (ht : taken = true ↔ ∃ c life, accepted = some c ∧ d.entry k = some { key := k, kind := .ret c life true }) :
    d.Consumes (d.consume k accepted) k taken := by
  have kept : (¬ ∃ c life, accepted = some c ∧ d.entry k = some { key := k, kind := .ret c life true }) → d.Consumes d k taken :=
    fun hn => by
      obtain rfl : taken = false := Bool.eq_false_iff.2 fun hb => hn (ht.1 hb)
      exact Directory.Consumes.nothing h
  unfold Directory.consume
  cases accepted with
  | none => exact kept (by simp)
  | some c =>
    rcases d.find_cases k with ⟨p, kind, hf, he⟩ | ⟨hf, he⟩
    · rw [he] at ht kept
      simp only [hf]
      rcases kind with x | x | ⟨c', life, _ | _⟩
      · exact kept (by simp)
      · exact kept (by simp)
      · exact kept (by simp)
      · dsimp only
        split
        · rename_i hc
          obtain rfl : taken = true := ht.2 ⟨c, life, rfl, by rw [hc]⟩
          obtain ⟨hp, hentry, hroom⟩ := Directory.clearWay_found h hf
          exact ⟨hp, fun l => (hentry l).trans (by simp), fun l => (hroom l).trans (by simp), rfl, rfl⟩
        · rename_i hc
          exact kept (by simpa using hc)
    · simp only [hf]
      exact kept (by simp [he])

/-- Learning creates or rewrites a RETURN entry, and otherwise counts a key as skipped (R36, R37). -/
theorem Directory.learn_cases (h : d.placed) (k : Key) (c : ClientId) (once : Bool) :
    (((∃ c' life once', d.entry k = some { key := k, kind := .ret c' life once' }) ∨ d.entry k = none ∧ d.hasRoom k = true) ∧
      d.sets (d.learn k c once) k (some { key := k, kind := .ret c d.agingLimit once }) ∧
      { d.learn k c once with exact := d.exact, learned := d.learned } = d ∧ (d.learn k c once).learned = d.learned + 1) ∨
    (((∃ x, d.entry k = some { key := k, kind := .pinned x } ∨ d.entry k = some { key := k, kind := .joined x }) ∨
        d.entry k = none ∧ d.hasRoom k = false) ∧
      d.learn k c once = { d with learnSkipped := d.learnSkipped + 1 }) := by
  unfold Directory.learn
  rcases d.find_cases k with ⟨p, kind, hf, he⟩ | ⟨hf, he⟩
  · simp only [hf]
    cases kind with
    | pinned x => exact .inr ⟨.inl ⟨x, .inl he⟩, rfl⟩
    | joined x => exact .inr ⟨.inl ⟨x, .inr he⟩, rfl⟩
    | ret c' life once' =>
      exact .inl ⟨.inl ⟨c', life, once', he⟩, Directory.put_found h hf rfl, rfl, rfl⟩
  · simp only [hf]
    rcases d.freeWay_cases k with ⟨q, hq, hr, -⟩ | ⟨hn, hr⟩
    · rw [hq]
      exact .inl ⟨.inr ⟨he, hr⟩, Directory.put_freeWay h hf hq rfl, rfl, rfl⟩
    · rw [hn]
      exact .inr ⟨.inr ⟨he, hr⟩, rfl⟩

end Exact

end Sys2Proof.Machine

/-!
PROOF. O56: each request of the directory keeps its shape, the setup load gives it only valid settings, and every other command
leaves both alone (`State.keepsChannels`).
-/

namespace Sys2Proof.Machine

-- Elaborated one after the other: side by side, each declaration holds a thread with memory of its own.
set_option Elab.async false

/-! ### A sound directory -/

/-- The directory as R29 to R32 shape it, with an aging limit that gives every RETURN entry a life (R39). -/
structure Directory.Sound (d : Directory) : Prop where
  exact : d.exactSound = true
  patterns : d.patternsSound = true
  limit : 1 ≤ d.agingLimit

theorem State.directorySound_iff {s : State} : s.directorySound = true ↔ s.dir.Sound ∧ s.load.settingsValid = true := by
  simp only [State.directorySound, Bool.and_eq_true, decide_eq_true_eq]
  exact ⟨fun ⟨⟨⟨h1, h2⟩, h3⟩, h4⟩ => ⟨⟨h1, h2, h3⟩, h4⟩, fun ⟨⟨h1, h2, h3⟩, h4⟩ => ⟨⟨⟨h1, h2⟩, h3⟩, h4⟩⟩

section Requests
variable {d d' : Directory} {k : Key} {a : DirAnswer} {x : ClientSet} {v : Option ExactEntry}

theorem Directory.Sound.placed (h : d.Sound) : d.placed := (Directory.exactSound_iff.1 h.exact).1

theorem Directory.Sound.shaped (h : d.Sound) {l : Key} {g : ExactEntry} (hg : d.entry l = some g) : g.shaped = true :=
  h.placed.exactSound_iff.1 h.exact l g hg

/-- Only the exact table, the pattern list and the aging limit are read. -/
theorem Directory.Sound.congr (h : d.Sound) (he : d'.exactSound = true) (hp : d'.patterns = d.patterns)
    (hl : d'.agingLimit = d.agingLimit) : d'.Sound :=
  ⟨he, by simpa only [Directory.patternsSound, hp] using h.patterns, hl ▸ h.limit⟩

/-! ### The exact table -/

theorem Directory.grants.sound (hg : d.grants k a x v) (h : d.Sound) (hv : ∀ g, v = some g → g.shaped = true) : a.dir.Sound :=
  have ⟨_, _, hsame, hsets⟩ := hg
  h.congr (hsets.exactSound h.exact hv) (congrArg Directory.patterns hsame :) (congrArg Directory.agingLimit hsame :)

theorem Directory.refuse_sound (h : d.Sound) {st : Status} (ha : a = d.refuse st) : a.dir.Sound := by
  rw [ha]
  exact h

/-- A set with a client in it is not empty, so its JOINED entry is shaped (R30). -/
theorem joined_shaped {key : Key} (hx : x ≠ 0) (g : ExactEntry) (hg : some { key := key, kind := .joined x } = some g) :
    g.shaped = true := by
  cases hg
  simpa [ExactEntry.shaped] using hx

theorem only_ne_zero (c : ClientId) : only c ≠ 0 := by
  simpa [withClient] using withClient_ne_zero 0 c

theorem Directory.subscribeExact_sound (h : d.Sound) (c : ClientId) (k : Key) : (d.subscribeExact c k).dir.Sound := by
  have spec := d.subscribeExact_spec h.placed c k
  split at spec
  · exact spec.sound h (joined_shaped (withClient_ne_zero _ c))
  · exact Directory.refuse_sound h spec
  · exact Directory.refuse_sound h spec
  · split at spec
    · exact spec.sound h (joined_shaped (only_ne_zero c))
    · exact Directory.refuse_sound h spec

theorem Directory.unsubscribeExact_sound (h : d.Sound) (c : ClientId) (k : Key) : (d.unsubscribeExact c k).dir.Sound := by
  have spec := d.unsubscribeExact_spec h.placed c k
  split at spec
  · split at spec
    · refine spec.sound h fun g hg => ?_
      split at hg
      · cases hg
      · rename_i hx
        exact joined_shaped hx g hg
    · exact Directory.refuse_sound h spec
  · exact Directory.refuse_sound h spec
  · exact Directory.refuse_sound h spec

theorem Directory.pinExact_sound (h : d.Sound) (k : Key) (x : ClientSet) : (d.pinExact k x).dir.Sound := by
  have spec := d.pinExact_spec h.placed k x
  split at spec
  · exact spec.sound h fun g hg => by cases hg; rfl
  · exact Directory.refuse_sound h spec

theorem Directory.unpinExact_sound (h : d.Sound) (k : Key) : (d.unpinExact k).dir.Sound := by
  have spec := d.unpinExact_spec h.placed k
  split at spec
  · exact spec.sound h fun g hg => by cases hg
  · exact Directory.refuse_sound h spec
  · exact Directory.refuse_sound h spec

/-- What keeps, changes or removes each entry by its own value keeps the exact table sound (R40, R50). -/
theorem Directory.keepWays_sound (h : d.exactSound = true) {f : ExactEntry → Option ExactEntry}
    (hf : ∀ e g, f e = some g → g.key = e.key ∧ (e.shaped = true → g.shaped = true)) (hd : d'.exact = keepWays f d.exact) :
    d'.exactSound = true := by
  obtain ⟨placed, shaped⟩ := Directory.exactSound_iff.1 h
  refine Directory.exactSound_iff.2 ⟨(Directory.keepWays_spec placed f (fun e g e' => (hf e g e').1) hd).1, ?_⟩
  rw [hd]
  exact keepWays_shaped shaped fun e g hs e' => (hf e g e').2 hs

theorem Directory.sweep_sound (h : d.Sound) (n : Nat) : ({ d.sweep with sweepsDue := n } : Directory).Sound :=
  h.congr (Directory.keepWays_sound h.exact (fun _ _ => ExactEntry.aged_keeps) rfl) rfl rfl

theorem Directory.tick_sound (h : d.Sound) : d.tick.Sound := by
  unfold Directory.tick
  split
  · exact h
  · split <;> exact h.congr h.exact rfl rfl

/-! ### Settlement (R35 to R37) -/

theorem Directory.consume_sound (h : d.Sound) (k : Key) (accepted : Option ClientId) : (d.consume k accepted).Sound := by
  obtain ⟨taken, ht⟩ : ∃ b : Bool, b = true ↔
      ∃ c life, accepted = some c ∧ d.entry k = some { key := k, kind := .ret c life true } := by
    classical exact ⟨decide _, decide_eq_true_iff⟩
  have spec := Directory.consume_spec h.placed k accepted taken ht
  refine h.congr (spec.placed.exactSound_iff.2 fun l g hg => ?_) (congrArg Directory.patterns spec.same :)
    (congrArg Directory.agingLimit spec.same :)
  rw [spec.entry] at hg
  split at hg
  · cases hg
  · exact h.shaped hg

theorem Directory.learn_sound (h : d.Sound) (k : Key) (c : ClientId) (once : Bool) : (d.learn k c once).Sound := by
  rcases Directory.learn_cases h.placed k c once with ⟨-, hsets, hsame, -⟩ | ⟨-, hskip⟩
  · refine h.congr (hsets.exactSound h.exact fun g hg => ?_) (congrArg Directory.patterns hsame :)
      (congrArg Directory.agingLimit hsame :)
    cases hg
    simpa [ExactEntry.shaped] using h.limit
  · rw [hskip]
    exact h.congr h.exact rfl rfl

theorem Directory.settle_sound (h : d.Sound) (k : Key) (accepted : Option ClientId) (sender : ClientId) (reply : Option Key)
    (once permitted : Bool) : (d.settle k accepted sender reply once permitted).Sound := by
  have consumed := Directory.consume_sound h k accepted
  unfold Directory.settle
  split
  · split
    · exact Directory.learn_sound consumed _ _ _
    · exact consumed
  · exact consumed

/-! ### The pattern list (R32, R43, R45, R48 to R50) -/

theorem Directory.patternsSound_iff : d.patternsSound = true ↔ d.patterns.length ≤ 16 ∧
    (∀ p ∈ d.patterns, p.key &&& p.mask = p.key ∧ (p.kind = .pinned ∨ p.set ≠ 0)) ∧
    (d.patterns.map (fun p => (p.mask, p.key))).Nodup := by
  unfold Directory.patternsSound
  simp only [Bool.and_eq_true, decide_eq_true_eq, List.all_eq_true, Bool.or_eq_true, beq_iff_eq, bne_iff_ne, and_assoc]
  exact Iff.rfl

theorem Directory.changePattern_sound (h : d.Sound) (m : BitVec 32) (k : Key) {kind : PatternKind} {x : ClientSet}
    (hx : kind = .pinned ∨ x ≠ 0) : (d.changePattern m k kind x).Sound := by
  obtain ⟨hl, hp, hn⟩ := Directory.patternsSound_iff.1 h.patterns
  refine ⟨h.exact, Directory.patternsSound_iff.2 ⟨?_, ?_, ?_⟩, h.limit⟩
  · simpa [Directory.changePattern] using hl
  · intro q hq
    obtain ⟨p, hm, rfl⟩ := List.mem_map.1 hq
    split
    · exact ⟨(hp p hm).1, hx⟩
    · exact hp p hm
  · have names : (d.changePattern m k kind x).patterns.map (fun p => (p.mask, p.key)) =
        d.patterns.map (fun p => (p.mask, p.key)) := by
      simp only [Directory.changePattern, List.map_map]
      exact List.map_congr_left fun p _ => by simp only [Function.comp]; split <;> rfl
    rwa [names]

theorem Directory.removePattern_sound (h : d.Sound) (m : BitVec 32) (k : Key) : (d.removePattern m k).Sound := by
  obtain ⟨hl, hp, hn⟩ := Directory.patternsSound_iff.1 h.patterns
  have sub : (d.removePattern m k).patterns.Sublist d.patterns := List.filter_sublist
  exact ⟨h.exact, Directory.patternsSound_iff.2 ⟨sub.length_le.trans hl, fun p hm => hp p (sub.subset hm), hn.sublist (sub.map _)⟩,
    h.limit⟩

theorem Directory.addPattern_sound (h : d.Sound) {m : BitVec 32} {k : Key} (hno : d.pattern m k = none)
    (hroom : d.patterns.length < 16) {kind : PatternKind} {x : ClientSet} (hx : kind = .pinned ∨ x ≠ 0) :
    (d.addPattern m k kind x).Sound := by
  obtain ⟨hl, hp, hn⟩ := Directory.patternsSound_iff.1 h.patterns
  refine ⟨h.exact, Directory.patternsSound_iff.2 ⟨?_, ?_, ?_⟩, h.limit⟩
  · simpa [Directory.addPattern] using hroom
  · intro p hm
    rcases List.mem_append.1 hm with hm | hm
    · exact hp p hm
    · obtain rfl := List.mem_singleton.1 hm
      exact ⟨by simp [BitVec.and_assoc], hx⟩
  · simp only [Directory.addPattern, List.map_append, List.map_cons, List.map_nil]
    refine hn.append (List.nodup_singleton _) (List.disjoint_singleton.2 fun hm => ?_)
    obtain ⟨p, hm, hname⟩ := List.mem_map.1 hm
    simp only [Prod.mk.injEq] at hname
    exact List.find?_eq_none.1 hno p hm (Pattern.named_iff.2 hname)

theorem Directory.subscribePattern_sound (h : d.Sound) (c : ClientId) (m : BitVec 32) (k : Key) :
    (d.subscribePattern c m k).dir.Sound := by
  unfold Directory.subscribePattern
  split
  · split
    · exact Directory.changePattern_sound h m k (.inr (withClient_ne_zero _ c))
    · exact h
  · rename_i hno
    split
    · rename_i hroom
      exact Directory.addPattern_sound h hno hroom (.inr (only_ne_zero c))
    · exact h

theorem Directory.unsubscribePattern_sound (h : d.Sound) (c : ClientId) (m : BitVec 32) (k : Key) :
    (d.unsubscribePattern c m k).dir.Sound := by
  unfold Directory.unsubscribePattern
  split
  · split
    · split
      · dsimp only
        split
        · exact Directory.removePattern_sound h m k
        · rename_i hx
          exact Directory.changePattern_sound h m k (.inr hx)
      · exact h
    · exact h
  · exact h

theorem Directory.pinPattern_sound (h : d.Sound) (m : BitVec 32) (k : Key) (x : ClientSet) : (d.pinPattern m k x).dir.Sound := by
  unfold Directory.pinPattern
  split
  · exact Directory.changePattern_sound h m k (.inl rfl)
  · rename_i hno
    split
    · rename_i hroom
      exact Directory.addPattern_sound h hno hroom (.inl rfl)
    · exact h

theorem Directory.unpinPattern_sound (h : d.Sound) (m : BitVec 32) (k : Key) : (d.unpinPattern m k).dir.Sound := by
  unfold Directory.unpinPattern
  split
  · split
    · exact Directory.removePattern_sound h m k
    · exact h
  · exact h

/-- What the purge keeps of a pattern keeps its name and its shape. -/
theorem Pattern.purged_keeps {c : ClientId} {p q : Pattern} (h : p.purged c = some q) :
    q.mask = p.mask ∧ q.key = p.key ∧ (q.kind = .pinned ∨ q.set ≠ 0) := by
  unfold Pattern.purged at h
  split at h
  · cases h
  · rename_i hn
    cases h
    refine ⟨rfl, rfl, ?_⟩
    cases hk : p.kind with
    | pinned => exact .inl rfl
    | joined => exact .inr fun hx => hn ⟨hk, hx⟩

theorem purgedNames_sublist (c : ClientId) (ps : List Pattern) :
    ((ps.filterMap (Pattern.purged c)).map (fun p => (p.mask, p.key))).Sublist (ps.map (fun p => (p.mask, p.key))) := by
  induction ps with
  | nil => exact .slnil
  | cons p rest ih =>
    rw [List.filterMap_cons]
    split
    · exact ih.cons _
    · rename_i q hq
      obtain ⟨hm, hk, -⟩ := Pattern.purged_keeps hq
      simp only [List.map_cons, hm, hk]
      exact ih.cons_cons _

theorem Directory.purge_sound (h : d.Sound) (c : ClientId) : (d.purge c).Sound := by
  obtain ⟨hl, hp, hn⟩ := Directory.patternsSound_iff.1 h.patterns
  refine ⟨Directory.keepWays_sound h.exact (fun _ _ => ExactEntry.purged_keeps) rfl, Directory.patternsSound_iff.2 ⟨?_, ?_, ?_⟩,
    h.limit⟩
  · exact (List.length_filterMap_le _ _).trans hl
  · intro q hq
    obtain ⟨p, hm, hpq⟩ := List.mem_filterMap.1 hq
    obtain ⟨hmask, hkey, hset⟩ := Pattern.purged_keeps hpq
    exact ⟨by rw [hmask, hkey]; exact (hp p hm).1, hset⟩
  · exact hn.sublist (purgedNames_sublist c d.patterns)

end Requests

/-! ### The commands of the directory -/

section Commands
variable {s : State} (h : s.directorySound = true)

/-- A step answers a state with a sound directory, if it answers one. -/
def leadsToSound (o : Result) : Prop := leadsTo (fun t => t.directorySound = true) o

@[simp] theorem leadsToSound_next (t : State) : leadsToSound (.next t) ↔ t.directorySound = true := Iff.rfl

theorem State.directorySound_of_dir {s t : State} (h : s.directorySound = true) (hd : t.dir.Sound) (hl : t.load = s.load) :
    t.directorySound = true :=
  State.directorySound_iff.2 ⟨hd, by rw [hl]; exact (State.directorySound_iff.1 h).2⟩

theorem State.directorySound_of_load {s t : State} (h : s.directorySound = true) (hd : t.dir = s.dir)
    (hl : t.load.settingsValid = true) : t.directorySound = true :=
  State.directorySound_iff.2 ⟨by rw [hd]; exact (State.directorySound_iff.1 h).1, hl⟩

include h

theorem State.keepsChannels.sound {o : Result} (ho : s.keepsChannels o) : leadsToSound o :=
  leadsTo.imp (fun _ e => (State.directorySound_congr e).trans h) ho

theorem State.endDirectory_sound (i : SlotId) (r : PostRecord) {a : DirAnswer} (ha : a.dir.Sound) :
    (s.endDirectory i r a).directorySound = true :=
  State.directorySound_of_dir h (by simpa [State.endDirectory] using ha) (by simp [State.endDirectory])

theorem execSubscribe_sound (i : SlotId) : leadsToSound (execSubscribe i s) := by
  have hd := (State.directorySound_iff.1 h).1
  unfold execSubscribe
  split
  · exact h
  · refine State.endDirectory_sound h i _ ?_
    split
    · exact Directory.subscribePattern_sound hd _ _ _
    · exact Directory.subscribeExact_sound hd _ _

theorem execUnsubscribe_sound (i : SlotId) : leadsToSound (execUnsubscribe i s) := by
  have hd := (State.directorySound_iff.1 h).1
  unfold execUnsubscribe
  split
  · exact h
  · refine State.endDirectory_sound h i _ ?_
    split
    · exact Directory.unsubscribePattern_sound hd _ _ _
    · exact Directory.unsubscribeExact_sound hd _ _

theorem execPin_sound (i : SlotId) : leadsToSound (execPin i s) := by
  have hd := (State.directorySound_iff.1 h).1
  unfold execPin
  split
  · exact h
  · split
    · exact (State.directorySound_congr (by simp)).trans h
    · split
      · exact (State.directorySound_congr (by simp)).trans h
      · refine State.endDirectory_sound h i _ ?_
        split
        · exact Directory.pinPattern_sound hd _ _ _
        · exact Directory.pinExact_sound hd _ _

theorem execUnpin_sound (i : SlotId) : leadsToSound (execUnpin i s) := by
  have hd := (State.directorySound_iff.1 h).1
  unfold execUnpin
  split
  · exact h
  · refine State.endDirectory_sound h i _ ?_
    split
    · exact Directory.unpinPattern_sound hd _ _
    · exact Directory.unpinExact_sound hd _

theorem execSettlement_sound (i : SlotId) : leadsToSound (execSettlement i s) := by
  have hd := (State.directorySound_iff.1 h).1
  unfold execSettlement
  split
  · exact h
  · split
    · split
      · exact h
      · rw [leadsToSound_next, State.directorySound_congr (State.routingAnswered_channels ..)]
        exact State.directorySound_of_dir h (Directory.settle_sound hd ..) rfl
    · exact h

theorem execSweep_sound : leadsToSound (execSweep s) := by
  unfold execSweep
  split
  · exact State.directorySound_of_dir h (Directory.sweep_sound (State.directorySound_iff.1 h).1 _) rfl
  · exact h

theorem execDirectoryPurge_sound (i : SlotId) : leadsToSound (execDirectoryPurge i s) := by
  unfold execDirectoryPurge
  split
  · exact h
  · split
    · exact State.directorySound_of_dir h (Directory.purge_sound (State.directorySound_iff.1 h).1 _) rfl
    · exact h

/-! ### The tick -/

theorem State.tickEvent_sound : s.tickEvent.directorySound = true :=
  State.directorySound_of_dir h (by simpa [State.tickEvent] using Directory.tick_sound (State.directorySound_iff.1 h).1)
    (by simp [State.tickEvent])

theorem execTick_sound : leadsToSound (execTick s) := by
  unfold execTick
  rw [leadsToSound_next]
  split
  · exact State.tickEvent_sound h
  · exact h

theorem State.idlePeriod_sound : s.idlePeriod.directorySound = true := by
  unfold State.idlePeriod
  split
  · split
    · exact h
    · exact State.tickEvent_sound h
  · exact h

/-! ### The setup load (R184, R185) -/

theorem State.failLoad_sound (code : DeviceFault) (reason : Option FaultReason) : (s.failLoad code reason).directorySound = true :=
  State.directorySound_of_load h rfl rfl

theorem State.fetchPiece_sound {g : Settings} (hg : g.valid = true) (ps : List Piece) (bs : List Byte) :
    (s.fetchPiece g ps bs).directorySound = true := by
  unfold State.fetchPiece
  split
  · exact State.directorySound_of_load h rfl hg
  · exact h

omit h in
/-- A setup block is taken only with valid settings (R184). -/
theorem readSettings_valid {bs : List Byte} {g : Settings} (hg : readSettings bs = some g) : g.valid = true := by
  unfold readSettings at hg
  split at hg
  · rename_i hc
    cases hg
    simp only [Bool.and_eq_true] at hc
    exact hc.1.1.1.2
  · cases hg

theorem execSetupReadComplete_sound (o : ReadOutcome) : leadsToSound (execSetupReadComplete o s) := by
  unfold execSetupReadComplete
  split
  · exact h
  · exact h
  · split
    · exact State.failLoad_sound (s := s.endFetch) h _ _
    · split
      · rw [leadsToSound_next]
        unfold State.setupRead
        split
        · rename_i hg
          exact State.fetchPiece_sound (s := s.endFetch) h (readSettings_valid hg) _ _
        · exact State.failLoad_sound (s := s.endFetch) h _ _
      · trivial

/-- The settings load gives the directory an aging limit of at least 1 (R39, R184). -/
theorem State.loadSettings_sound {g : Settings} (hg : g.valid = true) : (s.loadSettings g).dir.Sound := by
  obtain ⟨he, hp, -⟩ := (State.directorySound_iff.1 h).1
  refine ⟨he, hp, ?_⟩
  simp only [Settings.valid, Bool.and_eq_true, decide_eq_true_eq] at hg
  exact hg.1.1.1.1.1.2

theorem State.setupPiece_sound {g : Settings} (hg : g.valid = true) (rest : List Piece) (bs : List Byte) :
    (s.setupPiece g rest bs).directorySound = true := by
  unfold State.setupPiece
  split
  · split
    · exact State.directorySound_iff.2 ⟨State.loadSettings_sound h hg, rfl⟩
    · exact State.failLoad_sound h _ _
  · exact State.fetchPiece_sound h hg _ _

theorem execSetupDescriptorPieceComplete_sound (o : ReadOutcome) : leadsToSound (execSetupDescriptorPieceComplete o s) := by
  unfold execSetupDescriptorPieceComplete
  split
  · exact h
  · exact h
  · split
    · rename_i hload
      have hg := (State.directorySound_iff.1 h).2
      rw [hload] at hg
      split
      · exact State.failLoad_sound (s := s.endFetch) h _ _
      · split
        · exact State.setupPiece_sound (s := s.endFetch) h hg _ _
        · trivial
    · exact h

theorem execSetupCxbReadComplete_sound (o : ReadOutcome) : leadsToSound (execSetupCxbReadComplete o s) := by
  unfold execSetupCxbReadComplete
  split
  · exact h
  · exact h
  · split
    · split
      · exact State.failLoad_sound (s := s.endFetch) h _ _
      · split
        · rw [leadsToSound_next]
          unfold State.setupHalfRead
          split
          · exact State.directorySound_of_load h rfl rfl
          · exact State.failLoad_sound (s := s.endFetch) h _ _
        · trivial
    · exact h

theorem execSetupWriteBackComplete_sound (w : WriteOutcome) : leadsToSound (execSetupWriteBackComplete w s) := by
  unfold execSetupWriteBackComplete
  split
  · exact h
  · exact h
  · split
    · split
      · exact State.failLoad_sound (s := s.clearBus) h _ _
      · exact State.directorySound_of_load h (by simp [State.loadDone, State.attachCommit])
          (by simp [State.loadDone, Load.settingsValid])
    · exact h

/-! ### The register window and the reset pin -/

theorem State.goEvent_sound : s.goEvent.directorySound = true := by
  unfold State.goEvent
  split
  · unfold State.startLoad
    split
    · exact State.directorySound_of_load h rfl rfl
    · exact h
  · exact (State.directorySound_congr (by simp)).trans h
  · exact (State.directorySound_congr (by simp)).trans h
  · exact h

theorem State.haltEvent_sound : s.haltEvent.directorySound = true := by
  unfold State.haltEvent
  split
  · split <;> exact h
  · exact h

theorem State.attendEvent_sound (v : BitVec 32) : (s.attendEvent v).directorySound = true := by
  unfold State.attendEvent
  split
  · exact (State.directorySound_congr (by simp)).trans h
  · exact h

theorem State.setupEvent_sound (high : Bool) (v : BitVec 32) : (s.setupEvent high v).directorySound = true := by
  unfold State.setupEvent
  split <;> exact h

omit h in
theorem State.restartEvent_sound : s.restartEvent.directorySound = true := State.directorySound_congr (s := State.reset) rfl

theorem State.controlEvent_sound (v : BitVec 32) : (s.controlEvent v).directorySound = true := by
  unfold State.controlEvent
  repeat' split
  · exact State.restartEvent_sound
  · exact h
  · exact State.goEvent_sound h
  · exact State.haltEvent_sound h
  · exact h

theorem State.windowWrite_sound {f : State → State} (hf : (f s).directorySound = true) :
    (s.windowWrite f).directorySound = true := by
  unfold State.windowWrite
  split
  · exact h
  · exact hf

theorem State.writeWord_sound (offset : Nat) (v : BitVec 32) : (s.writeWord offset v).directorySound = true := by
  unfold State.writeWord
  repeat' split
  · exact State.controlEvent_sound h v
  · exact State.attendEvent_sound h v
  · exact State.setupEvent_sound h false v
  · exact State.setupEvent_sound h true v
  · exact h

theorem State.access_sound (a : PortAccess) : (s.access a).directorySound = true := by
  unfold State.access
  split
  · split <;> exact h
  · split
    · exact h
    · split
      · exact h
      · exact State.writeWord_sound h _ _

theorem execResetPinRelease_sound : leadsToSound (execResetPinRelease s) := by
  unfold execResetPinRelease
  rw [leadsToSound_next]
  split
  · exact State.directorySound_congr (s := State.reset) rfl
  · exact h

/-! ### Every step -/

theorem exec_directorySound (x : Instr) : leadsToSound (exec x s) := by
  cases x with
  | postReadComplete o => exact (execPostReadComplete_channels s o).sound h
  | openParcel i => exact (execOpen_channels s i).sound h
  | append i => exact (execAppend_channels s i).sound h
  | cut i => exact (execCut_channels s i).sound h
  | dispatch i => exact (execDispatch_channels s i).sound h
  | send i => exact (execSend_channels s i).sound h
  | forward i => exact (execForward_channels s i).sound h
  | fetch i => exact (execFetch_channels s i).sound h
  | release i => exact (execRelease_channels s i).sound h
  | subscribe i => exact execSubscribe_sound h i
  | unsubscribe i => exact execUnsubscribe_sound h i
  | pin i => exact execPin_sound h i
  | unpin i => exact execUnpin_sound h i
  | attach i => exact (execAttach_channels s i).sound h
  | detach i => exact (execDetach_channels s i).sound h
  | query i => exact (execQuery_channels s i).sound h
  | gatherPieceComplete o => exact (execGatherPieceComplete_channels s o).sound h
  | scatterPieceComplete w => exact (execScatterPieceComplete_channels s w).sound h
  | lookup i => exact (execLookup_channels s i).sound h
  | admission i => exact (execAdmission_channels s i).sound h
  | settlement i => exact execSettlement_sound h i
  | handOver i => exact (execHandOver_channels s i).sound h
  | releaseAfterDrop i => exact (execReleaseAfterDrop_channels s i).sound h
  | clientHalfReadComplete o => exact (execClientHalfReadComplete_channels s o).sound h
  | deliveryClaim c => exact (execDeliveryClaim_channels s c).sound h
  | returnClaim c => exact (execReturnClaim_channels s c).sound h
  | recordWriteComplete w => exact (execRecordWriteComplete_channels s w).sound h
  | writeBackComplete w => exact (execWriteBackComplete_channels s w).sound h
  | signalWriteComplete w => exact (execSignalWriteComplete_channels s w).sound h
  | grant => exact (execGrant_channels s).sound h
  | tick => exact execTick_sound h
  | sweep => exact execSweep_sound h
  | lingerExpiry c => exact (execLingerExpiry_channels s c).sound h
  | directoryPurge i => exact execDirectoryPurge_sound h i
  | pendingPurge i => exact (execPendingPurge_channels s i).sound h
  | referenceWalkVisit i => exact (execReferenceWalkVisit_channels s i).sound h
  | teardownCompletion i => exact (execTeardownCompletion_channels s i).sound h
  | attachDescriptorPieceComplete o => exact (execAttachDescriptorPieceComplete_channels s o).sound h
  | attachCxbReadComplete o => exact (execAttachCxbReadComplete_channels s o).sound h
  | attachWriteBackComplete w => exact (execAttachWriteBackComplete_channels s w).sound h
  | countRead i => exact (execCountRead_channels s i).sound h
  | reportRead i => exact (execReportRead_channels s i).sound h
  | reportWritePieceComplete w => exact (execReportWritePieceComplete_channels s w).sound h
  | go => exact State.windowWrite_sound h (State.goEvent_sound h)
  | halt => exact State.windowWrite_sound h (State.haltEvent_sound h)
  | restart => exact State.windowWrite_sound h State.restartEvent_sound
  | attend v => exact State.windowWrite_sound h (State.attendEvent_sound h v)
  | setupAddressWrite high v => exact State.windowWrite_sound h (State.setupEvent_sound h high v)
  | registerWrite a => exact State.access_sound h a
  | setupReadComplete o => exact execSetupReadComplete_sound h o
  | setupDescriptorPieceComplete o => exact execSetupDescriptorPieceComplete_sound h o
  | setupCxbReadComplete o => exact execSetupCxbReadComplete_sound h o
  | setupWriteBackComplete w => exact execSetupWriteBackComplete_sound h w
  | resetPinAssert => exact h
  | resetPinRelease => exact execResetPinRelease_sound h

end Commands

/-- Settles O56, by the command at the front of the queue: the requests of the directory keep its shape, the setup load gives it a
valid aging limit, and every other command leaves it alone. -/
theorem directoryStaysSound : Obligations.DirectoryStaysSound := by
  intro s t h e
  unfold step at e
  split at e
  · cases e
    exact State.idlePeriod_sound h
  · rename_i x rest _
    exact (exec_directorySound (s := s.setPending rest) h x).of_next e

end Sys2Proof.Machine

/-!
PROOF. Client sets by their members, and the channel commands that only read or thin the directory: O31 (lookup), O40 (sweep) and
O41 (purge).
-/

namespace Sys2Proof.Machine

-- Elaborated one after the other: side by side, each declaration holds a thread with memory of its own.
set_option Elab.async false

/-! ### Client sets by their members (0.6) -/

section Sets
variable {x y : ClientSet} {c d : ClientId}

@[simp] theorem has_zero (d : ClientId) : has 0#8 d = false := by simp [has]

@[simp] theorem has_or : has (x ||| y) d = (has x d || has y d) := BitVec.getLsbD_or

theorem has_only : has (only c) d = true ↔ d = c := by
  simp only [has, only, BitVec.getLsbD_twoPow, Bool.and_eq_true, decide_eq_true_eq, Fin.ext_iff]
  omega

theorem has_without : has (without x c) d = true ↔ has x d = true ∧ d ≠ c := by
  have hd : d.val < 8 := d.isLt
  rw [ne_eq, ← has_only]
  simp [has, without, hd]

/-- Two sets with the same members are the same set. -/
theorem clientSet_ext (h : ∀ d, has x d = has y d) : x = y :=
  BitVec.eq_of_getLsbD_eq fun i hi => h ⟨i, hi⟩

theorem mem_members : d ∈ members x ↔ has x d = true := by simp [members]

theorem members_eq_nil_iff : members x = [] ↔ x = 0 := by
  constructor
  · intro h
    refine clientSet_ext fun d => ?_
    have hd : ¬ has x d = true := by
      rw [← mem_members, h]
      exact List.not_mem_nil
    simpa using hd
  · rintro rfl
    exact members_zero

theorem members_ascend (x : ClientSet) : (members x).Pairwise (· < ·) := (List.pairwise_lt_finRange 8).filter _

/-- A union over a list of sets has the members of its start and of each set. -/
theorem has_foldl_or (l : List ClientSet) (x : ClientSet) :
    has (l.foldl (· ||| ·) x) d = true ↔ has x d = true ∨ ∃ y ∈ l, has y d = true := by
  induction l generalizing x with
  | nil => simp
  | cons y rest ih => simp [ih, or_assoc]

end Sets

/-! ### Lookup (R33, R34, R97) -/

section Lookup
variable {s : State} {d : Directory} {k : Key} {c m : ClientId} {x : ClientSet}

/-- The union for a key (R33, R52): the exact entry's set and the sets of the patterns that the key matches. -/
theorem Directory.has_union : has (d.union k) m = true ↔
    (∃ e, d.entry k = some e ∧ has e.kind.set m = true) ∨ ∃ p ∈ d.patterns, k &&& p.mask = p.key ∧ has p.set m = true := by
  unfold Directory.union
  refine (has_foldl_or _ _).trans (or_congr ?_ ?_)
  · cases d.entry k <;> simp
  · simp [Pattern.matches, and_assoc]

theorem Directory.has_route {self : Bool} :
    has (d.route k c self) m = true ↔ has (d.union k) m = true ∧ (self = true ∨ m ≠ c) := by
  unfold Directory.route
  cases self <;> simp [has_without]

/-- The candidate is the client of the key's one-shot RETURN entry, if the route set has it (R34). -/
theorem Directory.candidate_iff : d.candidate k x = some m ↔
    has x m = true ∧ ∃ life, d.entry k = some { key := k, kind := .ret m life true } := by
  unfold Directory.candidate
  rcases d.find_cases k with ⟨p, kind, -, he⟩ | ⟨-, he⟩
  · rw [he]
    rcases kind with y | y | ⟨c', life, _ | _⟩
    · simp
    · simp
    · simp
    · dsimp only
      split <;> rename_i hx <;> constructor
      · rintro ⟨⟩
        exact ⟨hx, life, rfl⟩
      · rintro ⟨-, l, heq⟩
        cases heq
        rfl
      · rintro ⟨⟩
      · rintro ⟨hm, l, heq⟩
        cases heq
        exact absurd hm hx
  · simp [he]

/-- What a lookup leaves in its slot to be offered (R97); it ties `State.lookupStep` to the words of O31. -/
def State.found (s : State) (c : ClientId) (r : PostRecord) (h : Handle) (length : Nat) : Routing :=
  { handle := h, length := if r.kind.toNat = 6 then (s.store.parcel (handleIndex h)).length else length,
    routeSet := s.dir.route r.key c r.self, toOffer := members (s.dir.route r.key c r.self), routed := 0, refused := 0,
    candidate := s.dir.candidate r.key (s.dir.route r.key c r.self), settled := false, handedOver := false }

theorem State.lookupStep_eq (s : State) (i : SlotId) (c : ClientId) (r : PostRecord) (h : Handle) (length : Nat) :
    s.lookupStep i c r h length = s.setProgress i (s.found c r h length).stage := rfl

/-- A lookup whose route set is empty leaves nothing to be offered. -/
theorem State.found_stage (s : State) (c : ClientId) (r : PostRecord) (h : Handle) (length : Nat) :
    (s.found c r h length).stage =
      if (s.found c r h length).routeSet = 0 then .settling (s.found c r h length) else .offering (s.found c r h length) :=
  if_congr (List.isEmpty_iff.trans members_eq_nil_iff) rfl rfl

theorem PostRecord.kind_eq_iff (r : PostRecord) (k : Byte) : r.kind = k ↔ r.kind.toNat = k.toNat := BitVec.toNat_inj.symm

/-- Settles O31: the lookup's set and candidate, read member by member (`Directory.has_route`, `Directory.candidate_iff`). -/
theorem lookupReturnsTheRouteSet : Obligations.LookupReturnsTheRouteSet := by
  intro s i c r h length hw hp
  obtain ⟨hperf, habort, -⟩ := State.works_iff.1 hw
  have hexec : exec (.lookup i) s = .next (s.setProgress i (s.found c r h length).stage) := by
    simp [exec, execLookup, hperf, hp, habort, State.lookupStep_eq]
  obtain ⟨hgoes, hsame⟩ := State.setProgress_goesOn s i (s.found c r h length).stage
  refine ⟨_, s.found c r h length, hexec, hsame, by rwa [← State.found_stage], fun m => ?_, fun m => Directory.candidate_iff,
    fun m => mem_members, members_ascend _, rfl, rfl, rfl, rfl, rfl, ?_⟩
  · exact Directory.has_route.trans (and_congr_left' Directory.has_union)
  · exact if_congr (r.kind_eq_iff 6).symm rfl rfl

end Lookup

/-! ### The sweep (R40) -/

/-- What a sweep makes of the entry of a key. -/
theorem Directory.sweep_entry {d : Directory} (h : d.placed) (k : Key) : d.sweep.entry k = (d.entry k).bind ExactEntry.aged :=
  (Directory.keepWays_spec h ExactEntry.aged (fun _ _ e => (ExactEntry.aged_keeps e).1) rfl).2 k

/-- Settles O40, by what a sweep makes of each entry. -/
theorem sweepAgesReturnEntries : Obligations.SweepAgesReturnEntries := by
  intro s hs ht hdue
  have hplaced := (Directory.exactSound_iff.1 hs).1
  have hexec : exec .sweep s = .next (s.setDir { s.dir.sweep with sweepsDue := s.dir.sweepsDue - 1 }) := by
    simp [exec, execSweep, ht, hdue]
  refine ⟨_, hexec, rfl, rfl, rfl, rfl, rfl, rfl, rfl, rfl, rfl, fun k => ?_, ?_⟩
  · refine (Directory.sweep_entry hplaced k).trans ?_
    rcases s.dir.find_cases k with ⟨p, kind, -, he⟩ | ⟨-, he⟩
    · rw [he]
      cases kind with
      | ret c life once =>
        simp only [Option.bind_some, ExactEntry.aged]
        exact if_congr (by omega) rfl rfl
      | pinned x => rfl
      | joined x => rfl
    · rw [he]
      rfl
  · have aged : ∀ x : Nat × ExactEntry, x.2.aged.isNone =
        match x.2.kind with | .ret _ life _ => life - 1 == 0 | _ => false := by
      rintro ⟨p, key, kind⟩
      cases kind with
      | ret c life once =>
        simp only [ExactEntry.aged]
        split <;> rename_i hl
        · simp; omega
        · simp; omega
      | pinned x => rfl
      | joined x => rfl
    exact congrArg (fun n => s.dir.agedOut + BitVec.ofNat 32 n)
      (List.countP_congr fun x _ => iff_of_eq (congrArg (· = true) (aged x)))

/-! ### The purge (R50, R163) -/

section Purge
variable {d : Directory} {c : ClientId}

theorem Directory.purge_entry (h : d.placed) (c : ClientId) (k : Key) :
    (d.purge c).entry k = (d.entry k).bind (ExactEntry.purged c) :=
  (Directory.keepWays_spec h (ExactEntry.purged c) (fun _ _ e => (ExactEntry.purged_keeps e).1) rfl).2 k

theorem Pattern.purged_eq (c : ClientId) (p : Pattern) : p.purged c =
    if (p.kind == .pinned || without p.set c != 0) = true then some { p with set := without p.set c } else none := by
  unfold Pattern.purged
  cases hk : p.kind <;> by_cases hx : without p.set c = 0 <;> simp [hx]

/-- The purge keeps a pattern that is PINNED or still has a member, without the client. -/
theorem Directory.purge_patterns (d : Directory) (c : ClientId) : (d.purge c).patterns =
    (d.patterns.filter (fun p => p.kind == .pinned || without p.set c != 0)).map (fun p => { p with set := without p.set c }) := by
  unfold Directory.purge
  dsimp only
  induction d.patterns with
  | nil => rfl
  | cons p rest ih =>
    rw [List.filterMap_cons, List.filter_cons, Pattern.purged_eq]
    by_cases hp : (p.kind == .pinned || without p.set c != 0) = true
    · simp only [if_pos hp, List.map_cons, ih]
    · simp only [if_neg hp, ih]

theorem without_self (x : ClientSet) (c : ClientId) : has (without x c) c = false := by
  rw [Bool.eq_false_iff, ne_eq, has_without]
  exact fun h => h.2 rfl

theorem ExactEntry.purged_set {e g : ExactEntry} (h : e.purged c = some g) : has g.kind.set c = false := by
  unfold ExactEntry.purged at h
  split at h
  · cases h
    exact without_self _ _
  · split at h
    · cases h
    · cases h
      exact without_self _ _
  · rename_i c' life once hk
    split at h
    · cases h
    · rename_i hc
      cases h
      rw [hk, Bool.eq_false_iff]
      exact fun hm => hc (has_only.1 hm).symm

/-- After its purge a client is in no set of the directory. -/
theorem Directory.purge_union (h : d.placed) (c : ClientId) (k : Key) : has ((d.purge c).union k) c = false := by
  rw [Bool.eq_false_iff, ne_eq, Directory.has_union, Directory.purge_entry h, Directory.purge_patterns]
  rintro (⟨g, hg, hm⟩ | ⟨q, hq, -, hm⟩)
  · obtain ⟨e, -, hp⟩ := Option.bind_eq_some_iff.1 hg
    rw [ExactEntry.purged_set hp] at hm
    cases hm
  · obtain ⟨p, -, rfl⟩ := List.mem_map.1 hq
    rw [without_self] at hm
    cases hm

/-- Settles O41, by what a purge makes of each entry and of each pattern. -/
theorem purgeTakesTheClientOut : Obligations.PurgeTakesTheClientOut := by
  intro s i r d hs ht hstage
  have hplaced := (Directory.exactSound_iff.1 hs).1
  have hexec : exec (.directoryPurge i) s =
      .next ((s.setDir (s.dir.purge d.subject)).setProgress i (.teardown { d with stage := .pending })) := by
    simp [exec, execDirectoryPurge, ht, hstage]
  obtain ⟨hgoes, hsame⟩ := State.setProgress_goesOn (s.setDir (s.dir.purge d.subject)) i (.teardown { d with stage := .pending })
  refine ⟨_, hexec, hsame.1, rfl, rfl, hgoes, rfl, fun k => ?_, Directory.purge_patterns _ _, Directory.purge_union hplaced _⟩
  refine (Directory.purge_entry hplaced _ k).trans ?_
  rcases s.dir.find_cases k with ⟨p, kind, -, he⟩ | ⟨-, he⟩
  · rw [he]
    cases kind <;> rfl
  · rw [he]
    rfl

end Purge

end Sys2Proof.Machine

/-!
PROOF. The commands that change subscriptions and pins: O37 to O39, by the answer of the request that each makes.
-/

namespace Sys2Proof.Machine

-- Elaborated one after the other: side by side, each declaration holds a thread with memory of its own.
set_option Elab.async false

/-! ### The answers of requests -/

section Answers
variable {s : State} {i : SlotId} {c : ClientId} {r : PostRecord} {d : Directory} {a : DirAnswer} {st : Status} {k : Key}
  {m : BitVec 32} {x : ClientSet} {v : Option ExactEntry}

/-- A directory command ends with its request's answer, and changes nothing but its slot and the directory (R83). -/
theorem State.endDirectory_spec (hc : (s.slot i).client = some c) (hd : (s.client c).state ≠ .draining) (a : DirAnswer) :
    s.ends (s.endDirectory i r a) i { r.completion a.status 0 with subscribers := a.set } ∧ s.sameRest (s.endDirectory i r a) ∧
      (s.endDirectory i r a).store = s.store ∧ (s.endDirectory i r a).clients = s.clients ∧ (s.endDirectory i r a).dir = a.dir :=
  ⟨State.ends_congr (u := s.setDir a.dir) rfl rfl (State.formCompletion_ends _ hc hd),
    State.formCompletion_sameRest (s := s.setDir a.dir) _ hc hd, by simp, by simp [State.endDirectory],
    by simp [State.endDirectory]⟩

theorem State.takenCommand_client {n : Nat} (h : s.takenCommand i n = some (c, r)) : (s.slot i).client = some c := by
  obtain ⟨-, -, -, hc, -⟩ := State.takenCommand_iff.1 h
  exact hc

/-- A refusal answers its status and no set, and changes nothing. -/
theorem Directory.refuse_answer (h : a = d.refuse st) : a.status = st ∧ a.set = 0 ∧ a.dir = d := by
  rw [h]
  exact ⟨rfl, rfl, rfl⟩

theorem Directory.grants.answer (h : d.grants k a x v) : a.status = .ok ∧ a.set = x ∧ a.dir.entry k = v :=
  ⟨h.1, h.2.1, h.2.2.2.same⟩

/-- Nothing of the directory changes but the entry of one key. -/
def Directory.sameButEntry (d d' : Directory) (k : Key) : Prop := d.sameButExact d' ∧ ∀ l, l ≠ k → d'.entry l = d.entry l

theorem Directory.grants.frame (h : d.grants k a x v) : d.sameButEntry a.dir k := ⟨h.2.2.1, fun _ hl => h.2.2.2.other hl⟩

theorem Directory.refuse_frame (h : a = d.refuse st) : d.sameButEntry a.dir k := by
  rw [h]
  exact ⟨rfl, fun _ _ => rfl⟩

/-! ### The requests on the pattern list (R43, R45, R48, R49) -/

/-- Nothing of the directory changes but the pattern of one name. -/
def Directory.sameButPattern (d d' : Directory) (m : BitVec 32) (k : Key) : Prop :=
  d.sameButPatterns d' ∧ ∀ n l, ¬ (n = m ∧ l &&& n = k &&& n) → d'.pattern n l = d.pattern n l

theorem Directory.sameButPattern.of_named {d' : Directory} (hs : d.sameButPatterns d')
    (h : ∀ n l, ¬ (n = m ∧ l &&& n = k &&& m) → d'.pattern n l = d.pattern n l) : d.sameButPattern d' m k :=
  ⟨hs, fun n l hn => h n l fun ⟨e, hl⟩ => hn ⟨e, by rw [hl, e]⟩⟩

/-- A request for a pattern is granted: the status is OK with a set, and the pattern of that name becomes a given one, or none. -/
def Directory.grantsPattern (d : Directory) (m : BitVec 32) (k : Key) (a : DirAnswer) (x : ClientSet) (p : Option Pattern) : Prop :=
  (a.status = .ok ∧ a.set = x ∧ a.dir.pattern m k = p) ∧ d.sameButPattern a.dir m k

theorem Directory.refuse_framePattern (h : a = d.refuse st) : d.sameButPattern a.dir m k := by
  rw [h]
  exact ⟨rfl, fun _ _ _ => rfl⟩

/-- The pattern of a name and key, with its key stored ANDed with its mask (R32). -/
def storedPattern (m : BitVec 32) (k : Key) (kind : PatternKind) (x : ClientSet) : Pattern :=
  { key := k &&& m, mask := m, kind := kind, set := x }

theorem Directory.grants_change (hp : (d.pattern m k).isSome) (kind : PatternKind) (x : ClientSet) :
    d.grantsPattern m k { status := .ok, set := x, dir := d.changePattern m k kind x } x (some (storedPattern m k kind x)) :=
  have ⟨others, named⟩ := d.changePattern_spec m k kind x
  ⟨⟨rfl, rfl, named hp⟩, .of_named rfl others⟩

theorem Directory.grants_add (hp : d.pattern m k = none) (kind : PatternKind) (x : ClientSet) :
    d.grantsPattern m k { status := .ok, set := x, dir := d.addPattern m k kind x } x (some (storedPattern m k kind x)) :=
  have ⟨others, named⟩ := d.addPattern_spec m k kind x
  ⟨⟨rfl, rfl, named hp⟩, .of_named rfl others⟩

theorem Directory.grants_remove (d : Directory) (m : BitVec 32) (k : Key) (x : ClientSet) :
    d.grantsPattern m k { status := .ok, set := x, dir := d.removePattern m k } x none :=
  have ⟨others, named⟩ := d.removePattern_spec m k
  ⟨⟨rfl, rfl, named⟩, .of_named rfl others⟩

theorem Directory.subscribePattern_spec (d : Directory) (c : ClientId) (m : BitVec 32) (k : Key) :
    match d.pattern m k with
    | some { kind := .joined, set := x, .. } =>
      d.grantsPattern m k (d.subscribePattern c m k) (withClient x c) (some (storedPattern m k .joined (withClient x c)))
    | some { kind := .pinned, .. } => d.subscribePattern c m k = d.refuse .notPermitted
    | none =>
      if d.patterns.length < 16 then
        d.grantsPattern m k (d.subscribePattern c m k) (only c) (some (storedPattern m k .joined (only c))) ∧
          (d.subscribePattern c m k).dir.patterns = d.patterns ++ [storedPattern m k .joined (only c)]
      else d.subscribePattern c m k = d.refuse .tableFull := by
  unfold Directory.subscribePattern
  cases hp : d.pattern m k with
  | none =>
    dsimp only
    by_cases hroom : d.patterns.length < 16
    · rw [if_pos hroom, if_pos (show _ < Config.patterns from hroom)]
      exact ⟨Directory.grants_add hp _ _, rfl⟩
    · rw [if_neg hroom, if_neg (show ¬ _ < Config.patterns from hroom)]
  | some p =>
    obtain ⟨key, mask, kind, x⟩ := p
    cases kind with
    | pinned => rfl
    | joined => exact Directory.grants_change (by rw [hp]; rfl) _ _

theorem Directory.unsubscribePattern_spec (d : Directory) (c : ClientId) (m : BitVec 32) (k : Key) :
    match d.pattern m k with
    | some { kind := .joined, set := x, .. } =>
      if has x c then d.grantsPattern m k (d.unsubscribePattern c m k) (without x c)
        (if without x c = 0 then none else some (storedPattern m k .joined (without x c)))
      else d.unsubscribePattern c m k = d.refuse .notFound
    | some { kind := .pinned, .. } => d.unsubscribePattern c m k = d.refuse .notPermitted
    | none => d.unsubscribePattern c m k = d.refuse .notFound := by
  unfold Directory.unsubscribePattern
  cases hp : d.pattern m k with
  | none => rfl
  | some p =>
    obtain ⟨key, mask, kind, x⟩ := p
    cases kind with
    | pinned => rfl
    | joined =>
      dsimp only
      split
      · split
        · exact d.grants_remove m k _
        · exact Directory.grants_change (by rw [hp]; rfl) _ _
      · rfl

theorem Directory.pinPattern_spec (d : Directory) (m : BitVec 32) (k : Key) (x : ClientSet) :
    if (d.pattern m k).isSome ∨ d.patterns.length < 16 then
      d.grantsPattern m k (d.pinPattern m k x) x (some (storedPattern m k .pinned x))
    else d.pinPattern m k x = d.refuse .tableFull := by
  unfold Directory.pinPattern
  cases hp : d.pattern m k with
  | none =>
    simp only [Option.isSome_none, Bool.false_eq_true, false_or]
    by_cases hroom : d.patterns.length < 16
    · rw [if_pos hroom, if_pos (show _ < Config.patterns from hroom)]
      exact Directory.grants_add hp _ _
    · rw [if_neg hroom, if_neg (show ¬ _ < Config.patterns from hroom)]
  | some p =>
    rw [if_pos (.inl rfl)]
    exact Directory.grants_change (by rw [hp]; rfl) _ _

theorem Directory.unpinPattern_spec (d : Directory) (m : BitVec 32) (k : Key) :
    match d.pattern m k with
    | some { kind := .pinned, .. } => d.grantsPattern m k (d.unpinPattern m k) 0 none
    | some { kind := .joined, .. } => d.unpinPattern m k = d.refuse .badState
    | none => d.unpinPattern m k = d.refuse .notFound := by
  unfold Directory.unpinPattern
  cases hp : d.pattern m k with
  | none => rfl
  | some p =>
    obtain ⟨key, mask, kind, x⟩ := p
    cases kind with
    | pinned => exact d.grants_remove m k 0
    | joined => rfl

/-! ### What each request leaves alone -/

theorem Directory.subscribeExact_frame (h : d.placed) : d.sameButEntry (d.subscribeExact c k).dir k := by
  have spec := d.subscribeExact_spec h c k
  split at spec
  · exact spec.frame
  · exact Directory.refuse_frame spec
  · exact Directory.refuse_frame spec
  · split at spec
    · exact spec.frame
    · exact Directory.refuse_frame spec

theorem Directory.unsubscribeExact_frame (h : d.placed) : d.sameButEntry (d.unsubscribeExact c k).dir k := by
  have spec := d.unsubscribeExact_spec h c k
  split at spec
  · split at spec
    · exact spec.frame
    · exact Directory.refuse_frame spec
  · exact Directory.refuse_frame spec
  · exact Directory.refuse_frame spec

theorem Directory.pinExact_frame (h : d.placed) : d.sameButEntry (d.pinExact k x).dir k := by
  have spec := d.pinExact_spec h k x
  split at spec
  · exact spec.frame
  · exact Directory.refuse_frame spec

theorem Directory.unpinExact_frame (h : d.placed) : d.sameButEntry (d.unpinExact k).dir k := by
  have spec := d.unpinExact_spec h k
  split at spec
  · exact spec.frame
  · exact Directory.refuse_frame spec
  · exact Directory.refuse_frame spec

theorem Directory.subscribePattern_frame : d.sameButPattern (d.subscribePattern c m k).dir m k := by
  have spec := d.subscribePattern_spec c m k
  split at spec
  · exact spec.2
  · exact Directory.refuse_framePattern spec
  · split at spec
    · exact spec.1.2
    · exact Directory.refuse_framePattern spec

theorem Directory.unsubscribePattern_frame : d.sameButPattern (d.unsubscribePattern c m k).dir m k := by
  have spec := d.unsubscribePattern_spec c m k
  split at spec
  · split at spec
    · exact spec.2
    · exact Directory.refuse_framePattern spec
  · exact Directory.refuse_framePattern spec
  · exact Directory.refuse_framePattern spec

theorem Directory.pinPattern_frame : d.sameButPattern (d.pinPattern m k x).dir m k := by
  have spec := d.pinPattern_spec m k x
  split at spec
  · exact spec.2
  · exact Directory.refuse_framePattern spec

theorem Directory.unpinPattern_frame : d.sameButPattern (d.unpinPattern m k).dir m k := by
  have spec := d.unpinPattern_spec m k
  split at spec
  · exact spec.2
  · exact Directory.refuse_framePattern spec
  · exact Directory.refuse_framePattern spec

/-! ### SUBSCRIBE and UNSUBSCRIBE (R42 to R45) -/

theorem exec_subscribe_taken (ht : s.takenCommand i 9 = some (c, r)) : exec (.subscribe i) s = .next (s.endDirectory i r
    (if r.maskPresent then s.dir.subscribePattern c r.auxA r.key else s.dir.subscribeExact c r.key)) := by
  simp only [exec, execSubscribe, ht]

theorem exec_unsubscribe_taken (ht : s.takenCommand i 10 = some (c, r)) : exec (.unsubscribe i) s = .next (s.endDirectory i r
    (if r.maskPresent then s.dir.unsubscribePattern c r.auxA r.key else s.dir.unsubscribeExact c r.key)) := by
  simp only [exec, execUnsubscribe, ht]

/-- The bucket of a key is the exclusive OR of its four bytes (R29). -/
theorem bucket_eq (k : Key) : bucket k =
    (k.toNat % 256) ^^^ (k.toNat / 2 ^ 8 % 256) ^^^ (k.toNat / 2 ^ 16 % 256) ^^^ (k.toNat / 2 ^ 24) := by
  have top : k.toNat / 2 ^ 24 % 256 = k.toNat / 2 ^ 24 := Nat.mod_eq_of_lt (by have := k.isLt; omega)
  simp only [bucket, BitVec.toNat_xor, BitVec.extractLsb'_toNat, Nat.shiftRight_eq_div_pow, Nat.pow_zero, Nat.div_one]
  exact congrArg _ top

theorem Directory.hasRoom_iff (d : Directory) (k : Key) :
    d.hasRoom k = true ↔ ∃ way, way < 4 ∧ sparseGet d.exact (bucket k * 4 + way) = none := by
  simp [Directory.hasRoom]

/-- Settles O37, by the entry that the key has: what each request answers then, and that it changes no other key's entry. -/
theorem exactSubscriptionsFollowTheEntry : Obligations.ExactSubscriptionsFollowTheEntry := by
  refine ⟨fun d k n hn => ?_, fun s i c r hm hd hs => ⟨fun ht => ?_, fun ht => ?_⟩⟩
  · rw [hn, ← bucket_eq]
    exact ⟨rfl, d.hasRoom_iff k⟩
  · have hplaced := (Directory.exactSound_iff.1 hs).1
    have spec := s.dir.subscribeExact_spec hplaced c r.key
    have hexec := exec_subscribe_taken ht
    rw [if_neg (show ¬ r.maskPresent = true from ne_true_of_eq_false hm)] at hexec
    obtain ⟨hends, hrest, hst, hcl, hdir⟩ := State.endDirectory_spec (r := r) (State.takenCommand_client ht) hd
      (s.dir.subscribeExact c r.key)
    obtain ⟨hsame, hother⟩ := Directory.subscribeExact_frame hplaced
    refine ⟨_, _, _, hexec, hends, hrest, hst, hcl, hdir ▸ hsame, hdir ▸ hother, ?_⟩
    rw [hdir]
    rcases s.dir.find_cases r.key with ⟨p, kind, -, he⟩ | ⟨-, he⟩
    · rw [he] at spec ⊢
      cases kind with
      | joined x => exact spec.answer
      | pinned x => exact Directory.refuse_answer spec
      | ret c' life once => exact Directory.refuse_answer spec
    · rw [he] at spec ⊢
      dsimp only at spec ⊢
      split at spec <;> rename_i hroom
      · rw [if_pos hroom]
        exact spec.answer
      · rw [if_neg hroom]
        exact Directory.refuse_answer spec
  · have hplaced := (Directory.exactSound_iff.1 hs).1
    have spec := s.dir.unsubscribeExact_spec hplaced c r.key
    have hexec := exec_unsubscribe_taken ht
    rw [if_neg (show ¬ r.maskPresent = true from ne_true_of_eq_false hm)] at hexec
    obtain ⟨hends, hrest, hst, hcl, hdir⟩ := State.endDirectory_spec (r := r) (State.takenCommand_client ht) hd
      (s.dir.unsubscribeExact c r.key)
    obtain ⟨hsame, hother⟩ := Directory.unsubscribeExact_frame hplaced
    refine ⟨_, _, _, hexec, hends, hrest, hst, hcl, hdir ▸ hsame, hdir ▸ hother, ?_⟩
    rw [hdir]
    rcases s.dir.find_cases r.key with ⟨p, kind, -, he⟩ | ⟨-, he⟩
    · rw [he] at spec ⊢
      cases kind with
      | joined x =>
        dsimp only at spec ⊢
        split at spec <;> rename_i hx
        · rw [if_pos hx]
          exact spec.answer
        · rw [if_neg hx]
          exact Directory.refuse_answer spec
      | pinned x => exact Directory.refuse_answer spec
      | ret c' life once => exact Directory.refuse_answer spec
    · rw [he] at spec ⊢
      exact Directory.refuse_answer spec

/-- Settles O38, by the identical pattern in the list: what each request answers then, and that it changes no other pattern. -/
theorem patternSubscriptionsFollowTheList : Obligations.PatternSubscriptionsFollowTheList := by
  refine fun s i c r hm hd => ⟨fun ht => ?_, fun ht => ?_⟩
  · have spec := s.dir.subscribePattern_spec c r.auxA r.key
    have hexec := exec_subscribe_taken ht
    rw [if_pos (show r.maskPresent = true from hm)] at hexec
    obtain ⟨hends, hrest, hst, hcl, hdir⟩ := State.endDirectory_spec (r := r) (State.takenCommand_client ht) hd
      (s.dir.subscribePattern c r.auxA r.key)
    obtain ⟨hsame, hother⟩ := s.dir.subscribePattern_frame (c := c) (m := r.auxA) (k := r.key)
    refine ⟨_, _, _, hexec, hends, hrest, hst, hcl, hdir ▸ hsame, hdir ▸ hother, ?_⟩
    rw [hdir]
    cases hp : s.dir.pattern r.auxA r.key with
    | some p =>
      obtain ⟨key, mask, kind, x⟩ := p
      rw [hp] at spec
      cases kind with
      | joined => exact spec.1
      | pinned => exact Directory.refuse_answer spec
    | none =>
      rw [hp] at spec
      dsimp only at spec ⊢
      split at spec <;> rename_i hroom
      · rw [if_pos hroom]
        obtain ⟨⟨⟨hok, hset, -⟩, -⟩, hlist⟩ := spec
        exact ⟨hok, hset, hlist⟩
      · rw [if_neg hroom]
        exact Directory.refuse_answer spec
  · have spec := s.dir.unsubscribePattern_spec c r.auxA r.key
    have hexec := exec_unsubscribe_taken ht
    rw [if_pos (show r.maskPresent = true from hm)] at hexec
    obtain ⟨hends, hrest, hst, hcl, hdir⟩ := State.endDirectory_spec (r := r) (State.takenCommand_client ht) hd
      (s.dir.unsubscribePattern c r.auxA r.key)
    obtain ⟨hsame, hother⟩ := s.dir.unsubscribePattern_frame (c := c) (m := r.auxA) (k := r.key)
    refine ⟨_, _, _, hexec, hends, hrest, hst, hcl, hdir ▸ hsame, hdir ▸ hother, ?_⟩
    rw [hdir]
    cases hp : s.dir.pattern r.auxA r.key with
    | some p =>
      obtain ⟨key, mask, kind, x⟩ := p
      rw [hp] at spec
      cases kind with
      | joined =>
        dsimp only at spec ⊢
        split at spec <;> rename_i hx
        · rw [if_pos hx]
          exact spec.1
        · rw [if_neg hx]
          exact Directory.refuse_answer spec
      | pinned => exact Directory.refuse_answer spec
    | none =>
      rw [hp] at spec
      exact Directory.refuse_answer spec

/-! ### PIN and UNPIN (R46 to R49) -/

theorem PostRecord.pinSet_eq (r : PostRecord) : r.pinSet = r.auxB.setWidth 8 := by
  simp [PostRecord.pinSet, BitVec.setWidth_eq_extractLsb']

theorem PostRecord.has_pinSet (r : PostRecord) (d : ClientId) : has r.pinSet d = r.auxB.getLsbD d.val := by
  have hd : d.val < 8 := d.isLt
  simp [has, PostRecord.pinSet, hd]

/-- The set of a PIN is refused when it names an ABSENT client (R46). -/
theorem State.namesAbsent_iff : s.namesAbsent r.pinSet = true ↔
    ∃ d : ClientId, r.auxB.getLsbD d.val = true ∧ (s.client d).state = .absent := by
  simp [State.namesAbsent, mem_members, PostRecord.has_pinSet]

theorem exec_pin_badRange (ht : s.takenCommand i 18 = some (c, r)) (hb : 255 < r.auxB.toNat) :
    exec (.pin i) s = .next (s.endWith i r .badRange 0) := by
  simp only [exec, execPin, ht, if_pos hb]

theorem exec_pin_badState (ht : s.takenCommand i 18 = some (c, r)) (hb : ¬ 255 < r.auxB.toNat)
    (hn : s.namesAbsent r.pinSet = true) : exec (.pin i) s = .next (s.endWith i r .badState 0) := by
  simp only [exec, execPin, ht, if_neg hb, if_pos hn]

theorem exec_pin_judged (ht : s.takenCommand i 18 = some (c, r)) (hb : ¬ 255 < r.auxB.toNat)
    (hn : ¬ s.namesAbsent r.pinSet = true) : exec (.pin i) s = .next (s.endDirectory i r
      (if r.maskPresent then s.dir.pinPattern r.auxA r.key r.pinSet else s.dir.pinExact r.key r.pinSet)) := by
  simp only [exec, execPin, ht, if_neg hb, if_neg hn]

theorem exec_unpin_taken (ht : s.takenCommand i 19 = some (c, r)) : exec (.unpin i) s = .next (s.endDirectory i r
    (if r.maskPresent then s.dir.unpinPattern r.auxA r.key else s.dir.unpinExact r.key)) := by
  simp only [exec, execUnpin, ht]

theorem Directory.grants.set_eq (h : d.grants k a x v) : a.set = if a.status = .ok then x else 0 := by
  rw [if_pos h.1]
  exact h.2.1

theorem Directory.grantsPattern.set_eq {p : Option Pattern} (h : d.grantsPattern m k a x p) :
    a.set = if a.status = .ok then x else 0 := by
  obtain ⟨⟨hok, hset, -⟩, -⟩ := h
  rw [if_pos hok]
  exact hset

theorem Directory.refuse_set_eq (h : a = d.refuse st) (hst : st ≠ .ok) : a.set = if a.status = .ok then x else 0 := by
  obtain ⟨hs, hset, -⟩ := Directory.refuse_answer h
  rw [hs, if_neg hst]
  exact hset

theorem Directory.pinExact_set (h : d.placed) : (d.pinExact k x).set = if (d.pinExact k x).status = .ok then x else 0 := by
  have spec := d.pinExact_spec h k x
  split at spec
  · exact spec.set_eq
  · exact Directory.refuse_set_eq spec (by decide)

theorem Directory.pinPattern_set : (d.pinPattern m k x).set = if (d.pinPattern m k x).status = .ok then x else 0 := by
  have spec := d.pinPattern_spec m k x
  split at spec
  · exact spec.set_eq
  · exact Directory.refuse_set_eq spec (by decide)

/-- An UNPIN answers no set (R49). -/
theorem Directory.unpinExact_set (d : Directory) (k : Key) : (d.unpinExact k).set = 0 := by
  unfold Directory.unpinExact
  split <;> rfl

theorem Directory.unpinPattern_set (d : Directory) (m : BitVec 32) (k : Key) : (d.unpinPattern m k).set = 0 := by
  unfold Directory.unpinPattern
  split
  · split <;> rfl
  · rfl

/-- A PIN of a key with an entry or with room in its bucket is granted, and otherwise the table is full (R31, R47). -/
theorem Directory.pinExact_answer (h : d.placed) : if (d.entry k).isSome ∨ d.hasRoom k then
      (d.pinExact k x).status = .ok ∧ (d.pinExact k x).dir.entry k = some { key := k, kind := .pinned x }
    else (d.pinExact k x).status = .tableFull ∧ (d.pinExact k x).dir = d := by
  have spec := d.pinExact_spec h k x
  split at spec <;> rename_i hroom
  · obtain ⟨hok, -, hnew⟩ := spec.answer
    rw [if_pos hroom]
    exact ⟨hok, hnew⟩
  · rw [if_neg hroom, spec]
    exact ⟨rfl, rfl⟩

theorem Directory.pinPattern_answer : if (d.pattern m k).isSome ∨ d.patterns.length < 16 then
      (d.pinPattern m k x).status = .ok ∧ (d.pinPattern m k x).dir.pattern m k = some (storedPattern m k .pinned x)
    else (d.pinPattern m k x).status = .tableFull ∧ (d.pinPattern m k x).dir = d := by
  have spec := d.pinPattern_spec m k x
  split at spec <;> rename_i hroom
  · obtain ⟨⟨hok, -, hnew⟩, -⟩ := spec
    rw [if_pos hroom]
    exact ⟨hok, hnew⟩
  · rw [if_neg hroom, spec]
    exact ⟨rfl, rfl⟩

/-- A PIN whose set has passed (R47, R48). -/
theorem exec_pin_answers (ht : s.takenCommand i 18 = some (c, r)) (hd : (s.client c).state ≠ .draining) (hp : s.dir.placed)
    (hb : ¬ 255 < r.auxB.toNat) (hn : ¬ s.namesAbsent r.pinSet = true) :
    ∃ t st, exec (.pin i) s = .next t ∧ s.sameRest t ∧ t.store = s.store ∧ t.clients = s.clients ∧
      s.ends t i { r.completion st 0 with subscribers := if st = .ok then r.pinSet else 0 } ∧
      (r.maskPresent = false → s.dir.sameButEntry t.dir r.key ∧
        if (s.dir.entry r.key).isSome ∨ s.dir.hasRoom r.key then
          st = .ok ∧ t.dir.entry r.key = some { key := r.key, kind := .pinned r.pinSet }
        else st = .tableFull ∧ t.dir = s.dir) ∧
      (r.maskPresent = true → s.dir.sameButPattern t.dir r.auxA r.key ∧
        if (s.dir.pattern r.auxA r.key).isSome ∨ s.dir.patterns.length < 16 then
          st = .ok ∧ t.dir.pattern r.auxA r.key = some (storedPattern r.auxA r.key .pinned r.pinSet)
        else st = .tableFull ∧ t.dir = s.dir) := by
  have hexec := exec_pin_judged ht hb hn
  cases hm : r.maskPresent with
  | false =>
    rw [hm, if_neg Bool.false_ne_true] at hexec
    obtain ⟨hends, hrest, hst, hcl, hdir⟩ := State.endDirectory_spec (r := r) (State.takenCommand_client ht) hd
      (s.dir.pinExact r.key r.pinSet)
    rw [Directory.pinExact_set hp] at hends
    refine ⟨_, _, hexec, hrest, hst, hcl, hends, fun _ => ?_, nofun⟩
    rw [hdir]
    exact ⟨Directory.pinExact_frame hp, Directory.pinExact_answer hp⟩
  | true =>
    rw [hm, if_pos rfl] at hexec
    obtain ⟨hends, hrest, hst, hcl, hdir⟩ := State.endDirectory_spec (r := r) (State.takenCommand_client ht) hd
      (s.dir.pinPattern r.auxA r.key r.pinSet)
    rw [Directory.pinPattern_set] at hends
    refine ⟨_, _, hexec, hrest, hst, hcl, hends, nofun, fun _ => ?_⟩
    rw [hdir]
    exact ⟨Directory.pinPattern_frame, Directory.pinPattern_answer⟩

/-- An UNPIN of a key removes a PINNED entry and nothing else (R49). -/
theorem exec_unpin_exact (ht : s.takenCommand i 19 = some (c, r)) (hd : (s.client c).state ≠ .draining) (hp : s.dir.placed)
    (hm : r.maskPresent = false) :
    ∃ t st, exec (.unpin i) s = .next t ∧ s.sameRest t ∧ t.store = s.store ∧ t.clients = s.clients ∧
      s.ends t i (r.completion st 0) ∧ s.dir.sameButEntry t.dir r.key ∧
      match s.dir.entry r.key with
      | some { kind := .pinned _, .. } => st = .ok ∧ t.dir.entry r.key = none
      | some _ => st = .badState ∧ t.dir = s.dir
      | none => st = .notFound ∧ t.dir = s.dir := by
  have hexec := exec_unpin_taken ht
  rw [hm, if_neg Bool.false_ne_true] at hexec
  have spec := s.dir.unpinExact_spec hp r.key
  obtain ⟨hends, hrest, hst, hcl, hdir⟩ := State.endDirectory_spec (r := r) (State.takenCommand_client ht) hd
    (s.dir.unpinExact r.key)
  rw [Directory.unpinExact_set] at hends
  refine ⟨_, _, hexec, hrest, hst, hcl, hends, hdir ▸ Directory.unpinExact_frame hp, ?_⟩
  rw [hdir]
  rcases s.dir.find_cases r.key with ⟨p, kind, -, he⟩ | ⟨-, he⟩
  · rw [he] at spec ⊢
    cases kind with
    | pinned x => exact ⟨spec.1, spec.2.2.2.same⟩
    | joined x => exact ⟨congrArg DirAnswer.status spec, congrArg DirAnswer.dir spec⟩
    | ret c' life once => exact ⟨congrArg DirAnswer.status spec, congrArg DirAnswer.dir spec⟩
  · rw [he] at spec ⊢
    exact ⟨congrArg DirAnswer.status spec, congrArg DirAnswer.dir spec⟩

/-- An UNPIN of a pattern removes a PINNED one and nothing else (R49). -/
theorem exec_unpin_pattern (ht : s.takenCommand i 19 = some (c, r)) (hd : (s.client c).state ≠ .draining)
    (hm : r.maskPresent = true) :
    ∃ t st, exec (.unpin i) s = .next t ∧ s.sameRest t ∧ t.store = s.store ∧ t.clients = s.clients ∧
      s.ends t i (r.completion st 0) ∧ s.dir.sameButPattern t.dir r.auxA r.key ∧
      match s.dir.pattern r.auxA r.key with
      | some { kind := .pinned, .. } => st = .ok ∧ t.dir.pattern r.auxA r.key = none
      | some { kind := .joined, .. } => st = .badState ∧ t.dir = s.dir
      | none => st = .notFound ∧ t.dir = s.dir := by
  have hexec := exec_unpin_taken ht
  rw [hm, if_pos rfl] at hexec
  have spec := s.dir.unpinPattern_spec r.auxA r.key
  obtain ⟨hends, hrest, hst, hcl, hdir⟩ := State.endDirectory_spec (r := r) (State.takenCommand_client ht) hd
    (s.dir.unpinPattern r.auxA r.key)
  rw [Directory.unpinPattern_set] at hends
  refine ⟨_, _, hexec, hrest, hst, hcl, hends, hdir ▸ Directory.unpinPattern_frame, ?_⟩
  rw [hdir]
  cases hp : s.dir.pattern r.auxA r.key with
  | none =>
    rw [hp] at spec
    exact ⟨congrArg DirAnswer.status spec, congrArg DirAnswer.dir spec⟩
  | some p =>
    obtain ⟨key, mask, kind, x⟩ := p
    rw [hp] at spec
    cases kind with
    | pinned =>
      obtain ⟨⟨hok, -, hgone⟩, -⟩ := spec
      exact ⟨hok, hgone⟩
    | joined => exact ⟨congrArg DirAnswer.status spec, congrArg DirAnswer.dir spec⟩

/-- Settles O39: the judgement of a PIN's set, then, for a key or a pattern, what the request answers and what it leaves alone. -/
theorem pinsReplaceAndUnpinsRemove : Obligations.PinsReplaceAndUnpinsRemove := by
  intro s i c r hd hs
  have hplaced := (Directory.exactSound_iff.1 hs).1
  refine ⟨fun ht => ⟨fun hb => ?_, fun hb hn => ?_, fun hb hn => ?_⟩, fun ht => ?_⟩
  · exact ⟨_, exec_pin_badRange ht hb, State.endWith_ends r _ _ (State.takenCommand_client ht) hd⟩
  · exact ⟨_, exec_pin_badState ht (Nat.not_lt.2 hb) (State.namesAbsent_iff.2 hn),
      State.endWith_ends r _ _ (State.takenCommand_client ht) hd⟩
  · have noAbsent : ¬ s.namesAbsent r.pinSet = true := fun h => by
      obtain ⟨d, hbit, habsent⟩ := State.namesAbsent_iff.1 h
      exact hn d hbit habsent
    obtain ⟨t, st, hexec, hrest, hst, hcl, hends, hexact, hpattern⟩ := exec_pin_answers ht hd hplaced (Nat.not_lt.2 hb) noAbsent
    rw [r.pinSet_eq] at hends hexact hpattern
    exact ⟨t, st, hexec, hrest, hst, hcl, hends, fun h => and_assoc.1 (hexact h), fun h => and_assoc.1 (hpattern h)⟩
  · cases hm : r.maskPresent with
    | false =>
      obtain ⟨t, st, hexec, hrest, hst, hcl, hends, hanswer⟩ := exec_unpin_exact ht hd hplaced hm
      exact ⟨t, st, hexec, hrest, hst, hcl, hends, fun _ => and_assoc.1 hanswer, fun h => absurd (hm.symm.trans h) (by decide)⟩
    | true =>
      obtain ⟨t, st, hexec, hrest, hst, hcl, hends, hanswer⟩ := exec_unpin_pattern ht hd hm
      exact ⟨t, st, hexec, hrest, hst, hcl, hends, fun h => absurd (hm.symm.trans h) (by decide), fun _ => and_assoc.1 hanswer⟩

end Answers

end Sys2Proof.Machine

/-!
PROOF. O33: a settlement is a consumption and then, for a sender that may learn a reply key, a learning; its slot waits for the
hand-over or its command ends.
-/

namespace Sys2Proof.Machine

-- Elaborated one after the other: side by side, each declaration holds a thread with memory of its own.
set_option Elab.async false

variable {s : State} {i : SlotId} {c : ClientId} {r : PostRecord} {q : Routing}

/-! ### The answers of a routing command (R99 to R101) -/

theorem Routing.accepted_iff {m : ClientId} : q.accepted = some m ↔ q.candidate = some m ∧ has q.routed m = true := by
  unfold Routing.accepted
  cases q.candidate with
  | none => simp
  | some d =>
    dsimp only
    split <;> rename_i hd <;> constructor
    · rintro ⟨⟩
      exact ⟨rfl, hd⟩
    · exact fun h => h.1
    · rintro ⟨⟩
    · rintro ⟨⟨⟩, hm⟩
      exact absurd hm hd

/-- A FORWARD that queued nothing hands nothing over (R100). -/
theorem Routing.handsNothing_iff : q.handsNothing r = true ↔ r.kind = 6 ∧ q.status ≠ .ok := by
  rw [r.kind_eq_iff 6]
  simp [Routing.handsNothing]

/-- The command of a slot whose answers are not all there goes on. -/
theorem State.routingAnswered_waits (h : ¬ (q.settled && (q.handedOver || q.handsNothing r)) = true) :
    s.routingAnswered i c r q = s.setProgress i (.settling q) := by
  unfold State.routingAnswered
  rw [if_neg h]

/-- The state in which a routing command ends: with OK its sender's sent counter has advanced (R75, R114). -/
def State.sentCounted (s : State) (c : ClientId) (st : Status) : State :=
  if st = .ok then s.setClient c { s.client c with sent := (s.client c).sent + 1 } else s

theorem State.sentCounted_client (st : Status) (d : ClientId) : (s.sentCounted c st).client d =
    if d = c ∧ st = .ok then { s.client c with sent := (s.client c).sent + 1 } else s.client d := by
  unfold State.sentCounted
  by_cases hst : st = .ok
  · rw [if_pos hst]
    by_cases hd : d = c
    · rw [if_pos ⟨hd, hst⟩, hd]
      exact s.setClient_client_same c _
    · rw [if_neg fun h => hd h.1]
      exact s.setClient_client_other hd _
  · rw [if_neg hst, if_neg fun h => hst h.2]

theorem State.sentCounted_state (st : Status) : ((s.sentCounted c st).client c).state = (s.client c).state := by
  rw [State.sentCounted_client]
  split <;> rfl

theorem State.sentCounted_slots (st : Status) : (s.sentCounted c st).slots = s.slots := by
  unfold State.sentCounted
  split <;> rfl

theorem State.sentCounted_sameRest (st : Status) {t : State} (h : (s.sentCounted c st).sameRest t) : s.sameRest t := by
  unfold State.sentCounted at h
  split at h <;> exact h

theorem State.sentCounted_unit (st : Status) : (s.sentCounted c st).unit = s.unit := by
  unfold State.sentCounted
  split <;> rfl

/-- The completion of a routing command, with the status of R99 and the two sets (R114). -/
def Routing.completion (q : Routing) (r : PostRecord) : Completion :=
  { r.completion q.status 0 with handle := q.handle, length := q.length, routed := q.routed, refused := q.refused }

/-- The command of a slot with all its answers ends with the status of R99 and the two sets. -/
theorem State.routingAnswered_ends (h : (q.settled && (q.handedOver || q.handsNothing r)) = true)
    (hc : (s.slot i).client = some c) (hd : (s.client c).state ≠ .draining) :
    s.ends (s.routingAnswered i c r q) i (q.completion r) ∧
      s.sameRest (s.routingAnswered i c r q) ∧
      ∀ d, (s.routingAnswered i c r q).client d =
        if d = c ∧ q.status = .ok then { s.client c with sent := (s.client c).sent + 1 } else s.client d := by
  have answered : s.routingAnswered i c r q = (s.sentCounted c q.status).formCompletion i (q.completion r) := by
    unfold State.routingAnswered
    rw [if_pos h]
    rfl
  have hc' : ((s.sentCounted c q.status).slot i).client = some c := by
    simpa only [State.slot, State.sentCounted_slots] using hc
  have hd' : ((s.sentCounted c q.status).client c).state ≠ .draining := by rwa [State.sentCounted_state]
  rw [answered]
  refine ⟨?_, State.sentCounted_sameRest _ (State.formCompletion_sameRest _ hc' hd'), fun d => ?_⟩
  · exact State.ends_congr (State.sentCounted_slots _) (by rw [State.sentCounted_unit]) (State.formCompletion_ends _ hc' hd')
  · rw [State.formCompletion_client, State.sentCounted_client]

/-! ### The directory after a settlement (R35 to R37) -/

section Settled
variable {d : Directory} {k : Key} {accepted : Option ClientId} {taken : Bool}

/-- Without a reply key, or with a sender that may not learn, a settlement is a consumption. -/
theorem Directory.settle_consumes {reply : Option Key} {once permitted : Bool} (h : reply = none ∨ permitted = false) :
    d.settle k accepted c reply once permitted = d.consume k accepted := by
  unfold Directory.settle
  cases reply with
  | none => rfl
  | some l =>
    obtain rfl : permitted = false := h.resolve_left nofun
    rfl

/-- A settlement leaves the patterns, the aged-out counter and the timer, and its consumption alone moves the consumed counter. -/
theorem Directory.settle_frame (ht : d.Consumes (d.consume k accepted) k taken) (reply : Option Key)
    (once permitted : Bool) :
    (d.settle k accepted c reply once permitted).patterns = d.patterns ∧
      (d.settle k accepted c reply once permitted).agedOut = d.agedOut ∧
      (d.settle k accepted c reply once permitted).timer = d.timer ∧
      (d.settle k accepted c reply once permitted).consumed = d.consumed + (if taken then 1 else 0) := by
  have consumed : (d.consume k accepted).patterns = d.patterns ∧ (d.consume k accepted).agedOut = d.agedOut ∧
      (d.consume k accepted).timer = d.timer ∧ (d.consume k accepted).consumed = d.consumed + (if taken then 1 else 0) :=
    ⟨(congrArg Directory.patterns ht.same :), (congrArg Directory.agedOut ht.same :), (congrArg Directory.timer ht.same :),
      ht.counted⟩
  unfold Directory.settle
  split
  · split
    · rename_i l _
      rcases Directory.learn_cases ht.placed l c once with ⟨-, -, hsame, -⟩ | ⟨-, hskip⟩
      · rw [(congrArg Directory.patterns hsame :), (congrArg Directory.agedOut hsame :), (congrArg Directory.timer hsame :),
          (congrArg Directory.consumed hsame :)]
        exact consumed
      · rw [hskip]
        exact consumed
    · exact consumed
  · exact consumed

/-- Learning from a settlement, by the entry that its consumption leaves the reply key (R36, R37): a RETURN entry is rewritten, one
is created where there is room, and otherwise the key is counted as skipped. -/
theorem Directory.settle_learns (ht : d.Consumes (d.consume k accepted) k taken) (l : Key) (once : Bool) :
    (∀ n, n ≠ l → (d.settle k accepted c (some l) once true).entry n = if taken ∧ n = k then none else d.entry n) ∧
    match (if taken ∧ l = k then none else d.entry l) with
    | some { kind := .ret .., .. } =>
      (d.settle k accepted c (some l) once true).entry l = some { key := l, kind := .ret c d.agingLimit once } ∧
        (d.settle k accepted c (some l) once true).learned = d.learned + 1 ∧
        (d.settle k accepted c (some l) once true).learnSkipped = d.learnSkipped
    | some e => (d.settle k accepted c (some l) once true).entry l = some e ∧
        (d.settle k accepted c (some l) once true).learned = d.learned ∧
        (d.settle k accepted c (some l) once true).learnSkipped = d.learnSkipped + 1
    | none =>
      if d.hasRoom l = true ∨ (taken = true ∧ bucket l = bucket k) then
        (d.settle k accepted c (some l) once true).entry l = some { key := l, kind := .ret c d.agingLimit once } ∧
          (d.settle k accepted c (some l) once true).learned = d.learned + 1 ∧
          (d.settle k accepted c (some l) once true).learnSkipped = d.learnSkipped
      else (d.settle k accepted c (some l) once true).entry l = none ∧
        (d.settle k accepted c (some l) once true).learned = d.learned ∧
        (d.settle k accepted c (some l) once true).learnSkipped = d.learnSkipped + 1 := by
  rw [show d.settle k accepted c (some l) once true = (d.consume k accepted).learn l c once from rfl, ← ht.entry l]
  have room : (d.consume k accepted).hasRoom l = true ↔ d.hasRoom l = true ∨ (taken = true ∧ bucket l = bucket k) := by
    rw [ht.hasRoom]
    simp
  have limit : (d.consume k accepted).agingLimit = d.agingLimit := (congrArg Directory.agingLimit ht.same :)
  have learned : (d.consume k accepted).learned = d.learned := (congrArg Directory.learned ht.same :)
  have skipped : (d.consume k accepted).learnSkipped = d.learnSkipped := (congrArg Directory.learnSkipped ht.same :)
  rcases Directory.learn_cases ht.placed l c once with ⟨hbefore, hsets, hsame, hlearned⟩ | ⟨hbefore, hskip⟩
  · have after : ((d.consume k accepted).learn l c once).entry l = some { key := l, kind := .ret c d.agingLimit once } ∧
        ((d.consume k accepted).learn l c once).learned = d.learned + 1 ∧
        ((d.consume k accepted).learn l c once).learnSkipped = d.learnSkipped := by
      rw [hsets.same, limit, hlearned, learned]
      exact ⟨rfl, rfl, (congrArg Directory.learnSkipped hsame :).trans skipped⟩
    refine ⟨fun n hn => (hsets.other hn).trans (ht.entry n), ?_⟩
    rcases hbefore with ⟨c', life, once', he⟩ | ⟨he, hroom⟩
    · rw [he]
      exact after
    · rw [he]
      dsimp only
      rw [if_pos (room.1 hroom)]
      exact after
  · have after : ((d.consume k accepted).learn l c once).learned = d.learned ∧
        ((d.consume k accepted).learn l c once).learnSkipped = d.learnSkipped + 1 := by
      rw [hskip, ← learned, ← skipped]
      exact ⟨rfl, rfl⟩
    have entries : ∀ n, ((d.consume k accepted).learn l c once).entry n = (d.consume k accepted).entry n := fun n => by
      rw [hskip]
      rfl
    refine ⟨fun n _ => (entries n).trans (ht.entry n), ?_⟩
    rcases hbefore with ⟨x, he | he⟩ | ⟨he, hroom⟩
    · rw [he]
      exact ⟨(entries l).trans he, after⟩
    · rw [he]
      exact ⟨(entries l).trans he, after⟩
    · rw [he]
      dsimp only
      rw [if_neg fun h => by simp [room.2 h] at hroom]
      exact ⟨(entries l).trans he, after⟩

end Settled

/-- Settles O33: consumption, then learning in the directory that it leaves, then the end of the command or its wait. -/
theorem settlementConsumesThenLearns : Obligations.SettlementConsumesThenLearns := by
  intro s i c r q hs hperf hprog hset taken htaken
  have hplaced := (Directory.exactSound_iff.1 hs).1
  obtain ⟨-, -, hc, -⟩ := State.performing_iff.1 hperf
  have consumes : s.dir.Consumes (s.dir.consume r.key q.accepted) r.key taken := by
    refine Directory.consume_spec hplaced r.key q.accepted taken (htaken.trans ?_)
    simp only [Routing.accepted_iff, and_assoc]
  have hexec : exec (.settlement i) s = .next
      ((s.setDir (s.dir.settle r.key q.accepted c r.replyKey r.replyOnce (s.client c).learning)).routingAnswered i c r
        { q with settled := true }) := by
    simp only [exec, execSettlement, hperf, hprog, hset, Bool.false_eq_true, if_false]
  generalize hsettled : s.dir.settle r.key q.accepted c r.replyKey r.replyOnce (s.client c).learning = d at hexec
  have hdir : ((s.setDir d).routingAnswered i c r { q with settled := true }).dir = d :=
    congrArg Prod.fst ((s.setDir d).routingAnswered_channels i c r { q with settled := true })
  obtain ⟨hpat, haged, htimer, hcons⟩ :=
    hsettled ▸ Directory.settle_frame (c := c) consumes r.replyKey r.replyOnce (s.client c).learning
  refine ⟨_, hexec, fun st hst => ⟨fun hno hfwd => ?_, fun hall hd => ?_⟩, by simp, ?_⟩
  · subst hst
    have waits : ¬ (true && (q.handedOver || Routing.handsNothing { q with settled := true } r)) = true := by
      rw [hno, Bool.true_and, Bool.false_or, Routing.handsNothing_iff]
      exact hfwd
    rw [State.routingAnswered_waits waits]
    obtain ⟨hgoes, hsame⟩ := State.setProgress_goesOn (s.setDir d) i (.settling { q with settled := true })
    exact ⟨hgoes, hsame.1, rfl⟩
  · subst hst
    have ends : (true && (q.handedOver || Routing.handsNothing { q with settled := true } r)) = true := by
      rw [Bool.true_and, Bool.or_eq_true, Routing.handsNothing_iff]
      exact hall
    obtain ⟨hends, hrest, hclients⟩ := State.routingAnswered_ends (s := s.setDir d) (q := { q with settled := true }) ends hc hd
    exact ⟨State.ends_congr (u := s.setDir d) rfl rfl hends, hrest, hclients⟩
  · rw [hdir]
    refine ⟨hpat, haged, htimer, hcons, fun hquiet => ?_, fun hreply hlearn => ?_⟩
    · have reply : r.replyKey = none ∨ (s.client c).learning = false :=
        hquiet.imp_left fun h => if_neg (ne_true_of_eq_false h)
      rw [Directory.settle_consumes reply] at hsettled
      subst hsettled
      exact ⟨consumes.entry, (congrArg Directory.learned consumes.same :), (congrArg Directory.learnSkipped consumes.same :)⟩
    · rw [show r.replyKey = some r.auxA from if_pos hreply, hlearn] at hsettled
      subst hsettled
      exact Directory.settle_learns consumes r.auxA r.replyOnce

end Sys2Proof.Machine

/-!
PROOF. The layer that O58 rests on, first part: the invariant of the device and the slots by its clauses.
-/

namespace Sys2Proof.Machine

-- Elaborated one after the other: side by side, each declaration holds a thread with memory of its own.
set_option Elab.async false

/-! ### The device and the slots by their clauses -/

/-- The device serves clients (R176). -/
def State.serving (s : State) : Prop :=
  s.port.device = .running ∨ s.port.device = .halting ∨ s.port.device = .halted

/-- `State.deviceSound` and `State.slotsApart` but for the clause that a HALTING device has an occupied slot, which the freeing of a
slot restores only at its end (R89). -/
structure State.Stationed (s : State) : Prop where
  port : s.port.sound = true
  idle : s.port.device = .off ∨ s.port.device = .loading ∨ s.port.device = .halted → ∀ j, (s.slot j).state = .free
  served : s.serving → (s.client 0).state = .attached
  spares : ∀ j d, (s.slot j).progress = .teardown d → d.subject ≠ 0
  quiet : s.port.resetAsserted = true → ∀ b, s.arb.bus = some b → b.stale = true
  apart : s.Apart
  fetch : ∀ x, s.intake.fetch = some x → x.op.ofFetcher = true ∧
    ∀ c i, x.op = .postRead c i → (s.slot i).state = .bound ∧ (s.slot i).client = some c
  writer : ∀ x ∈ s.unit.writer, x.op.ofWriter = true
  follows : ∀ x ∈ s.liveBus, ∀ c i, x.op = .postRead c i → s.intake.fetch = some x
  once : s.writingSlots.Nodup
  writing : ∀ i ∈ s.writingSlots, (s.slot i).state = .writing

/-- A state whose device and slots are sound. -/
structure State.Placed (s : State) : Prop extends s.Stationed where
  busy : s.port.device = .halting → ∃ j, (s.slot j).state ≠ .free

section Clauses
variable {s t : State} {i : SlotId} {c : ClientId}

theorem State.allFree_iff : s.allFree = true ↔ ∀ j, (s.slot j).state = .free := by simp [State.allFree]

/-- `State.deviceSound`, clause by clause. -/
theorem State.deviceSound_iff : s.deviceSound = true ↔ s.port.sound = true ∧
    (s.port.device = .off ∨ s.port.device = .loading ∨ s.port.device = .halted → ∀ j, (s.slot j).state = .free) ∧
    (s.port.device = .halting → ∃ j, (s.slot j).state ≠ .free) ∧ (s.serving → (s.client 0).state = .attached) ∧
    (∀ j d, (s.slot j).progress = .teardown d → d.subject ≠ 0) ∧
    (s.port.resetAsserted = true → ∀ b, s.arb.bus = some b → b.stale = true) := by
  have busy : (s.port.device ≠ .halting ∨ s.allFree = false) ↔ (s.port.device = .halting → ∃ j, (s.slot j).state ≠ .free) := by
    rw [Bool.eq_false_iff, ne_eq, ne_eq, State.allFree_iff, not_forall, ← imp_iff_not_or]
  have idle : (s.port.device ≠ .off ∧ s.port.device ≠ .loading ∧ s.port.device ≠ .halted ∨ s.allFree = true) ↔
      (s.port.device = .off ∨ s.port.device = .loading ∨ s.port.device = .halted → ∀ j, (s.slot j).state = .free) := by
    rw [State.allFree_iff]
    tauto
  have served : (s.port.device ≠ .running ∧ s.port.device ≠ .halting ∧ s.port.device ≠ .halted ∨ (s.client 0).state = .attached) ↔
      (s.serving → (s.client 0).state = .attached) := by
    unfold State.serving
    tauto
  have spares : (∀ j, Slot.sparesSupervisor (s.slot j) = true) ↔ ∀ j d, (s.slot j).progress = .teardown d → d.subject ≠ 0 := by
    refine forall_congr' fun j => ?_
    unfold Slot.sparesSupervisor
    cases (s.slot j).progress <;> simp
  have quiet : (s.port.resetAsserted = false ∨ s.arb.bus.all (fun b => b.stale) = true) ↔
      (s.port.resetAsserted = true → ∀ b, s.arb.bus = some b → b.stale = true) := by
    cases s.port.resetAsserted <;> simp [Option.all_eq_true]
  simp only [State.deviceSound, Bool.and_eq_true, Bool.or_eq_true, Bool.not_eq_true', bne_iff_ne, beq_iff_eq, Slots.all_iff,
    busy, idle, served, spares, quiet, and_assoc]

/-- The transaction on the bus whose result will be used. -/
theorem State.mem_liveBus {x : Txn} : x ∈ s.liveBus ↔
    ∃ b, s.arb.bus = some b ∧ b.txn = x ∧ b.stale = false ∧ s.port.device ≠ .failed := by
  unfold State.liveBus
  cases hb : s.arb.bus with
  | none => simp
  | some b =>
    by_cases hl : b.stale = true ∨ s.port.device = .failed
    · rcases hl with hl | hl <;> simp [hl]
    · obtain ⟨hs, hd⟩ := not_or.1 hl
      simp [hs, hd, eq_comm (a := x)]

/-- `State.slotsApart`, clause by clause. -/
theorem State.slotsApart_iff : s.slotsApart = true ↔ s.Apart ∧
    (∀ x, s.intake.fetch = some x → x.op.ofFetcher = true ∧
      ∀ c i, x.op = .postRead c i → (s.slot i).state = .bound ∧ (s.slot i).client = some c) ∧
    (∀ x ∈ s.unit.writer, x.op.ofWriter = true) ∧
    (∀ x ∈ s.liveBus, ∀ c i, x.op = .postRead c i → s.intake.fetch = some x) ∧
    s.writingSlots.Nodup ∧ ∀ i ∈ s.writingSlots, (s.slot i).state = .writing := by
  have bound : ∀ x : Txn, s.boundFor x = true ↔
      ∀ c i, x.op = .postRead c i → (s.slot i).state = .bound ∧ (s.slot i).client = some c := by
    intro x
    unfold State.boundFor
    cases x.op <;> simp
  have follows : s.busFollowsFetcher = true ↔ ∀ x ∈ s.liveBus, ∀ c i, x.op = .postRead c i → s.intake.fetch = some x := by
    unfold State.busFollowsFetcher State.liveBus
    cases s.arb.bus with
    | none => simp
    | some b =>
      cases hop : b.txn.op <;> cases hs : b.stale <;> by_cases hd : s.port.device = .failed <;> simp [hop, hs, hd]
  have clients : (∀ i j, ((i = j ∨ (s.slot i).state = .free) ∨ (s.slot j).state = .free) ∨ (s.slot i).client ≠ (s.slot j).client) ∧
      (∀ i, (s.slot i).state = .free ∨ ∃ c, (s.slot i).client = some c) ↔ s.Apart := by
    refine ⟨fun ⟨one, named⟩ => ⟨fun i j c hi hj ci cj => ?_, fun i hi => (named i).resolve_left hi⟩,
      fun ha => ⟨fun i j => ?_, fun i => or_iff_not_imp_left.2 (ha.named i)⟩⟩
    · have := one i j
      rw [ci, cj] at this
      tauto
    · by_cases hi : (s.slot i).state = .free
      · exact .inl (.inl (.inr hi))
      · by_cases hj : (s.slot j).state = .free
        · exact .inl (.inr hj)
        · obtain ⟨c, hc⟩ := ha.named i hi
          by_cases hij : i = j
          · exact .inl (.inl (.inl hij))
          · exact .inr fun e => hij (ha.one i j c hi hj hc (e ▸ hc))
  rw [← clients]
  unfold State.slotsApart
  cases hf : s.intake.fetch <;>
    simp only [Bool.and_eq_true, List.all_eq_true, List.mem_finRange, true_implies, Bool.or_eq_true, beq_iff_eq, bne_iff_ne,
      Option.isSome_iff_exists, decide_eq_true_eq, follows, bound, Option.some.injEq, forall_eq', hf, reduceCtorEq, false_implies,
      implies_true, true_and, and_true, and_assoc]

theorem State.placed_iff : s.Placed ↔ s.deviceSound = true ∧ s.slotsApart = true := by
  rw [State.deviceSound_iff, State.slotsApart_iff]
  constructor
  · rintro ⟨⟨a, b, c, d, e, f, g, h, i, j, k⟩, l⟩
    exact ⟨⟨a, b, l, c, d, e⟩, f, g, h, i, j, k⟩
  · rintro ⟨⟨a, b, l, c, d, e⟩, f, g, h, i, j, k⟩
    exact ⟨⟨a, b, c, d, e, f, g, h, i, j, k⟩, l⟩

end Clauses

end Sys2Proof.Machine

/-!
PROOF. The layer that O58 rests on, second part: what each shared operation keeps of the device and the slots.
-/

namespace Sys2Proof.Machine

-- Elaborated one after the other: side by side, each declaration holds a thread with memory of its own.
set_option Elab.async false

/-! ### What keeps the device and the slots -/

section Placed
variable {s t : State} {i : SlotId} {c : ClientId} {r : PostRecord}

/-- A live transaction stays live, unless the bus is freed or the device fails. -/
theorem State.liveBus_cases (hb : t.arb.bus = s.arb.bus ∨ t.arb.bus = none)
    (hp : s.port.device = .failed → t.port.device = .failed) : t.liveBus = s.liveBus ∨ t.liveBus = [] := by
  unfold State.liveBus
  rcases hb with hb | hb <;> rw [hb]
  · by_cases hs : s.port.device = .failed
    · simp [hs, hp hs]
    · cases s.arb.bus with
      | none => exact .inl rfl
      | some b => by_cases ht : t.port.device = .failed <;> simp [hs, ht]
  · exact .inr rfl

theorem State.writingSlots_sublist (hl : t.liveBus = s.liveBus ∨ t.liveBus = []) (hw : t.unit.writer.Sublist s.unit.writer) :
    t.writingSlots.Sublist s.writingSlots := by
  refine List.Sublist.filterMap _ (List.Sublist.append ?_ hw)
  rcases hl with e | e <;> rw [e]
  exact List.nil_sublist _

/-- A step beside the port and the slots: the bus may be freed, and transactions may leave the record writer's queue. -/
theorem State.Placed.frame (h : s.Placed) (hport : t.port = s.port) (hslots : t.slots = s.slots)
    (hfetch : t.intake.fetch = s.intake.fetch) (hbus : t.arb.bus = s.arb.bus ∨ t.arb.bus = none)
    (hwriter : t.unit.writer.Sublist s.unit.writer) (hclient : s.serving → (t.client 0).state = .attached) : t.Placed := by
  have hs : ∀ j, t.slot j = s.slot j := State.slot_of_slots hslots
  have hl := State.liveBus_cases hbus (by rw [hport]; exact id)
  have hw := State.writingSlots_sublist hl hwriter
  refine { port := hport ▸ h.port, idle := ?_, served := ?_, spares := ?_, quiet := fun ha b hb => ?_, apart := h.apart.of_slots hslots,
           fetch := ?_, writer := fun x hx => h.writer x (hwriter.subset hx), follows := fun x hx => ?_, once := h.once.sublist hw,
           writing := fun j hj => ?_, busy := ?_ }
  · simpa only [hport, hs] using h.idle
  · simpa only [State.serving, hport] using hclient
  · simpa only [hs] using h.spares
  · rcases hbus with e | e
    · exact h.quiet (hport ▸ ha) b (e ▸ hb)
    · rw [e] at hb; cases hb
  · simpa only [hfetch, hs] using h.fetch
  · rw [hfetch]
    rcases hl with e | e
    · exact h.follows x (e ▸ hx)
    · rw [e] at hx; cases hx
  · rw [hs]; exact h.writing j (hw.subset hj)
  · simpa only [hport, hs] using h.busy

/-- The slots get other contents: each occupied one had the same client before, the fetcher's BOUND slot and the slots whose records
are being written are as the queues ask for. -/
theorem State.Stationed.setSlots (h : s.Stationed) (v : Vector Slot 4)
    (hs : ∀ j : SlotId, v[j.val].state ≠ .free → (s.slot j).state ≠ .free ∧ v[j.val].client = (s.slot j).client)
    (hd : ∀ (j : SlotId) d, v[j.val].progress = .teardown d → d.subject ≠ 0)
    (hf : ∀ x c (j : SlotId), s.intake.fetch = some x → x.op = .postRead c j → v[j.val].state = .bound)
    (hw : ∀ j ∈ s.writingSlots, v[j.val].state = .writing) : ({ s with slots := v } : State).Stationed where
  port := h.port
  idle hp j := by
    by_contra hj
    exact (hs j hj).1 (h.idle hp j)
  served := h.served
  spares := hd
  quiet := h.quiet
  apart := by
    refine ⟨fun i j c hi hj ci cj => ?_, fun i hi => ?_⟩
    · exact h.apart.one i j c (hs i hi).1 (hs j hj).1 ((hs i hi).2 ▸ ci) ((hs j hj).2 ▸ cj)
    · exact (hs i hi).2 ▸ h.apart.named i (hs i hi).1
  fetch x hx := by
    refine ⟨(h.fetch x hx).1, fun c j hop => ?_⟩
    have hb := hf x c j hx hop
    refine ⟨hb, ?_⟩
    rw [← ((h.fetch x hx).2 c j hop).2]
    exact (hs j (by rw [hb]; decide)).2
  writer := h.writer
  follows := h.follows
  once := h.once
  writing := hw

/-- A slot that no fetcher transaction and no record of a completion stands on: its command may end, and it may become FREE. -/
def State.loose (s : State) (i : SlotId) : Prop :=
  i ∉ s.writingSlots ∧ ∀ x c, s.intake.fetch = some x → x.op ≠ .postRead c i

/-- A slot that is neither BOUND nor WRITING is loose. -/
theorem State.Stationed.loose (h : s.Stationed) (hb : (s.slot i).state ≠ .bound) (hw : (s.slot i).state ≠ .writing) : s.loose i :=
  ⟨fun hi => hw (h.writing i hi), fun x c hx hop => hb ((h.fetch x hx).2 c i hop).1⟩

theorem State.setSlot_slot_eq (s : State) (i : SlotId) (v : Slot) (j : SlotId) :
    (s.slots.set i.val v)[j.val] = if j = i then v else s.slot j := by
  split
  · subst j
    exact State.setSlot_slot_same s i v
  · exact State.setSlot_slot_other s ‹_› v

/-- An occupied slot gets other contents of its client, or none. -/
theorem State.Stationed.setSlot (h : s.Stationed) {v : Slot} (hn : (s.slot i).state ≠ .free)
    (hv : v.state ≠ .free → v.client = (s.slot i).client) (hd : ∀ d, v.progress = .teardown d → d.subject ≠ 0)
    (hs : v.state = (s.slot i).state ∨ s.loose i) : (s.setSlot i v).Stationed := by
  refine h.setSlots _ (fun j => ?_) (fun j d => ?_) (fun x c j hx hop => ?_) (fun j hj => ?_) <;>
    rw [State.setSlot_slot_eq] <;> split
  · subst j; exact fun hf => ⟨hn, hv hf⟩
  · exact fun hf => ⟨hf, rfl⟩
  · exact hd d
  · exact h.spares j d
  · subst j
    rcases hs with e | hl
    · rw [e]; exact ((h.fetch x hx).2 c i hop).1
    · exact absurd hop (hl.2 x c hx)
  · exact ((h.fetch x hx).2 c j hop).1
  · subst j
    rcases hs with e | hl
    · rw [e]; exact h.writing i hj
    · exact absurd hj hl.1
  · exact h.writing j hj

theorem State.Placed.setSlot (h : s.Placed) {v : Slot} (hn : (s.slot i).state ≠ .free) (hf : v.state ≠ .free)
    (hv : v.client = (s.slot i).client) (hd : ∀ d, v.progress = .teardown d → d.subject ≠ 0)
    (hs : v.state = (s.slot i).state ∨ s.loose i) : (s.setSlot i v).Placed := by
  refine ⟨h.toStationed.setSlot hn (fun _ => hv) hd hs, fun hp => ?_⟩
  exact ⟨i, by rw [State.setSlot_slot_same]; exact hf⟩

/-! ### Freed slots and the Intake's choice -/

theorem endAbort_teardown {b : Bool} {sl : Slot} {d : Teardown} (h : (endAbort c b sl).progress = .teardown d) :
    ∃ d', sl.progress = .teardown d' ∧ d'.subject = d.subject := by
  unfold endAbort at h
  split at h
  · rename_i d' hd
    split at h
    · cases h
      exact ⟨d', hd, rfl⟩
    · exact ⟨d, h, rfl⟩
  · exact ⟨d, h, rfl⟩

theorem State.Stationed.reportFreed (h : s.Stationed) (c : ClientId) (b : Bool) : (s.reportFreed c b).Stationed := by
  have e : ∀ j : SlotId, (s.slots.map (endAbort c b))[j.val] = endAbort c b (s.slot j) := fun j => s.reportFreed_slot c b j
  refine h.setSlots _ (fun j => ?_) (fun j d => ?_) (fun x c j hx hop => ?_) (fun j hj => ?_) <;> rw [e]
  · simp only [endAbort_state, endAbort_client]
    exact fun hf => ⟨hf, trivial⟩
  · intro hd
    obtain ⟨d', hp, hsub⟩ := endAbort_teardown hd
    exact hsub ▸ h.spares j d' hp
  · rw [endAbort_state]; exact ((h.fetch x hx).2 c j hop).1
  · rw [endAbort_state]; exact h.writing j hj

theorem State.Placed.reportFreed (h : s.Placed) (c : ClientId) (b : Bool) : (s.reportFreed c b).Placed := by
  refine ⟨h.toStationed.reportFreed c b, fun hp => ?_⟩
  simpa using h.busy hp

/-- `Port.sound` as what each field says of the device. -/
theorem Port.sound_iff {p : Port} : p.sound = true ↔ (p.faultPin = true ↔ p.device = .failed ∧ p.resetAsserted = false) ∧
    (p.tickRuns = true ↔ p.device = .running ∨ p.device = .halting) ∧ (p.faultCode ≠ .none ↔ p.device = .failed) ∧
    (p.client0Reason.isSome = true ↔ p.faultCode = .supervisorFault) := by
  simp only [Port.sound, Bool.and_eq_true, beq_iff_eq, and_assoc]
  refine and_congr ?_ (and_congr ?_ (and_congr ?_ ?_)) <;> rw [Bool.eq_iff_iff] <;> simp

/-- The port changes with the device, the reset pin as it is; a FAILED device stays so. -/
theorem State.Stationed.setPort (h : s.Stationed) {p : Port} (hp : p.sound = true) (hr : p.resetAsserted = s.port.resetAsserted)
    (hfail : s.port.device = .failed → p.device = .failed)
    (hidle : p.device = .off ∨ p.device = .loading ∨ p.device = .halted → ∀ j, (s.slot j).state = .free)
    (hserved : (s.setPort p).serving → (s.client 0).state = .attached) : (s.setPort p).Stationed := by
  have hl : (s.setPort p).liveBus = s.liveBus ∨ (s.setPort p).liveBus = [] := State.liveBus_cases (.inl rfl) hfail
  have hw := State.writingSlots_sublist hl (List.Sublist.refl _)
  refine { h with apart := h.apart.of_slots rfl, port := hp, idle := hidle, served := hserved, quiet := ?_,
                  follows := fun x hx => h.follows x ?_, once := h.once.sublist hw,
                  writing := fun j hj => h.writing j (hw.subset hj) }
  · rw [State.setPort_port, hr]
    exact h.quiet
  · rcases hl with e | e
    · exact e ▸ hx
    · rw [e] at hx; cases hx

/-- HALTING ends with the last occupied slot (R89). -/
theorem State.Stationed.settleHalt (h : s.Stationed) : s.settleHalt.Placed := by
  unfold State.settleHalt
  split
  · rename_i hh
    have hp := h.port
    refine ⟨h.setPort ?_ rfl (fun hf => ?_) (fun _ => State.allFree_iff.1 hh.2) (fun _ => h.served (.inr (.inl hh.1))), ?_⟩
    · obtain ⟨pin, -, fault⟩ := Port.sound_iff.1 hp
      rw [hh.1] at pin fault
      exact Port.sound_iff.2 ⟨by simpa using pin, by simp, by simpa using fault⟩
    · rw [hh.1] at hf; cases hf
    · intro hp; cases hp
  · rename_i hh
    refine ⟨h, fun hp => ?_⟩
    by_contra hno
    exact hh ⟨hp, State.allFree_iff.2 (by simpa using hno)⟩

theorem State.active_iff : s.active = true ↔ s.port.resetAsserted = false ∧ s.serving := by
  simp only [State.active, State.serving, Bool.and_eq_true, Bool.not_eq_true', Bool.or_eq_true, beq_iff_eq, or_assoc]

/-- The Intake's choice (R76). -/
theorem State.Placed.readChoice (h : s.Placed) : s.readChoice.Placed := by
  rcases s.readChoice_cases with e | ⟨c, -, hf, -, e⟩ | ⟨c, i, -, hf, hel, hi, e⟩ <;> rw [e]
  · exact h
  · refine { h with apart := h.apart.of_slots rfl, fetch := fun x hx => ?_, follows := fun x hx c' j hop => ?_ }
    · cases hx
      exact ⟨rfl, fun _ _ hop => by cases hop⟩
    · have := h.follows x hx c' j hop
      rw [hf] at this; cases this
  · have free : (s.slot i).state = .free := by simpa using List.find?_some hi
    have slot : ∀ j, ((s.setSlot i { Slot.initial with state := .bound, client := some c }).slot j) =
        if j = i then { Slot.initial with state := .bound, client := some c } else s.slot j := State.setSlot_slot_eq s i _
    simp only [State.postEligible, Bool.and_eq_true, beq_iff_eq, bne_iff_ne, State.slotOf_none] at hel
    obtain ⟨⟨⟨⟨running, -⟩, -⟩, slotless⟩, -⟩ := hel
    refine { port := h.port, idle := fun hp => ?_, served := h.served, spares := fun j d => ?_, quiet := h.quiet,
             apart := ⟨fun j k d => ?_, fun j => ?_⟩, fetch := fun x hx => ?_, writer := h.writer, follows := fun x hx c' j hop => ?_,
             once := h.once, writing := fun j hj => ?_, busy := fun hp => ?_ }
    · have hp : s.port.device = .off ∨ s.port.device = .loading ∨ s.port.device = .halted := hp
      simp [running] at hp
    · rw [State.setIntake_slot, slot]
      split
      · intro hd; cases hd
      · exact h.spares j d
    · rw [State.setIntake_slot, State.setIntake_slot, slot, slot]
      split <;> split
      · exact fun _ _ _ _ => by simp_all
      · intro _ hk hj hk'
        cases hj
        exact absurd hk' ((slotless k).resolve_left hk)
      · intro hj _ hj' hk
        cases hk
        exact absurd hj' ((slotless j).resolve_left hj)
      · exact h.apart.one j k d
    · rw [State.setIntake_slot, slot]
      split
      · exact fun _ => ⟨c, rfl⟩
      · exact h.apart.named j
    · cases hx
      refine ⟨rfl, fun c' j hop => ?_⟩
      cases hop
      rw [State.setIntake_slot, State.setSlot_slot_same]
      exact ⟨rfl, rfl⟩
    · have := h.follows x hx c' j hop
      rw [hf] at this; cases this
    · rw [State.setIntake_slot, slot]
      split
      · subst j
        have := h.writing i hj
        rw [free] at this; cases this
      · exact h.writing j hj
    · have hp : s.port.device = .halting := hp
      rw [running] at hp; cases hp

/-- A loose slot becomes FREE (R88, R89). -/
theorem State.Placed.freeSlot (h : s.Placed) (hl : s.loose i) (b : Bool) : (s.freeSlot i b).Placed := by
  have freed : (s.setSlot i Slot.initial).Stationed := by
    by_cases hn : (s.slot i).state = .free
    · refine h.toStationed.setSlots _ (fun j => ?_) (fun j d => ?_) (fun x c j hx hop => ?_) (fun j hj => ?_) <;>
        rw [State.setSlot_slot_eq] <;> split
      · exact fun hf => absurd rfl hf
      · exact fun hf => ⟨hf, rfl⟩
      · intro hd; cases hd
      · exact h.spares j d
      · subst j; exact absurd hop (hl.2 x c hx)
      · exact ((h.fetch x hx).2 c j hop).1
      · subst j; exact absurd hj hl.1
      · exact h.writing j hj
    · exact h.toStationed.setSlot hn (fun hf => absurd rfl hf) (fun d hd => by cases hd) (.inr hl)
  unfold State.freeSlot
  dsimp only
  refine State.Placed.readChoice (State.Stationed.settleHalt ?_)
  split
  · split
    · exact freed.reportFreed _ b
    · exact freed
  · exact freed

/-! ### The port -/

theorem State.Placed.setPort (h : s.Placed) {p : Port} (hp : p.sound = true) (hr : p.resetAsserted = s.port.resetAsserted)
    (hfail : s.port.device = .failed → p.device = .failed)
    (hidle : p.device = .off ∨ p.device = .loading ∨ p.device = .halted → ∀ j, (s.slot j).state = .free)
    (hbusy : p.device = .halting → ∃ j, (s.slot j).state ≠ .free)
    (hserved : (s.setPort p).serving → (s.client 0).state = .attached) : (s.setPort p).Placed :=
  ⟨h.toStationed.setPort hp hr hfail hidle hserved, hbusy⟩

/-- Registers of the port that do not go with the device state: the setup address, the tick's counters and the recorded answer. -/
theorem State.Placed.setRegisters (h : s.Placed) (lo hi : BitVec 32) (divider : Nat) (count : Tally) (answer : PortAnswer) :
    (s.setPort { s.port with
      setupLo := lo, setupHi := hi, tickDivider := divider, tickCount := count, answer := answer }).Placed :=
  h.setPort h.port rfl id h.idle h.busy h.served

/-- The device fails, the reset pin being released (R187). -/
theorem State.Placed.failDevice (h : s.Placed) (hr : s.port.resetAsserted = false) {code : DeviceFault} {reason : Option FaultReason}
    (hc : code ≠ .none) (hreason : reason.isSome = true ↔ code = .supervisorFault) : (s.failDevice code reason).Placed := by
  refine h.setPort ?_ rfl (fun _ => rfl) (fun hp => ?_) (fun hp => ?_) fun hp => ?_
  · rw [Port.sound_iff]
    simpa [hr, hc] using hreason
  all_goals simp [State.serving] at hp

/-! ### The fetcher, the record writer and the bus -/

/-- The fetcher gets another transaction, or none, while no live post read is on the bus. -/
theorem State.Placed.setFetch (h : s.Placed) {v : Intake}
    (hv : ∀ x, v.fetch = some x → x.op.ofFetcher = true ∧ ∀ c i, x.op ≠ .postRead c i)
    (hl : ∀ x ∈ s.liveBus, ∀ c i, x.op ≠ .postRead c i) : (s.setIntake v).Placed :=
  { h with apart := h.apart.of_slots rfl,
           fetch := fun x hx => ⟨(hv x hx).1, fun c i hop => absurd hop ((hv x hx).2 c i)⟩,
           follows := fun x hx c i hop => absurd hop (hl x hx c i) }

/-- A transaction becomes ready for the record writer; the record of a completion is that of a WRITING slot (R84). -/
theorem State.Placed.enqueue (h : s.Placed) {x : Txn} (hx : x.op.ofWriter = true)
    (hslot : ∀ i, x.op.completionSlot = some i → i ∉ s.writingSlots ∧ (s.slot i).state = .writing) : (s.enqueue x).Placed := by
  have hw : (s.enqueue x).writingSlots = s.writingSlots ++ x.op.completionSlot.toList := by
    show (s.liveBus ++ (s.unit.writer ++ [x])).filterMap _ = _
    rw [← List.append_assoc, List.filterMap_append]
    cases hc : x.op.completionSlot <;> simp [State.writingSlots, hc]
  refine { h with apart := h.apart.of_slots rfl, writer := fun y hy => ?_, once := ?_, writing := fun i hi => ?_ }
  · rcases List.mem_append.1 hy with hy | hy
    · exact h.writer y hy
    · exact List.mem_singleton.1 hy ▸ hx
  · rw [hw]
    refine List.nodup_append.2 ⟨h.once, by cases x.op.completionSlot <;> simp, fun i hi j hj e => ?_⟩
    exact (hslot j (by simpa using hj)).1 (e ▸ hi)
  · rw [hw] at hi
    rcases List.mem_append.1 hi with hi | hi
    · exact h.writing i hi
    · exact (hslot i (by simpa using hi)).2

/-- A transaction is granted (R189), the bus being free and the reset pin released. -/
theorem State.Placed.granted (h : s.Placed) (hr : s.port.resetAsserted = false) {a : Arbiter} {x : Txn} {rest : List Txn}
    (ha : a.bus = some { txn := x, stale := false }) (hrest : rest.Sublist s.unit.writer)
    (hpost : ∀ c i, x.op = .postRead c i → s.intake.fetch = some x)
    (hslots : (x.op.completionSlot.toList ++ rest.filterMap (fun y => y.op.completionSlot)).Sublist
      (s.unit.writer.filterMap (fun y => y.op.completionSlot))) :
    ((s.setArb a).setUnit { s.unit with writer := rest }).Placed := by
  have hl : ((s.setArb a).setUnit { s.unit with writer := rest }).liveBus = [x] ∨
      ((s.setArb a).setUnit { s.unit with writer := rest }).liveBus = [] := by
    by_cases hd : s.port.device = .failed <;> simp [State.liveBus, ha, hd]
  have hw : ((s.setArb a).setUnit { s.unit with writer := rest }).writingSlots.Sublist s.writingSlots := by
    unfold State.writingSlots
    rw [List.filterMap_append, List.filterMap_append]
    refine List.Sublist.trans ?_ (hslots.trans (List.sublist_append_right _ _))
    refine List.Sublist.append ?_ (List.Sublist.refl _)
    rcases hl with e | e <;> rw [e]
    · cases hc : x.op.completionSlot <;> simp [hc]
    · exact List.nil_sublist _
  refine { h with apart := h.apart.of_slots rfl, quiet := fun hq => ?_, writer := fun y hy => h.writer y (hrest.subset hy),
                  follows := fun y hy c i hop => ?_, once := h.once.sublist hw, writing := fun j hj => h.writing j (hw.subset hj) }
  · have hq : s.port.resetAsserted = true := hq
    rw [hr] at hq; cases hq
  · rcases hl with e | e <;> rw [e] at hy
    · obtain rfl := List.mem_singleton.1 hy
      exact hpost c i hop
    · cases hy

/-- The state after RESTART or a release of the reset pin: reset values, the bus still taken by a stale transaction (R181). -/
theorem State.Placed.restarted {p : Port} (hp : p.sound = true) (hd : p.device = .off) (a : Arbiter) (m : List Host.Cell)
    (q : List Instr) : ({ State.reset with
      pending := q, arb := a.restarted, store := { Store.initial with memory := m }, port := p } : State).Placed := by
  have slots : ∀ j, State.reset.slot j = Slot.initial := by decide
  have stale : ∀ b, a.restarted.bus = some b → b.stale = true := by
    intro b hb
    simp only [Arbiter.restarted, Arbiter.abandoned, Option.map_eq_some_iff] at hb
    obtain ⟨b', -, rfl⟩ := hb
    rfl
  generalize ht : ({ State.reset with
      pending := q, arb := a.restarted, store := { Store.initial with memory := m }, port := p } : State) = t
  have hs : ∀ j, t.slot j = Slot.initial := fun j => by rw [← ht]; exact slots j
  have hbus : t.liveBus = [] := by
    rw [List.eq_nil_iff_forall_not_mem]
    intro x hx
    obtain ⟨b, hb, -, hl, -⟩ := State.mem_liveBus.1 hx
    rw [← ht] at hb
    rw [stale b hb] at hl; cases hl
  have hport : t.port = p := by rw [← ht]
  have hwr : t.unit.writer = [] := by rw [← ht]; rfl
  have hfetch : t.intake.fetch = none := by rw [← ht]; rfl
  have hw : t.writingSlots = [] := by rw [State.writingSlots, hbus, hwr]; rfl
  refine { port := hport ▸ hp, idle := fun _ j => by rw [hs]; rfl, served := fun hv => ?_, spares := fun j d hj => ?_,
           quiet := fun _ b hb => stale b (by rw [← ht] at hb; exact hb), apart := ⟨fun i j c hi => ?_, fun i hi => ?_⟩,
           fetch := fun x hx => ?_, writer := fun x hx => ?_, follows := fun x hx => ?_, once := ?_, writing := fun i hi => ?_,
           busy := fun hv => ?_ }
  · simp [State.serving, hport, hd] at hv
  · rw [hs] at hj; cases hj
  · rw [hs] at hi; exact absurd rfl hi
  · rw [hs] at hi; exact absurd rfl hi
  · rw [hfetch] at hx; cases hx
  · rw [hwr] at hx; cases hx
  · rw [hbus] at hx; cases hx
  · rw [hw]; exact List.nodup_nil
  · rw [hw] at hi; cases hi
  · rw [hport, hd] at hv; cases hv

end Placed

end Sys2Proof.Machine

/-!
PROOF. The layer that O58 and O59 rest on: rings, lists and counters by their clauses, and the states that a step keeps
within both pairs of invariants, one lemma for each shared operation.
-/

namespace Sys2Proof.Machine

-- Elaborated one after the other: side by side, each declaration holds a thread with memory of its own.
set_option Elab.async false

/-! ### Rings, lists and counters by their clauses -/

/-- A state whose rings, lists and counters are within their bounds. -/
structure State.Bounded (s : State) : Prop where
  rings : ∀ c n, ((s.client c).ring n).fits = true
  attaching : ∀ j, (s.slot j).progress.tallyPassed = true
  loading : s.load.tallyPassed = true
  lists : ∀ c, (s.list c).length ≤ Config.pendingList
  notices : s.unit.notices.length ≤ Config.notices
  lost : s.unit.lost ≤ Config.maxLost
  patterns : s.dir.patterns.length ≤ Config.patterns
  waits : s.arb.waitCount ≤ Config.fetcherPatience
  divider : s.port.tickDivider < Config.tickPeriods

section Bounds
variable {s t : State} {i : SlotId} {c : ClientId}

theorem toList_all_iff {α : Type} {n : Nat} (v : Vector α n) (f : α → Bool) :
    v.toList.all f = true ↔ ∀ j : Fin n, f v[j.val] = true := by
  simp only [List.all_eq_true, Vector.mem_toList_iff, Vector.mem_iff_getElem, forall_exists_index, Fin.forall_iff]
  exact ⟨fun h k hk => h _ k hk rfl, fun h x k hk e => e ▸ h k hk⟩

theorem State.bounded_iff : s.Bounded ↔ s.ringsFit = true ∧ s.withinCapacity = true := by
  simp only [State.ringsFit, State.withinCapacity, toList_all_iff, Bool.and_eq_true, decide_eq_true_eq]
  constructor
  · rintro ⟨a, b, c, d, e, f, g, h, i⟩
    exact ⟨⟨⟨fun c => ⟨a c .ret, a c .del⟩, b⟩, c⟩, ⟨⟨⟨⟨d, e⟩, f⟩, g⟩, h⟩, i⟩
  · rintro ⟨⟨⟨a, b⟩, c⟩, ⟨⟨⟨⟨d, e⟩, f⟩, g⟩, h⟩, i⟩
    exact ⟨fun c n => by cases n <;> [exact (a c).1; exact (a c).2], b, c, d, e, f, g, h, i⟩

theorem State.Bounded.sameRings (h : s.Bounded) {v : Client} (hr : v.ret = (s.client c).ret) (hd : v.del = (s.client c).del)
    (n : OutRingName) : (v.ring n).fits = true := by
  have e : v.ring n = (s.client c).ring n := by cases n <;> assumption
  exact e ▸ h.rings c n

theorem State.Bounded.setClient (h : s.Bounded) {v : Client} (hv : ∀ n, (v.ring n).fits = true) : (s.setClient c v).Bounded := by
  refine { h with rings := fun d n => ?_ }
  by_cases hd : d = c
  · subst hd
    rw [State.setClient_client_same]
    exact hv n
  · rw [State.setClient_client_other s hd]
    exact h.rings d n

theorem State.Bounded.setSlot (h : s.Bounded) {v : Slot} (hv : v.progress.tallyPassed = true) : (s.setSlot i v).Bounded := by
  refine { h with attaching := fun j => ?_ }
  show (s.slots.set i.val v)[j.val].progress.tallyPassed = true
  rw [State.setSlot_slot_eq]
  split
  · exact hv
  · exact h.attaching j

theorem State.Bounded.setList (h : s.Bounded) {l : List PendingEntry} (hl : l.length ≤ Config.pendingList) :
    (s.setList c l).Bounded := by
  refine { h with lists := fun d => ?_ }
  by_cases hd : d = c
  · subst hd
    rw [State.setList_list_same]
    exact hl
  · rw [State.setList_list_other s hd]
    exact h.lists d

theorem State.Bounded.setPort (h : s.Bounded) {p : Port} (hp : p.tickDivider < Config.tickPeriods) : (s.setPort p).Bounded :=
  { h with divider := hp }

theorem State.Bounded.setArb (h : s.Bounded) {a : Arbiter} (ha : a.waitCount ≤ Config.fetcherPatience) : (s.setArb a).Bounded :=
  { h with waits := ha }

theorem State.Bounded.setIntake (h : s.Bounded) (v : Intake) : (s.setIntake v).Bounded := { h with }

theorem State.Bounded.setUnit (h : s.Bounded) {v : DeliveryUnit} (hl : v.lists = s.unit.lists)
    (hn : v.notices.length ≤ Config.notices) (hc : v.lost ≤ Config.maxLost) : (s.setUnit v).Bounded := by
  refine { h with lists := fun c => ?_, notices := hn, lost := hc }
  show v.lists[c.val].length ≤ _
  rw [hl]
  exact h.lists c

theorem State.Bounded.readChoice (h : s.Bounded) : s.readChoice.Bounded := by
  rcases s.readChoice_cases with e | ⟨_, _, _, _, e⟩ | ⟨_, _, _, _, _, _, e⟩ <;> rw [e]
  · exact h
  · exact h.setIntake _
  · exact (h.setSlot rfl).setIntake _

theorem State.Bounded.reportFreed (h : s.Bounded) (c : ClientId) (b : Bool) : (s.reportFreed c b).Bounded := by
  refine { h with attaching := fun j => ?_ }
  rw [State.reportFreed_slot]
  unfold endAbort
  split
  · split
    · rfl
    · exact h.attaching j
  · exact h.attaching j

theorem State.Bounded.settleHalt (h : s.Bounded) : s.settleHalt.Bounded := by
  unfold State.settleHalt
  split
  · exact h.setPort h.divider
  · exact h

theorem State.Bounded.freeSlot (h : s.Bounded) (i : SlotId) (b : Bool) : (s.freeSlot i b).Bounded := by
  have freed : (s.setSlot i Slot.initial).Bounded := h.setSlot rfl
  unfold State.freeSlot
  dsimp only
  split
  · split
    · exact (freed.reportFreed _ b).settleHalt.readChoice
    · exact freed.settleHalt.readChoice
  · exact freed.settleHalt.readChoice

/-- The state after RESTART or a release of the reset pin. -/
theorem State.Bounded.restarted {p : Port} (hp : p.tickDivider = 0) (a : Arbiter) (m : List Host.Cell) (q : List Instr) :
    ({ State.reset with
      pending := q, arb := a.restarted, store := { Store.initial with memory := m }, port := p } : State).Bounded where
  rings c n := by
    cases n with
    | ret => exact (by decide : ∀ c, (State.reset.client c).ret.fits = true) c
    | del => exact (by decide : ∀ c, (State.reset.client c).del.fits = true) c
  attaching := (by decide : ∀ j, (State.reset.slot j).progress.tallyPassed = true)
  loading := rfl
  lists := (by decide : ∀ c, (State.reset.list c).length ≤ Config.pendingList)
  notices := Nat.zero_le _
  lost := Nat.zero_le _
  patterns := Nat.zero_le _
  waits := Nat.zero_le _
  divider := by
    show p.tickDivider < _
    rw [hp]
    decide

end Bounds

/-! ### What a step keeps -/

/-- A state on the way of a step from `o`: it has each of the two pairs of invariants if `o` has it. What an operation on the way
asks for, it may draw from the pair that it serves, of `o` and of the state that it acts on. -/
structure State.Kept (o s : State) : Prop where
  placed : o.Placed → s.Placed
  bounded : o.Bounded → s.Bounded

/-- A stage of a command that tears nothing down and carries no tallies. -/
def Progress.plain : Progress → Prop
  | .teardown _ | .attachWriteBack .. => False
  | _ => True

section Kept
variable {o s t : State} {i : SlotId} {c : ClientId} {r : PostRecord}

theorem State.kept (s : State) : s.Kept s := ⟨id, id⟩

theorem State.Kept.and (h : o.Kept s) (hp : o.Placed → s.Placed → t.Placed) (hb : o.Bounded → s.Bounded → t.Bounded) : o.Kept t :=
  ⟨fun ho => hp ho (h.placed ho), fun ho => hb ho (h.bounded ho)⟩

/-! #### The named updates -/

theorem State.Kept.setStore (h : o.Kept s) (v : Store) : o.Kept (s.setStore v) :=
  h.and (fun _ hp => hp.frame rfl rfl rfl (.inl rfl) (List.Sublist.refl _) hp.served) fun _ hb => { hb with }

theorem State.Kept.setDir (h : o.Kept s) {v : Directory}
    (hv : s.dir.patterns.length ≤ Config.patterns → v.patterns.length ≤ Config.patterns) : o.Kept (s.setDir v) :=
  h.and (fun _ hp => hp.frame rfl rfl rfl (.inl rfl) (List.Sublist.refl _) hp.served)
    fun _ hb => { hb with patterns := hv hb.patterns }

theorem State.Kept.setLoad (h : o.Kept s) {l : Load} (hl : l.tallyPassed = true) : o.Kept (s.setLoad l) :=
  h.and (fun _ hp => hp.frame rfl rfl rfl (.inl rfl) (List.Sublist.refl _) hp.served) fun _ hb => { hb with loading := hl }

theorem State.Kept.setIntake (h : o.Kept s) {v : Intake} (hv : v.fetch = s.intake.fetch) : o.Kept (s.setIntake v) :=
  h.and (fun _ hp => hp.frame rfl rfl hv (.inl rfl) (List.Sublist.refl _) hp.served) fun _ hb => hb.setIntake v

theorem State.Kept.setList (h : o.Kept s) {l : List PendingEntry}
    (hl : (s.list c).length ≤ Config.pendingList → l.length ≤ Config.pendingList) : o.Kept (s.setList c l) :=
  h.and (fun _ hp => hp.frame rfl rfl rfl (.inl rfl) (List.Sublist.refl _) hp.served) fun _ hb => hb.setList (hl (hb.lists c))

/-- Transactions may leave the record writer's queue, and a notice its list. -/
theorem State.Kept.setUnit (h : o.Kept s) {v : DeliveryUnit} (hl : v.lists = s.unit.lists)
    (hn : s.unit.notices.length ≤ Config.notices → v.notices.length ≤ Config.notices)
    (hc : s.unit.lost ≤ Config.maxLost → v.lost ≤ Config.maxLost) (hw : v.writer.Sublist s.unit.writer) : o.Kept (s.setUnit v) :=
  h.and (fun _ hp => hp.frame rfl rfl rfl (.inl rfl) hw hp.served) fun _ hb => hb.setUnit hl (hn hb.notices) (hc hb.lost)

theorem State.Kept.setClient (h : o.Kept s) {v : Client}
    (hs : o.Placed → c = 0 → s.serving → (s.client 0).state = .attached → v.state = .attached)
    (hv : o.Bounded → s.Bounded → ∀ n, (v.ring n).fits = true) : o.Kept (s.setClient c v) := by
  refine h.and (fun ho hp => hp.frame rfl rfl rfl (.inl rfl) (List.Sublist.refl _) fun hserving => ?_)
    fun ho hb => hb.setClient (hv ho hb)
  have attached := hp.served hserving
  by_cases hc : c = 0
  · subst hc
    rw [State.setClient_client_same]
    exact hs ho rfl hserving attached
  · rw [State.setClient_client_other s (Ne.symm hc)]
    exact attached

/-- A context changes beside its state and what its rings hold. -/
theorem State.Kept.setContext (h : o.Kept s) {v : Client} (hs : v.state = (s.client c).state)
    (hv : ∀ n, (v.ring n).claimed = ((s.client c).ring n).claimed ∧ (v.ring n).lastTaken = ((s.client c).ring n).lastTaken ∧
      (v.ring n).size = ((s.client c).ring n).size) : o.Kept (s.setClient c v) := by
  refine h.setClient (fun _ hc _ ha => by subst hc; exact hs.trans ha) fun _ hb n => ?_
  obtain ⟨h1, h2, h3⟩ := hv n
  have := hb.rings c n
  rwa [OutRing.fits, OutRing.occupancy, h1, h2, h3]

/-- The port changes beside what goes with the device state. -/
theorem State.Kept.setRegisters (h : o.Kept s) (lo hi : BitVec 32) {divider : Nat} (hd : divider < Config.tickPeriods ∨
    divider = s.port.tickDivider) (count : Tally) (answer : PortAnswer) : o.Kept (s.setPort { s.port with
      setupLo := lo, setupHi := hi, tickDivider := divider, tickCount := count, answer := answer }) :=
  h.and (fun _ hp => hp.setRegisters lo hi divider count answer)
    fun _ hb => hb.setPort (hd.elim id fun e => e ▸ hb.divider)

theorem State.Kept.answered (h : o.Kept s) (a : PortAnswer) : o.Kept (s.answered a) := h.setRegisters _ _ (.inr rfl) _ a

/-! #### Slots -/

theorem State.Kept.setSlot (h : o.Kept s) {v : Slot} (hn : (s.slot i).state ≠ .free) (hf : v.state ≠ .free)
    (hc : v.client = (s.slot i).client) (hd : o.Placed → s.Placed → ∀ d, v.progress = .teardown d → d.subject ≠ 0)
    (hs : v.state = (s.slot i).state ∨ (s.slot i).state ≠ .bound ∧ (s.slot i).state ≠ .writing)
    (ht : o.Bounded → s.Bounded → v.progress.tallyPassed = true) : o.Kept (s.setSlot i v) :=
  h.and (fun ho hp => hp.setSlot hn hf hc (hd ho hp) (hs.imp_right fun ⟨h1, h2⟩ => hp.toStationed.loose h1 h2))
    fun ho hb => hb.setSlot (ht ho hb)

/-- A slot changes beside its state, its client and its stage. -/
theorem State.Kept.markSlot (h : o.Kept s) {v : Slot} (hn : (s.slot i).state ≠ .free) (hs : v.state = (s.slot i).state)
    (hc : v.client = (s.slot i).client) (hp : v.progress = (s.slot i).progress) : o.Kept (s.setSlot i v) :=
  h.and (fun _ h' => h'.setSlot hn (hs ▸ hn) hc (hp ▸ h'.spares i) (.inl hs)) fun _ hb => hb.setSlot (hp ▸ hb.attaching i)

theorem Progress.plain.spares {p : Progress} (hp : p.plain) (d : Teardown) : p ≠ .teardown d := by
  rintro rfl
  exact hp

theorem Progress.plain.tallyPassed {p : Progress} (hp : p.plain) : p.tallyPassed = true := by
  cases p with
  | attachWriteBack => exact hp.elim
  | _ => rfl

/-- A command goes on to another stage. -/
theorem State.Kept.setProgress (h : o.Kept s) (hp : (s.slot i).state = .performing) {p : Progress} (hq : p.plain) :
    o.Kept (s.setProgress i p) := by
  have hn : (s.slot i).state ≠ .free := by rw [hp]; decide
  exact h.setSlot hn hn rfl (fun _ _ d hd => absurd hd (hq.spares d)) (.inl rfl) fun _ _ => hq.tallyPassed

theorem State.Kept.readChoice (h : o.Kept s) : o.Kept s.readChoice := h.and (fun _ hp => hp.readChoice) fun _ hb => hb.readChoice

theorem State.Kept.reportFreed (h : o.Kept s) (c : ClientId) (b : Bool) : o.Kept (s.reportFreed c b) :=
  h.and (fun _ hp => hp.reportFreed c b) fun _ hb => hb.reportFreed c b

theorem State.Kept.freeSlot (h : o.Kept s) (hl : o.Placed → s.Placed → s.loose i) (b : Bool) : o.Kept (s.freeSlot i b) :=
  h.and (fun ho hp => hp.freeSlot (hl ho hp) b) fun _ hb => hb.freeSlot i b

/-- A slot that performs a command is loose. -/
theorem State.Placed.loose_of_performing (h : s.Placed) (hp : (s.slot i).state = .performing) : s.loose i :=
  h.toStationed.loose (by rw [hp]; decide) (by rw [hp]; decide)

theorem State.Kept.formCompletion (h : o.Kept s) (hp : (s.slot i).state = .performing) (x : Completion) :
    o.Kept (s.formCompletion i x) := by
  cases hc : (s.slot i).client with
  | none => simpa only [State.formCompletion, hc] using h
  | some c =>
    by_cases hd : (s.client c).state = .draining
    · rw [State.formCompletion_draining _ x hc hd]
      exact h.freeSlot (fun _ h' => h'.loose_of_performing hp) false
    · rw [State.formCompletion_held _ x hc hd]
      have held : o.Kept (s.setSlot i { s.slot i with state := .held, progress := .none, undo := none, completion := some x }) :=
        h.setSlot (by rw [hp]; decide) SlotState.noConfusion rfl (fun _ _ _ hd => by cases hd)
          (.inr ⟨by rw [hp]; decide, by rw [hp]; decide⟩) fun _ _ => rfl
      split
      · exact held.setUnit rfl id id (List.Sublist.refl _)
      · exact held

theorem State.Kept.endWith (h : o.Kept s) (hp : (s.slot i).state = .performing) (st : Status) (d : Nat) :
    o.Kept (s.endWith i r st d) := h.formCompletion hp _

theorem State.Kept.endParcel (h : o.Kept s) (hp : (s.slot i).state = .performing) (x : Handle) (n : Nat) :
    o.Kept (s.endParcel i r x n) := h.formCompletion hp _

theorem State.Kept.endFetched (h : o.Kept s) (hp : (s.slot i).state = .performing) (x : Handle) (n k : Nat) :
    o.Kept (s.endFetched i r x n k) := h.formCompletion hp _

theorem State.Kept.sendUndo (h : o.Kept s) (i : SlotId) : o.Kept (s.sendUndo i) := by
  unfold State.sendUndo
  split
  · exact h.setStore _
  · exact h

/-- A command is stopped at an abort point (R88). -/
theorem State.Kept.abortSlot (h : o.Kept s) (hp : (s.slot i).state = .performing) : o.Kept (s.abortSlot i) :=
  (h.sendUndo i).freeSlot (fun _ h' => h'.loose_of_performing (by rw [State.sendUndo_slot]; exact hp)) true

/-! #### Notices, claims of segments, the bus -/

theorem State.Kept.queueNotice (h : o.Kept s) (n : Notice) : o.Kept (s.queueNotice n) := by
  unfold State.queueNotice
  split
  · rename_i hroom
    refine h.setUnit rfl (fun _ => ?_) id (List.Sublist.refl _)
    rw [List.length_append]
    exact hroom
  · exact h.setUnit rfl id (fun _ => Nat.min_le_right _ _) (List.Sublist.refl _)

theorem State.Kept.claimSegments (h : o.Kept s) (k : Nat) (c : ClientId) (n g : Nat) : o.Kept (s.claimSegments k c n g) := by
  unfold State.claimSegments State.lowerTest
  dsimp only
  split
  · exact h.setStore _
  · split
    · exact ((h.setStore _).setStore _).queueNotice _
    · exact h.setStore _

theorem State.Kept.commitGrowth (h : o.Kept s) (k : Nat) (b : Bool) : o.Kept (s.commitGrowth k b) := h.setStore _

theorem State.Kept.clearBus (h : o.Kept s) : o.Kept s.clearBus :=
  h.and (fun _ hp => hp.frame rfl rfl rfl (.inr rfl) (List.Sublist.refl _) hp.served) fun _ hb => hb.setArb hb.waits

/-- The fetcher gets another transaction, or none. -/
theorem State.Kept.setFetch (h : o.Kept s) {v : Intake}
    (hv : ∀ x, v.fetch = some x → x.op.ofFetcher = true ∧ ∀ c i, x.op ≠ .postRead c i)
    (hl : o.Placed → s.Placed → ∀ x ∈ s.liveBus, ∀ c i, x.op ≠ .postRead c i) : o.Kept (s.setIntake v) :=
  h.and (fun ho hp => hp.setFetch hv (hl ho hp)) fun _ hb => hb.setIntake v

theorem State.Kept.endFetch (h : o.Kept s) : o.Kept s.endFetch :=
  h.clearBus.setFetch (fun _ hx => by cases hx) fun _ _ x hx => by rw [State.clearBus_liveBus] at hx; cases hx

theorem State.Kept.enqueue (h : o.Kept s) {x : Txn} (hx : x.op.ofWriter = true) (hslot : o.Placed → s.Placed →
    ∀ i, x.op.completionSlot = some i → i ∉ s.writingSlots ∧ (s.slot i).state = .writing) : o.Kept (s.enqueue x) :=
  h.and (fun ho hp => hp.enqueue hx (hslot ho hp)) fun _ hb => hb.setUnit rfl hb.notices hb.lost

/-! #### Rings and client faults -/

theorem Client.setRing_tallies (x : Client) (n : OutRingName) {g : OutRing} (hc : g.claimed = (x.ring n).claimed)
    (ht : g.lastTaken = (x.ring n).lastTaken) (hs : g.size = (x.ring n).size) (m : OutRingName) :
    ((x.setRing n g).ring m).claimed = (x.ring m).claimed ∧ ((x.setRing n g).ring m).lastTaken = (x.ring m).lastTaken ∧
      ((x.setRing n g).ring m).size = (x.ring m).size := by
  by_cases hm : m = n
  · subst hm
    rw [Client.setRing_ring_same]
    exact ⟨hc, ht, hs⟩
  · rw [Client.setRing_ring_other x hm]
    exact ⟨rfl, rfl, rfl⟩

/-- A ring changes beside what it holds. -/
theorem State.Kept.setRing (h : o.Kept s) (n : OutRingName) {g : OutRing} (hc : g.claimed = ((s.client c).ring n).claimed)
    (ht : g.lastTaken = ((s.client c).ring n).lastTaken) (hs : g.size = ((s.client c).ring n).size) :
    o.Kept (s.setClient c ((s.client c).setRing n g)) :=
  h.setContext (Client.setRing_state _ _ _) (Client.setRing_tallies _ n hc ht hs)

theorem State.Kept.endRing (h : o.Kept s) (c : ClientId) (n : OutRingName) : o.Kept (s.endRing c n) := h.setRing n rfl rfl rfl

theorem State.Kept.withdrawTail (h : o.Kept s) (c : ClientId) (n : OutRingName) : o.Kept (s.withdrawTail c n) := by
  unfold State.withdrawTail
  split
  · exact (h.endRing c n).setUnit rfl id id List.filter_sublist
  · exact h

theorem State.Kept.requestFinal (h : o.Kept s) (c : ClientId) : o.Kept (s.requestFinal c) := by
  unfold State.requestFinal
  dsimp only
  split
  · exact (h.enqueue rfl fun _ _ _ hx => by cases hx).setContext rfl fun _ => ⟨by rfl, by rfl, by rfl⟩
  · exact h

theorem State.Kept.failDevice (h : o.Kept s) (hr : o.Placed → s.port.resetAsserted = false) {code : DeviceFault}
    {reason : Option FaultReason} (hc : code ≠ .none) (hreason : reason.isSome = true ↔ code = .supervisorFault) :
    o.Kept (s.failDevice code reason) :=
  h.and (fun ho hp => hp.failDevice (hr ho) hc hreason) fun _ hb => hb.setPort hb.divider

theorem State.Kept.leaveSets (h : o.Kept s) (c : ClientId) : o.Kept (s.leaveSets c) := h.setIntake rfl

/-- A client fault (R56), the reset pin being released. -/
theorem State.Kept.clientFault (h : o.Kept s) (hr : o.Placed → s.port.resetAsserted = false) (c : ClientId) (x : FaultReason) :
    o.Kept (s.clientFault c x) := by
  unfold State.clientFault
  split
  · split
    · rename_i hc
      have failed : o.Kept ((s.failDevice .supervisorFault (some x)).setClient c
          { s.client c with state := .faulted, reason := some x }) := by
        refine (h.failDevice hr (by decide) (by simp)).setClient (fun _ _ hserving _ => ?_)
          fun _ hb => hb.sameRings (c := c) rfl rfl
        simp [State.serving, State.failDevice] at hserving
      exact (failed.withdrawTail c .ret).withdrawTail c .del
    · rename_i hc
      have marked : o.Kept (s.setClient c { s.client c with state := .faulted, reason := some x, finalDue := x.callsForFinal }) :=
        h.setClient (fun _ h0 => absurd h0 hc) fun _ hb => hb.sameRings (c := c) rfl rfl
      exact ((((marked.leaveSets c).queueNotice _).withdrawTail c .ret).withdrawTail c .del).requestFinal c
  · exact h

theorem State.Kept.addRefresh (h : o.Kept s) (c : ClientId) : o.Kept (s.addRefresh c) := by
  unfold State.addRefresh
  split
  · exact h.setIntake rfl
  · exact h

theorem OutRing.fits_iff {g : OutRing} : g.fits = true ↔ (g.claimed - g.lastTaken).toNat ≤ g.size := by
  unfold OutRing.fits
  exact decide_eq_true_iff

/-- A claim is made of a ring that is not full (R69). -/
theorem fits_claimed {g : OutRing} (h : g.occupancy < g.size) :
    ({ g with claimed := g.claimed + 1, inFlight := true } : OutRing).fits = true := by
  rw [OutRing.fits_iff]
  dsimp only
  unfold OutRing.occupancy at h
  bv_omega

theorem State.canClaim_iff {n : OutRingName} : s.canClaim c n = true ↔ s.active = true ∧ (s.client c).state = .attached ∧
    ((s.client c).ring n).occupancy < ((s.client c).ring n).size ∧ ((s.client c).ring n).inFlight = false := by
  simp only [State.canClaim, Bool.and_eq_true, beq_iff_eq, decide_eq_true_eq, Bool.not_eq_true', and_assoc]

/-- The claim of a slot of a ring that is not full; the record of a completion is that of a WRITING slot (R69, R84). -/
theorem State.Kept.claimRing (h : o.Kept s) {n : OutRingName} (hr : ((s.client c).ring n).occupancy < ((s.client c).ring n).size)
    {w : RecordKind} (hw : o.Placed → s.Placed → ∀ i, w = .completion i → i ∉ s.writingSlots ∧ (s.slot i).state = .writing)
    (b : Byte → List Byte) : o.Kept (s.claimRing c n w b) := by
  have claimed : o.Kept (s.setClient c ((s.client c).setRing n
      { (s.client c).ring n with claimed := ((s.client c).ring n).claimed + 1, inFlight := true })) := by
    refine h.setClient (fun _ hc _ ha => ?_) fun _ hb m => ?_
    · subst hc
      rw [Client.setRing_state]
      exact ha
    · by_cases hm : m = n
      · subst hm
        rw [Client.setRing_ring_same]
        exact fits_claimed hr
      · rw [Client.setRing_ring_other _ hm]
        exact hb.rings c m
  have made : ∀ x : Txn, x.op = .record c n w → o.Kept ((s.setClient c ((s.client c).setRing n
      { (s.client c).ring n with claimed := ((s.client c).ring n).claimed + 1, inFlight := true })).enqueue x) := by
    intro x hx
    refine claimed.and (fun ho hp => hp.enqueue (by rw [hx]; rfl) fun i hi => ?_)
      fun _ hb => hb.setUnit rfl hb.notices hb.lost
    cases w with
    | completion j =>
      rw [hx] at hi
      cases hi
      exact hw ho (h.placed ho) i rfl
    | notice => rw [hx] at hi; cases hi
    | delivery => rw [hx] at hi; cases hi
  unfold State.claimRing
  dsimp only
  split
  · exact (made _ rfl).addRefresh c
  · exact made _ rfl

end Kept

end Sys2Proof.Machine

/-!
PROOF. The layer that O58 and O59 rest on, third part: each command of a slot leads to a state that the step keeps.
-/

namespace Sys2Proof.Machine

-- Elaborated one after the other: side by side, each declaration holds a thread with memory of its own.
set_option Elab.async false

section Commands
variable {o s : State} {i : SlotId} {c : ClientId} {r : PostRecord}

theorem State.takenCommand_performing {k : Nat} (h : s.takenCommand i k = some (c, r)) : (s.slot i).state = .performing :=
  (State.takenCommand_iff.1 h).2.1

theorem State.performing_state (h : s.performing i = some (c, r)) : (s.slot i).state = .performing :=
  (State.performing_iff.1 h).2.1

/-! ### Building and sending -/

theorem execOpen_kept (s : State) (i : SlotId) : leadsTo s.Kept (execOpen i s) := by
  unfold execOpen
  split
  · exact s.kept
  · rename_i c r ht
    have hp := State.takenCommand_performing ht
    split
    · exact s.kept.abortSlot hp
    · rw [leadsTo_next]
      unfold State.openStep
      split
      · exact s.kept.endWith hp _ _
      · exact (s.kept.setStore (s.store.openRecord _ _ c)).endParcel hp _ _

/-- A gather begins. -/
theorem State.Kept.startGather (h : o.Kept s) (hp : (s.slot i).state = .performing) (m : Movement) (g : GrowthClaim) :
    o.Kept (s.startGather i m g) := by
  have hn : (s.slot i).state ≠ .free := by rw [hp]; decide
  exact h.setSlot hn hn rfl (fun _ _ _ hd => by cases hd) (.inl rfl) fun _ _ => rfl

theorem execAppend_kept (s : State) (i : SlotId) : leadsTo s.Kept (execAppend i s) := by
  unfold execAppend
  split
  · exact s.kept
  · rename_i c r ht
    have hp := State.takenCommand_performing ht
    split
    · exact s.kept.endWith hp _ _
    · split
      · exact s.kept.abortSlot hp
      · rw [leadsTo_next]
        unfold State.appendClaim
        dsimp only
        split
        · exact s.kept.endWith hp _ _
        · split
          · exact s.kept.endWith hp _ _
          · split
            · exact s.kept.endWith hp _ _
            · split
              · exact ((s.kept.claimSegments _ _ _ _).commitGrowth _ _).endParcel (by simpa using hp) _ _
              · exact (s.kept.claimSegments _ _ _ _).startGather (by simpa using hp) _ _

theorem execCut_kept (s : State) (i : SlotId) : leadsTo s.Kept (execCut i s) := by
  unfold execCut
  split
  · exact s.kept
  · rename_i c r ht
    have hp := State.takenCommand_performing ht
    split
    · exact s.kept.abortSlot hp
    · rw [leadsTo_next]
      unfold State.cutStep
      dsimp only
      split
      · exact s.kept.endWith hp _ _
      · split
        · exact s.kept.endWith hp _ _
        · split
          · exact s.kept.endWith hp _ _
          · exact (s.kept.setStore (s.store.cut _ _ _)).endParcel hp _ _

theorem execDispatch_kept (s : State) (i : SlotId) : leadsTo s.Kept (execDispatch i s) := by
  unfold execDispatch
  split
  · exact s.kept
  · rename_i c r ht
    have hp := State.takenCommand_performing ht
    split
    · exact s.kept.abortSlot hp
    · rw [leadsTo_next]
      unfold State.closeStep
      dsimp only
      split
      · exact s.kept.endWith hp _ _
      · split
        · exact s.kept.endWith hp _ _
        · exact (s.kept.setStore (s.store.setParcelState _ _)).setProgress hp trivial

theorem execSend_kept (s : State) (i : SlotId) : leadsTo s.Kept (execSend i s) := by
  unfold execSend
  split
  · exact s.kept
  · rename_i c r ht
    have hp := State.takenCommand_performing ht
    split
    · exact s.kept.endWith hp _ _
    · split
      · exact s.kept.abortSlot hp
      · rw [leadsTo_next]
        unfold State.sendClaim
        dsimp only
        split
        · exact s.kept.endWith hp _ _
        · split
          · exact s.kept.endWith hp _ _
          · have claimed := fun k n g => (s.kept.setStore (s.store.openRecord k r.sendClass c)).claimSegments k c n g
            split
            · exact ((claimed _ _ _).commitGrowth _ _).setProgress (by simpa using hp) trivial
            · exact (claimed _ _ _).startGather (by simpa using hp) _ _

theorem execForward_kept (s : State) (i : SlotId) : leadsTo s.Kept (execForward i s) := by
  unfold execForward
  split
  · exact s.kept
  · rename_i c r ht
    have hp := State.takenCommand_performing ht
    split
    · exact s.kept.abortSlot hp
    · rw [leadsTo_next]
      unfold State.forwardCheck
      dsimp only
      split
      · exact s.kept.endWith hp _ _
      · split
        · exact s.kept.endWith hp _ _
        · split
          · exact s.kept.endWith hp _ _
          · exact s.kept.setProgress hp trivial

/-! ### Taking delivery -/

/-- A FETCH ends, or goes on to its release-after drop. -/
theorem State.Kept.scattered (h : o.Kept s) (hp : (s.slot i).state = .performing) (x : Handle) (n k : Nat) :
    o.Kept (s.scattered i r x n k) := by
  unfold State.scattered
  split
  · exact h.setProgress hp trivial
  · exact h.endFetched hp _ _ _

theorem execFetch_kept (s : State) (i : SlotId) : leadsTo s.Kept (execFetch i s) := by
  unfold execFetch
  split
  · exact s.kept
  · rename_i c r ht
    have hp := State.takenCommand_performing ht
    split
    · exact s.kept.endWith hp _ _
    · split
      · exact s.kept.abortSlot hp
      · rw [leadsTo_next]
        unfold State.fetchCheck
        dsimp only
        split
        · exact s.kept.endWith hp _ _
        · split
          · exact s.kept.endWith hp _ _
          · split
            · exact s.kept.endWith hp _ _
            · split
              · exact s.kept.scattered hp _ _ _
              · exact s.kept.setProgress hp trivial

theorem execReleaseAfterDrop_kept (s : State) (i : SlotId) : leadsTo s.Kept (execReleaseAfterDrop i s) := by
  unfold execReleaseAfterDrop
  split
  · exact s.kept
  · rename_i c r ht
    have hp := State.performing_state ht
    split
    · split
      · exact s.kept.abortSlot hp
      · exact (s.kept.setStore (s.store.drop _ _ _).1).endFetched hp _ _ _
    · exact s.kept

theorem execRelease_kept (s : State) (i : SlotId) : leadsTo s.Kept (execRelease i s) := by
  unfold execRelease
  split
  · exact s.kept
  · rename_i c r ht
    have hp := State.takenCommand_performing ht
    split
    · exact s.kept.endWith hp _ _
    · split
      · exact s.kept.abortSlot hp
      · rw [leadsTo_next]
        unfold State.releaseStep
        dsimp only
        split
        · exact s.kept.endWith hp _ _
        · split
          · exact s.kept.endWith hp _ _
          · exact (s.kept.setStore (s.store.drop _ _ _).1).formCompletion hp _

/-- The delivery sequence of a client is set. -/
theorem State.Kept.setSequence (h : o.Kept s) (c : ClientId) (v : BitVec 32) :
    o.Kept (s.setClient c { s.client c with sequence := v }) :=
  h.setContext rfl fun n => by cases n <;> exact ⟨rfl, rfl, rfl⟩

theorem State.Kept.claimDelivery (h : o.Kept s) (room : ((s.client c).del).occupancy < ((s.client c).del).size) (k : Nat)
    (e : PendingEntry) : o.Kept (s.claimDelivery c k e) := by
  have taken : o.Kept (s.setList c ((s.list c).eraseIdx k)) :=
    h.setList fun hl => ((s.list c).eraseIdx_sublist _).length_le.trans hl
  have claimed := taken.claimRing (n := .del) (w := .delivery) room fun _ _ _ e => RecordKind.noConfusion e
  exact (claimed fun lap => e.bytes lap (s.store.parcel (handleIndex e.handle)).length (s.client c).sequence
    s.port.tickCount).setSequence c _

theorem execDeliveryClaim_kept (s : State) (c : ClientId) : leadsTo s.Kept (execDeliveryClaim c s) := by
  unfold execDeliveryClaim
  split
  · rename_i hc
    obtain ⟨-, -, room, -⟩ := State.canClaim_iff.1 hc
    split
    · split
      · exact (s.kept.claimDelivery room _ _).readChoice
      · exact s.kept
    · exact s.kept
  · exact s.kept

theorem execLingerExpiry_kept (s : State) (c : ClientId) : leadsTo s.Kept (execLingerExpiry c s) := by
  unfold execLingerExpiry
  split
  · rw [leadsTo_next]
    have called : s.Kept (s.setUnit { s.unit with expiryDue := without s.unit.expiryDue c }) :=
      s.kept.setUnit rfl id id (List.Sublist.refl _)
    unfold State.expire
    refine State.Kept.setContext (State.Kept.setList (called.setStore _) fun h => ?_) rfl fun n => by cases n <;> exact ⟨rfl, rfl, rfl⟩
    exact (List.length_filter_le _ _).trans h
  · exact s.kept

/-! ### Data movement -/

theorem State.Kept.gathered (h : o.Kept s) (hp : (s.slot i).state = .performing) (m : Movement) (g : GrowthClaim) :
    o.Kept (s.gathered i r m g) := by
  have hn : (s.slot i).state ≠ .free := by rw [hp]; decide
  have done : o.Kept ((s.commitGrowth g.index g.isSend).setSlot i { s.slot i with undo := none }) :=
    (h.commitGrowth _ _).markSlot hn rfl rfl rfl
  have hp' : (((s.commitGrowth g.index g.isSend).setSlot i { s.slot i with undo := none }).slot i).state = .performing := by
    rw [State.setSlot_slot_same]
    exact hp
  unfold State.gathered
  dsimp only
  split
  · split
    · exact done.abortSlot hp'
    · exact done.setProgress hp' trivial
  · exact done.endParcel hp' _ _

theorem execGatherPieceComplete_kept (s : State) (x : ReadOutcome) : leadsTo s.Kept (execGatherPieceComplete x s) := by
  have free := s.kept.clearBus
  unfold execGatherPieceComplete
  split
  · exact s.kept
  · exact free
  · split
    · rename_i hp _ _
      have hp := State.performing_state hp
      split
      · split
        · exact free.abortSlot hp
        · cases x with
          | busError => exact (free.sendUndo _).endWith (by rw [State.sendUndo_slot]; exact hp) _ _
          | data bs =>
            dsimp only
            split
            · unfold State.gatherData
              split
              · trivial
              · dsimp only
                split
                · exact (free.setStore _).gathered hp _ _
                · exact (free.setStore _).setProgress hp trivial
            · trivial
      · exact free
    · exact free

theorem execScatterPieceComplete_kept (s : State) (w : WriteOutcome) : leadsTo s.Kept (execScatterPieceComplete w s) := by
  have free := s.kept.clearBus
  unfold execScatterPieceComplete
  split
  · exact s.kept
  · exact free
  · split
    · rename_i hp _
      have hp := State.performing_state hp
      split
      · split
        · exact free.abortSlot hp
        · cases w with
          | busError => exact free.endWith hp _ _
          | done =>
            dsimp only
            split
            · rw [leadsTo_next]
              unfold State.scatterDone
              split
              · exact free.abortSlot hp
              · exact free.scattered hp _ _ _
            · exact free.setProgress hp trivial
      · exact free
    · exact free

/-! ### Routing -/

theorem Routing.stage_plain (q : Routing) : q.stage.plain := by
  unfold Routing.stage
  split <;> trivial

theorem execLookup_kept (s : State) (i : SlotId) : leadsTo s.Kept (execLookup i s) := by
  unfold execLookup
  split
  · exact s.kept
  · rename_i ht
    have hp := State.performing_state ht
    split
    · split
      · exact s.kept.abortSlot hp
      · exact s.kept.setProgress hp (Routing.stage_plain _)
    · exact s.kept

theorem execAdmission_kept (s : State) (i : SlotId) : leadsTo s.Kept (execAdmission i s) := by
  unfold execAdmission
  split
  · exact s.kept
  · rename_i ht
    have hp := State.performing_state ht
    split
    · split
      · rw [leadsTo_next]
        unfold State.offerStep
        split
        · rename_i hadm
          obtain ⟨-, -, -, room⟩ := State.admits_iff.1 hadm
          refine State.Kept.setProgress ((s.kept.setStore (s.store.createRef _ _)).setList fun _ => ?_) (by exact hp)
            (Routing.stage_plain _)
          rw [List.length_append]
          exact room
        · split
          · exact s.kept.setProgress hp (Routing.stage_plain _)
          · exact State.Kept.setProgress (s.kept.setContext (by rfl) fun n => by cases n <;> exact ⟨rfl, rfl, rfl⟩) (by exact hp)
              (Routing.stage_plain _)
      · exact s.kept
    · exact s.kept

theorem State.Kept.routingAnswered (h : o.Kept s) (hp : (s.slot i).state = .performing) (c : ClientId) (q : Routing) :
    o.Kept (s.routingAnswered i c r q) := by
  unfold State.routingAnswered
  split
  · split
    · exact State.Kept.formCompletion (h.setContext (by rfl) fun n => by cases n <;> exact ⟨rfl, rfl, rfl⟩) (by exact hp) _
    · exact h.formCompletion hp _
  · exact h.setProgress hp trivial

theorem Directory.settle_patterns (d : Directory) (k : Key) (accepted : Option ClientId) (m : ClientId) (reply : Option Key)
    (once permitted : Bool) : (d.settle k accepted m reply once permitted).patterns = d.patterns := by
  have consumed : (d.consume k accepted).patterns = d.patterns := by
    unfold Directory.consume
    split
    · split <;> rfl
    · rfl
  have learned : ∀ (e : Directory) (l : Key), (e.learn l m once).patterns = e.patterns := by
    intro e l
    unfold Directory.learn
    split
    · rfl
    · rfl
    · split <;> rfl
  unfold Directory.settle
  split
  · split
    · rw [learned, consumed]
    · exact consumed
  · exact consumed

theorem execSettlement_kept (s : State) (i : SlotId) : leadsTo s.Kept (execSettlement i s) := by
  unfold execSettlement
  split
  · exact s.kept
  · rename_i ht
    have hp := State.performing_state ht
    split
    · split
      · exact s.kept
      · exact State.Kept.routingAnswered (s.kept.setDir (by rw [Directory.settle_patterns]; exact id)) (by exact hp) _ _
    · exact s.kept

theorem execHandOver_kept (s : State) (i : SlotId) : leadsTo s.Kept (execHandOver i s) := by
  unfold execHandOver
  split
  · exact s.kept
  · rename_i c r ht
    have hp := State.performing_state ht
    split
    · rename_i q _
      have handed : s.Kept (s.handOverStep c r q) := by
        unfold State.handOverStep
        split <;> exact s.kept.setStore _
      split
      · exact s.kept
      · split
        · exact s.kept
        · exact handed.routingAnswered (by rw [State.handOverStep_slot]; exact hp) _ _
    · exact s.kept

/-! ### The Channel Directory's commands -/

theorem Directory.subscribeExact_patterns (d : Directory) (c : ClientId) (k : Key) :
    (d.subscribeExact c k).dir.patterns = d.patterns := by
  unfold Directory.subscribeExact
  split <;> [rfl; rfl; rfl; (split <;> rfl)]

theorem Directory.unsubscribeExact_patterns (d : Directory) (c : ClientId) (k : Key) :
    (d.unsubscribeExact c k).dir.patterns = d.patterns := by
  unfold Directory.unsubscribeExact
  split
  · split
    · dsimp only
      split <;> rfl
    · rfl
  all_goals rfl

theorem Directory.pinExact_patterns (d : Directory) (k : Key) (x : ClientSet) : (d.pinExact k x).dir.patterns = d.patterns := by
  unfold Directory.pinExact
  split <;> [rfl; (split <;> rfl)]

theorem Directory.unpinExact_patterns (d : Directory) (k : Key) : (d.unpinExact k).dir.patterns = d.patterns := by
  unfold Directory.unpinExact
  split <;> rfl

theorem Directory.changePattern_length (d : Directory) (m : BitVec 32) (k : Key) (kind : PatternKind) (x : ClientSet) :
    (d.changePattern m k kind x).patterns.length = d.patterns.length := List.length_map _

/-- A pattern joins the list only while it has room (R32). -/
theorem Directory.addPattern_length {d : Directory} (hroom : d.patterns.length < Config.patterns) (m : BitVec 32) (k : Key)
    (kind : PatternKind) (x : ClientSet) : (d.addPattern m k kind x).patterns.length ≤ Config.patterns := by
  rw [Directory.addPattern, List.length_append]
  exact hroom

theorem Directory.subscribePattern_length (d : Directory) (c : ClientId) (m : BitVec 32) (k : Key)
    (h : d.patterns.length ≤ Config.patterns) : (d.subscribePattern c m k).dir.patterns.length ≤ Config.patterns := by
  unfold Directory.subscribePattern
  split
  · split
    · rw [Directory.changePattern_length]
      exact h
    · exact h
  · split
    · exact Directory.addPattern_length ‹_› _ _ _ _
    · exact h

theorem Directory.unsubscribePattern_length (d : Directory) (c : ClientId) (m : BitVec 32) (k : Key)
    (h : d.patterns.length ≤ Config.patterns) : (d.unsubscribePattern c m k).dir.patterns.length ≤ Config.patterns := by
  unfold Directory.unsubscribePattern
  split
  · split
    · split
      · dsimp only
        split
        · exact (List.length_filter_le _ _).trans h
        · rw [Directory.changePattern_length]
          exact h
      · exact h
    · exact h
  · exact h

theorem Directory.pinPattern_length (d : Directory) (m : BitVec 32) (k : Key) (x : ClientSet)
    (h : d.patterns.length ≤ Config.patterns) : (d.pinPattern m k x).dir.patterns.length ≤ Config.patterns := by
  unfold Directory.pinPattern
  split
  · rw [Directory.changePattern_length]
    exact h
  · split
    · exact Directory.addPattern_length ‹_› _ _ _ _
    · exact h

theorem Directory.unpinPattern_length (d : Directory) (m : BitVec 32) (k : Key) (h : d.patterns.length ≤ Config.patterns) :
    (d.unpinPattern m k).dir.patterns.length ≤ Config.patterns := by
  unfold Directory.unpinPattern
  split
  · split
    · exact (List.length_filter_le _ _).trans h
    · exact h
  · exact h

theorem State.Kept.endDirectory (h : o.Kept s) (hp : (s.slot i).state = .performing) {a : DirAnswer}
    (ha : s.dir.patterns.length ≤ Config.patterns → a.dir.patterns.length ≤ Config.patterns) : o.Kept (s.endDirectory i r a) :=
  (h.setDir ha).formCompletion hp _

theorem execSubscribe_kept (s : State) (i : SlotId) : leadsTo s.Kept (execSubscribe i s) := by
  unfold execSubscribe
  split
  · exact s.kept
  · rename_i ht
    refine s.kept.endDirectory (State.takenCommand_performing ht) fun h => ?_
    split
    · exact Directory.subscribePattern_length _ _ _ _ h
    · rw [Directory.subscribeExact_patterns]
      exact h

theorem execUnsubscribe_kept (s : State) (i : SlotId) : leadsTo s.Kept (execUnsubscribe i s) := by
  unfold execUnsubscribe
  split
  · exact s.kept
  · rename_i ht
    refine s.kept.endDirectory (State.takenCommand_performing ht) fun h => ?_
    split
    · exact Directory.unsubscribePattern_length _ _ _ _ h
    · rw [Directory.unsubscribeExact_patterns]
      exact h

theorem execPin_kept (s : State) (i : SlotId) : leadsTo s.Kept (execPin i s) := by
  unfold execPin
  split
  · exact s.kept
  · rename_i ht
    have hp := State.takenCommand_performing ht
    split
    · exact s.kept.endWith hp _ _
    · split
      · exact s.kept.endWith hp _ _
      · refine s.kept.endDirectory hp fun h => ?_
        split
        · exact Directory.pinPattern_length _ _ _ _ h
        · rw [Directory.pinExact_patterns]
          exact h

theorem execUnpin_kept (s : State) (i : SlotId) : leadsTo s.Kept (execUnpin i s) := by
  unfold execUnpin
  split
  · exact s.kept
  · rename_i ht
    refine s.kept.endDirectory (State.takenCommand_performing ht) fun h => ?_
    split
    · exact Directory.unpinPattern_length _ _ _ h
    · rw [Directory.unpinExact_patterns]
      exact h

theorem execSweep_kept (s : State) : leadsTo s.Kept (execSweep s) := by
  unfold execSweep
  split
  · exact s.kept.setDir id
  · exact s.kept

/-! ### QUERY -/

theorem execQuery_kept (s : State) (i : SlotId) : leadsTo s.Kept (execQuery i s) := by
  unfold execQuery
  split
  · exact s.kept
  · rename_i ht
    have hp := State.takenCommand_performing ht
    split
    · exact s.kept.endWith hp _ _
    · split
      · exact s.kept.endWith hp _ _
      · split
        · exact s.kept.endWith hp _ _
        · exact s.kept.setProgress hp trivial

theorem execCountRead_kept (s : State) (i : SlotId) : leadsTo s.Kept (execCountRead i s) := by
  unfold execCountRead
  split
  · rename_i ht _
    exact s.kept.setProgress (State.performing_state ht) trivial
  · rename_i ht _
    exact s.kept.setProgress (State.performing_state ht) trivial
  · rename_i ht _
    exact s.kept.setProgress (State.performing_state ht) trivial
  · exact s.kept

theorem execReportRead_kept (s : State) (i : SlotId) : leadsTo s.Kept (execReportRead i s) := by
  unfold execReportRead
  split
  · rename_i ht _
    exact s.kept.setProgress (State.performing_state ht) trivial
  · exact s.kept

theorem State.Kept.clearCounters (h : o.Kept s) (r : PostRecord) : o.Kept (s.clearCounters r) := by
  unfold State.clearCounters
  split
  · exact h.setContext rfl fun n => by cases n <;> exact ⟨rfl, rfl, rfl⟩
  · exact h

theorem State.clearCounters_slot (s : State) (r : PostRecord) (j : SlotId) : (s.clearCounters r).slot j = s.slot j := by
  unfold State.clearCounters
  split <;> rfl

theorem execReportWritePieceComplete_kept (s : State) (w : WriteOutcome) : leadsTo s.Kept (execReportWritePieceComplete w s) := by
  have free := s.kept.clearBus
  unfold execReportWritePieceComplete
  split
  · exact s.kept
  · exact free
  · split
    · rename_i ht _
      have hp := State.performing_state ht
      cases w with
      | busError => exact free.endWith hp _ _
      | done =>
        dsimp only
        split
        · rw [leadsTo_next]
          unfold State.reported
          split
          · exact (free.clearCounters _).formCompletion (by rw [State.clearCounters_slot]; exact hp) _
          · exact free.formCompletion hp _
        · exact free.setProgress hp trivial
    · exact free

/-! ### ATTACH -/

theorem execAttach_kept (s : State) (i : SlotId) : leadsTo s.Kept (execAttach i s) := by
  unfold execAttach
  split
  · exact s.kept
  · rename_i ht
    have hp := State.takenCommand_performing ht
    split
    · exact s.kept.endWith hp _ _
    · split
      · exact s.kept.endWith hp _ _
      · exact s.kept.setProgress hp trivial

theorem execAttachDescriptorPieceComplete_kept (s : State) (x : ReadOutcome) :
    leadsTo s.Kept (execAttachDescriptorPieceComplete x s) := by
  have free := s.kept.clearBus
  unfold execAttachDescriptorPieceComplete
  split
  · exact s.kept
  · exact free
  · split
    · rename_i ht _
      have hp := State.performing_state ht
      cases x with
      | busError => exact free.endWith hp _ _
      | data bs =>
        dsimp only
        split
        · rw [leadsTo_next]
          unfold State.descriptorRead
          split
          · split
            · exact free.setProgress hp trivial
            · exact free.endWith hp _ _
          · exact free.setProgress hp trivial
        · trivial
    · exact free

theorem execAttachCxbReadComplete_kept (s : State) (x : ReadOutcome) : leadsTo s.Kept (execAttachCxbReadComplete x s) := by
  have free := s.kept.clearBus
  unfold execAttachCxbReadComplete
  split
  · exact s.kept
  · exact free
  · rename_i i _ _
    split
    · rename_i d ht _
      have hp := State.performing_state ht
      have hn : (s.clearBus.slot i).state ≠ .free := by rw [State.clearBus_slot, hp]; decide
      cases x with
      | busError => exact free.endWith hp _ _
      | data bs =>
        dsimp only
        split
        · rw [leadsTo_next]
          unfold State.attachHalfRead
          split
          · rename_i passed
            have asked := free.setSlot (v := { s.slot i with progress := .attachWriteBack d (readHalf bs) }) hn hn rfl
              (fun _ _ _ hd => by cases hd) (.inl rfl) fun _ _ => passed
            exact asked.enqueue rfl fun _ _ _ hx => by cases hx
          · exact free.endWith hp _ _
        · trivial
    · exact free

/-- The context of an attach whose tally check has passed (R157). -/
theorem attachedContext_fits {d : Descriptor} {x : ClientHalf} (h : attachTallyCheck x d = true) (n : OutRingName) :
    ((attachedContext d x).ring n).fits = true := by
  simp only [attachTallyCheck, tallyCheck, Bool.and_eq_true] at h
  cases n with
  | ret => exact h.1.2
  | del => exact h.2

theorem execAttachWriteBackComplete_kept (s : State) (w : WriteOutcome) : leadsTo s.Kept (execAttachWriteBackComplete w s) := by
  have free := s.kept.clearBus
  unfold execAttachWriteBackComplete
  split
  · exact s.kept
  · exact free
  · rename_i i _ _
    split
    · rename_i r d x ht hpr
      have hp := State.performing_state ht
      cases w with
      | busError => exact free.endWith hp _ _
      | done =>
        rw [leadsTo_next]
        unfold State.attachDone
        split
        · have attached : ∀ e, s.Kept (s.clearBus.attachCommit e d x) := fun e =>
            free.setClient (fun _ _ _ _ => rfl) fun hb _ => attachedContext_fits (by
              have := hb.attaching i
              rwa [hpr] at this)
          exact ((attached _).endWith hp _ _).readChoice
        · exact free.endWith hp _ _
    · exact free

end Commands

end Sys2Proof.Machine

/-!
PROOF. O58 and O59: what the commands of the Intake, the Delivery Unit, the arbiter and the tick keep.
-/

namespace Sys2Proof.Machine

-- Elaborated one after the other: side by side, each declaration holds a thread with memory of its own.
set_option Elab.async false

section Live
variable {o s t : State} {i j : SlotId} {c : ClientId} {n : OutRingName} {w : RecordKind} {x : Txn}

/-! ### What a live transaction says of a sound state -/

/-- With a live transaction on the bus the reset pin is released (R182). -/
theorem State.Placed.released {α : Type} {kind : TxnOp → Option α} {a : α} (h : s.Placed) (hx : s.onBus kind = .live a x) :
    s.port.resetAsserted = false := by
  obtain ⟨-, -, ⟨b, hb, -, hstale⟩, -⟩ := State.onBus_liveBus hx
  rw [Bool.eq_false_iff]
  intro hr
  rw [h.quiet hr b hb] at hstale
  cases hstale

theorem TxnOp.postReadOf_some {p : TxnOp} (h : p.postReadOf = some (c, i)) : p = .postRead c i := by
  unfold TxnOp.postReadOf at h
  split at h
  · cases h; rfl
  · cases h

theorem TxnOp.recordOf_some {p : TxnOp} (h : p.recordOf = some (c, n, w)) : p = .record c n w := by
  unfold TxnOp.recordOf at h
  split at h
  · cases h; rfl
  · cases h

/-- A live post read is the fetcher's, and its slot is bound to its client (R77). -/
theorem State.Placed.postRead_bound (h : s.Placed) (hx : s.onBus TxnOp.postReadOf = .live (c, i) x) :
    (s.slot i).state = .bound ∧ (s.slot i).client = some c := by
  obtain ⟨hl, hk, -, -⟩ := State.onBus_liveBus hx
  have hop := TxnOp.postReadOf_some hk
  exact (h.fetch x (h.follows x (by rw [hl]; exact List.mem_singleton_self x) c i hop)).2 c i hop

/-- The slots whose completions wait in the record writer's queue. -/
def State.queued (s : State) : List SlotId := s.unit.writer.filterMap (fun x => x.op.completionSlot)

theorem State.writingSlots_eq (s : State) :
    s.writingSlots = s.liveBus.filterMap (fun x => x.op.completionSlot) ++ s.queued := List.filterMap_append

/-- The record of a completion on the bus is that of a WRITING slot, of which no other record waits (R84). -/
theorem State.Placed.written (h : s.Placed) (hx : s.onBus TxnOp.recordOf = .live (c, n, .completion i) x) :
    (s.slot i).state = .writing ∧ i ∉ s.queued := by
  obtain ⟨hl, hk, -, -⟩ := State.onBus_liveBus hx
  have hop : x.op.completionSlot = some i := by rw [TxnOp.recordOf_some hk]; rfl
  have once := h.once
  have here : s.writingSlots = i :: s.queued := by
    rw [State.writingSlots_eq, hl, List.filterMap_cons, hop]
    rfl
  exact ⟨h.writing i (by rw [here]; exact List.mem_cons_self), (List.nodup_cons.1 (here ▸ once)).1⟩

/-- A WRITING slot whose record has left the bus and the queue is loose. -/
theorem State.Placed.loose_of_written (h : s.Placed) (hw : (s.slot i).state = .writing) (hb : s.arb.bus = none) (hq : i ∉ s.queued) :
    s.loose i := by
  refine ⟨?_, fun x c hx hop => ?_⟩
  · have : s.liveBus = [] := by simp only [State.liveBus, hb]
    rw [State.writingSlots_eq, this]
    exact hq
  · have := ((h.fetch x hx).2 c i hop).1
    rw [hw] at this
    cases this

/-! ### The Intake -/

/-- A client fault leaves the fetcher alone. -/
theorem State.clientFault_fetch (s : State) (c : ClientId) (x : FaultReason) : (s.clientFault c x).intake.fetch = s.intake.fetch := by
  unfold State.clientFault
  split
  · split
    · rw [State.withdrawTail_intake, State.withdrawTail_intake]
      rfl
    · rw [State.requestFinal_intake, State.withdrawTail_intake, State.withdrawTail_intake, State.queueNotice_intake]
      rfl
  · rfl

/-- A command is taken into its client's slot, which the fetcher has left (R78, R81). -/
theorem State.Kept.takeCommand (h : o.Kept s)
    (hb : o.Placed → s.Placed → (s.slot i).state = .bound ∧ (s.slot i).client = some c ∧ s.loose i) (r : PostRecord) :
    o.Kept (s.takeCommand c i r) := by
  unfold State.takeCommand
  dsimp only
  generalize hv : ({ Slot.initial with state := .performing, client := some c, command := some r, progress := .taken } : Slot) = v
  have performing : v.state = .performing := by rw [← hv]
  have advanced := h.setContext (c := c) (v := { s.client c with
    post := { (s.client c).post with taken := (s.client c).post.taken + 1 } }) rfl fun n => by cases n <;> exact ⟨rfl, rfl, rfl⟩
  have taken := advanced.and (t := State.setSlot _ i v) (fun ho hp => by
    obtain ⟨bound, owner, loose⟩ := hb ho (h.placed ho)
    refine hp.setSlot ?_ ?_ ?_ (fun d hd => by rw [← hv] at hd; cases hd) (.inr loose)
    · rw [State.setClient_slot, bound]; decide
    · rw [performing]; decide
    · rw [State.setClient_slot, owner, ← hv]) fun _ hb => hb.setSlot (by rw [← hv]; rfl)
  split
  · exact taken.formCompletion (by rw [State.setSlot_slot_same, performing]) _
  · exact taken

theorem execPostReadComplete_kept (s : State) (r : ReadOutcome) : leadsTo s.Kept (execPostReadComplete r s) := by
  unfold execPostReadComplete
  split
  · exact s.kept
  · exact s.kept.clearBus
  · rename_i c i y hy
    have ended := s.kept.endFetch
    have loose : ∀ t : State, t.slot i = s.slot i → t.intake.fetch = none → s.Placed → t.Placed → t.loose i := by
      intro t hslot hfetch ho ht
      refine ⟨fun hi => ?_, fun x c hx => by rw [hfetch] at hx; cases hx⟩
      have := ht.writing i hi
      rw [hslot, (ho.postRead_bound hy).1] at this
      cases this
    split
    · rw [leadsTo_next]
      refine State.Kept.readChoice ?_
      unfold State.endPostRead
      split
      · cases r with
        | data bs =>
          refine ended.takeCommand (fun ho hp => ?_) _
          obtain ⟨bound, owner⟩ := ho.postRead_bound hy
          exact ⟨bound, owner, loose _ rfl rfl ho hp⟩
        | busError =>
          refine (ended.clientFault (fun ho => ho.released hy) c .postRead).freeSlot (loose _ ?_ ?_) false
          · exact State.slot_of_slots (by simp) i
          · exact State.clientFault_fetch _ _ _
      · exact ended.freeSlot (loose _ rfl rfl) false
    · trivial

theorem execClientHalfReadComplete_kept (s : State) (r : ReadOutcome) : leadsTo s.Kept (execClientHalfReadComplete r s) := by
  have ended := s.kept.endFetch
  unfold execClientHalfReadComplete
  split
  · exact s.kept
  · exact s.kept.clearBus
  · rename_i c y hy
    have faulted := ended.clientFault (fun ho => ho.released hy) c
    split
    · rw [leadsTo_next]
      refine State.Kept.readChoice ?_
      unfold State.endHalfRead
      split
      · rename_i attached
        cases r with
        | data bs =>
          dsimp only
          split
          · rename_i passed
            refine ended.setClient (fun _ hc _ _ => attached) fun _ _ n => ?_
            simp only [Client.tallyOk, tallyCheck, Bool.and_eq_true] at passed
            cases n with
            | ret => exact passed.1.2
            | del => exact passed.2
          · exact faulted _
        | busError => exact faulted _
      · exact ended
    · trivial

/-! ### The Delivery Unit: claims -/

theorem State.heldCompletion_held {y : Completion} (h : s.heldCompletion c = some (i, y)) :
    (s.slot i).state = .held ∧ (s.slot i).completion = some y := by
  unfold State.heldCompletion at h
  split at h
  · split at h
    · cases h
      exact ⟨by assumption, by assumption⟩
    · cases h
  · cases h

/-- The claim of a held completion (R84). -/
theorem State.Kept.claimCompletion (h : o.Kept s) (hroom : (s.client c).ret.occupancy < (s.client c).ret.size)
    (hh : (s.slot i).state = .held) (y : Completion) : o.Kept (s.claimCompletion c i y) := by
  have hb : (s.slot i).state ≠ .bound := by rw [hh]; decide
  have hw : (s.slot i).state ≠ .writing := by rw [hh]; decide
  have writing : o.Kept (s.setSlot i { s.slot i with state := .writing }) :=
    h.and (fun _ hp => hp.setSlot (by rw [hh]; decide) SlotState.noConfusion rfl (hp.spares i) (.inr (hp.toStationed.loose hb hw)))
      fun _ hb => hb.setSlot (hb.attaching i)
  refine writing.claimRing (n := .ret) hroom (fun ho _ k hk => ?_) _
  cases hk
  exact ⟨((h.placed ho).toStationed.loose hb hw).1, by rw [State.setSlot_slot_same]⟩

/-- The claim of the oldest notice (R173). -/
theorem State.Kept.claimNotice (h : o.Kept s) (hroom : (s.client 0).ret.occupancy < (s.client 0).ret.size) {q : QueuedNotice}
    {rest : List QueuedNotice} (hn : s.unit.notices = q :: rest) : o.Kept (s.claimNotice q rest) := by
  have taken : o.Kept (s.setUnit { s.unit with notices := rest, lost := 0, noticesAhead := s.unit.noticesAhead - 1 }) := by
    refine h.setUnit rfl (fun hl => ?_) (fun _ => Nat.zero_le _) (List.Sublist.refl _)
    rw [hn] at hl
    exact (Nat.le_succ _).trans hl
  exact taken.claimRing (n := .ret) hroom (fun _ _ _ hk => RecordKind.noConfusion hk) _

theorem State.Kept.claimSupervisor (h : o.Kept s) (hroom : (s.client 0).ret.occupancy < (s.client 0).ret.size)
    (e : s.claimSupervisor = some t) : o.Kept t := by
  unfold State.claimSupervisor at e
  split at e
  · rename_i hh _
    cases e
    exact h.claimCompletion hroom (State.heldCompletion_held hh).1 _
  · rename_i hh hn
    split at e
    · cases e
      exact h.claimCompletion hroom (State.heldCompletion_held hh).1 _
    · cases e
      exact h.claimNotice hroom hn
  · rename_i hn
    cases e
    exact h.claimNotice hroom hn
  · cases e

theorem State.Kept.claimClient (h : o.Kept s) (hroom : (s.client c).ret.occupancy < (s.client c).ret.size)
    (e : s.claimClient c = some t) : o.Kept t := by
  unfold State.claimClient at e
  split at e
  · rename_i hh
    cases e
    exact h.claimCompletion hroom (State.heldCompletion_held hh).1 _
  · cases e

theorem execReturnClaim_kept (s : State) (c : ClientId) : leadsTo s.Kept (execReturnClaim c s) := by
  unfold execReturnClaim
  split
  · rename_i hc
    obtain ⟨-, -, room, -⟩ := State.canClaim_iff.1 hc
    split
    · rename_i t ht
      rw [leadsTo_next]
      split at ht
      · subst c
        exact (s.kept.claimSupervisor room ht).readChoice
      · exact (s.kept.claimClient room ht).readChoice
    · exact s.kept
  · exact s.kept

/-! ### The Delivery Unit: writes -/

theorem State.withdrawTail_queued (s : State) (c : ClientId) (n : OutRingName) : (s.withdrawTail c n).queued ⊆ s.queued := by
  rw [State.queued, State.withdrawTail_unit]
  exact (List.filter_sublist.filterMap _).subset

theorem State.enqueue_queued (s : State) (hx : x.op.completionSlot = none) : (s.enqueue x).queued = s.queued := by
  show (s.unit.writer ++ [x]).filterMap _ = _
  rw [List.filterMap_append, List.filterMap_cons, hx]
  exact List.append_nil _

theorem State.requestFinal_queued (s : State) (c : ClientId) : (s.requestFinal c).queued = s.queued := by
  unfold State.requestFinal
  dsimp only
  split
  · exact State.enqueue_queued (x := finalWriteBackTxn s c) s rfl
  · rfl

theorem State.clientFault_queued (s : State) (c : ClientId) (x : FaultReason) : (s.clientFault c x).queued ⊆ s.queued := by
  unfold State.clientFault
  split
  · split
    · exact List.Subset.trans (State.withdrawTail_queued _ _ _) (State.withdrawTail_queued _ _ _)
    · intro i hi
      rw [State.requestFinal_queued] at hi
      have := State.withdrawTail_queued _ _ _ (State.withdrawTail_queued _ _ _ hi)
      rwa [State.queued, State.queueNotice_writer] at this
  · exact fun i hi => hi

/-- The slot of a completion whose record write has ended becomes FREE (R86). -/
theorem State.Kept.releaseRecord (h : o.Kept s) (hw : ∀ i, w = .completion i → o.Placed → (o.slot i).state = .writing ∧ i ∉ o.queued)
    (hs : s.slots = o.slots) (hb : s.arb.bus = none) (hq : s.queued ⊆ o.queued) : o.Kept (s.releaseRecord w) := by
  cases w with
  | completion i =>
    refine h.freeSlot (fun ho hp => ?_) false
    obtain ⟨hst, hn⟩ := hw i rfl ho
    exact hp.loose_of_written (by rw [State.slot_of_slots hs]; exact hst) hb fun hi => hn (hq hi)
  | notice => exact h
  | delivery => exact h

theorem State.Kept.countWritten (h : o.Kept s) (c : ClientId) (n : OutRingName) (w : RecordKind) : o.Kept (s.countWritten c n w) := by
  have tallies := Client.setRing_tallies (s.client c) n (g := { (s.client c).ring n with written := ((s.client c).ring n).written + 1 })
    rfl rfl rfl
  unfold State.countWritten
  dsimp only
  split
  · refine h.setContext (Client.setRing_state _ _ _) fun m => ?_
    have := tallies m
    cases m <;> exact this
  · exact h.setContext (Client.setRing_state _ _ _) tallies

theorem execRecordWriteComplete_kept (s : State) (x : WriteOutcome) : leadsTo s.Kept (execRecordWriteComplete x s) := by
  have free := s.kept.clearBus
  unfold execRecordWriteComplete
  split
  · exact s.kept
  · exact free
  · rename_i c n w y hy
    have hr : s.Placed → s.port.resetAsserted = false := fun ho => ho.released hy
    have hw : ∀ i, w = .completion i → s.Placed → (s.slot i).state = .writing ∧ i ∉ s.queued := by
      rintro i rfl ho
      exact ho.written hy
    rw [leadsTo_next]
    unfold State.endRecord
    split
    · refine ((free.countWritten c n w).enqueue rfl fun _ _ _ hx => by cases hx).releaseRecord hw rfl rfl fun i hi => ?_
      rw [State.enqueue_queued (x := writeBackTxn _ c n) _ rfl] at hi
      exact hi
    · have ended := free.endRing c n
      have faulted := ended.clientFault hr c .recordWrite
      unfold State.recordFailed
      dsimp only
      split
      · exact ended.failDevice hr (by decide) (by simp)
      · exact faulted
      · split
        · exact faulted
        · exact State.Kept.releaseRecord (w := .completion _) faulted hw (by simp) (by simp) (State.clientFault_queued _ _ _)
    · refine (((free.countWritten c n w).endRing c n).requestFinal c).releaseRecord hw (by simp; rfl) (by simp; rfl) ?_
      rw [State.requestFinal_queued]
      exact List.Subset.refl _
    · refine ((free.endRing c n).requestFinal c).releaseRecord hw (by simp) (by simp) ?_
      rw [State.requestFinal_queued]
      exact List.Subset.refl _
    · exact (free.endRing c n).releaseRecord hw rfl rfl (List.Subset.refl _)

theorem execWriteBackComplete_kept (s : State) (x : WriteOutcome) : leadsTo s.Kept (execWriteBackComplete x s) := by
  have free := s.kept.clearBus
  unfold execWriteBackComplete
  split
  · exact s.kept
  · exact free
  · rename_i c n y hy
    rw [leadsTo_next]
    unfold State.endWriteBack
    split
    · unfold State.signalTest
      dsimp only
      split
      · have marked : s.Kept (s.clearBus.setClient c ((s.clearBus.client c).setRing n
            { (s.clearBus.client c).ring n with signalled := ((s.clearBus.client c).ring n).lastWake })) :=
          free.setRing n rfl rfl rfl
        split
        · exact marked.endRing c n
        · exact marked.enqueue rfl fun _ _ _ hx => by cases hx
      · exact free.endRing c n
    · exact (free.endRing c n).clientFault (fun ho => ho.released hy) c .recordWrite
    · exact (free.endRing c n).requestFinal c
  · exact free

theorem execSignalWriteComplete_kept (s : State) (x : WriteOutcome) : leadsTo s.Kept (execSignalWriteComplete x s) := by
  have ended := fun c n => s.kept.clearBus.endRing c n
  unfold execSignalWriteComplete
  split
  · exact s.kept
  · exact s.kept.clearBus
  · rename_i c n y hy
    rw [leadsTo_next]
    unfold State.endSignal
    split
    · exact ended c n
    · exact (ended c n).clientFault (fun ho => ho.released hy) c .signalWrite
    · exact (ended c n).requestFinal c

end Live

/-! ### The arbiter (R189) -/

section Grants
variable {o s t : State} {i j : SlotId} {c : ClientId} {x : Txn}

/-- A slot presents neither a read of the fetcher nor the record of a completion (R188). -/
theorem State.presents_op (h : s.presents i = .txn x) : x.op.ofFetcher = false ∧ x.op.completionSlot = none := by
  unfold State.presents at h
  dsimp only at h
  split at h
  · split at h
    · split at h
      · split at h
        · cases h; exact ⟨rfl, rfl⟩
        · split at h
          · cases h; exact ⟨rfl, rfl⟩
          · cases h
      · cases h
    · cases h; exact ⟨rfl, rfl⟩
    · cases h; exact ⟨rfl, rfl⟩
    · cases h; exact ⟨rfl, rfl⟩
    · cases h
  · cases h

theorem TxnOp.ofFetcher_completionSlot {p : TxnOp} (h : p.ofFetcher = true) : p.completionSlot = none := by
  cases p with
  | record => cases h
  | _ => rfl

theorem State.mayGrant_iff : s.mayGrant = true ↔ s.arb.bus = none ∧ s.port.resetAsserted = false ∧ s.port.device ≠ .failed := by
  simp [State.mayGrant, and_assoc]

/-- A grant past a waiting fetcher is made only before the fetcher has waited for four (R189). -/
theorem State.Bounded.waitAfter (h : s.Bounded) (hp : ∀ y, s.intake.fetch = some y → s.arb.waitCount ≠ Config.fetcherPatience) :
    s.waitAfter ≤ Config.fetcherPatience := by
  unfold State.waitAfter
  split
  · rename_i hf
    obtain ⟨y, hy⟩ := Option.isSome_iff_exists.1 hf
    exact Nat.lt_of_le_of_ne h.waits (hp y hy)
  · exact h.waits

theorem State.Kept.grantFetcher (hm : s.mayGrant = true) (hx : s.intake.fetch = some x) : s.Kept (s.grantFetcher x) := by
  obtain ⟨-, hr, -⟩ := State.mayGrant_iff.1 hm
  refine s.kept.and (fun _ hp => ?_) fun _ hb => hb.setArb (Nat.zero_le _)
  refine hp.granted (a := (s.grantFetcher x).arb) (x := x) (rest := s.unit.writer) hr rfl (List.Sublist.refl _) (fun _ _ _ => hx) ?_
  rw [TxnOp.ofFetcher_completionSlot (hp.fetch x hx).1]
  exact List.Sublist.refl _

theorem State.Kept.grantOther (hm : s.mayGrant = true)
    (hp : ∀ y, s.intake.fetch = some y → s.arb.waitCount ≠ Config.fetcherPatience) : leadsTo s.Kept s.grantOther := by
  obtain ⟨-, hr, -⟩ := State.mayGrant_iff.1 hm
  unfold State.grantOther
  split
  · rename_i y rest hy
    rw [leadsTo_next]
    refine s.kept.and (fun _ h => ?_) fun _ hb => (hb.setArb (hb.waitAfter hp)).setUnit rfl hb.notices hb.lost
    refine h.granted hr rfl (by rw [hy]; exact List.sublist_cons_self _ _) (fun c i hop => ?_) ?_
    · have := h.writer y (by rw [hy]; exact List.mem_cons_self)
      rw [State.issued_op] at hop
      rw [hop] at this
      cases this
    · rw [State.issued_op, hy, List.filterMap_cons]
      cases y.op.completionSlot <;> exact List.Sublist.refl _
  · unfold State.grantRest
    split
    · rename_i i _
      split
      · rename_i y hy
        obtain ⟨hread, hslot⟩ := State.presents_op hy
        rw [leadsTo_next]
        refine s.kept.and (fun _ h => ?_) fun _ hb => hb.setArb (hb.waitAfter hp)
        refine h.granted (a := (s.grantSlot i y).arb) (x := y) (rest := s.unit.writer) hr rfl (List.Sublist.refl _)
          (fun c i hop => ?_) ?_
        · rw [hop] at hread
          cases hread
        · rw [hslot]
          exact List.Sublist.refl _
      · trivial
      · exact s.kept
    · split
      · exact State.Kept.grantFetcher hm ‹_›
      · exact s.kept

theorem execGrant_kept (s : State) : leadsTo s.Kept (execGrant s) := by
  unfold execGrant
  split
  · rename_i hm
    split
    · rename_i y hy
      split
      · exact State.Kept.grantFetcher hm hy
      · exact State.Kept.grantOther hm fun _ _ => ‹_›
    · rename_i hy
      exact State.Kept.grantOther hm fun y hf => by rw [hy] at hf; cases hf
  · exact s.kept

/-! ### The tick (R190) -/

theorem Directory.tick_patterns (d : Directory) : d.tick.patterns = d.patterns := by
  unfold Directory.tick
  split <;> [rfl; split] <;> rfl

theorem State.Kept.tickEvent (h : o.Kept s) : o.Kept s.tickEvent := by
  unfold State.tickEvent
  dsimp only
  have counted := h.setRegisters s.port.setupLo s.port.setupHi (.inl (by decide : 0 < Config.tickPeriods)) (s.port.tickCount + 1)
    s.port.answer
  have ticked := counted.setDir (v := s.dir.tick) fun hl => by rw [Directory.tick_patterns]; exact hl
  refine State.Kept.readChoice (State.Kept.setIntake (ticked.setUnit ?_ ?_ ?_ ?_) ?_)
  · rfl
  · exact id
  · exact id
  · exact List.Sublist.refl _
  · rfl

theorem execTick_kept (s : State) : leadsTo s.Kept (execTick s) := by
  unfold execTick
  rw [leadsTo_next]
  split
  · exact s.kept.tickEvent
  · exact s.kept

theorem State.idlePeriod_kept (s : State) : s.Kept s.idlePeriod := by
  unfold State.idlePeriod
  split
  · split
    · rename_i hd
      exact s.kept.setRegisters s.port.setupLo s.port.setupHi (.inl hd) s.port.tickCount s.port.answer
    · exact s.kept.tickEvent
  · exact s.kept

end Grants

end Sys2Proof.Machine

/-!
PROOF. O58 and O59: what the teardown's commands keep.
-/

namespace Sys2Proof.Machine

-- Elaborated one after the other: side by side, each declaration holds a thread with memory of its own.
set_option Elab.async false

section Teardown
variable {o s t : State} {i j : SlotId} {c : ClientId} {n : OutRingName} {r : PostRecord}

/-! ### The withdrawals of the state stage (R161, R188) -/

theorem State.Kept.endWaiting (h : o.Kept s) (c : ClientId) (n : OutRingName) : o.Kept (s.endWaiting c n) := by
  unfold State.endWaiting
  split
  · exact h.endRing c n
  · exact h

theorem State.Kept.startDraining (h : o.Kept s) (hc : c ≠ 0) : o.Kept (s.startDraining c) :=
  State.Kept.leaveSets (h.setClient (v := { s.client c with state := .draining, finalDue := false })
    (fun _ h0 => absurd h0 hc) fun _ hb => hb.sameRings (c := c) rfl rfl) c

theorem State.Kept.withdrawWrites (h : o.Kept s) (c : ClientId) : o.Kept (s.withdrawWrites c) := by
  have ended := (h.endWaiting c .ret).endWaiting c .del
  have unit : ((s.endWaiting c .ret).endWaiting c .del).unit = s.unit :=
    (State.endWaiting_same _ c .del).1.trans (State.endWaiting_same _ c .ret).1
  exact ended.setUnit (by rw [unit]) (by rw [unit]; exact id) (by rw [unit]; exact id) (by rw [unit]; exact List.filter_sublist)

/-- A live post read is of the fetcher's client, which then does not wait for a grant. -/
theorem State.Placed.not_fetchWaits (h : s.Placed) {x : Txn} (hx : x ∈ s.liveBus) (hop : x.op = .postRead c i) (d : ClientId) :
    s.fetchWaits d = false := by
  obtain ⟨b, hb, rfl, hs, -⟩ := State.mem_liveBus.1 hx
  have carried : s.carries (TxnOp.isReadOf d) = b.txn.op.isReadOf d := by simp [State.carries, hb, hs]
  unfold State.fetchWaits
  rw [h.follows _ hx c i hop]
  dsimp only
  rw [carried]
  cases b.txn.op.isReadOf d <;> rfl

theorem State.Kept.withdrawRead (h : o.Kept s) (c : ClientId) : o.Kept (s.withdrawRead c) := by
  unfold State.withdrawRead
  split
  · rename_i hw
    refine h.setFetch (fun _ hx => by cases hx) fun _ hp x hx d i hop => ?_
    rw [hp.not_fetchWaits hx hop c] at hw
    cases hw
  · exact h

/-- The state in which the state stage finds the slot of its client. -/
def State.withdrawn (s : State) (c : ClientId) : State := ((s.startDraining c).withdrawWrites c).withdrawRead c

theorem State.Kept.withdrawn (h : o.Kept s) (hc : c ≠ 0) : o.Kept (s.withdrawn c) :=
  ((h.startDraining hc).withdrawWrites c).withdrawRead c

theorem State.withdrawn_slot (s : State) (c : ClientId) (j : SlotId) : (s.withdrawn c).slot j = s.slot j :=
  State.slot_of_slots (State.withdrawn_same s c).1 j

theorem State.withdrawn_writer (s : State) (c : ClientId) :
    (s.withdrawn c).unit.writer = s.unit.writer.filter (fun x => !(x.op.isWriteOf c)) := by
  unfold State.withdrawn State.withdrawRead
  split <;> rfl

theorem State.withdrawn_liveBus (s : State) (c : ClientId) : (s.withdrawn c).liveBus = s.liveBus := by
  obtain ⟨-, ha, hp, -⟩ := State.withdrawn_same s c
  exact State.liveBus_congr ha (congrArg Port.device hp)

/-- A waiting read of the client has left the fetcher. -/
theorem State.withdrawn_fetch (hw : s.fetchWaits c = true) : (s.withdrawn c).intake.fetch = none := by
  have writes : ((s.startDraining c).withdrawWrites c).fetchWaits c = s.fetchWaits c := by
    have fetch : ((s.startDraining c).withdrawWrites c).intake.fetch = s.intake.fetch := by
      unfold State.withdrawWrites State.endWaiting
      split <;> split <;> rfl
    have arb : ((s.startDraining c).withdrawWrites c).arb = s.arb :=
      (State.endWaiting_same _ c .del).2.2.1.trans (State.endWaiting_same _ c .ret).2.2.1
    unfold State.fetchWaits State.carries
    rw [fetch, arb]
  rw [State.withdrawn, State.withdrawRead, if_pos (writes.trans hw)]
  rfl

/-- Two transactions of the queue that carry the completion of one slot are the same. -/
theorem eq_of_filterMap_nodup {α β : Type} {f : α → Option β} {l : List α} (hl : (l.filterMap f).Nodup) {x y : α} {b : β}
    (hx : x ∈ l) (hy : y ∈ l) (fx : f x = some b) (fy : f y = some b) : x = y := by
  by_contra hne
  have symm : Std.Symm (fun u v => ∀ a, f u = some a → ∀ a', f v = some a' → a ≠ a') :=
    ⟨fun _ _ h a ha a' ha' e => h a' ha' a ha e.symm⟩
  exact (List.pairwise_filterMap.1 hl).forall hx hy hne b fx b fy rfl

/-- The slot of a withdrawn record write is loose. -/
theorem State.Placed.loose_of_withdrawn (h : s.Placed) (hd : (s.withdrawn c).Placed) (hw : (s.slot j).state = .writing)
    (hr : s.recordWaits c j = true) : (s.withdrawn c).loose j := by
  obtain ⟨y, hy, hop⟩ := List.any_eq_true.1 hr
  have hop : y.op = .record c .ret (.completion j) := by simpa using hop
  have hslot : y.op.completionSlot = some j := by rw [hop]; rfl
  obtain ⟨-, once, disjoint⟩ := List.nodup_append.1 (State.writingSlots_eq s ▸ h.once)
  refine ⟨fun hj => ?_, fun x d hx hop' => ?_⟩
  · rw [State.writingSlots_eq, State.withdrawn_liveBus] at hj
    rcases List.mem_append.1 hj with hj | hj
    · exact disjoint j hj j (List.mem_filterMap.2 ⟨y, hy, hslot⟩) rfl
    · obtain ⟨z, hz, hzs⟩ := List.mem_filterMap.1 hj
      rw [State.withdrawn_writer, List.mem_filter] at hz
      obtain rfl := eq_of_filterMap_nodup once hy hz.1 hslot hzs
      have := hz.2
      rw [hop] at this
      simp [TxnOp.isWriteOf] at this
  · have := ((hd.fetch x hx).2 d j hop').1
    rw [State.withdrawn_slot, hw] at this
    cases this

/-- What the state stage does to the slot of its client (R161, R188). -/
theorem State.Kept.drainSlot (h : o.Kept s) (hc : c ≠ 0) (j : SlotId) : o.Kept ((s.withdrawn c).drainSlot s c j) := by
  have drained := h.withdrawn hc
  have slot := State.withdrawn_slot s c j
  have marked : (s.slot j).state ≠ .free → o.Kept ((s.withdrawn c).requestAbort j) := fun hn =>
    drained.markSlot (by rw [slot]; exact hn) rfl rfl rfl
  unfold State.drainSlot
  split
  · rename_i hs
    exact drained.freeSlot (fun _ hp => hp.toStationed.loose (by rw [slot, hs]; decide) (by rw [slot, hs]; decide)) false
  · rename_i hs
    split
    · rename_i hw
      refine drained.freeSlot (fun _ hp => ⟨fun hj => ?_, fun x d hx => ?_⟩) false
      · have := hp.writing j hj
        rw [slot, hs] at this
        cases this
      · rw [State.withdrawn_fetch hw] at hx
        cases hx
    · exact marked (by rw [hs]; decide)
  · rename_i hs
    split
    · rename_i hr
      exact drained.freeSlot (fun ho hp => (h.placed ho).loose_of_withdrawn hp hs hr) false
    · exact marked (by rw [hs]; decide)
  · rename_i hs
    split
    · exact drained.abortSlot (by rw [slot]; exact hs)
    · exact marked (by rw [hs]; decide)
  · exact drained

/-- The state stage (R161). -/
theorem State.Kept.stateStage (h : o.Kept s) (hc : c ≠ 0) : o.Kept (s.stateStage c) := by
  unfold State.stateStage
  dsimp only
  split
  · exact (h.drainSlot hc _).readChoice
  · exact ((h.withdrawn hc).reportFreed c false).readChoice

/-! ### The stages (R161 to R165) -/

/-- A teardown goes to another stage: its subject is not client 0. -/
theorem State.Kept.setTeardown (h : o.Kept s) (hp : (s.slot i).state = .performing) {d : Teardown}
    (hd : o.Placed → s.Placed → d.subject ≠ 0) : o.Kept (s.setProgress i (.teardown d)) := by
  have hn : (s.slot i).state ≠ .free := by rw [hp]; decide
  exact h.setSlot hn hn rfl (fun ho hp _ e => by cases e; exact hd ho hp) (.inl rfl) fun _ _ => rfl

theorem execDetach_kept (s : State) (i : SlotId) : leadsTo s.Kept (execDetach i s) := by
  unfold execDetach
  split
  · exact s.kept
  · rename_i ht
    have hp := State.takenCommand_performing ht
    rw [leadsTo_next]
    unfold State.detachStep
    split
    · exact s.kept.endWith hp _ _
    · split
      · exact s.kept.endWith hp _ _
      · rename_i hc
        split
        · exact State.Kept.stateStage (s.kept.setTeardown hp fun _ _ => hc) hc
        · exact s.kept.endWith hp _ _

theorem State.teardownOf_performing {d : Teardown} (h : s.teardownOf i = some (r, d)) :
    (s.slot i).state = .performing ∧ (s.slot i).progress = .teardown d := by
  obtain ⟨_, hp, hd⟩ := State.teardownOf_iff.1 h
  exact ⟨State.performing_state hp, hd⟩

theorem Directory.purge_patterns_length (d : Directory) (c : ClientId) : (d.purge c).patterns.length ≤ d.patterns.length :=
  List.length_filterMap_le _ _

theorem execDirectoryPurge_kept (s : State) (i : SlotId) : leadsTo s.Kept (execDirectoryPurge i s) := by
  unfold execDirectoryPurge
  split
  · exact s.kept
  · rename_i d ht
    obtain ⟨hp, hd⟩ := State.teardownOf_performing ht
    split
    · exact State.Kept.setTeardown (s.kept.setDir fun h => (Directory.purge_patterns_length _ _).trans h) hp
        fun ho _ => ho.spares i d hd
    · exact s.kept

theorem execPendingPurge_kept (s : State) (i : SlotId) : leadsTo s.Kept (execPendingPurge i s) := by
  unfold execPendingPurge
  split
  · exact s.kept
  · rename_i d ht
    obtain ⟨hp, hd⟩ := State.teardownOf_performing ht
    split
    · have emptied := (s.kept.setStore (s.store.dropEntries d.subject (s.list d.subject)).1).setList (c := d.subject) (l := [])
        fun _ => Nat.zero_le _
      exact emptied.setTeardown hp fun ho _ => ho.spares i d hd
    · exact s.kept

theorem execReferenceWalkVisit_kept (s : State) (i : SlotId) : leadsTo s.Kept (execReferenceWalkVisit i s) := by
  unfold execReferenceWalkVisit
  split
  · exact s.kept
  · rename_i d ht
    obtain ⟨hp, hd⟩ := State.teardownOf_performing ht
    split
    · rw [leadsTo_next]
      exact State.Kept.setTeardown (s.kept.setStore _) (by exact hp) fun ho _ => ho.spares i d hd
    · exact s.kept

theorem execTeardownCompletion_kept (s : State) (i : SlotId) : leadsTo s.Kept (execTeardownCompletion i s) := by
  unfold execTeardownCompletion
  split
  · exact s.kept
  · rename_i d ht
    obtain ⟨hp, hd⟩ := State.teardownOf_performing ht
    split
    · have cleared : s.Kept (s.setClient d.subject Client.initial) :=
        s.kept.setClient (fun ho h0 => absurd h0 (ho.spares i d hd)) fun _ _ n => by cases n <;> decide
      exact cleared.formCompletion hp _
    · exact s.kept

end Teardown

end Sys2Proof.Machine

/-!
PROOF. O58 and O59: what the System Port, the reset pin and the setup load keep, and so every step.
-/

namespace Sys2Proof.Machine

-- Elaborated one after the other: side by side, each declaration holds a thread with memory of its own.
set_option Elab.async false

section Port
variable {o s t : State} {i j : SlotId} {c : ClientId} {x : Txn}

/-! ### The register window -/

/-- A step that frees no device of FAILED: the port takes registers that go with its device state. -/
theorem State.Kept.setPort (h : o.Kept s) {p : Port} (hp : o.Placed → s.Placed → p.sound = true)
    (hr : p.resetAsserted = s.port.resetAsserted) (hfail : o.Placed → s.port.device = .failed → p.device = .failed)
    (hidle : o.Placed → s.Placed → p.device = .off ∨ p.device = .loading ∨ p.device = .halted → ∀ j, (s.slot j).state = .free)
    (hbusy : o.Placed → s.Placed → p.device = .halting → ∃ j, (s.slot j).state ≠ .free)
    (hserved : o.Placed → s.Placed → (s.setPort p).serving → (s.client 0).state = .attached)
    (hd : p.tickDivider = s.port.tickDivider) : o.Kept (s.setPort p) :=
  h.and (fun ho hs => hs.setPort (hp ho hs) hr (hfail ho) (hidle ho hs) (hbusy ho hs) (hserved ho hs))
    fun _ hb => hb.setPort (hd ▸ hb.divider)

/-- A device that is neither FAILED nor OFF takes another state in which it serves clients or not, the tick running as it says. -/
theorem Port.sound_moved {p : Port} (h : p.sound = true) (hf : p.device ≠ .failed) {d : DeviceState} (hd : d ≠ .failed) {b : Bool}
    (hb : b = true ↔ d = .running ∨ d = .halting) : ({ p with device := d, tickRuns := b } : Port).sound = true := by
  obtain ⟨pin, -, code, reason⟩ := Port.sound_iff.1 h
  exact Port.sound_iff.2 ⟨pin.trans (by simp [hf, hd]), hb, code.trans (by simp [hf, hd]), reason⟩

/-- With every slot FREE no live post read is on the bus. -/
theorem State.Placed.no_postRead (h : s.Placed) (hfree : ∀ j, (s.slot j).state = .free) :
    ∀ x ∈ s.liveBus, ∀ c i, x.op ≠ .postRead c i := by
  intro x hx c i hop
  have := ((h.fetch x (h.follows x hx c i hop)).2 c i hop).1
  rw [hfree i] at this
  cases this

/-- A read of the setup load is asked for. -/
theorem State.Kept.fetchSetup (h : o.Kept s) {op : TxnOp} (hop : op.ofFetcher = true) (hread : ∀ c i, op ≠ .postRead c i)
    (hl : o.Placed → s.Placed → ∀ x ∈ s.liveBus, ∀ c i, x.op ≠ .postRead c i) (a : Addr) (len : Nat) :
    o.Kept (s.fetchSetup op a len) :=
  h.setFetch (fun _ hx => by cases hx; exact ⟨hop, hread⟩) hl

theorem State.Kept.startLoad (h : o.Kept s) (hr : s.port.resetAsserted = false) (hd : s.port.device = .off) :
    o.Kept s.startLoad := by
  unfold State.startLoad
  split
  · have moved : o.Kept (s.setPort { s.port with device := .loading }) := by
      refine h.setPort (fun _ hs => ?_) rfl (fun _ hf => ?_) (fun _ hs _ => hs.idle (.inl hd)) (fun _ _ hp => by cases hp)
        (fun _ _ hp => ?_) rfl
      · have := hs.port
        rw [← Port.sound_moved (d := .loading) (b := s.port.tickRuns) this (by rw [hd]; decide) (by decide)
          ((Port.sound_iff.1 this).2.1.trans (by simp [hd]))]
      · rw [hd] at hf; cases hf
      · simp [State.serving] at hp
    refine (moved.setLoad rfl).fetchSetup (op := .setupRead) rfl (fun _ _ => nofun) (fun ho hp => hp.no_postRead fun j => ?_) _ _
    exact (h.placed ho).idle (.inl hd) j
  · exact h.failDevice (fun _ => hr) (by decide) (by simp)

theorem State.Kept.goEvent (h : o.Kept s) (hr : s.port.resetAsserted = false) : o.Kept s.goEvent := by
  have resumed : s.serving → s.port.device ≠ .failed →
      o.Kept (s.setPort { s.port with device := .running, tickRuns := true }).readChoice := by
    intro hserving hf
    refine State.Kept.readChoice (h.setPort (fun _ hs => Port.sound_moved hs.port hf (by decide) (by simp)) rfl
      (fun _ e => absurd e hf) (fun _ _ hp => by simp at hp) (fun _ _ hp => by cases hp) (fun _ hs _ => hs.served hserving) rfl)
  unfold State.goEvent
  split
  · exact h.startLoad hr ‹_›
  · rename_i hd
    exact resumed (.inr (.inl hd)) (by rw [hd]; decide)
  · rename_i hd
    exact resumed (.inr (.inr hd)) (by rw [hd]; decide)
  · exact h

theorem State.Kept.haltEvent (h : o.Kept s) : o.Kept s.haltEvent := by
  unfold State.haltEvent
  split
  · rename_i hd
    have hf : s.port.device ≠ .failed := by rw [hd]; decide
    split
    · rename_i hfree
      exact h.setPort (fun _ hs => Port.sound_moved hs.port hf (by decide) (by simp)) rfl (fun _ e => absurd e hf)
        (fun _ _ _ => State.allFree_iff.1 hfree) (fun _ _ hp => by cases hp) (fun _ hs _ => hs.served (.inl hd)) rfl
    · rename_i hbusy
      refine h.setPort (fun _ hs => ?_) rfl (fun _ e => absurd e hf) (fun _ _ hp => by simp at hp) (fun _ _ _ => ?_)
        (fun _ hs _ => hs.served (.inl hd)) rfl
      · exact Port.sound_moved (b := s.port.tickRuns) hs.port hf (by decide) ((Port.sound_iff.1 hs.port).2.1.trans (by simp [hd]))
      · by_contra hno
        exact hbusy (State.allFree_iff.2 (by simpa using hno))
  · exact h

theorem State.restartEvent_kept (s : State) : s.Kept s.restartEvent :=
  ⟨fun _ => State.Placed.restarted (p := { Port.initial with
      setupLo := s.port.setupLo, setupHi := s.port.setupHi, answer := s.port.answer }) (by rfl) rfl _ _ _,
    fun _ => State.Bounded.restarted (p := { Port.initial with
      setupLo := s.port.setupLo, setupHi := s.port.setupHi, answer := s.port.answer }) rfl _ _ _⟩

theorem State.Kept.attendEvent (h : o.Kept s) (v : BitVec 32) : o.Kept (s.attendEvent v) := by
  unfold State.attendEvent
  split
  · exact State.Kept.readChoice (h.setIntake rfl)
  · exact h

theorem State.Kept.setupEvent (h : o.Kept s) (high : Bool) (v : BitVec 32) : o.Kept (s.setupEvent high v) := by
  unfold State.setupEvent
  split
  · exact h.setRegisters s.port.setupLo v (.inr rfl) s.port.tickCount s.port.answer
  · exact h.setRegisters v s.port.setupHi (.inr rfl) s.port.tickCount s.port.answer

theorem State.controlEvent_kept (hr : s.port.resetAsserted = false) (v : BitVec 32) : s.Kept (s.controlEvent v) := by
  unfold State.controlEvent
  split
  · exact s.restartEvent_kept
  · split
    · exact s.kept
    · split
      · exact s.kept.goEvent hr
      · split
        · exact s.kept.haltEvent
        · exact s.kept

theorem State.writeWord_kept (hr : s.port.resetAsserted = false) (offset : Nat) (v : BitVec 32) : s.Kept (s.writeWord offset v) := by
  unfold State.writeWord
  split
  · exact State.controlEvent_kept hr v
  · split
    · exact s.kept.attendEvent v
    · split
      · exact s.kept.setupEvent false v
      · split
        · exact s.kept.setupEvent true v
        · exact s.kept

theorem State.access_kept (s : State) (a : PortAccess) : s.Kept (s.access a) := by
  unfold State.access
  split
  · split <;> exact s.kept.answered _
  · rename_i hr
    have hr : s.port.resetAsserted = false := by simpa using hr
    split
    · exact s.kept.answered _
    · split
      · exact s.kept.answered _
      · exact (State.writeWord_kept hr _ _).answered _

/-- A register write counts only with the reset pin released (R175). -/
theorem State.windowWrite_kept (s : State) {f : State → State} (hf : s.port.resetAsserted = false → s.Kept (f s)) :
    s.Kept (s.windowWrite f) := by
  unfold State.windowWrite
  split
  · exact s.kept.answered _
  · rename_i hr
    exact (hf (by simpa using hr)).answered _

/-! ### The reset pin (R182) -/

theorem Arbiter.abandoned_stale {a : Arbiter} {b : BusTxn} (h : a.abandoned = some b) : b.stale = true := by
  simp only [Arbiter.abandoned, Option.map_eq_some_iff] at h
  obtain ⟨b', -, rfl⟩ := h
  rfl

/-- The pin falls, and the transaction on the bus becomes stale (R182, R151). -/
theorem State.Placed.resetAsserted (h : s.Placed) : ((s.setPort { s.port with resetAsserted := true, faultPin := false }).setArb
    { s.arb with bus := s.arb.abandoned }).Placed := by
  generalize ht : (s.setPort { s.port with resetAsserted := true, faultPin := false }).setArb
    { s.arb with bus := s.arb.abandoned } = t
  have hbus : t.liveBus = [] := by
    rw [List.eq_nil_iff_forall_not_mem]
    intro x hx
    obtain ⟨b, hb, -, hl, -⟩ := State.mem_liveBus.1 hx
    rw [← ht] at hb
    rw [Arbiter.abandoned_stale hb] at hl
    cases hl
  have hw : t.writingSlots.Sublist s.writingSlots := State.writingSlots_sublist (.inr hbus) (by rw [← ht]; exact List.Sublist.refl _)
  have hserving : t.serving → s.serving := by rw [← ht]; exact id
  obtain ⟨-, tick, code, reason⟩ := Port.sound_iff.1 h.port
  subst ht
  exact { h with
          port := Port.sound_iff.2 ⟨by simp, tick, code, reason⟩, served := fun hv => h.served (hserving hv),
          quiet := fun _ _ hb => Arbiter.abandoned_stale hb, apart := h.apart.of_slots rfl,
          follows := fun x hx => (by rw [hbus] at hx; cases hx), once := h.once.sublist hw,
          writing := fun j hj => h.writing j (hw.subset hj) }

theorem execResetPinAssert_kept (s : State) : leadsTo s.Kept (execResetPinAssert s) :=
  s.kept.and (fun _ h => h.resetAsserted) fun _ hb =>
    State.Bounded.setArb (a := { s.arb with bus := s.arb.abandoned })
      (hb.setPort (p := { s.port with resetAsserted := true, faultPin := false }) hb.divider) hb.waits

theorem execResetPinRelease_kept (s : State) : leadsTo s.Kept (execResetPinRelease s) := by
  unfold execResetPinRelease
  rw [leadsTo_next]
  split
  · exact ⟨fun _ => State.Placed.restarted (p := State.reset.port) (by decide) (by decide) _ _ _,
      fun _ => State.Bounded.restarted (p := State.reset.port) (by decide) _ _ _⟩
  · exact s.kept

/-! ### The setup load (section 9.4) -/

theorem State.Kept.failLoad (h : o.Kept s) (hr : o.Placed → s.port.resetAsserted = false) {code : DeviceFault}
    {reason : Option FaultReason} (hc : code ≠ .none) (hreason : reason.isSome = true ↔ code = .supervisorFault) :
    o.Kept (s.failLoad code reason) :=
  (h.setLoad (l := .idle) rfl).failDevice hr hc hreason

/-- The setup load's next read, the bus being free. -/
theorem State.Kept.fetchNext (h : o.Kept s) (hb : s.arb.bus = none) {op : TxnOp} (hop : op.ofFetcher = true)
    (hread : ∀ c i, op ≠ .postRead c i) (a : Addr) (len : Nat) : o.Kept (s.fetchSetup op a len) :=
  h.fetchSetup hop hread (fun _ _ x hx => by simp [State.liveBus, hb] at hx) a len

theorem State.Kept.fetchPiece (h : o.Kept s) (hb : s.arb.bus = none) (g : Settings) (pieces : List Piece) (bytes : List Byte) :
    o.Kept (s.fetchPiece g pieces bytes) := by
  unfold State.fetchPiece
  split
  · exact State.Kept.fetchNext (op := .setupDescriptor) (h.setLoad (l := .descriptor g _ bytes) rfl) hb rfl (fun _ _ => nofun) _ _
  · exact h

theorem execSetupReadComplete_kept (s : State) (r : ReadOutcome) : leadsTo s.Kept (execSetupReadComplete r s) := by
  have ended := s.kept.endFetch
  unfold execSetupReadComplete
  split
  · exact s.kept
  · exact s.kept.clearBus
  · rename_i hy
    have hr : s.Placed → s.port.resetAsserted = false := fun ho => ho.released hy
    cases r with
    | busError => exact ended.failLoad hr (by decide) (by simp)
    | data bs =>
      dsimp only
      split
      · rw [leadsTo_next]
        unfold State.setupRead
        split
        · exact ended.fetchPiece rfl _ _ _
        · exact ended.failLoad hr (by decide) (by simp)
      · trivial

theorem State.Kept.loadSettings (h : o.Kept s) (g : Settings) : o.Kept (s.loadSettings g) := by
  have held := (h.setStore { s.store with reserves := g.reserves }).setDir
    (v := { s.dir with agingPeriod := g.agingPeriod, agingLimit := g.agingLimit, timer := 0 }) id
  exact held.setUnit rfl id id (List.Sublist.refl _)

theorem execSetupDescriptorPieceComplete_kept (s : State) (r : ReadOutcome) :
    leadsTo s.Kept (execSetupDescriptorPieceComplete r s) := by
  have ended := s.kept.endFetch
  unfold execSetupDescriptorPieceComplete
  split
  · exact s.kept
  · exact s.kept.clearBus
  · rename_i hy
    have hr : s.Placed → s.port.resetAsserted = false := fun ho => ho.released hy
    split
    · cases r with
      | busError => exact ended.failLoad hr (by decide) (by simp)
      | data bs =>
        dsimp only
        split
        · rw [leadsTo_next]
          unfold State.setupPiece
          split
          · split
            · exact State.Kept.fetchNext (op := .setupHalf) ((ended.loadSettings _).setLoad (l := .half _) rfl) rfl rfl
                (fun _ _ => nofun) _ _
            · exact ended.failLoad hr (by decide) (by simp)
          · exact ended.fetchPiece rfl _ _ _
        · trivial
    · exact s.kept.clearBus

theorem execSetupCxbReadComplete_kept (s : State) (r : ReadOutcome) : leadsTo s.Kept (execSetupCxbReadComplete r s) := by
  have ended := s.kept.endFetch
  unfold execSetupCxbReadComplete
  split
  · exact s.kept
  · exact s.kept.clearBus
  · rename_i hy
    have hr : s.Placed → s.port.resetAsserted = false := fun ho => ho.released hy
    split
    · rename_i d _
      cases r with
      | busError => exact ended.failLoad hr (by decide) (by simp)
      | data bs =>
        dsimp only
        split
        · rw [leadsTo_next]
          unfold State.setupHalfRead
          split
          · rename_i passed
            have carried := ended.setLoad (l := .writeBack d (readHalf bs)) passed
            exact carried.enqueue rfl fun _ _ _ hx => by cases hx
          · exact ended.failLoad hr (by decide) (by simp)
        · trivial
    · exact s.kept.clearBus

theorem execSetupWriteBackComplete_kept (s : State) (w : WriteOutcome) : leadsTo s.Kept (execSetupWriteBackComplete w s) := by
  have free := s.kept.clearBus
  unfold execSetupWriteBackComplete
  split
  · exact s.kept
  · exact free
  · rename_i hy
    obtain ⟨-, -, -, hf⟩ := State.onBus_liveBus hy
    split
    · rename_i d x hl
      cases w with
      | busError => exact free.failLoad (fun ho => ho.released hy) (by decide) (by simp)
      | done =>
        have attached : s.Kept (s.clearBus.attachCommit 0 d x) :=
          free.setClient (fun _ _ _ _ => rfl) fun hb _ => attachedContext_fits (by
            have := hb.loading
            rwa [hl] at this)
        rw [leadsTo_next]
        refine State.Kept.readChoice ((attached.setLoad (l := .idle) rfl).setPort
          (fun _ hs => Port.sound_moved hs.port hf (by decide) (by simp)) rfl (fun _ e => absurd e hf) (fun _ _ hp => by simp at hp)
          (fun _ _ hp => by cases hp) (fun _ _ _ => ?_) rfl)
        show ((s.clearBus.setClient 0 (attachedContext d x)).client 0).state = _
        rw [State.setClient_client_same]
        rfl
    · exact free

end Port

/-! ### Every command, and every step -/

section Steps
variable {s t : State}

/-- Every command leads to a state that keeps both pairs of invariants. -/
theorem exec_kept (s : State) (y : Instr) : leadsTo s.Kept (exec y s) := by
  cases y with
  | postReadComplete o => exact execPostReadComplete_kept s o
  | openParcel i => exact execOpen_kept s i
  | append i => exact execAppend_kept s i
  | cut i => exact execCut_kept s i
  | dispatch i => exact execDispatch_kept s i
  | send i => exact execSend_kept s i
  | forward i => exact execForward_kept s i
  | fetch i => exact execFetch_kept s i
  | release i => exact execRelease_kept s i
  | subscribe i => exact execSubscribe_kept s i
  | unsubscribe i => exact execUnsubscribe_kept s i
  | pin i => exact execPin_kept s i
  | unpin i => exact execUnpin_kept s i
  | attach i => exact execAttach_kept s i
  | detach i => exact execDetach_kept s i
  | query i => exact execQuery_kept s i
  | gatherPieceComplete o => exact execGatherPieceComplete_kept s o
  | scatterPieceComplete w => exact execScatterPieceComplete_kept s w
  | lookup i => exact execLookup_kept s i
  | admission i => exact execAdmission_kept s i
  | settlement i => exact execSettlement_kept s i
  | handOver i => exact execHandOver_kept s i
  | releaseAfterDrop i => exact execReleaseAfterDrop_kept s i
  | clientHalfReadComplete o => exact execClientHalfReadComplete_kept s o
  | deliveryClaim c => exact execDeliveryClaim_kept s c
  | returnClaim c => exact execReturnClaim_kept s c
  | recordWriteComplete w => exact execRecordWriteComplete_kept s w
  | writeBackComplete w => exact execWriteBackComplete_kept s w
  | signalWriteComplete w => exact execSignalWriteComplete_kept s w
  | grant => exact execGrant_kept s
  | tick => exact execTick_kept s
  | sweep => exact execSweep_kept s
  | lingerExpiry c => exact execLingerExpiry_kept s c
  | directoryPurge i => exact execDirectoryPurge_kept s i
  | pendingPurge i => exact execPendingPurge_kept s i
  | referenceWalkVisit i => exact execReferenceWalkVisit_kept s i
  | teardownCompletion i => exact execTeardownCompletion_kept s i
  | attachDescriptorPieceComplete o => exact execAttachDescriptorPieceComplete_kept s o
  | attachCxbReadComplete o => exact execAttachCxbReadComplete_kept s o
  | attachWriteBackComplete w => exact execAttachWriteBackComplete_kept s w
  | countRead i => exact execCountRead_kept s i
  | reportRead i => exact execReportRead_kept s i
  | reportWritePieceComplete w => exact execReportWritePieceComplete_kept s w
  | go => exact s.windowWrite_kept s.kept.goEvent
  | halt => exact s.windowWrite_kept fun _ => s.kept.haltEvent
  | restart => exact s.windowWrite_kept fun _ => s.restartEvent_kept
  | attend v => exact s.windowWrite_kept fun _ => s.kept.attendEvent v
  | setupAddressWrite high v => exact s.windowWrite_kept fun _ => s.kept.setupEvent high v
  | registerWrite a => exact s.access_kept a
  | setupReadComplete o => exact execSetupReadComplete_kept s o
  | setupDescriptorPieceComplete o => exact execSetupDescriptorPieceComplete_kept s o
  | setupCxbReadComplete o => exact execSetupCxbReadComplete_kept s o
  | setupWriteBackComplete w => exact execSetupWriteBackComplete_kept s w
  | resetPinAssert => exact execResetPinAssert_kept s
  | resetPinRelease => exact execResetPinRelease_kept s

/-- A step keeps both pairs of invariants. -/
theorem step_kept (e : step s = .next t) : s.Kept t := by
  unfold step at e
  split at e
  · cases e
    exact s.idlePeriod_kept
  · rename_i y rest _
    obtain ⟨hp, hb⟩ := (exec_kept (s.setPending rest) y).of_next e
    exact ⟨fun h => hp { h with apart := h.apart.of_slots rfl }, fun h => hb { h with }⟩

end Steps

/-- Settles O58: `step_kept`, with the two invariants taken together clause by clause (`State.placed_iff`). -/
theorem deviceAndSlotsStaySound : Obligations.DeviceAndSlotsStaySound :=
  fun _ _ hd hs e => State.placed_iff.1 ((step_kept e).placed (State.placed_iff.2 ⟨hd, hs⟩))

/-- Settles O59: `step_kept`, with the two invariants taken together clause by clause (`State.bounded_iff`). -/
theorem ringsAndListsStayWithinBounds : Obligations.RingsAndListsStayWithinBounds :=
  fun _ _ hr hc e => State.bounded_iff.1 ((step_kept e).bounded (State.bounded_iff.2 ⟨hr, hc⟩))

end Sys2Proof.Machine

/-!
PROOF. The values after the reset pin (O3), ATTEND (O9), the client-half read (O15) and the client fault (O17).
-/

namespace Sys2Proof.Machine

-- Elaborated one after the other: side by side, each declaration holds a thread with memory of its own.
set_option Elab.async false

/-! ### Reset (O3) -/

/-- Settles O3: every block of `State.reset` is its block's initial value, which is the tabled one. -/
theorem resetLeavesTheTabledValues : Obligations.ResetLeavesTheTabledValues := by
  have accounts : ∀ c, State.reset.store.account c = { held := 0, charged := { short := 0, long := 0 } } := by decide
  refine ⟨by decide, by decide, ⟨fun _ => rfl, by decide, by decide, fun c k => ?_, fun k => ?_⟩, by decide, by decide, by decide,
    by decide, by decide⟩
  · rw [accounts c]
    cases k <;> exact ⟨rfl, rfl⟩
  · cases k <;> exact ⟨rfl, rfl⟩

/-! ### ATTEND (O9) -/

section Attend
variable {s : State} {c d : ClientId}

/-- The clients of a list that satisfy a test join a set. -/
theorem has_foldl_withClient (p : ClientId → Prop) [DecidablePred p] (l : List ClientId) (x : ClientSet) :
    has (l.foldl (fun set c => if p c then withClient set c else set) x) d = (has x d || decide (d ∈ l ∧ p d)) := by
  induction l generalizing x with
  | nil => simp
  | cons c rest ih =>
    have joined : has (if p c then withClient x c else x) d = (has x d || decide (d = c ∧ p d)) := by
      by_cases hp : p c
      · rw [if_pos hp, withClient, has_or, Bool.eq_iff_iff, Bool.or_eq_true, Bool.or_eq_true, has_only, decide_eq_true_iff]
        exact or_congr_right ⟨fun e => ⟨e, e ▸ hp⟩, And.left⟩
      · have : ¬ (d = c ∧ p d) := fun ⟨e, h⟩ => hp (e ▸ h)
        simp [hp, this]
    rw [List.foldl_cons, ih, joined, Bool.or_assoc, ← Bool.decide_or]
    simp only [List.mem_cons, or_and_right]

theorem State.has_attendSet (s : State) (x : ClientSet) :
    has (s.attendSet x) d = (has s.intake.attendSet d || (has x d && (s.client d).state == .attached)) := by
  rw [State.attendSet, has_foldl_withClient (fun c => (s.client c).state = .attached)]
  congr 1
  rw [Bool.eq_iff_iff, decide_eq_true_iff, mem_members, Bool.and_eq_true, beq_iff_eq]

/-- Settles O9: the write is taken in the states in which clients are served, and each ATTACHED client that it names joins. -/
theorem attendAddsAttachedClients : Obligations.AttendAddsAttachedClients := by
  intro s v hr
  have taken : exec (.attend v) s = .next ((s.attendEvent v).answered .written) := by
    simp [exec, execAttend, State.windowWrite, hr]
  refine ⟨?_, fun hd => ?_, fun hd => ⟨s.attendSet (v.extractLsb' 0 8), ?_, fun c => ?_⟩⟩
  · rw [taken]
    simp [exec, execRegisterWrite, State.access, hr, State.writeWord]
  · have idle : s.active = false := by
      rw [Bool.eq_false_iff, ne_eq, State.active_iff]
      rintro ⟨-, h⟩
      rcases hd with e | e | e <;> simp [State.serving, e] at h
    rw [taken, State.attendEvent, idle]
    rfl
  · rw [taken, State.attendEvent, State.active_iff.2 ⟨hr, hd⟩]
    rfl
  · rw [State.has_attendSet]
    congr 2
    simp only [has, BitVec.getLsbD_extractLsb', c.isLt, decide_true, Bool.true_and, Nat.zero_add]

end Attend

/-! ### Client-half reads (O15) -/

section HalfRead
variable {c : ClientId} {bs : List Byte}

theorem State.endHalfRead_passed (s : State) (ha : (s.client c).state = .attached) (h : (s.client c).tallyOk (readHalf bs) = true) :
    s.endHalfRead c (.data bs) = s.setClient c ((s.client c).record (readHalf bs)) := by
  rw [State.endHalfRead, if_pos ha]
  exact if_pos h

theorem State.endHalfRead_refused (s : State) (ha : (s.client c).state = .attached) (h : ¬ (s.client c).tallyOk (readHalf bs) = true) :
    s.endHalfRead c (.data bs) = s.clientFault c .tally := by
  rw [State.endHalfRead, if_pos ha]
  exact if_neg h

theorem State.endHalfRead_busError (s : State) (ha : (s.client c).state = .attached) :
    s.endHalfRead c .busError = s.clientFault c .cxbRead := if_pos ha

theorem State.endHalfRead_ignored (s : State) (r : ReadOutcome) (hn : (s.client c).state ≠ .attached) :
    s.endHalfRead c r = s := if_neg hn

end HalfRead

/-- Settles O15: the outcome of the live read by the state of its client and the tally check, spelled out. -/
theorem clientHalfReadIsJudged : Obligations.ClientHalfReadIsJudged := by
  intro s x c hx hop
  have hbus : s.onBus TxnOp.clientHalfOf = .live c x := State.onBus_live hx (by rw [hop]; rfl)
  have run : ∀ r : ReadOutcome, r.hasLength 32 = true →
      exec (.clientHalfReadComplete r) s = .next (s.endFetch.endHalfRead c r).readChoice := by
    intro r hr
    simp [exec, execClientHalfReadComplete, hbus, hr]
  have check : ∀ h : ClientHalf, (s.client c).tallyOk h = true ↔
      (h.postTally - (s.client c).post.taken).toNat ≤ (s.client c).post.size ∧
        ((s.client c).ret.claimed - h.retTaken).toNat ≤ (s.client c).ret.size ∧
        ((s.client c).del.claimed - h.delTaken).toNat ≤ (s.client c).del.size := by
    intro h
    simp only [Client.tallyOk, tallyCheck, Bool.and_eq_true, decide_eq_true_eq, and_assoc]
  refine ⟨fun bs hbs ha => ⟨fun ok => ?_, fun bad => ?_⟩, fun ha => ?_, fun r hr hn => ?_⟩
  · rw [run _ (by simp [ReadOutcome.hasLength, hbs]), s.endFetch.endHalfRead_passed ha ((check _).2 ok)]
    rfl
  · rw [run _ (by simp [ReadOutcome.hasLength, hbs]), s.endFetch.endHalfRead_refused ha fun ok => bad ((check _).1 ok)]
    rfl
  · rw [run _ rfl, s.endFetch.endHalfRead_busError ha]
    rfl
  · rw [run _ hr, s.endFetch.endHalfRead_ignored r hn]
    rfl

/-! ### Client faults (O17) -/

section Faults
variable {s : State} {c d : ClientId} {n : OutRingName} {x : FaultReason}

/-- A write-back or signal of a ring waits for its grant. -/
def State.tailWaits (s : State) (c : ClientId) (n : OutRingName) : Bool := s.unit.writer.any (fun y => y.op.isTail c n)

theorem State.tailWaits_iff : s.tailWaits c n = true ↔ ∃ y ∈ s.unit.writer, y.op = .writeBack c n ∨ y.op = .signal c n := by
  simp [State.tailWaits, TxnOp.isTail]

/-- The withdrawals of a client fault (R56, R188). -/
def State.withdrawTails (s : State) (c : ClientId) : State := (s.withdrawTail c .ret).withdrawTail c .del

/-- The record writer's transactions that a fault of the client does not withdraw. -/
def State.untailed (s : State) (c : ClientId) : List Txn := s.unit.writer.filter (fun y =>
  !(y.op == .writeBack c .ret || y.op == .signal c .ret || y.op == .writeBack c .del || y.op == .signal c .del))

theorem State.withdrawTails_unit (s : State) (c : ClientId) :
    (s.withdrawTails c).unit = { s.unit with writer := s.untailed c } := by
  rw [State.withdrawTails, State.withdrawTail_unit, State.withdrawTail_unit, List.filter_filter]
  refine congrArg (fun l => ({ s.unit with writer := l } : DeliveryUnit)) (List.filter_congr fun y _ => ?_)
  simp only [TxnOp.isTail, Bool.not_or, Bool.and_assoc]
  rw [Bool.and_comm, Bool.and_assoc, Bool.and_comm]
  simp only [Bool.and_assoc]

theorem State.withdrawTail_tailWaits (s : State) (c : ClientId) : (s.withdrawTail c .ret).tailWaits c .del = s.tailWaits c .del := by
  rw [Bool.eq_iff_iff, State.tailWaits_iff, State.tailWaits_iff, State.withdrawTail_unit]
  simp only [List.mem_filter]
  refine exists_congr fun y => ⟨fun ⟨⟨h, _⟩, e⟩ => ⟨h, e⟩, fun ⟨h, e⟩ => ⟨⟨h, ?_⟩, e⟩⟩
  rcases e with e | e <;> simp [e, TxnOp.isTail]

theorem State.withdrawTail_ring (s : State) (c : ClientId) (n : OutRingName) : (s.withdrawTail c n).client c =
    (s.client c).setRing n { (s.client c).ring n with inFlight := ((s.client c).ring n).inFlight && !(s.tailWaits c n) } := by
  rw [State.withdrawTail_client, State.tailWaits]
  split
  · rename_i h
    rw [h, Bool.not_true, Bool.and_false]
  · rename_i h
    rw [Bool.eq_false_iff.2 h, Bool.not_false, Bool.and_true]
    cases n <;> rfl

/-- The withdrawals end the write in flight of a ring of which something waited, and nothing else of the client changes. -/
theorem State.withdrawTails_client (s : State) (c : ClientId) : (s.withdrawTails c).client c = { s.client c with
    ret := { (s.client c).ret with inFlight := (s.client c).ret.inFlight && !(s.tailWaits c .ret) },
    del := { (s.client c).del with inFlight := (s.client c).del.inFlight && !(s.tailWaits c .del) } } := by
  rw [State.withdrawTails, State.withdrawTail_ring, State.withdrawTail_tailWaits, State.withdrawTail_ring]
  rfl

theorem State.withdrawTails_client_other (s : State) (h : d ≠ c) : (s.withdrawTails c).client d = s.client d := by
  rw [State.withdrawTails, State.withdrawTail_client_other _ _ h, State.withdrawTail_client_other _ _ h]

/-- A write of the client is in flight that its fault does not withdraw. -/
def State.writeHolds (s : State) (c : ClientId) : Bool :=
  (s.client c).ret.inFlight && !(s.tailWaits c .ret) || (s.client c).del.inFlight && !(s.tailWaits c .del)

theorem State.writeHolds_false_iff : s.writeHolds c = false ↔ ∀ n, ((s.client c).ring n).inFlight = false ∨
    ∃ y ∈ s.unit.writer, y.op = .writeBack c n ∨ y.op = .signal c n := by
  have ring : ∀ n : OutRingName, (((s.client c).ring n).inFlight && !(s.tailWaits c n)) = false ↔
      (((s.client c).ring n).inFlight = false ∨ ∃ y ∈ s.unit.writer, y.op = .writeBack c n ∨ y.op = .signal c n) := by
    intro n
    rw [Bool.and_eq_false_iff, Bool.not_eq_false', State.tailWaits_iff]
  rw [State.writeHolds, Bool.or_eq_false_iff]
  exact ⟨fun ⟨hr, hd⟩ n => by cases n <;> [exact (ring .ret).1 hr; exact (ring .del).1 hd],
    fun h => ⟨(ring .ret).2 (h .ret), (ring .del).2 (h .del)⟩⟩

/-- A notice changes the notice list or the lost count alone (R172). -/
theorem State.queueNotice_unit (s : State) (y : Notice) : (s.queueNotice y).unit =
    if s.unit.notices.length < 8 then { s.unit with notices := s.unit.notices ++ [{ notice := y, tick := s.port.tickCount }] }
    else { s.unit with lost := min (s.unit.lost + 1) 65535 } := by
  unfold State.queueNotice
  split <;> rename_i h
  · exact (if_pos h).symm
  · exact (if_neg h).symm

/-- What a fault of a client 1 to 7 leaves before the final write-back is asked for (R56). -/
def State.faultMarked (s : State) (c : ClientId) (x : FaultReason) : State :=
  ((s.setClient c { s.client c with state := .faulted, reason := some x, finalDue := x.callsForFinal }).leaveSets
    c).queueNotice (.clientFault c x)

theorem State.clientFault_other (ha : (s.client c).state = .attached) (hc : c ≠ 0) :
    s.clientFault c x = ((s.faultMarked c x).withdrawTails c).requestFinal c := by
  rw [State.clientFault, if_pos ha, if_neg hc]
  rfl

theorem State.clientFault_supervisor (ha : (s.client 0).state = .attached) : s.clientFault 0 x =
    ((s.setClient 0 { s.client 0 with state := .faulted, reason := some x }).failDevice .supervisorFault
      (some x)).withdrawTails 0 := by
  rw [State.clientFault, if_pos ha, if_pos rfl]
  rfl

theorem State.faultMarked_client (s : State) (c : ClientId) (x : FaultReason) : (s.faultMarked c x).client c =
    { s.client c with state := .faulted, reason := some x, finalDue := x.callsForFinal } := by
  rw [State.faultMarked, State.queueNotice_client]
  exact State.setClient_client_same _ _ _

theorem State.faultMarked_client_other (s : State) (h : d ≠ c) (x : FaultReason) : (s.faultMarked c x).client d = s.client d := by
  rw [State.faultMarked, State.queueNotice_client]
  exact State.setClient_client_other _ h _

theorem State.faultMarked_unit (s : State) (c : ClientId) (x : FaultReason) : (s.faultMarked c x).unit =
    (s.queueNotice (.clientFault c x)).unit := by
  rw [State.faultMarked, State.queueNotice_unit, State.queueNotice_unit]
  rfl

theorem State.faultMarked_writer (s : State) (c : ClientId) (x : FaultReason) :
    (s.faultMarked c x).unit.writer = s.unit.writer := by
  rw [State.faultMarked_unit, State.queueNotice_writer]

theorem State.faultMarked_tailWaits (s : State) (c : ClientId) (x : FaultReason) (n : OutRingName) :
    (s.faultMarked c x).tailWaits c n = s.tailWaits c n := by
  rw [State.tailWaits, State.faultMarked_writer]
  rfl

/-- What the withdrawals of a fault of a client 1 to 7 leave of its context. -/
theorem State.faulted_client (s : State) (c : ClientId) (x : FaultReason) :
    ((s.faultMarked c x).withdrawTails c).client c = { s.client c with
      state := .faulted, reason := some x, finalDue := x.callsForFinal
      ret := { (s.client c).ret with inFlight := (s.client c).ret.inFlight && !(s.tailWaits c .ret) }
      del := { (s.client c).del with inFlight := (s.client c).del.inFlight && !(s.tailWaits c .del) } } := by
  rw [State.withdrawTails_client, State.faultMarked_tailWaits, State.faultMarked_tailWaits, State.faultMarked_client]

theorem State.faulted_unit (s : State) (c : ClientId) (x : FaultReason) : ((s.faultMarked c x).withdrawTails c).unit =
    { (s.queueNotice (.clientFault c x)).unit with writer := s.untailed c } := by
  rw [State.withdrawTails_unit, State.untailed, State.faultMarked_writer, State.faultMarked_unit]
  rfl

/-- A fault of a client 1 to 7 leaves nothing of its context but its state, its reason, what is owed and the ends of the writes
withdrawn (R56, R68). -/
theorem State.clientFault_client (ha : (s.client c).state = .attached) (hc : c ≠ 0) : (s.clientFault c x).client c =
    { s.client c with
      state := .faulted, reason := some x, finalDue := x.callsForFinal && s.writeHolds c
      ret := { (s.client c).ret with inFlight := (s.client c).ret.inFlight && !(s.tailWaits c .ret) }
      del := { (s.client c).del with inFlight := (s.client c).del.inFlight && !(s.tailWaits c .del) } } := by
  have marked := s.faulted_client c x
  rw [State.clientFault_other ha hc, State.requestFinal]
  dsimp only
  split
  · rename_i h
    simp only [marked, Bool.and_eq_true, Bool.not_eq_true', and_assoc] at h
    rw [State.setClient_client_same, marked, State.writeHolds, h.2.1, h.2.2, Bool.or_false, Bool.and_false]
  · rename_i h
    rw [marked] at h ⊢
    rw [Bool.not_eq_true, Bool.and_assoc, ← Bool.not_or] at h
    cases hx : x.callsForFinal with
    | false => rfl
    | true =>
      rw [hx, Bool.true_and, Bool.not_eq_false'] at h
      rw [State.writeHolds, h]
      rfl

theorem State.clientFault_client_other (x : FaultReason) (h : d ≠ c) (hc : c ≠ 0) : (s.clientFault c x).client d = s.client d := by
  by_cases ha : (s.client c).state = .attached
  · rw [State.clientFault_other ha hc, State.requestFinal_client_other _ h, State.withdrawTails_client_other _ h,
      State.faultMarked_client_other _ h]
  · rw [State.clientFault_ignored _ x ha]

/-- A fault of a client 1 to 7 queues its notice and leaves of the record writer's transactions those that it does not withdraw,
with the final write-back if it is owed and nothing of the client is in flight (R56, R68, R172). -/
theorem State.clientFault_unit (ha : (s.client c).state = .attached) (hc : c ≠ 0) : (s.clientFault c x).unit =
    { (s.queueNotice (.clientFault c x)).unit with
      writer := s.untailed c ++ if x.callsForFinal && !s.writeHolds c then [finalWriteBackTxn s c] else [] } := by
  have marked := s.faulted_client c x
  have hw : (x.callsForFinal && !((s.client c).ret.inFlight && !(s.tailWaits c .ret)) &&
      !((s.client c).del.inFlight && !(s.tailWaits c .del))) = (x.callsForFinal && !s.writeHolds c) := by
    rw [State.writeHolds, Bool.not_or, Bool.and_assoc]
  rw [State.clientFault_other ha hc, State.requestFinal]
  simp only [marked, hw]
  split
  · show ({ ((s.faultMarked c x).withdrawTails c).unit with writer := _ } : DeliveryUnit) = _
    rw [State.faulted_unit, finalWriteBackTxn, marked]
    rfl
  · rw [State.faulted_unit, List.append_nil]

/-- A fault of client 0 fails the device (R187). -/
theorem State.clientFault_supervisor_port (x : FaultReason) (ha : (s.client 0).state = .attached) :
    (s.clientFault 0 x).port = s.port.failed .supervisorFault (some x) := by
  rw [State.clientFault_supervisor ha, State.withdrawTails, State.withdrawTail_port, State.withdrawTail_port]
  rfl

theorem State.clientFault_supervisor_client (x : FaultReason) (ha : (s.client 0).state = .attached) : (s.clientFault 0 x).client 0 =
    { s.client 0 with
      state := .faulted, reason := some x
      ret := { (s.client 0).ret with inFlight := (s.client 0).ret.inFlight && !(s.tailWaits 0 .ret) }
      del := { (s.client 0).del with inFlight := (s.client 0).del.inFlight && !(s.tailWaits 0 .del) } } := by
  rw [State.clientFault_supervisor ha, State.withdrawTails_client, State.failDevice, State.setPort_client,
    State.setClient_client_same]
  rfl

theorem State.clientFault_supervisor_unit (x : FaultReason) (ha : (s.client 0).state = .attached) : (s.clientFault 0 x).unit =
    { s.unit with writer := s.untailed 0 } := by
  rw [State.clientFault_supervisor ha, State.withdrawTails_unit]
  rfl

theorem State.clientFault_port (x : FaultReason) (hc : c ≠ 0) : (s.clientFault c x).port = s.port := by
  by_cases ha : (s.client c).state = .attached
  · rw [State.clientFault_other ha hc, State.requestFinal_port, State.withdrawTails, State.withdrawTail_port,
      State.withdrawTail_port, State.faultMarked, State.queueNotice_port]
    rfl
  · rw [State.clientFault_ignored _ x ha]

theorem State.clientFault_intake (ha : (s.client c).state = .attached) (hc : c ≠ 0) : (s.clientFault c x).intake =
    { s.intake with attendSet := without s.intake.attendSet c, refreshSet := without s.intake.refreshSet c } := by
  rw [State.clientFault_other ha hc, State.requestFinal_intake, State.withdrawTails, State.withdrawTail_intake,
    State.withdrawTail_intake, State.faultMarked, State.queueNotice_intake]
  rfl

theorem FaultReason.callsForFinal_iff : x.callsForFinal = true ↔ x = .postRead ∨ x = .cxbRead ∨ x = .tally := by
  cases x <;> simp [FaultReason.callsForFinal]

/-- Settles O17: the context, the unit, the port and the Intake after a fault, by the client and its state. -/
theorem clientFaultsByState : Obligations.ClientFaultsByState := by
  intro s c x
  refine ⟨fun ha hc => ?_, fun ha => ?_, fun hn => s.clientFault_ignored x hn⟩
  · have client := State.clientFault_client (x := x) ha hc
    have unit := State.clientFault_unit (x := x) ha hc
    rw [State.queueNotice_unit] at unit
    refine ⟨by rw [client], by rw [client], fun d hd => State.clientFault_client_other x hd hc, State.clientFault_intake ha hc,
      fun hroom => ?_, fun hfull => ?_, ?_, ?_, State.clientFault_port x hc, by simp, by simp, by simp, ?_⟩
    · rw [unit, if_pos hroom]
      exact ⟨rfl, rfl⟩
    · rw [unit, if_neg (Nat.not_lt.2 hfull)]
      exact ⟨rfl, rfl⟩
    · rw [unit]
      split <;> rfl
    · rintro owed idle howed hidle others rfl
      rw [← FaultReason.callsForFinal_iff] at howed
      rw [← State.writeHolds_false_iff] at hidle
      rw [unit, client, howed, hidle]
      cases x.callsForFinal <;> cases s.writeHolds c <;> simp [State.untailed, finalWriteBackTxn]
    · rw [unit]
      split <;> rfl
  · rw [State.clientFault_supervisor_client x ha, State.clientFault_supervisor_unit x ha]
    exact ⟨rfl, rfl, State.clientFault_supervisor_port x ha, rfl, rfl⟩

end Faults

end Sys2Proof.Machine

/-!
PROOF. The claims of the return ring (O43).
-/

namespace Sys2Proof.Machine

-- Elaborated one after the other: side by side, each declaration holds a thread with memory of its own.
set_option Elab.async false

section Claims
variable {s : State} {i : SlotId} {c d : ClientId} {n : OutRingName} {w : RecordKind} {b : Byte → List Byte} {x : Completion}

/-! ### What a claim changes (R69, R64) -/

theorem State.claimRing_client_other (h : d ≠ c) : (s.claimRing c n w b).client d = s.client d := by
  have other : ∀ u : State, u.clients = (s.setClient c ((s.client c).setRing n
      { (s.client c).ring n with claimed := ((s.client c).ring n).claimed + 1, inFlight := true })).clients →
      u.client d = s.client d := by
    intro u hu
    rw [State.client, hu]
    exact State.setClient_client_other _ h _
  unfold State.claimRing
  dsimp only
  split
  · exact other _ (State.addRefresh_clients _ _)
  · exact other _ rfl

/-- The claim that fills the ring adds its ATTACHED client to the refresh set (R64). -/
theorem State.claimRing_intake (ha : (s.client c).state = .attached) : (s.claimRing c n w b).intake =
    if (((s.client c).ring n).claimed + 1 - ((s.client c).ring n).lastTaken).toNat = ((s.client c).ring n).size then
      { s.intake with refreshSet := withClient s.intake.refreshSet c } else s.intake := by
  unfold State.claimRing
  dsimp only
  split
  · rename_i full
    rw [State.addRefresh, if_pos]
    · exact (if_pos full).symm
    · exact (congrArg Client.state (State.setClient_client_same _ _ _)).trans ((Client.setRing_state _ _ _).trans ha)
  · rename_i room
    exact (if_neg room).symm

/-! ### Which record a return claim takes (R84, R85) -/

theorem find?_finRange {m : Nat} {p : Fin m → Bool} {k : Fin m} (hk : p k = true) (hfirst : ∀ j, j < k → p j = false) :
    (List.finRange m).find? p = some k := by
  rw [List.find?_eq_some_iff_getElem]
  refine ⟨hk, k.val, by simp, by simp, fun j hj => ?_⟩
  rw [List.getElem_finRange, Bool.not_eq_true']
  exact hfirst _ hj

theorem State.slotOf_first (hn : (s.slot i).state ≠ .free) (hc : (s.slot i).client = some c)
    (hfirst : ∀ j, j < i → (s.slot j).state = .free ∨ (s.slot j).client ≠ some c) : s.slotOf c = some i := by
  refine find?_finRange (by simp [hn, hc]) fun j hj => ?_
  rcases hfirst j hj with h | h <;> simp [h]

theorem State.heldCompletion_of (hs : s.slotOf c = some i) (hh : (s.slot i).state = .held) (hx : (s.slot i).completion = some x) :
    s.heldCompletion c = some (i, x) := by
  simp only [State.heldCompletion, hs, hh, hx]

theorem State.claimClient_of (h : s.heldCompletion c = some (i, x)) : s.claimClient c = some (s.claimCompletion c i x) := by
  simp only [State.claimClient, h]

/-- Client 0's completion goes before the notices queued after it (R85). -/
theorem State.claimSupervisor_completion (h : s.heldCompletion 0 = some (i, x)) (hn : s.unit.notices = [] ∨ s.unit.noticesAhead = 0) :
    s.claimSupervisor = some (s.claimCompletion 0 i x) := by
  unfold State.claimSupervisor
  rw [h]
  rcases hn with hn | hn
  · rw [hn]
  · cases s.unit.notices with
    | nil => rfl
    | cons q rest => exact if_pos hn

/-- The notices queued before client 0's completion go first, and so does any with no completion held (R85, R173). -/
theorem State.claimSupervisor_notice {q : QueuedNotice} {rest : List QueuedNotice} (hq : s.unit.notices = q :: rest)
    (hn : s.heldCompletion 0 = none ∨ 0 < s.unit.noticesAhead) : s.claimSupervisor = some (s.claimNotice q rest) := by
  unfold State.claimSupervisor
  rw [hq]
  cases h : s.heldCompletion 0 with
  | none => rfl
  | some y =>
    obtain ⟨i, x⟩ := y
    have ahead : s.unit.noticesAhead ≠ 0 := by
      rcases hn with hn | hn
      · rw [h] at hn; cases hn
      · exact Nat.pos_iff_ne_zero.1 hn
    exact if_neg ahead

theorem execReturnClaim_next {t : State} (hc : s.canClaim c .ret = true)
    (ht : (if c = 0 then s.claimSupervisor else s.claimClient c) = some t) : exec (.returnClaim c) s = .next t.readChoice := by
  simp only [exec, execReturnClaim, hc, if_true, ht]

theorem State.formCompletion_unit_supervisor (x : Completion) (hc : (s.slot i).client = some 0) (hd : (s.client 0).state ≠ .draining) :
    (s.formCompletion i x).unit = { s.unit with noticesAhead := s.unit.notices.length } := by
  rw [State.formCompletion_held _ x hc hd, if_pos rfl]
  rfl

/-- Settles O43: the record that a claim takes by the order of completion and notices, and the ring, the queue and the refresh set
that the claim leaves. -/
theorem returnClaimTakesTheOldest : Obligations.ReturnClaimTakesTheOldest := by
  refine ⟨fun s i x hc hd => ⟨State.formCompletion_ends x hc hd, State.formCompletion_unit_supervisor x hc hd⟩,
    fun s n => s.queueNotice_unit n, fun s c hactive ha room idle => ?_⟩
  have can : s.canClaim c .ret = true := State.canClaim_iff.2 ⟨hactive, ha, room, idle⟩
  refine ⟨fun i x hc hh hfirst hx hn => ?_, fun q rest h0 hq hn => ?_⟩
  · have held := State.heldCompletion_of (State.slotOf_first (by rw [hh]; decide) hc hfirst) hh hx
    have claimed : (if c = 0 then s.claimSupervisor else s.claimClient c) = some (s.claimCompletion c i x) := by
      split
      · subst c
        exact State.claimSupervisor_completion held (hn rfl)
      · exact State.claimClient_of held
    refine ⟨_, execReturnClaim_next can claimed, ?_, fun j hj => ?_, fun d => ?_, ?_, ?_, by simp [State.claimCompletion],
      by simp [State.claimCompletion], by simp [State.claimCompletion], by simp [State.claimCompletion]⟩
    · rw [State.claimCompletion, State.slot_of_slots (State.claimRing_slots _ _ _ _ _), State.setSlot_slot_same]
    · rw [State.claimCompletion, State.slot_of_slots (State.claimRing_slots _ _ _ _ _), State.setSlot_slot_other _ hj]
    · split
      · subst d
        exact State.claimRing_client _ _ _ _ _
      · exact State.claimRing_client_other ‹_›
    · exact State.claimRing_unit _ _ _ _ _
    · exact State.claimRing_intake ha
  · subst c
    have claimed : (if (0 : ClientId) = 0 then s.claimSupervisor else s.claimClient 0) = some (s.claimNotice q rest) :=
      State.claimSupervisor_notice hq hn
    refine ⟨_, execReturnClaim_next can claimed, by simp [State.claimNotice], fun d => ?_, ?_, ?_, by simp [State.claimNotice],
      by simp [State.claimNotice], by simp [State.claimNotice], by simp [State.claimNotice]⟩
    · split
      · subst d
        exact State.claimRing_client _ _ _ _ _
      · exact State.claimRing_client_other ‹_›
    · exact State.claimRing_unit _ _ _ _ _
    · exact State.claimRing_intake ha

end Claims

end Sys2Proof.Machine

/-!
PROOF. The end of a write of a ring, and the completions of record writes (O44).
-/

namespace Sys2Proof.Machine

-- Elaborated one after the other: side by side, each declaration holds a thread with memory of its own.
set_option Elab.async false

section Writes
variable {s t u : State} {i : SlotId} {c d : ClientId} {n m : OutRingName} {what : RecordKind}

/-! ### The end of a ring's write (R68, R69) -/

/-- The context of a client whose ring's write has ended. -/
def Client.endWrite (x : Client) (n : OutRingName) : Client := x.setRing n { x.ring n with inFlight := false }

theorem Client.endWrite_ring (x : Client) (n : OutRingName) :
    (x.endWrite n).ring n = { x.ring n with inFlight := false } := Client.setRing_ring_same _ _ _

/-- The final write-back waits for no other write than those of the client's other rings. -/
theorem Client.endWrite_idle (x : Client) (n : OutRingName) :
    ((x.endWrite n).ret.inFlight = false ∧ (x.endWrite n).del.inFlight = false) ↔ ∀ m, m ≠ n → (x.ring m).inFlight = false := by
  constructor
  · rintro ⟨hr, hd⟩ m hm
    match n, m with
    | .ret, .ret => exact absurd rfl hm
    | .ret, .del => exact hd
    | .del, .ret => exact hr
    | .del, .del => exact absurd rfl hm
  · intro h
    cases n with
    | ret => exact ⟨rfl, h .del (by decide)⟩
    | del => exact ⟨h .ret (by decide), rfl⟩

theorem State.requestFinal_endRing_client (s : State) (c : ClientId) (n : OutRingName) :
    (((s.endRing c n).requestFinal c).client c) = { (s.client c).endWrite n with
      finalDue := (((s.endRing c n).requestFinal c).client c).finalDue } := by
  rw [State.requestFinal_client, State.endRing_client]
  rfl

/-- The write of a ring ends in a state whose owed write-back, writes and unit are those of `s`. -/
theorem State.endsWrite_of (hx : (u.client c).finalDue = (s.client c).finalDue) (ha : (u.client c).cxb = (s.client c).cxb)
    (hf : ∀ m, ((u.client c).ring m).inFlight = ((s.client c).ring m).inFlight) (hu : u.unit = s.unit)
    (hc : t.client c = ((u.endRing c n).requestFinal c).client c) (ht : t.unit = ((u.endRing c n).requestFinal c).unit) :
    s.endsWrite t c n := by
  have ended : (u.endRing c n).client c = (u.client c).endWrite n := State.endRing_client _ _ _
  have due : ((u.client c).endWrite n).finalDue = (s.client c).finalDue := (Client.setRing_finalDue _ _ _).trans hx
  have idle := (u.client c).endWrite_idle n
  simp only [hf] at idle
  refine ⟨?_, fun hdue hidle => ?_, fun hwait => ?_⟩
  · rw [hc, State.requestFinal_endRing_client]
    show (((u.client c).endWrite n).ring n).inFlight = false
    rw [Client.endWrite_ring]
  · obtain ⟨hr, hd⟩ := idle.2 hidle
    have asks := State.requestFinal_asks (u.endRing c n) (c := c) (by rw [ended, due, hdue, hr, hd]; rfl)
    rw [hc, ht, asks]
    refine ⟨by rw [State.setClient_client_same], ?_⟩
    show ({ u.unit with writer := u.unit.writer ++ [finalWriteBackTxn (u.endRing c n) c] } : DeliveryUnit) = _
    rw [hu, finalWriteBackTxn, ended, Client.endWrite, Client.setRing_cxb, ha]
  · have waits := State.requestFinal_waits (u.endRing c n) (c := c) (by
      rw [ended, due, Bool.and_eq_false_iff, Bool.and_eq_false_iff, Bool.not_eq_false', Bool.not_eq_false']
      by_contra hno
      rw [not_or, not_or, Bool.not_eq_false, Bool.not_eq_true, Bool.not_eq_true] at hno
      obtain ⟨⟨hdue, hr⟩, hd⟩ := hno
      rcases hwait with h | ⟨m, hm, h⟩
      · rw [hdue] at h; cases h
      · rw [idle.1 ⟨hr, hd⟩ m hm] at h; cases h)
    rw [hc, ht, waits, ended, due]
    exact ⟨rfl, hu⟩

theorem State.requestFinal_endRing_client_other (s : State) (h : d ≠ c) (n : OutRingName) :
    ((s.endRing c n).requestFinal c).client d = s.client d := by
  rw [State.requestFinal_client_other _ h, State.endRing_client_other _ _ h]

/-! ### The slot of a completion (R86) -/

@[simp] theorem State.releaseRecord_unit (s : State) (what : RecordKind) : (s.releaseRecord what).unit = s.unit := by
  cases what <;> simp [State.releaseRecord]
@[simp] theorem State.releaseRecord_client (s : State) (what : RecordKind) (d : ClientId) :
    (s.releaseRecord what).client d = s.client d := by
  cases what <;> simp [State.releaseRecord]
@[simp] theorem State.releaseRecord_dir (s : State) (what : RecordKind) : (s.releaseRecord what).dir = s.dir := by
  cases what <;> simp [State.releaseRecord]
@[simp] theorem State.releaseRecord_arb (s : State) (what : RecordKind) : (s.releaseRecord what).arb = s.arb := by
  cases what <;> simp [State.releaseRecord]

/-- The slot of a completion becomes FREE, and a record of another kind has none. -/
theorem State.releaseRecord_frees (what : RecordKind) (hs : u.slots = s.slots) (hp : u.port = s.port)
    (hd : ∀ e, (u.client e).state = .draining → (s.client e).state = .draining) :
    (∀ i, what = .completion i → s.frees (u.releaseRecord what) i) ∧
      ((∀ i, what ≠ .completion i) → (u.releaseRecord what).slots = s.slots ∧ (u.releaseRecord what).port = s.port) := by
  cases what with
  | completion i =>
    refine ⟨fun j hj => ?_, fun hn => absurd rfl (hn i)⟩
    cases hj
    exact State.frees_congr hs hp hd (State.freeSlot_frees u i false)
  | notice => exact ⟨fun _ => nofun, fun _ => ⟨hs, hp⟩⟩
  | delivery => exact ⟨fun _ => nofun, fun _ => ⟨hs, hp⟩⟩

/-- A client drains in a state that differs from `s` in the context of a client in another state. -/
theorem draining_of (hc : (u.client c).state = .draining → (s.client c).state = .draining)
    (ho : ∀ e, e ≠ c → u.client e = s.client e) (e : ClientId) (he : (u.client e).state = .draining) :
    (s.client e).state = .draining := by
  by_cases h : e = c
  · subst h; exact hc he
  · rwa [ho e h] at he

/-! ### Record writes by the state of the client -/

/-- The context of a client of whose ring a record has been written (R70). -/
def Client.counted (x : Client) (n : OutRingName) (what : RecordKind) : Client :=
  let y := x.setRing n { x.ring n with written := (x.ring n).written + 1 }
  if what = .delivery then { y with placed := y.placed + 1 } else y

theorem Client.counted_ring_inFlight (x : Client) (n m : OutRingName) (what : RecordKind) :
    ((x.counted n what).ring m).inFlight = (x.ring m).inFlight := by
  unfold Client.counted
  dsimp only
  split <;> cases n <;> cases m <;> rfl

theorem Client.counted_written (x : Client) (n : OutRingName) (what : RecordKind) :
    ((x.counted n what).ring n).written = (x.ring n).written + 1 := by
  unfold Client.counted
  dsimp only
  split <;> cases n <;> rfl

theorem Client.counted_placed (x : Client) (n : OutRingName) (what : RecordKind) :
    (x.counted n what).placed = x.placed + (if what = .delivery then 1 else 0) := by
  unfold Client.counted
  dsimp only
  split
  · rw [Client.setRing_placed]
  · exact (Client.setRing_placed _ _ _).trans (BitVec.add_zero _).symm

theorem Client.counted_state (x : Client) (n : OutRingName) (what : RecordKind) : (x.counted n what).state = x.state := by
  unfold Client.counted
  dsimp only
  split <;> exact Client.setRing_state _ _ _

theorem Client.counted_finalDue (x : Client) (n : OutRingName) (what : RecordKind) :
    (x.counted n what).finalDue = x.finalDue := by
  unfold Client.counted
  dsimp only
  split <;> exact Client.setRing_finalDue _ _ _

theorem Client.counted_cxb (x : Client) (n : OutRingName) (what : RecordKind) : (x.counted n what).cxb = x.cxb := by
  unfold Client.counted
  dsimp only
  split <;> exact Client.setRing_cxb _ _ _

theorem State.countWritten_client (s : State) (c : ClientId) (n : OutRingName) (what : RecordKind) :
    (s.countWritten c n what).client c = (s.client c).counted n what := State.setClient_client_same _ _ _

theorem State.countWritten_client_other (s : State) (h : d ≠ c) (n : OutRingName) (what : RecordKind) :
    (s.countWritten c n what).client d = s.client d := State.setClient_client_other _ h _

theorem State.recordFailed_fault (hw : what ≠ .notice) (hc : c ≠ 0) :
    s.recordFailed c n what = ((s.endRing c n).clientFault c .recordWrite).releaseRecord what := by
  cases what with
  | completion i => exact if_neg hc
  | notice => exact absurd rfl hw
  | delivery => rfl

theorem State.recordFailed_supervisor (hw : what ≠ .notice) :
    s.recordFailed 0 n what = (s.endRing 0 n).clientFault 0 .recordWrite := by
  cases what with
  | completion i =>
    unfold State.recordFailed
    exact if_pos rfl
  | notice => exact absurd rfl hw
  | delivery => rfl

theorem State.endRecord_attached (ha : (s.client c).state = .attached) : s.endRecord c n what .done =
    ((s.countWritten c n what).enqueue (writeBackTxn (s.countWritten c n what) c n)).releaseRecord what := by
  simp only [State.endRecord, ha]

theorem State.endRecord_failed (ha : (s.client c).state = .attached) : s.endRecord c n what .busError = s.recordFailed c n what := by
  simp only [State.endRecord, ha]

/-- For a FAULTED client the record counts if it was written, and then the ring's write ends. -/
theorem State.endRecord_faulted (hf : (s.client c).state = .faulted) (w : WriteOutcome) : s.endRecord c n what w =
    (((if w = .done then s.countWritten c n what else s).endRing c n).requestFinal c).releaseRecord what := by
  cases w <;> simp [State.endRecord, hf]

theorem State.endRecord_draining (hd : (s.client c).state = .draining) (w : WriteOutcome) :
    s.endRecord c n what w = (s.endRing c n).releaseRecord what := by
  cases w <;> simp [State.endRecord, hd]

/-- ATTACHED, written: the tally advances and a write-back is asked for (R70). -/
theorem State.endRecord_advances (ha : (s.client c).state = .attached) (t : State) (ht : t = s.clearBus.endRecord c n what .done) :
    (∀ y, y = (s.client c).setRing n { (s.client c).ring n with written := ((s.client c).ring n).written + 1 } →
        t.client c = if what = .delivery then { y with placed := y.placed + 1 } else y) ∧
      (∀ d, d ≠ c → t.client d = s.client d) ∧ t.store = s.store ∧ t.dir = s.dir ∧ t.arb = { s.arb with bus := none } ∧
      t.unit = { s.unit with writer := s.unit.writer ++
        [{ op := .writeBack c n, addr := (s.client c).cxb + 32, len := 32, data := [] }] } ∧
      (∀ i, what = .completion i → s.frees t i) ∧ ((∀ i, what ≠ .completion i) → t.slots = s.slots ∧ t.port = s.port) := by
  rw [State.endRecord_attached (s := s.clearBus) ha] at ht
  subst ht
  have client : ∀ d, ((s.clearBus.countWritten c n what).enqueue (writeBackTxn (s.clearBus.countWritten c n what) c n)).client d =
      (s.clearBus.countWritten c n what).client d := fun _ => rfl
  have frees := State.releaseRecord_frees (s := s) (u := (s.clearBus.countWritten c n what).enqueue
    (writeBackTxn (s.clearBus.countWritten c n what) c n)) what rfl rfl (draining_of (c := c)
      (fun h => by rw [client, State.countWritten_client, Client.counted_state] at h; exact h)
      fun e he => (client e).trans (State.countWritten_client_other _ he _ _))
  refine ⟨?_, fun d hd => ?_, by rw [State.releaseRecord_store]; rfl, by rw [State.releaseRecord_dir]; rfl,
    by rw [State.releaseRecord_arb]; rfl, ?_, frees⟩
  · rintro y rfl
    rw [State.releaseRecord_client, client, State.countWritten_client]
    rfl
  · rw [State.releaseRecord_client, client, State.countWritten_client_other _ hd]
    rfl
  · rw [State.releaseRecord_unit]
    show ({ s.unit with writer := s.unit.writer ++ [writeBackTxn (s.clearBus.countWritten c n what) c n] } : DeliveryUnit) = _
    rw [writeBackTxn, State.countWritten_client, Client.counted_cxb]
    rfl

/-- ATTACHED client 1 to 7, bus error: the client is faulted and nothing advances (R71). -/
theorem State.endRecord_faults (ha : (s.client c).state = .attached) (hc : c ≠ 0) (hw : what ≠ .notice) (t : State)
    (ht : t = s.clearBus.endRecord c n what .busError) : (t.client c).state = .faulted ∧
      (t.client c).reason = some .recordWrite ∧ ((t.client c).ring n).written = ((s.client c).ring n).written ∧
      ((t.client c).ring n).inFlight = false ∧ (t.client c).finalDue = false ∧
      (t.client c).placed = (s.client c).placed ∧ t.store = s.store ∧ t.dir = s.dir ∧ t.unit.lists = s.unit.lists ∧
      t.unit.writer = s.unit.writer.filter (fun y =>
        !(y.op == .writeBack c .ret || y.op == .signal c .ret || y.op == .writeBack c .del || y.op == .signal c .del)) ∧
      (∀ i, what = .completion i → s.frees t i) ∧ ((∀ i, what ≠ .completion i) → t.slots = s.slots ∧ t.port = s.port) := by
  rw [State.endRecord_failed (s := s.clearBus) ha, State.recordFailed_fault hw hc] at ht
  subst ht
  have ended : ((s.clearBus.endRing c n).client c) = (s.client c).endWrite n := State.endRing_client _ _ _
  have attached : ((s.clearBus.endRing c n).client c).state = .attached := by
    rw [ended, Client.endWrite, Client.setRing_state]
    exact ha
  have client := State.clientFault_client (x := .recordWrite) attached hc
  have unit := State.clientFault_unit (x := .recordWrite) attached hc
  have frees := State.releaseRecord_frees (s := s) (u := (s.clearBus.endRing c n).clientFault c .recordWrite) what
    (by rw [State.clientFault_slots]; rfl) (by rw [State.clientFault_port _ hc]; rfl)
    (draining_of (c := c) (fun h => by rw [client] at h; cases h)
      fun e he => (State.clientFault_client_other _ he hc).trans (State.endRing_client_other _ _ he))
  simp only [State.releaseRecord_client, State.releaseRecord_unit, State.releaseRecord_store, State.releaseRecord_dir,
    State.clientFault_store, State.clientFault_dir]
  rw [client, unit, ended]
  refine ⟨rfl, rfl, ?_, ?_, rfl, ?_, rfl, rfl, ?_, List.append_nil _, frees⟩
  · cases n <;> rfl
  · cases n <;> rfl
  · cases n <;> rfl
  · exact State.queueNotice_lists _ _

/-- Client 0, bus error: the device fails (R187). -/
theorem State.endRecord_fails (ha : (s.client 0).state = .attached) (hw : what ≠ .notice) (t : State)
    (ht : t = s.clearBus.endRecord 0 n what .busError) : t.port = s.port.failed .supervisorFault (some .recordWrite) ∧
      (t.client 0).state = .faulted ∧ ((t.client 0).ring n).written = ((s.client 0).ring n).written ∧ t.slots = s.slots ∧
      t.store = s.store ∧ t.dir = s.dir ∧ t.unit.notices = s.unit.notices := by
  rw [State.endRecord_failed (s := s.clearBus) ha, State.recordFailed_supervisor hw] at ht
  subst ht
  have ended : ((s.clearBus.endRing 0 n).client 0) = (s.client 0).endWrite n := State.endRing_client _ _ _
  have attached : ((s.clearBus.endRing 0 n).client 0).state = .attached := by
    rw [ended, Client.endWrite, Client.setRing_state]
    exact ha
  rw [State.clientFault_supervisor_port _ attached, State.clientFault_supervisor_client _ attached,
    State.clientFault_supervisor_unit _ attached, State.clientFault_slots, State.clientFault_store, State.clientFault_dir, ended]
  refine ⟨rfl, rfl, ?_, rfl, rfl, rfl, rfl⟩
  cases n <;> rfl

/-- FAULTED: a written record counts, and the final write-back may follow (R68, R71). -/
theorem State.endRecord_ends (hf : (s.client c).state = .faulted) (w : WriteOutcome) (t : State)
    (ht : t = s.clearBus.endRecord c n what w) :
    ((t.client c).ring n).written = ((s.client c).ring n).written + (if w = .done then 1 else 0) ∧
      (t.client c).placed = (s.client c).placed + (if w = .done ∧ what = .delivery then 1 else 0) ∧
      (t.client c).state = .faulted ∧ (∀ d, d ≠ c → t.client d = s.client d) ∧ s.endsWrite t c n ∧ t.store = s.store ∧
      t.dir = s.dir ∧ (∀ i, what = .completion i → s.frees t i) ∧
      ((∀ i, what ≠ .completion i) → t.slots = s.slots ∧ t.port = s.port) := by
  rw [State.endRecord_faulted (s := s.clearBus) hf] at ht
  generalize hu : (if w = .done then s.clearBus.countWritten c n what else s.clearBus) = u at ht
  have counted : u.client c = if w = .done then (s.client c).counted n what else s.client c := by
    rw [← hu]
    split
    · exact State.countWritten_client _ _ _ _
    · rfl
  have other : ∀ d, d ≠ c → u.client d = s.client d := by
    intro d hd
    rw [← hu]
    split
    · exact State.countWritten_client_other _ hd _ _
    · rfl
  have same : u.unit = s.unit ∧ u.store = s.store ∧ u.dir = s.dir ∧ u.slots = s.slots ∧ u.port = s.port := by
    rw [← hu]
    split <;> exact ⟨rfl, rfl, rfl, rfl, rfl⟩
  obtain ⟨unit, store, dir, slots, port⟩ := same
  have client := State.requestFinal_endRing_client u c n
  have faulted : (u.client c).state = .faulted := by
    rw [counted]
    split
    · rw [Client.counted_state]; exact hf
    · exact hf
  have state : (((u.endRing c n).requestFinal c).client c).state = .faulted := by
    rw [client]
    exact (Client.setRing_state _ _ _).trans faulted
  have frees := State.releaseRecord_frees (s := s) (u := (u.endRing c n).requestFinal c) what
    (by rw [State.requestFinal_slots]; exact slots) (by rw [State.requestFinal_port]; exact port)
    (draining_of (c := c) (fun h => by rw [state] at h; cases h)
      fun e he => (State.requestFinal_endRing_client_other _ he _).trans (other e he))
  subst ht
  refine ⟨?_, ?_, by rw [State.releaseRecord_client]; exact state, fun d hd => ?_, ?_, by simpa using store, by simpa using dir, frees⟩
  · have written : ((((u.endRing c n).requestFinal c).client c).ring n).written = ((u.client c).ring n).written := by
      rw [client]
      show (((u.client c).endWrite n).ring n).written = _
      rw [Client.endWrite_ring]
    rw [State.releaseRecord_client, written, counted]
    split
    · exact Client.counted_written _ _ _
    · exact (BitVec.add_zero _).symm
  · have placed : (((u.endRing c n).requestFinal c).client c).placed = (u.client c).placed := by
      rw [client]
      exact Client.setRing_placed _ _ _
    rw [State.releaseRecord_client, placed, counted]
    by_cases hw : w = .done
    · simp only [hw, if_true, true_and, Client.counted_placed]
    · simp only [hw, if_false, false_and]
      exact (BitVec.add_zero _).symm
  · rw [State.releaseRecord_client, State.requestFinal_endRing_client_other _ hd, other d hd]
  · refine State.endsWrite_of (u := u) ?_ ?_ (fun m => ?_) unit (State.releaseRecord_client _ _ _) (State.releaseRecord_unit _ _) <;>
      rw [counted] <;> split
    · exact Client.counted_finalDue _ _ _
    · rfl
    · exact Client.counted_cxb _ _ _
    · rfl
    · exact Client.counted_ring_inFlight _ _ _ _
    · rfl

/-- DRAINING: nothing advances, and the slot's freeing is reported to the teardown (R87, R88). -/
theorem State.endRecord_drains (hd : (s.client c).state = .draining) (w : WriteOutcome) (t : State)
    (ht : t = s.clearBus.endRecord c n what w) :
    t.client c = (s.client c).setRing n { (s.client c).ring n with inFlight := false } ∧
      (∀ d, d ≠ c → t.client d = s.client d) ∧ t.unit = s.unit ∧ t.store = s.store ∧ t.dir = s.dir ∧
      (∀ i, what = .completion i → s.frees t i ∧ ((s.slot i).client = some c → s.stops t i c false)) ∧
      ((∀ i, what ≠ .completion i) → t.slots = s.slots ∧ t.port = s.port) := by
  rw [State.endRecord_draining (s := s.clearBus) hd] at ht
  subst ht
  have client : (s.clearBus.endRing c n).client c = (s.client c).endWrite n := State.endRing_client _ _ _
  have other : ∀ e, e ≠ c → (s.clearBus.endRing c n).client e = s.client e := fun e he => State.endRing_client_other _ _ he
  have draining : ((s.clearBus.endRing c n).client c).state = .draining := by
    rw [client, Client.endWrite, Client.setRing_state]
    exact hd
  have drains := draining_of (u := s.clearBus.endRing c n) (s := s) (c := c) (fun _ => hd) other
  obtain ⟨frees, same⟩ := State.releaseRecord_frees (s := s) (u := s.clearBus.endRing c n) what rfl rfl drains
  refine ⟨by rw [State.releaseRecord_client, client]; rfl, fun d hne => by rw [State.releaseRecord_client, other d hne],
    by rw [State.releaseRecord_unit]; rfl, by rw [State.releaseRecord_store]; rfl, by rw [State.releaseRecord_dir]; rfl,
    fun i hi => ⟨frees i hi, fun hc => ?_⟩, same⟩
  subst hi
  exact State.stops_congr (u := s.clearBus.endRing c n) rfl rfl drains (State.freeSlot_stops false hc draining)

/-- Settles O44: the end of the record write by the state of its client. -/
theorem recordWriteAdvancesTheRing : Obligations.RecordWriteAdvancesTheRing := by
  intro s x c n what hx hop
  have hbus : s.onBus TxnOp.recordOf = .live (c, n, what) x := State.onBus_live hx (by rw [hop]; rfl)
  have run : ∀ w, exec (.recordWriteComplete w) s = .next (s.clearBus.endRecord c n what w) := by
    intro w
    simp only [exec, execRecordWriteComplete, hbus]
  refine ⟨fun ha => ⟨_, run .done, State.endRecord_advances ha _ rfl⟩,
    fun ha hc hw => ⟨_, run .busError, State.endRecord_faults ha hc hw _ rfl⟩, fun ha h0 hw => ?_, fun ha hw => ?_,
    fun hf w => ⟨_, run w, State.endRecord_ends hf w _ rfl⟩, fun hd w => ⟨_, run w, State.endRecord_drains hd w _ rfl⟩⟩
  · subst h0
    exact ⟨_, run .busError, State.endRecord_fails ha hw _ rfl⟩
  · subst hw
    refine ⟨_, run .busError, ?_⟩
    rw [State.endRecord_failed (s := s.clearBus) ha]
    refine ⟨rfl, ?_, rfl, rfl⟩
    show ((s.clearBus.endRing c n).client c).state = .attached
    rw [State.endRing_client, Client.setRing_state]
    exact ha

end Writes

end Sys2Proof.Machine

/-!
PROOF. The signal test, and the completions of write-backs and signals (O45).
-/

namespace Sys2Proof.Machine

-- Elaborated one after the other: side by side, each declaration holds a thread with memory of its own.
set_option Elab.async false

section Signals
variable {s t : State} {c d : ClientId} {n : OutRingName} {x : Txn}

/-! ### The signal test (R72, R73) -/

theorem OutRing.signalDue_iff {g : OutRing} :
    g.signalDue = true ↔ (g.written - g.lastWake).toNat < 2 ^ 31 ∧ g.lastWake ≠ g.signalled := by
  simp only [OutRing.signalDue, reached, Bool.and_eq_true, decide_eq_true_eq, bne_iff_ne]

/-- A signal that is due is raised: the mark is taken, and the write asked for. -/
theorem State.signalTest_raises (s : State) (hd : ((s.client c).ring n).signalDue = true) (ha : (s.client c).signalAddr ≠ 0) :
    s.signalTest c n = (s.setClient c ((s.client c).setRing n
      { (s.client c).ring n with signalled := ((s.client c).ring n).lastWake })).enqueue (signalTxn s c n) := by
  simp only [State.signalTest, hd, if_true, if_neg ha]

/-- With a signal address of 0 the mark is taken and the ring's write ends. -/
theorem State.signalTest_marks (s : State) (hd : ((s.client c).ring n).signalDue = true) (ha : (s.client c).signalAddr = 0) :
    s.signalTest c n = s.setClient c ((s.client c).setRing n
      { (s.client c).ring n with signalled := ((s.client c).ring n).lastWake, inFlight := false }) := by
  have ended : ∀ g : OutRing, (s.setClient c ((s.client c).setRing n g)).endRing c n =
      s.setClient c ((s.client c).setRing n { g with inFlight := false }) := by
    intro g
    rw [State.endRing, State.setClient_client_same, Client.setRing_ring_same]
    have again : ((s.client c).setRing n g).setRing n { g with inFlight := false } =
        (s.client c).setRing n { g with inFlight := false } := by cases n <;> rfl
    rw [again, State.setClient, State.setClient, Vector.set_set]
    rfl
  simp only [State.signalTest, hd, if_true, ha, ended]

theorem State.signalTest_ends (s : State) (hd : ((s.client c).ring n).signalDue = false) :
    s.signalTest c n = s.endRing c n := by
  simp only [State.signalTest, hd, Bool.false_eq_true, if_false]

/-! ### The outcome by the state of the client (R71) -/

theorem State.endWriteBack_done (s : State) (ha : (s.client c).state = .attached) :
    s.endWriteBack c n .done = s.signalTest c n := by
  simp only [State.endWriteBack, ha]

theorem State.endWriteBack_failed (s : State) (ha : (s.client c).state = .attached) :
    s.endWriteBack c n .busError = (s.endRing c n).clientFault c .recordWrite := by
  simp only [State.endWriteBack, ha]

theorem State.endWriteBack_left (s : State) (hn : (s.client c).state ≠ .attached) (w : WriteOutcome) :
    s.endWriteBack c n w = (s.endRing c n).requestFinal c := by
  unfold State.endWriteBack
  split
  · exact absurd ‹_› hn
  · exact absurd ‹_› hn
  · rfl

theorem State.endSignal_done (s : State) (ha : (s.client c).state = .attached) : s.endSignal c n .done = s.endRing c n := by
  simp only [State.endSignal, ha]

theorem State.endSignal_failed (s : State) (ha : (s.client c).state = .attached) :
    s.endSignal c n .busError = (s.endRing c n).clientFault c .signalWrite := by
  simp only [State.endSignal, ha]

theorem State.endSignal_left (s : State) (hn : (s.client c).state ≠ .attached) (w : WriteOutcome) :
    s.endSignal c n w = (s.endRing c n).requestFinal c := by
  unfold State.endSignal
  split
  · exact absurd ‹_› hn
  · exact absurd ‹_› hn
  · rfl

theorem State.endRing_attached (s : State) (n : OutRingName) (ha : (s.client c).state = .attached) :
    ((s.endRing c n).client c).state = .attached := by
  rw [State.endRing_client, Client.setRing_state]
  exact ha

/-- A write of a ring fails: its client 1 to 7 is faulted, and the ring's marks and tallies stay (R71). -/
theorem State.endRing_faults (s : State) (n : OutRingName) (ha : (s.client c).state = .attached) (hc : c ≠ 0) (r : FaultReason) :
    (((s.endRing c n).clientFault c r).client c).state = .faulted ∧
      (((s.endRing c n).clientFault c r).client c).reason = some r ∧
      ((((s.endRing c n).clientFault c r).client c).ring n).written = ((s.client c).ring n).written ∧
      ((((s.endRing c n).clientFault c r).client c).ring n).signalled = ((s.client c).ring n).signalled := by
  rw [State.clientFault_client (s.endRing_attached n ha) hc, State.endRing_client]
  refine ⟨rfl, rfl, ?_⟩
  cases n <;> exact ⟨rfl, rfl⟩

/-- A write of a ring of client 0 fails: the device fails (R187). -/
theorem State.endRing_fails (s : State) (n : OutRingName) (ha : (s.client 0).state = .attached) (r : FaultReason) :
    (((s.endRing 0 n).clientFault 0 r).client 0).state = .faulted ∧
      ((s.endRing 0 n).clientFault 0 r).port = s.port.failed .supervisorFault (some r) ∧
      ((((s.endRing 0 n).clientFault 0 r).client 0).ring n).written = ((s.client 0).ring n).written ∧
      ((((s.endRing 0 n).clientFault 0 r).client 0).ring n).signalled = ((s.client 0).ring n).signalled := by
  have attached := s.endRing_attached n ha
  rw [State.clientFault_supervisor_client _ attached, State.clientFault_supervisor_port _ attached, State.endRing_client]
  refine ⟨rfl, rfl, ?_⟩
  cases n <;> exact ⟨rfl, rfl⟩

/-- The write of a ring of a client no longer ATTACHED ends (R71, R68). -/
theorem State.endRing_left (s : State) (c : ClientId) (n : OutRingName) (t : State)
    (ht : t = (s.clearBus.endRing c n).requestFinal c) : (t.client c).state = (s.client c).state ∧
      ((t.client c).ring n).signalled = ((s.client c).ring n).signalled ∧ s.endsWrite t c n ∧
      (∀ d, d ≠ c → t.client d = s.client d) ∧ t.store = s.store ∧ t.dir = s.dir ∧ t.slots = s.slots ∧ t.port = s.port := by
  subst ht
  have client := State.requestFinal_endRing_client s.clearBus c n
  refine ⟨?_, ?_, State.endsWrite_of (u := s.clearBus) rfl rfl (fun _ => rfl) rfl rfl rfl,
    fun d hd => State.requestFinal_endRing_client_other _ hd _, by rw [State.requestFinal_store]; rfl,
    by rw [State.requestFinal_dir]; rfl, by rw [State.requestFinal_slots]; rfl, by rw [State.requestFinal_port]; rfl⟩
  · rw [client]
    exact Client.setRing_state _ _ _
  · rw [client]
    show (((s.client c).endWrite n).ring n).signalled = _
    rw [Client.endWrite_ring]

/-! ### The two completions -/

theorem execWriteBackComplete_next (hx : s.carriesLive x = true) (hop : x.op = .writeBack c n) (w : WriteOutcome) :
    exec (.writeBackComplete w) s = .next (s.clearBus.endWriteBack c n w) := by
  have hbus : s.onBus TxnOp.writeBackOf = .live (c, some n) x := State.onBus_live hx (by rw [hop]; rfl)
  simp only [exec, execWriteBackComplete, hbus]

theorem execSignalWriteComplete_next (hx : s.carriesLive x = true) (hop : x.op = .signal c n) (w : WriteOutcome) :
    exec (.signalWriteComplete w) s = .next (s.clearBus.endSignal c n w) := by
  have hbus : s.onBus TxnOp.signalOf = .live (c, n) x := State.onBus_live hx (by rw [hop]; rfl)
  simp only [exec, execSignalWriteComplete, hbus]

theorem execWriteBackComplete_final (hx : s.carriesLive x = true) (hop : x.op = .finalWriteBack c) (w : WriteOutcome) :
    exec (.writeBackComplete w) s = .next s.clearBus := by
  have hbus : s.onBus TxnOp.writeBackOf = .live (c, none) x := State.onBus_live hx (by rw [hop]; rfl)
  simp only [exec, execWriteBackComplete, hbus]

/-- Settles O45: the signal test after a write-back, the end of a signal, and what either leaves of a client no longer ATTACHED. -/
theorem writeBackTestsForTheSignal : Obligations.WriteBackTestsForTheSignal := by
  refine ⟨fun s x c n g hx hop ha hg => ?_, fun s x c n g hx hop ha hg => ?_, fun s x c n w y hx hy hn => ?_,
    fun s x c w hx hop => execWriteBackComplete_final hx hop w⟩
  · subst hg
    rw [execWriteBackComplete_next hx hop, execWriteBackComplete_next hx hop, s.clearBus.endWriteBack_done ha,
      s.clearBus.endWriteBack_failed ha]
    refine ⟨fun h1 h2 h3 => ?_, fun h1 h2 h3 => ?_, fun h => ?_, fun hc => ?_, fun h0 => ?_⟩
    · rw [s.clearBus.signalTest_raises (OutRing.signalDue_iff.2 ⟨h1, h2⟩) h3]
      rfl
    · rw [s.clearBus.signalTest_marks (OutRing.signalDue_iff.2 ⟨h1, h2⟩) h3]
      rfl
    · rw [s.clearBus.signalTest_ends]
      · rfl
      · rw [Bool.eq_false_iff, ne_eq, OutRing.signalDue_iff, not_and_or, not_lt, not_not]
        exact h
    · obtain ⟨state, reason, written, -⟩ := s.clearBus.endRing_faults n ha hc .recordWrite
      exact ⟨_, rfl, state, reason, written⟩
    · subst h0
      obtain ⟨state, port, written, -⟩ := s.clearBus.endRing_fails n ha .recordWrite
      exact ⟨_, rfl, state, port, written⟩
  · subst hg
    rw [execSignalWriteComplete_next hx hop, execSignalWriteComplete_next hx hop, s.clearBus.endSignal_done ha,
      s.clearBus.endSignal_failed ha]
    refine ⟨rfl, fun hc => ?_, fun h0 => ?_⟩
    · obtain ⟨state, reason, -, signalled⟩ := s.clearBus.endRing_faults n ha hc .signalWrite
      exact ⟨_, rfl, state, reason, signalled⟩
    · subst h0
      obtain ⟨state, port, -, signalled⟩ := s.clearBus.endRing_fails n ha .signalWrite
      exact ⟨_, rfl, state, port, signalled⟩
  · rcases hy with ⟨hop, rfl⟩ | ⟨hop, rfl⟩
    · rw [execWriteBackComplete_next hx hop, s.clearBus.endWriteBack_left hn]
      exact ⟨_, rfl, State.endRing_left s c n _ rfl⟩
    · rw [execSignalWriteComplete_next hx hop, s.clearBus.endSignal_left hn]
      exact ⟨_, rfl, State.endRing_left s c n _ rfl⟩

end Signals

end Sys2Proof.Machine

/-!
PROOF. The Intake's choice of a read (O16).
-/

namespace Sys2Proof.Machine

-- Elaborated one after the other: side by side, each declaration holds a thread with memory of its own.
set_option Elab.async false

section Rotation
variable {s : State} {c : ClientId} {i : SlotId}

/-! ### Ring addresses (R60) -/

theorem ringAddr_eq {base : Addr} {size slotBytes : Nat} {t : Tally} (h : base.toNat + t.toNat % size * slotBytes < 2 ^ 64) :
    ringAddr base size slotBytes t = base + BitVec.ofNat 64 (t.toNat % size * slotBytes) := by
  rw [ringAddr, sysAddr, if_pos h, BitVec.ofNat_add, BitVec.ofNat_toNat, BitVec.setWidth_eq]

/-! ### The lowest FREE slot -/

theorem State.freeSlotIndex_eq (hfree : (s.slot i).state = .free) (hfirst : ∀ j, j < i → (s.slot j).state ≠ .free) :
    s.freeSlotIndex = some i :=
  find?_finRange (beq_iff_eq.2 hfree) fun j hj => beq_eq_false_iff_ne.2 (hfirst j hj)

theorem State.freeSlotIndex_isSome : s.freeSlotIndex.isSome = true ↔ ∃ i, (s.slot i).state = .free := by
  simp [State.freeSlotIndex]

/-! ### Eligible reads (R63, R77) -/

theorem State.halfEligible_eq (s : State) (c : ClientId) : s.halfEligible c = ((s.client c).state == .attached &&
    (s.port.device == .running && has s.intake.attendSet c || has s.intake.refreshSet c)) := by
  rw [State.halfEligible, Bool.and_comm (has s.intake.attendSet c)]

theorem State.postEligible_iff : s.postEligible c = true ↔ s.port.device = .running ∧ (s.client c).state = .attached ∧
    (s.client c).post.lastPost ≠ (s.client c).post.taken ∧ (∀ i, (s.slot i).state = .free ∨ (s.slot i).client ≠ some c) ∧
    ∃ i, (s.slot i).state = .free := by
  simp only [State.postEligible, Bool.and_eq_true, beq_iff_eq, bne_iff_ne, sub_ne_zero, State.slotOf_none,
    State.freeSlotIndex_isSome, and_assoc]

/-- A client has an eligible read. -/
def State.readEligible (s : State) (c : ClientId) : Bool := s.halfEligible c || s.postEligible c

theorem State.readEligible_false_iff :
    s.readEligible c = false ↔ s.halfEligible c = false ∧ s.postEligible c = false := Bool.or_eq_false_iff

/-! ### The choice (R76) -/

/-- The rotation reaches first the client that is the fewest places past the pointer. -/
theorem find?_rotation {f : ClientId → Bool} {p : ClientId} {k : Fin 8} (hk : f (p + k) = true)
    (hfirst : ∀ j, j < k → f (p + j) = false) : (rotation p).find? f = some (p + k) := by
  rw [rotation, List.find?_map, find?_finRange (p := f ∘ fun j => p + j) hk hfirst]
  rfl

theorem State.readChoice_eq (ha : s.active = true) (hf : s.intake.fetch = none) : s.readChoice =
    ((rotation s.intake.pointer).find? s.readEligible).elim s s.issueRead := by
  rw [State.readChoice, ha, hf]
  change (match (rotation s.intake.pointer).find? s.readEligible with | some c => s.issueRead c | none => s) = _
  cases (rotation s.intake.pointer).find? s.readEligible <;> rfl

theorem State.readChoice_none (ha : s.active = true) (hf : s.intake.fetch = none) (hn : ∀ c, s.readEligible c = false) :
    s.readChoice = s := by
  rw [State.readChoice_eq ha hf, List.find?_eq_none.2 fun c _ => Bool.eq_false_iff.1 (hn c)]
  rfl

/-- The first client in the rotation with an eligible read is served. -/
theorem State.readChoice_first {k : Fin 8} (ha : s.active = true) (hf : s.intake.fetch = none)
    (hk : s.readEligible (s.intake.pointer + k) = true)
    (hfirst : ∀ j, j < k → s.readEligible (s.intake.pointer + j) = false) :
    s.readChoice = s.issueRead (s.intake.pointer + k) := by
  rw [State.readChoice_eq ha hf, find?_rotation hk hfirst]
  rfl

theorem State.issueRead_half (hh : s.halfEligible c = true) : s.issueRead c = s.setIntake {
    attendSet := without s.intake.attendSet c, refreshSet := without s.intake.refreshSet c, pointer := c + 1,
    fetch := some (halfTxn s c) } := if_pos hh

theorem State.issueRead_post (hh : s.halfEligible c = false) (hi : s.freeSlotIndex = some i) : s.issueRead c =
    (s.setSlot i { Slot.initial with state := .bound, client := some c }).setIntake
      { s.intake with pointer := c + 1, fetch := some (postTxn s c i) } := by
  rw [State.issueRead, hh, hi]
  rfl

end Rotation

/-- Settles O16: the rotation's first client with an eligible read is served, and with none nothing is chosen. -/
theorem intakeServesInRotation : Obligations.IntakeServesInRotation := by
  refine ⟨fun base size slotBytes t h => ringAddr_eq h, fun s h => ?_, fun s ha hf => ⟨s.halfEligible_eq, fun c =>
    State.postEligible_iff, fun hn => ?_, fun k hfirst => ⟨fun hh => ?_, fun hh hp i hfree hlowest => ?_⟩⟩⟩
  · rcases h with h | h
    · exact s.readChoice_of_fetch (Option.isSome_iff_ne_none.2 h)
    · refine s.readChoice_of_inactive (Bool.eq_false_iff.2 fun ha => ?_)
      obtain ⟨hr, hd⟩ := State.active_iff.1 ha
      rcases h with h | h
      · exact Bool.noConfusion (h.symm.trans hr)
      · rcases h with h | h | h <;> simp [State.serving, h] at hd
  · exact State.readChoice_none ha hf fun c => State.readEligible_false_iff.2 (hn c)
  · rw [State.readChoice_first ha hf (by rw [State.readEligible, hh, Bool.true_or])
      fun j hj => State.readEligible_false_iff.2 (hfirst j hj), State.issueRead_half hh]
    rfl
  · rw [State.readChoice_first ha hf (by rw [State.readEligible, hp, Bool.or_true])
      fun j hj => State.readEligible_false_iff.2 (hfirst j hj),
      State.issueRead_post hh (State.freeSlotIndex_eq hfree hlowest)]
    rfl

end Sys2Proof.Machine

/-!
PROOF. Old results, and the part in FAILED (O6).
-/

namespace Sys2Proof.Machine

-- Elaborated one after the other: side by side, each declaration holds a thread with memory of its own.
set_option Elab.async false

section Discards
variable {s : State} {x : Instr} {b : BusTxn}

/-! ### Completions without a live result (R90, R151, R181, R187) -/

theorem State.onBus_none {α : Type} {kind : TxnOp → Option α} (h : ∀ b, s.arb.bus = some b → (kind b.txn.op).isSome = false) :
    s.onBus kind = .none := by
  unfold State.onBus
  cases hb : s.arb.bus with
  | none => rfl
  | some b =>
    have hk : kind b.txn.op = none := Option.not_isSome_iff_eq_none.1 (Bool.eq_false_iff.1 (h b hb))
    simp only [hk]

theorem State.onBus_discarded {α : Type} {kind : TxnOp → Option α} (hb : s.arb.bus = some b)
    (hold : b.stale = true ∨ s.port.device = .failed) (hk : (kind b.txn.op).isSome = true) : s.onBus kind = .discarded := by
  obtain ⟨a, ha⟩ := Option.isSome_iff_exists.1 hk
  unfold State.onBus
  simp only [hb, ha]
  exact if_pos (by simpa using hold)

/-- A command that completes transactions: while the bus carries none of them it takes no step, and the result of one that is stale or
in flight in FAILED is discarded. -/
structure EndsTxn (x : Instr) : Prop where
  idle : ∀ s : State, (∀ b, s.arb.bus = some b → completes x b.txn.op = false) → exec x s = .next s
  discards : ∀ (s : State) (b : BusTxn), s.arb.bus = some b → b.stale = true ∨ s.port.device = .failed →
    completes x b.txn.op = true → exec x s = .next s.clearBus

/-- A row that asks the bus for the transactions that it completes. -/
theorem EndsTxn.of {α : Type} (kind : TxnOp → Option α)
    (answers : ∀ s t : State, s.onBus kind = .none ∧ t = s ∨ s.onBus kind = .discarded ∧ t = s.clearBus → exec x s = .next t)
    (asks : ∀ o, completes x o = (kind o).isSome := by intro o; cases o <;> rfl) : EndsTxn x where
  idle s h := answers s s (.inl ⟨State.onBus_none fun b hb => (asks _).symm.trans (h b hb), rfl⟩)
  discards s _ hb hold hc := answers s _ (.inr ⟨State.onBus_discarded hb hold ((asks _).symm.trans hc), rfl⟩)

/-- Each completion row is one. -/
theorem endsTxn_of_completes {o : TxnOp} (hc : completes x o = true) : EndsTxn x := by
  cases x with
  | postReadComplete =>
    refine .of TxnOp.postReadOf ?_
    rintro s _ (⟨h, rfl⟩ | ⟨h, rfl⟩) <;> simp only [exec, execPostReadComplete, h, noStep]
  | clientHalfReadComplete =>
    refine .of TxnOp.clientHalfOf ?_
    rintro s _ (⟨h, rfl⟩ | ⟨h, rfl⟩) <;> simp only [exec, execClientHalfReadComplete, h, noStep]
  | gatherPieceComplete =>
    refine .of TxnOp.gatherOf ?_
    rintro s _ (⟨h, rfl⟩ | ⟨h, rfl⟩) <;> simp only [exec, execGatherPieceComplete, h, noStep]
  | scatterPieceComplete =>
    refine .of TxnOp.scatterOf ?_
    rintro s _ (⟨h, rfl⟩ | ⟨h, rfl⟩) <;> simp only [exec, execScatterPieceComplete, h, noStep]
  | recordWriteComplete =>
    refine .of TxnOp.recordOf ?_
    rintro s _ (⟨h, rfl⟩ | ⟨h, rfl⟩) <;> simp only [exec, execRecordWriteComplete, h, noStep]
  | writeBackComplete =>
    refine .of TxnOp.writeBackOf ?_
    rintro s _ (⟨h, rfl⟩ | ⟨h, rfl⟩) <;> simp only [exec, execWriteBackComplete, h, noStep]
  | signalWriteComplete =>
    refine .of TxnOp.signalOf ?_
    rintro s _ (⟨h, rfl⟩ | ⟨h, rfl⟩) <;> simp only [exec, execSignalWriteComplete, h, noStep]
  | attachDescriptorPieceComplete =>
    refine .of TxnOp.attachDescriptorOf ?_
    rintro s _ (⟨h, rfl⟩ | ⟨h, rfl⟩) <;> simp only [exec, execAttachDescriptorPieceComplete, h, noStep]
  | attachCxbReadComplete =>
    refine .of TxnOp.attachHalfOf ?_
    rintro s _ (⟨h, rfl⟩ | ⟨h, rfl⟩) <;> simp only [exec, execAttachCxbReadComplete, h, noStep]
  | attachWriteBackComplete =>
    refine .of TxnOp.attachWriteBackOf ?_
    rintro s _ (⟨h, rfl⟩ | ⟨h, rfl⟩) <;> simp only [exec, execAttachWriteBackComplete, h, noStep]
  | reportWritePieceComplete =>
    refine .of TxnOp.reportOf ?_
    rintro s _ (⟨h, rfl⟩ | ⟨h, rfl⟩) <;> simp only [exec, execReportWritePieceComplete, h, noStep]
  | setupReadComplete =>
    refine .of TxnOp.setupReadOf ?_
    rintro s _ (⟨h, rfl⟩ | ⟨h, rfl⟩) <;> simp only [exec, execSetupReadComplete, h, noStep]
  | setupDescriptorPieceComplete =>
    refine .of TxnOp.setupDescriptorOf ?_
    rintro s _ (⟨h, rfl⟩ | ⟨h, rfl⟩) <;> simp only [exec, execSetupDescriptorPieceComplete, h, noStep]
  | setupCxbReadComplete =>
    refine .of TxnOp.setupHalfOf ?_
    rintro s _ (⟨h, rfl⟩ | ⟨h, rfl⟩) <;> simp only [exec, execSetupCxbReadComplete, h, noStep]
  | setupWriteBackComplete =>
    refine .of TxnOp.setupWriteBackOf ?_
    rintro s _ (⟨h, rfl⟩ | ⟨h, rfl⟩) <;> simp only [exec, execSetupWriteBackComplete, h, noStep]
  | _ => cases hc

/-! ### Steps of a part that serves no client (R90, R128, R166, R174) -/

theorem State.takenCommand_of_inactive (ha : s.active = false) (i : SlotId) (k : Nat) : s.takenCommand i k = none := by
  simp [State.takenCommand, ha]

theorem State.performing_of_inactive (ha : s.active = false) (i : SlotId) : s.performing i = none := by
  simp [State.performing, ha]

theorem State.teardownOf_of_inactive (ha : s.active = false) (i : SlotId) : s.teardownOf i = none := by
  simp only [State.teardownOf, State.performing_of_inactive ha]

theorem State.canClaim_of_inactive (ha : s.active = false) (c : ClientId) (n : OutRingName) : s.canClaim c n = false := by
  simp [State.canClaim, ha]

theorem State.inactive_of_failed (hf : s.port.device = .failed) : s.active = false := by simp [State.active, hf]

theorem State.ticking_of_failed (hf : s.port.device = .failed) : s.ticking = false := by simp [State.ticking, hf]

theorem State.mayGrant_of_failed (hf : s.port.device = .failed) : s.mayGrant = false := by simp [State.mayGrant, hf]

theorem State.tickOn_of_failed (hp : s.port.sound = true) (hf : s.port.device = .failed) : s.tickOn = false := by
  have stopped : s.port.tickRuns = false := by
    obtain ⟨-, runs, -⟩ := Port.sound_iff.1 hp
    rw [Bool.eq_false_iff, ne_eq, runs, hf]
    decide
  rw [State.tickOn, stopped, Bool.false_and]

end Discards

/-- Settles O6: a completion frees the bus of an old result, and in FAILED what each row asks for is not there. -/
theorem oldResultsAreDiscarded : Obligations.OldResultsAreDiscarded := by
  refine ⟨fun s b x hb hold hc => (endsTxn_of_completes hc).discards s b hb hold hc, fun s x hp hf hbus => ?_⟩
  have ha := State.inactive_of_failed hf
  have taken := State.takenCommand_of_inactive ha
  have performing := State.performing_of_inactive ha
  have teardown := State.teardownOf_of_inactive ha
  have idle : ∀ o, completes x o = true → exec x s = .next s := fun o hc => (endsTxn_of_completes hc).idle s hbus
  cases x with
  | go | halt | restart | attend | setupAddressWrite | registerWrite | resetPinAssert | resetPinRelease => trivial
  | postReadComplete r => exact idle (.postRead 0 0) rfl
  | clientHalfReadComplete r => exact idle (.clientHalf 0) rfl
  | gatherPieceComplete r => exact idle (.gather 0) rfl
  | scatterPieceComplete w => exact idle (.scatter 0) rfl
  | recordWriteComplete w => exact idle (.record 0 .ret .notice) rfl
  | writeBackComplete w => exact idle (.writeBack 0 .ret) rfl
  | signalWriteComplete w => exact idle (.signal 0 .ret) rfl
  | attachDescriptorPieceComplete r => exact idle (.attachDescriptor 0) rfl
  | attachCxbReadComplete r => exact idle (.attachHalf 0) rfl
  | attachWriteBackComplete w => exact idle (.attachWriteBack 0) rfl
  | reportWritePieceComplete w => exact idle (.report 0) rfl
  | setupReadComplete r => exact idle .setupRead rfl
  | setupDescriptorPieceComplete r => exact idle .setupDescriptor rfl
  | setupCxbReadComplete r => exact idle .setupHalf rfl
  | setupWriteBackComplete w => exact idle .setupWriteBack rfl
  | openParcel | append | cut | dispatch | send | forward | fetch | release | subscribe | unsubscribe | pin | unpin | attach | detach
  | query =>
    simp only [exec, execOpen, execAppend, execCut, execDispatch, execSend, execForward, execFetch, execRelease, execSubscribe,
      execUnsubscribe, execPin, execUnpin, execAttach, execDetach, execQuery, taken, noStep]
  | lookup | admission | settlement | handOver | releaseAfterDrop | countRead | reportRead =>
    simp only [exec, execLookup, execAdmission, execSettlement, execHandOver, execReleaseAfterDrop, execCountRead, execReportRead,
      performing, noStep]
  | directoryPurge | pendingPurge | referenceWalkVisit | teardownCompletion =>
    simp only [exec, execDirectoryPurge, execPendingPurge, execReferenceWalkVisit, execTeardownCompletion, teardown, noStep]
  | deliveryClaim | returnClaim =>
    simp only [exec, execDeliveryClaim, execReturnClaim, State.canClaim_of_inactive ha, noStep]
    rfl
  | sweep | lingerExpiry =>
    simp only [exec, execSweep, execLingerExpiry, State.ticking_of_failed hf, noStep]
    rfl
  | grant =>
    simp only [exec, execGrant, State.mayGrant_of_failed hf, noStep]
    rfl
  | tick =>
    simp only [exec, execTick, State.tickOn_of_failed hp hf]
    rfl

end Sys2Proof.Machine

/-!
PROOF. The completion of a post read, with common validation (O14).
-/

namespace Sys2Proof.Machine

-- Elaborated one after the other: side by side, each declaration holds a thread with memory of its own.
set_option Elab.async false

section PostRead
variable {s : State} {c : ClientId} {i j : SlotId} {r : PostRecord} {b : Bool}

/-! ### Common validation (R81, R91, R192) -/

theorem kindCodes_contains {k : Nat} : kindCodes.contains k = true ↔ 1 ≤ k ∧ k ≤ 10 ∨ 16 ≤ k ∧ k ≤ 20 := by
  simp only [kindCodes, List.contains_iff_mem, List.mem_cons, List.not_mem_nil, or_false]
  omega

theorem PostRecord.parcelClass_ge_two (r : PostRecord) :
    (r.parcelClass == 2#2 || r.parcelClass == 3#2) = true ↔ 2 ≤ r.parcelClass.toNat := by
  generalize r.parcelClass = v
  revert v
  decide

theorem PostRecord.kind_eq (r : PostRecord) {k : Byte} : (r.kind.toNat == k.toNat) = true ↔ r.kind = k := by
  rw [beq_iff_eq, BitVec.toNat_inj]

theorem PostRecord.badClass_iff : r.badClass = true ↔ r.cls.extractLsb' 4 4 ≠ 0 ∨
    (r.kind = 1 ∧ 2 ≤ (r.cls.extractLsb' 0 2).toNat) ∨ (r.kind = 5 ∧ r.cls.extractLsb' 0 2 = 3) := by
  rw [PostRecord.badClass, Bool.or_eq_true, Bool.or_eq_true, Bool.and_eq_true, Bool.and_eq_true, bne_iff_ne, beq_iff_eq (b := 3#2),
    PostRecord.parcelClass_ge_two, or_assoc]
  exact or_congr_right (or_congr (and_congr_left' (r.kind_eq (k := 1))) (and_congr_left' (r.kind_eq (k := 5))))

theorem PostRecord.malformed_iff : r.malformed = true ↔
    ¬ (1 ≤ r.kind.toNat ∧ r.kind.toNat ≤ 10 ∨ 16 ≤ r.kind.toNat ∧ r.kind.toNat ≤ 20) ∨
      r.reserved ≠ 0 ∨ r.reserved2 ≠ 0 ∨ r.flags.getLsbD 7 = true ∨ 4 < r.count.toNat ∨ r.cls.extractLsb' 4 4 ≠ 0 ∨
      (r.kind = 1 ∧ 2 ≤ (r.cls.extractLsb' 0 2).toNat) ∨ (r.kind = 5 ∧ r.cls.extractLsb' 0 2 = 3) := by
  simp only [PostRecord.malformed, Bool.or_eq_true, Bool.not_eq_true', Bool.eq_false_iff, ne_eq, kindCodes_contains, bne_iff_ne,
    decide_eq_true_eq, PostRecord.badClass_iff, or_assoc]

theorem PostRecord.validate_malformed (h : r.malformed = true) : r.validate c = some .badCommand := if_pos h

/-- A well-formed record of a supervisor kind is client 0's alone. -/
theorem PostRecord.validate_wellFormed (h : ¬ r.malformed = true) :
    r.validate c = if 16 ≤ r.kind.toNat ∧ c ≠ 0 then some .notPermitted else none := by
  have kinds : supervisorKind r.kind.toNat = true ↔ 16 ≤ r.kind.toNat := by
    have := not_or.1 (PostRecord.malformed_iff.not.1 h) |>.1
    simp only [supervisorKind, Bool.and_eq_true, decide_eq_true_eq]
    omega
  rw [PostRecord.validate, if_neg h]
  exact if_congr (by rw [Bool.and_eq_true, kinds, bne_iff_ne]) rfl rfl

/-! ### A command is taken (R78, R81) -/

/-- The slot of a command that has been taken. -/
def takenSlot (c : ClientId) (r : PostRecord) : Slot :=
  { Slot.initial with state := .performing, client := some c, command := some r, progress := .taken }

/-- The state after a command has been taken, before its validation. -/
def State.withTaken (s : State) (c : ClientId) (i : SlotId) (r : PostRecord) : State :=
  (s.setClient c { s.client c with post := { (s.client c).post with taken := (s.client c).post.taken + 1 } }).setSlot i
    (takenSlot c r)

theorem State.takeCommand_valid (hv : r.validate c = none) : s.takeCommand c i r = s.withTaken c i r := by
  unfold State.takeCommand
  simp only [hv]
  rfl

theorem State.takeCommand_invalid {st : Status} (hv : r.validate c = some st) :
    s.takeCommand c i r = (s.withTaken c i r).formCompletion i (r.completion st 0) := by
  unfold State.takeCommand
  simp only [hv]
  rfl

theorem State.withTaken_slot : (s.withTaken c i r).slot i = takenSlot c r := State.setSlot_slot_same _ _ _

theorem State.withTaken_slot_other (h : j ≠ i) : (s.withTaken c i r).slot j = s.slot j := State.setSlot_slot_other _ h _

/-- The taken command is that of its client, which is not DRAINING: its completion would be held. -/
theorem State.withTaken_holds (ha : (s.client c).state = .attached) (i : SlotId) (r : PostRecord) :
    ((s.withTaken c i r).slot i).client = some c ∧ ((s.withTaken c i r).client c).state ≠ .draining := by
  rw [State.withTaken_slot, State.withTaken, State.setSlot_client, State.setClient_client_same]
  refine ⟨rfl, ?_⟩
  dsimp only
  rw [ha]
  exact nofun

/-- Nothing of the Delivery Unit changes but the place of client 0's completion (R85). -/
theorem State.formCompletion_unit (x : Completion) (hc : (s.slot i).client = some c) (hd : (s.client c).state ≠ .draining) :
    (s.formCompletion i x).unit =
      { s.unit with noticesAhead := if c = 0 then s.unit.notices.length else s.unit.noticesAhead } := by
  rw [State.formCompletion_held s x hc hd]
  split <;> rfl

theorem State.takeCommand_frame (ha : (s.client c).state = .attached) (i : SlotId) (r : PostRecord) :
    (s.withTaken c i r).sameRest (s.takeCommand c i r) ∧ (s.takeCommand c i r).store = s.store ∧
      (s.takeCommand c i r).dir = s.dir ∧ (s.takeCommand c i r).clients = (s.withTaken c i r).clients ∧
      ∀ j, j ≠ i → (s.takeCommand c i r).slot j = s.slot j := by
  obtain ⟨hc, hd⟩ := State.withTaken_holds ha i r
  cases hv : r.validate c with
  | none =>
    rw [State.takeCommand_valid hv]
    exact ⟨⟨rfl, rfl, rfl, rfl, rfl, rfl⟩, rfl, rfl, rfl, fun j hj => State.withTaken_slot_other hj⟩
  | some st =>
    obtain ⟨-, others, -⟩ := State.formCompletion_ends (r.completion st 0) hc hd
    obtain ⟨rest, store, dir, clients⟩ := State.formCompletion_sameBlocks (r.completion st 0) hc hd
    rw [State.takeCommand_invalid hv]
    exact ⟨rest, store, dir, clients, fun j hj => (others j hj).trans (State.withTaken_slot_other hj)⟩

theorem State.takeCommand_slot_invalid (ha : (s.client c).state = .attached) {st : Status} (hv : r.validate c = some st) :
    (s.takeCommand c i r).slot i = { Slot.initial with
      state := .held, client := some c, command := some r, completion := some (r.completion st 0) } := by
  obtain ⟨hc, hd⟩ := State.withTaken_holds ha i r
  rw [State.takeCommand_invalid hv, (State.formCompletion_ends _ hc hd).1, State.withTaken_slot]
  rfl

theorem State.takeCommand_unit (ha : (s.client c).state = .attached) (i : SlotId) (r : PostRecord) :
    (s.takeCommand c i r).unit = { s.unit with
      noticesAhead := if c = 0 ∧ r.validate c ≠ none then s.unit.notices.length else s.unit.noticesAhead } := by
  cases hv : r.validate c with
  | none =>
    rw [State.takeCommand_valid hv, if_neg fun h => h.2 rfl]
    rfl
  | some st =>
    obtain ⟨hc, hd⟩ := State.withTaken_holds ha i r
    rw [State.takeCommand_invalid hv, State.formCompletion_unit _ hc hd]
    simp only [ne_eq, reduceCtorEq, not_false_eq_true, and_true]
    rfl

/-! ### The slot of a post read that took no command (R78, R88, R89) -/

theorem State.readChoice_slot_client (hn : (s.client c).state ≠ .attached) (hi : (s.slot i).client ≠ some c) :
    (s.readChoice.slot i).client ≠ some c := by
  rcases s.readChoice_cases with e | ⟨_, _, _, _, e⟩ | ⟨d, j, _, _, hp, _, e⟩ <;> rw [e]
  · exact hi
  · exact hi
  · rw [State.setIntake_slot]
    by_cases h : i = j
    · subst h
      rw [State.setSlot_slot_same]
      rintro ⟨⟩
      exact hn (State.postEligible_iff.1 hp).2.1
    · rw [State.setSlot_slot_other _ h]
      exact hi

/-- The slot that has become FREE is not bound to a client that is not ATTACHED. -/
theorem State.freeSlot_readChoice_client (hn : (s.client c).state ≠ .attached) :
    ((s.freeSlot i b).readChoice.slot i).client ≠ some c := by
  refine State.readChoice_slot_client (by rwa [State.freeSlot_client]) ?_
  rcases s.freeSlot_slot i b with e | ⟨d, hd, e⟩ <;> rw [e]
  · exact nofun
  · rintro ⟨⟩
    exact hn hd

theorem State.freeSlot_readChoice_frees (s : State) (i : SlotId) (b : Bool) : s.frees (s.freeSlot i b).readChoice i :=
  State.frees_readChoice (s.freeSlot_frees i b)

theorem State.freeSlot_readChoice_of_failed (hf : s.port.device = .failed) (i : SlotId) (b : Bool) :
    (s.freeSlot i b).readChoice = s.freeSlot i b ∧ (s.freeSlot i b).port = s.port ∧ (s.freeSlot i b).slot i = Slot.initial := by
  have port : (s.freeSlot i b).port = s.port := by
    rw [(s.freeSlot_frees i b).2.1, State.portFreeing, if_neg]
    rintro ⟨h, -⟩
    rw [hf] at h
    cases h
  have kept : ∀ v : State, v.port = s.port → v.slot i = Slot.initial → v.settleHalt.readChoice.slot i = Slot.initial := by
    intro v hp hi
    have still : v.settleHalt.active = false := by
      unfold State.settleHalt
      rw [if_neg (by rw [hp, hf]; rintro ⟨⟨⟩, -⟩)]
      exact State.inactive_of_failed (by rw [hp, hf])
    rw [State.readChoice_of_inactive _ still, State.settleHalt_slot, hi]
  refine ⟨State.readChoice_of_inactive _ (State.inactive_of_failed (by rw [port, hf])), port, ?_⟩
  unfold State.freeSlot
  dsimp only
  split
  · split
    · exact kept _ rfl (by rw [State.reportFreed_slot, State.setSlot_slot_same]; rfl)
    · exact kept _ rfl (State.setSlot_slot_same _ _ _)
  · exact kept _ rfl (State.setSlot_slot_same _ _ _)

/-! ### The outcomes by the state of the client (R78) -/

/-- A fault makes no client DRAINING. -/
theorem State.clientFault_draining {x : FaultReason} {d : ClientId} (ha : (s.client c).state = .attached) (hc : c ≠ 0)
    (hd : ((s.clientFault c x).client d).state = .draining) : (s.client d).state = .draining := by
  by_cases hdc : d = c
  · rw [hdc, State.clientFault_client ha hc] at hd
    cases hd
  · rwa [State.clientFault_client_other _ hdc hc] at hd

theorem execPostReadComplete_next {x : Txn} (hx : s.carriesLive x = true) (hop : x.op = .postRead c i) {o : ReadOutcome}
    (ho : o.hasLength 64 = true) : exec (.postReadComplete o) s = .next (s.endFetch.endPostRead c i o).readChoice := by
  have hbus : s.onBus TxnOp.postReadOf = .live (c, i) x := State.onBus_live hx (by rw [hop]; rfl)
  simp only [exec, execPostReadComplete, hbus, ho, if_true]

theorem State.endPostRead_data (ha : (s.client c).state = .attached) (bs : List Byte) :
    s.endPostRead c i (.data bs) = s.takeCommand c i (readPost bs) := if_pos ha

theorem State.endPostRead_busError (ha : (s.client c).state = .attached) :
    s.endPostRead c i .busError = (s.clientFault c .postRead).freeSlot i false := if_pos ha

theorem State.endPostRead_left (hn : (s.client c).state ≠ .attached) (o : ReadOutcome) :
    s.endPostRead c i o = s.freeSlot i false := if_neg hn

end PostRead

/-- Settles O14: common validation field by field, and the read's outcome by its bytes or bus error and the client's state. -/
theorem postReadTakesTheCommand : Obligations.PostReadTakesTheCommand := by
  refine ⟨fun r c malformed hm => ?_, fun s x c i hx hop => ⟨fun bs ha hbs => ?_, fun ha hc => ?_, fun ha hc => ?_, fun o hn ho => ?_⟩⟩
  · rw [← PostRecord.malformed_iff] at hm
    exact ⟨fun h => PostRecord.validate_malformed (hm.1 h), fun h => PostRecord.validate_wellFormed (hm.not.1 h)⟩
  · refine ⟨s.endFetch.takeCommand c i (readPost bs), ?_, ?_⟩
    · rw [execPostReadComplete_next hx hop (by simp [ReadOutcome.hasLength, hbs]), s.endFetch.endPostRead_data ha]
    · obtain ⟨⟨port, load, arb, intake, pending, -⟩, store, dir, clients, others⟩ :=
        State.takeCommand_frame (s := s.endFetch) ha i (readPost bs)
      refine ⟨clients, ?_, others, store, dir, port, load, arb, intake, pending,
        State.takeCommand_unit (s := s.endFetch) ha i (readPost bs)⟩
      split <;> rename_i hv
      · rw [State.takeCommand_valid hv]
        exact State.withTaken_slot
      · exact State.takeCommand_slot_invalid (s := s.endFetch) ha hv
  · have fault := State.clientFault_client (s := s.endFetch) (x := .postRead) ha hc
    have gone : ((s.endFetch.clientFault c .postRead).client c).state ≠ .attached := by rw [fault]; exact nofun
    refine ⟨_, execPostReadComplete_next hx hop rfl, ?_⟩
    rw [s.endFetch.endPostRead_busError ha, State.readChoice_client, State.freeSlot_client, fault]
    refine ⟨rfl, rfl, rfl, State.freeSlot_readChoice_client gone, ?_, by simp, by simp⟩
    refine State.frees_congr (u := s.endFetch.clientFault c .postRead) (by simp) (State.clientFault_port _ hc)
      (fun d => State.clientFault_draining ha hc) (State.freeSlot_readChoice_frees _ i false)
  · subst hc
    have port := State.clientFault_supervisor_port (s := s.endFetch) .postRead ha
    have client := State.clientFault_supervisor_client (s := s.endFetch) .postRead ha
    have unit := State.clientFault_supervisor_unit (s := s.endFetch) .postRead ha
    obtain ⟨choice, kept, freed⟩ := State.freeSlot_readChoice_of_failed (s := s.endFetch.clientFault 0 .postRead)
      (by rw [port]; rfl) i false
    refine ⟨_, execPostReadComplete_next hx hop rfl, ?_⟩
    rw [s.endFetch.endPostRead_busError ha, choice, kept, port, State.freeSlot_client, client, freed, State.freeSlot_unit, unit]
    exact ⟨rfl, rfl, rfl, rfl, rfl, rfl, by simp, by simp⟩
  · refine ⟨_, execPostReadComplete_next hx hop ho, ?_⟩
    rw [s.endFetch.endPostRead_left hn]
    refine ⟨by simp, State.freeSlot_readChoice_client hn, State.frees_congr (u := s.endFetch) rfl rfl (fun _ h => h)
      (State.freeSlot_readChoice_frees _ i false), fun hd hi => ?_, by simp, by simp, by simp⟩
    exact State.stops_congr (u := s.endFetch) rfl rfl (fun _ h => h)
      (State.stops_readChoice (by rw [State.freeSlot_client]; exact hn) (State.freeSlot_stops false hi hd))

end Sys2Proof.Machine

/-!
PROOF. The first steps of building and sending commands whose checks pass: OPEN (O18), the claims of APPEND and SEND (O19, O20), and
DISPATCH and FORWARD before their lookup (O23).
-/

namespace Sys2Proof.Machine

-- Elaborated one after the other: side by side, each declaration holds a thread with memory of its own.
set_option Elab.async false

/-! ### The checks of a claim that passes (R3, R14 to R16) -/

section Checks
variable {t : Store} {c : ClientId} {k : Nat} {limit : PerClass Nat} {cls : SegClass} {chain length need : Nat}

theorem Store.recordChecks_first (hk : k < 1024) (hfree : (t.parcel k).state = .free)
    (hfirst : ∀ j, j < k → (t.parcel j).state ≠ .free) {refLimit : Nat} (hl : (t.account c).held < refLimit) :
    t.recordChecks c refLimit = .ok k := by
  simp [Store.recordChecks, t.lowestFree_of_first hk hfree hfirst, hl]

theorem Store.segmentChecks_pass (hchain : chain ≤ cls.maxChain) (hlength : length ≤ 65535)
    (hroom : need = 0 ∨ ((t.account c).charged.get cls + need ≤ limit.get cls ∧
      need ≤ t.freeCount cls ∧ (c = 0 ∨ need + t.reserves.get cls ≤ t.freeCount cls))) :
    t.segmentChecks c limit cls chain length need = none := by
  have fits : ¬ (cls.maxChain < chain ∨ Config.maxLength < length) := by unfold Config.maxLength; omega
  unfold Store.segmentChecks
  rw [if_neg fits]
  rcases hroom with h0 | ⟨hquota, hpool, hreserve⟩
  · rw [if_pos h0]
  · have reserved : ¬ (c ≠ 0 ∧ t.freeCount cls < need + t.reserves.get cls) := by
      rintro ⟨hc, hlt⟩
      exact absurd (hreserve.resolve_left hc) (by omega)
    rw [if_neg (Nat.not_lt.2 hquota), if_neg reserved, if_neg (Nat.not_lt.2 hpool), ite_self]

end Checks

section Steps
variable {s : State} {i : SlotId} {c : ClientId} {r : PostRecord}

/-- A command that ends with a parcel changes its slot alone (R114). -/
theorem State.endParcel_ends (hc : (s.slot i).client = some c) (hd : (s.client c).state ≠ .draining) (r : PostRecord) (h : Handle)
    (n : Nat) :
    s.ends (s.endParcel i r h n) i { r.completion .ok 0 with handle := h, length := n } ∧ s.sameBlocks (s.endParcel i r h n) :=
  ⟨State.formCompletion_ends _ hc hd, State.formCompletion_sameBlocks _ hc hd⟩

/-- A command that ends with a parcel after its requests of the store changes its slot and the store alone. -/
theorem State.setStore_endParcel (hc : (s.slot i).client = some c) (hd : (s.client c).state ≠ .draining) (w : Store)
    (r : PostRecord) (h : Handle) (n : Nat) :
    ((s.setStore w).endParcel i r h n).store = w ∧
      s.ends ((s.setStore w).endParcel i r h n) i { r.completion .ok 0 with handle := h, length := n } ∧
      s.sameRest ((s.setStore w).endParcel i r h n) ∧ ((s.setStore w).endParcel i r h n).dir = s.dir ∧
      ((s.setStore w).endParcel i r h n).clients = s.clients := by
  obtain ⟨ends, rest, store, dir, clients⟩ := State.endParcel_ends (s := s.setStore w) hc hd r h n
  exact ⟨store, State.ends_congr (u := s.setStore w) rfl rfl ends, rest, dir, clients⟩

/-! ### DISPATCH and FORWARD (R104, R110) -/

theorem closeStep_closed (hres : s.store.resolve r.handle c = none)
    (hst : (s.store.parcel (handleIndex r.handle)).state = .closed) : s.closeStep i c r = s.endWith i r .badState 0 := by
  simp only [State.closeStep, hres, hst, if_true]

theorem closeStep_building (hres : s.store.resolve r.handle c = none)
    (hst : (s.store.parcel (handleIndex r.handle)).state = .building) :
    s.closeStep i c r = (s.setStore (s.store.setParcelState (handleIndex r.handle) .closed)).setProgress i
      (.toLookup r.handle (s.store.parcel (handleIndex r.handle)).length) := by
  simp only [State.closeStep, hres, hst, reduceCtorEq, if_false]

theorem forwardCheck_building (hres : s.store.resolve r.handle c = none)
    (hst : (s.store.parcel (handleIndex r.handle)).state = .building) : s.forwardCheck i c r = s.endWith i r .badState 0 := by
  simp only [State.forwardCheck, hres, hst, ne_eq, reduceCtorEq, not_false_eq_true, if_true]

theorem forwardCheck_closed (hres : s.store.resolve r.handle c = none)
    (hst : (s.store.parcel (handleIndex r.handle)).state = .closed) :
    s.forwardCheck i c r = if s.freeRefs c r.handle < 1 then s.endWith i r .notHeld 0
      else s.setProgress i (.toLookup r.handle (s.store.parcel (handleIndex r.handle)).length) := by
  simp only [State.forwardCheck, hres, hst, ne_eq, not_true_eq_false, if_false]

end Steps

/-- Settles O23: by the state of the parcel, and for FORWARD by its free references (R120). -/
theorem dispatchClosesAndForwardChecks : Obligations.DispatchClosesAndForwardChecks := by
  intro s i c r p hp hres
  subst hp
  refine ⟨fun h => ⟨fun hst => ?_, fun hst => ?_⟩, fun h => ⟨fun hst hfree => ?_, fun hst hfree => ?_, fun hst => ?_⟩⟩
  · refine ⟨_, by rw [exec_dispatch_served h, closeStep_building hres hst], ?_⟩
    obtain ⟨goes, rest, -, dir, clients⟩ := State.setProgress_goesOn
      (s.setStore (s.store.setParcelState (handleIndex r.handle) .closed)) i
      (.toLookup r.handle (s.store.parcel (handleIndex r.handle)).length)
    exact ⟨s.store.setParcelState_parcel _ _, rfl, rfl, rfl, rfl, State.goesOn_congr rfl rfl goes, rest, dir, clients⟩
  · exact State.serves_refused h (by rw [exec_dispatch_served h, closeStep_closed hres hst])
  · have free : ¬ s.freeRefs c r.handle < 1 := (State.freeRefs_iff (Nat.le_refl 1)).2 hfree
    exact ⟨_, by rw [exec_forward_served h, forwardCheck_closed hres hst, if_neg free], State.setProgress_goesOn s i _⟩
  · have none_free : s.freeRefs c r.handle < 1 := Nat.lt_of_le_of_lt (Nat.sub_eq_zero_of_le hfree).le Nat.one_pos
    exact State.serves_refused h (by rw [exec_forward_served h, forwardCheck_closed hres hst, if_pos none_free])
  · exact State.serves_refused h (by rw [exec_forward_served h, forwardCheck_building hres hst])

/-! ### OPEN (R92) -/

/-- An OPEN names LONG by either bit of its parcel class; common validation has refused the upper one (R91). -/
theorem PostRecord.openClass_eq (r : PostRecord) :
    r.openClass = if r.cls.getLsbD 0 || r.cls.getLsbD 1 then .long else .short := by
  unfold PostRecord.openClass PostRecord.parcelClass
  generalize r.cls = v
  revert v
  decide

/-- Settles O18: the record claim passes for the first FREE record (`Store.recordChecks_first`). -/
theorem openTakesTheLowestFreeRecord : Obligations.OpenTakesTheLowestFreeRecord := by
  intro s i c r k h hk hfree hfirst hlimit
  obtain ⟨hc, hd⟩ := State.serves_client h
  have hx := exec_openParcel_served h
  simp only [State.openStep, Store.recordChecks_first hk hfree hfirst hlimit] at hx
  obtain ⟨store, ends, rest, dir, clients⟩ := State.setStore_endParcel hc hd (s.store.openRecord k r.openClass c) r
    (makeHandle (s.store.parcel k).generation k) 0
  refine ⟨_, hx, ?_⟩
  rw [store, ← PostRecord.openClass_eq]
  refine ⟨?_, fun j hj => ?_, s.store.openRecord_account k r.openClass c, rfl, rfl, rfl, rfl, ends, rest, dir, clients⟩
  · rw [Store.openRecord_parcel, if_pos rfl]
  · rw [Store.openRecord_parcel, if_neg hj]

/-! ### APPEND's claim (R93, R17, R18) -/

section Claims
variable {s : State} {i : SlotId} {c : ClientId} {r : PostRecord} {fr : List Accepted} {need : Nat} {k : Nat} {cls : SegClass}

/-- A growth of no bytes that takes no segment changes nothing but the growth length (R18). -/
theorem Store.grow_commit_zero (t : Store) (k : Nat) (c : ClientId) (j : Nat) : ((t.grow k c 0 0).commit k false).parcel j =
    if j = k then { t.parcel k with growth := none } else t.parcel j := by
  obtain ⟨parcel, -⟩ := t.grow_zero k c 0
  rw [Store.commit_parcel, parcel, parcel, if_pos rfl]
  split <;> rfl

/-- An APPEND whose checks pass claims its segments (R93). -/
theorem appendClaim_passed {p : Parcel} (hp : p = s.store.parcel (handleIndex r.handle))
    (hres : s.store.resolve r.handle c = none) (hst : p.state = .building)
    (hneed : need = chainNeeded p.cls p.headOffset p.length r.totalLength - p.chain.length)
    (hpass : s.store.segmentChecks c (s.client c).segLimit p.cls (chainNeeded p.cls p.headOffset p.length r.totalLength)
      (p.length + r.totalLength) need = none) :
    s.appendClaim i c r fr = if r.totalLength = 0 then
        ((s.claimSegments (handleIndex r.handle) c need r.totalLength).commitGrowth (handleIndex r.handle) false).endParcel i r
          r.handle p.length
      else (s.claimSegments (handleIndex r.handle) c need r.totalLength).startGather i
        { handle := r.handle, base := p.length, pieces := runPieces fr 0, length := p.length, total := r.totalLength }
        { index := handleIndex r.handle, client := c, segments := need, isSend := false } := by
  subst hp hneed
  simp only [State.appendClaim, hres, hst, reduceCtorEq, if_false, hpass]

/-- The segments of the grown chain fit the class when those of its last byte do. -/
theorem chainNeeded_le_maxChain {n g offset : Nat} (h : n + g = 0 ∨ (offset + n + g + cls.size - 1) / cls.size ≤ cls.maxChain) :
    chainNeeded cls offset n g ≤ cls.maxChain := by
  unfold chainNeeded
  split <;> rename_i hz
  · exact Nat.zero_le _
  · exact h.resolve_left hz

end Claims

/-- Settles O19: the claim is that of `State.claimSegments_spec`, and without bytes its commit follows in the same step. -/
theorem appendClaimsItsSegments : Obligations.AppendClaimsItsSegments := by
  intro s i c r fr p need h hfr hp hres hst hneed hchain hlen hroom
  subst hp
  obtain ⟨hc, hd⟩ := State.serves_client h
  have pass := Store.segmentChecks_pass (limit := (s.client c).segLimit) (chainNeeded_le_maxChain hchain) hlen hroom
  have pool : need ≤ s.store.freeCount (s.store.parcel (handleIndex r.handle)).cls := Store.segmentChecks_none pass
  have hx := exec_append_served h hfr
  rw [appendClaim_passed rfl hres hst hneed pass] at hx
  refine ⟨fun hpos => ?_, fun hzero hnone => ?_⟩
  · rw [if_neg (Nat.ne_of_gt hpos)] at hx
    obtain ⟨claims, notice, -, port, load, arb, dir, clients, intake, slots⟩ :=
      s.claimSegments_spec (handleIndex r.handle) c r.totalLength pool
    refine ⟨_, hx, claims, notice, ?_, fun j hj => ?_, port, load, arb, intake, dir, clients⟩
    · rw [State.startGather, State.setSlot_slot_same, State.claimSegments_slot]
    · rw [State.startGather, State.setSlot_slot_other _ hj, State.claimSegments_slot]
  · rw [if_pos hzero, hzero, hnone] at hx
    obtain ⟨-, pools, account, arms, -, memory⟩ := s.store.grow_zero (handleIndex r.handle) c 0
    obtain ⟨store, ends, rest, dir, clients⟩ := State.setStore_endParcel hc hd
      ((s.store.grow (handleIndex r.handle) c 0 0).commit (handleIndex r.handle) false) r r.handle
      (s.store.parcel (handleIndex r.handle)).length
    refine ⟨_, hx, ?_⟩
    have same : (s.claimSegments (handleIndex r.handle) c 0 0).commitGrowth (handleIndex r.handle) false =
      s.setStore ((s.store.grow (handleIndex r.handle) c 0 0).commit (handleIndex r.handle) false) := rfl
    rw [same, store]
    exact ⟨Store.grow_commit_zero _ _ _, pools, account, arms, memory, ends, rest, dir, clients⟩

/-! ### SEND's claim (R106, R107) -/

section SendClaims
variable {s : State} {t u : Store} {i : SlotId} {c : ClientId} {r : PostRecord} {fr : List Accepted} {n g k : Nat}
  {cls : SegClass}

/-- A record that a SEND has claimed, with its segments, growth and state (R3, R17). -/
def sentRecord (generation : BitVec 6) (cls : SegClass) (c : ClientId) (segs : List Nat) (growth : Option Nat) (st : ParcelState) :
    Parcel :=
  { state := st, generation := generation, cls := cls, length := 0, headOffset := 0, growth := growth, chain := segs,
    charged := some c, holders := (Vector.replicate 8 0).set c.val 1, refCount := 1 }

theorem sentRecord_holder (generation : BitVec 6) (cls : SegClass) (c d : ClientId) (segs : List Nat) (growth : Option Nat)
    (st : ParcelState) : (sentRecord generation cls c segs growth st).holder d = if d = c then 1 else 0 := by
  rw [Parcel.holder_set Parcel.initial c 1 d rfl]
  simp [Parcel.holder, Parcel.initial]

/-- Accounts with the same held total and the same charged counts are the same. -/
theorem Account.eq_of_charged {a b : Account} (held : a.held = b.held) (charged : ∀ l, a.charged.get l = b.charged.get l) : a = b := by
  obtain ⟨_, _⟩ := a
  obtain ⟨_, _⟩ := b
  exact congr (congrArg Account.mk held) (PerClass.ext_get charged)

/-- The record claim and the segment claim together, on the records (R3, R17). -/
theorem Store.claimsTo_openRecord_parcel (h : (t.openRecord k cls c).claimsTo u k c n g) :
    (∃ segs : List Nat, segs.length = n ∧
        u.parcel k = sentRecord (t.parcel k).generation cls c segs (some g) .building) ∧
      ∀ j, j ≠ k → u.parcel j = t.parcel j := by
  obtain ⟨⟨segs, hlen, record⟩, others, -⟩ := h
  refine ⟨⟨segs, hlen, ?_⟩, fun j hj => ?_⟩
  · rw [record, Store.openRecord_parcel, if_pos rfl]
    rfl
  · rw [others j hj, Store.openRecord_parcel, if_neg hj]

/-- The record claim and the segment claim together, on everything but the records (R9, R11, R17, R26). -/
theorem Store.claimsTo_openRecord_frame (h : (t.openRecord k cls c).claimsTo u k c n g) :
    u.freeCount cls + n = t.freeCount cls ∧
      (u.account c).held = (t.account c).held + 1 ∧
      (u.account c).charged.get cls = (t.account c).charged.get cls + n ∧
      (∀ d, d ≠ c → u.account d = t.account d) ∧ u.memory = t.memory ∧
      (∀ l, l ≠ cls → u.freeCount l = t.freeCount l ∧ u.arms.get l = t.arms.get l ∧
        (u.account c).charged.get l = (t.account c).charged.get l) ∧
      (u.arms.get cls = true ↔ t.arms.get cls = true ∧ (n = 0 ∨ t.reserves.get cls ≤ u.freeCount cls)) ∧
      u.reserves = t.reserves := by
  obtain ⟨-, -, free, other, charged, held, arms, reserves, memory⟩ := h
  have record : ((t.openRecord k cls c).parcel k).cls = cls := by rw [Store.openRecord_parcel, if_pos rfl]
  have opened := t.openRecord_account k cls c
  have openedCharged : ∀ d, ((t.openRecord k cls c).account d).charged = (t.account d).charged := by
    intro d
    rw [opened]
    split
    · rename_i hd
      rw [hd]
    · rfl
  simp only [record, openedCharged] at free other charged arms
  refine ⟨free, ?_, ?_, fun d hd => Account.eq_of_charged ?_ fun l => ?_, memory,
    fun l hl => ⟨(other l hl).1, (other l hl).2, ?_⟩, ?_, reserves⟩
  · rw [held, opened, if_pos rfl]
  · rw [charged, if_pos ⟨rfl, rfl⟩]
  · rw [held, opened, if_neg hd]
  · rw [charged, if_neg fun e => hd e.1]
  · rw [charged, if_neg fun e => hl e.2]
  · rw [show u.arms.get cls = (t.arms.get cls && !(decide (0 < n) && decide (u.freeCount cls < t.reserves.get cls))) from arms]
    simp only [Bool.and_eq_true, Bool.not_eq_true', Bool.and_eq_false_iff, decide_eq_false_iff_not, Nat.not_lt, Nat.le_zero]

/-- A SEND whose checks pass claims a record and its segments (R106, R107). -/
theorem sendClaim_passed (hrec : s.store.recordChecks c (s.client c).refLimit = .ok k) (hcls : cls = r.sendClass)
    (hneed : n = (r.totalLength + cls.size - 1) / cls.size)
    (hpass : s.store.segmentChecks c (s.client c).segLimit cls n r.totalLength n = none) :
    s.sendClaim i c r fr = if r.totalLength = 0 then
        (((s.setStore (s.store.openRecord k cls c)).claimSegments k c n r.totalLength).commitGrowth k true).setProgress i
          (.toLookup (makeHandle (s.store.parcel k).generation k) 0)
      else ((s.setStore (s.store.openRecord k cls c)).claimSegments k c n r.totalLength).startGather i
        { handle := makeHandle (s.store.parcel k).generation k, base := 0, pieces := runPieces fr 0, length := 0,
          total := r.totalLength } { index := k, client := c, segments := n, isSend := true } := by
  subst hcls hneed
  simp only [State.sendClaim, hrec, chainNeeded_new, hpass]

end SendClaims

/-- Settles O20: the record claim and the segment claim in one step; without bytes the commit closes the parcel in it. -/
theorem sendClaimsAParcel : Obligations.SendClaimsAParcel := by
  intro s i c r fr k cls need h hfr hk hfree hfirst hlimit hcls hneed hmax hlen hroom
  have pass := Store.segmentChecks_pass (limit := (s.client c).segLimit) hmax hlen hroom
  have pool := Store.segmentChecks_none pass
  have hx := exec_send_served h hfr
  rw [sendClaim_passed (Store.recordChecks_first hk hfree hfirst hlimit) hcls hneed pass] at hx
  have record : ((s.setStore (s.store.openRecord k cls c)).store.parcel k).cls = cls := by
    rw [State.setStore_store, Store.openRecord_parcel, if_pos rfl]
  have slots := (s.setStore (s.store.openRecord k cls c)).claimSegments_slot k c need r.totalLength
  obtain ⟨claims, notice, -, port, load, arb, dir, clients, intake, -⟩ :=
    (s.setStore (s.store.openRecord k cls c)).claimSegments_spec k c (n := need) r.totalLength
      (by rw [record]; exact pool)
  rw [record] at notice
  obtain ⟨⟨segs, count, parcel⟩, others⟩ := Store.claimsTo_openRecord_parcel claims
  obtain ⟨free, held, charged, accounts, memory, otherClass, arms, reserves⟩ := Store.claimsTo_openRecord_frame claims
  generalize (s.setStore (s.store.openRecord k cls c)).claimSegments k c need r.totalLength = u at *
  by_cases hzero : r.totalLength = 0
  · rw [if_pos hzero] at hx
    have closed : (u.store.commit k true).parcel k = sentRecord (s.store.parcel k).generation cls c segs none .closed := by
      rw [Store.commit_parcel, if_pos rfl, parcel, hzero]
      rfl
    have kept : ∀ j, j ≠ k → (u.store.commit k true).parcel j = s.store.parcel j := fun j hj => by
      rw [Store.commit_parcel, if_neg hj, others j hj]
    refine ⟨_, hx, ?_⟩
    rw [if_pos hzero, State.setProgress_store, State.commitGrowth_store, closed]
    refine ⟨rfl, rfl, rfl, rfl, rfl, fun d => sentRecord_holder _ _ c d _ _ _, rfl, count, kept, free, held, charged, accounts,
      memory, otherClass, arms, reserves, notice, fun j hj => ?_, port, load, arb, intake, dir, clients, rfl, rfl, ?_⟩
    · rw [State.setProgress_slot_other _ hj, State.commitGrowth_slot, slots, State.setStore_slot]
    · rw [State.setProgress_slot_same, State.commitGrowth_slot, slots, State.setStore_slot]
  · rw [if_neg hzero] at hx
    refine ⟨_, hx, ?_⟩
    rw [if_neg hzero, State.startGather_store, parcel]
    refine ⟨rfl, rfl, rfl, rfl, rfl, fun d => sentRecord_holder _ _ c d _ _ _, rfl, count, others, free, held, charged, accounts,
      memory, otherClass, arms, reserves, notice, fun j hj => ?_, port, load, arb, intake, dir, clients, rfl, rfl, ?_⟩
    · rw [State.startGather, State.setSlot_slot_other _ hj, slots, State.setStore_slot]
    · rw [State.startGather, State.setSlot_slot_same, slots, State.setStore_slot]

end Sys2Proof.Machine

/-!
PROOF. O25: the bytes of a gather piece are written at their parcel positions, and the last piece commits the growth.
-/

namespace Sys2Proof.Machine

-- Elaborated one after the other: side by side, each declaration holds a thread with memory of its own.
set_option Elab.async false

/-! ### The bytes of a parcel in parcel memory (R94) -/

section Bytes
variable {p : Parcel} {x y a : Nat}

/-- The bytes of two segments of a class lie apart (section 1.1). -/
theorem SegClass.segmentBase_inj {k : SegClass} {m n b d : Nat} (hb : b < k.size) (hd : d < k.size)
    (h : k.segmentBase m + b = k.segmentBase n + d) : m = n ∧ b = d := by
  cases k <;> simp only [SegClass.segmentBase, SegClass.size] at * <;> omega

theorem Parcel.byteAddr_some_iff : p.byteAddr x = some a ↔
    ∃ seg, p.chain[x / p.cls.size]? = some seg ∧ p.cls.segmentBase seg + x % p.cls.size = a := by
  unfold Parcel.byteAddr
  cases p.chain[x / p.cls.size]? <;> simp

/-- A place within the segments of the chain has a byte. -/
theorem Parcel.byteAddr_isSome (h : x < p.chain.length * p.cls.size) : ∃ a, p.byteAddr x = some a := by
  have inside : x / p.cls.size < p.chain.length := Nat.div_lt_of_lt_mul (Nat.mul_comm .. ▸ h)
  exact ⟨_, Parcel.byteAddr_some_iff.2 ⟨_, List.getElem?_eq_getElem inside, rfl⟩⟩

/-- Two places of a chain of different segments have different bytes (R2). -/
theorem Parcel.byteAddr_inj (hn : p.chain.Nodup) (hx : p.byteAddr x = some a) (hy : p.byteAddr y = some a) : x = y := by
  obtain ⟨m, hm, rfl⟩ := Parcel.byteAddr_some_iff.1 hx
  obtain ⟨n, hn', he⟩ := Parcel.byteAddr_some_iff.1 hy
  have size := p.cls.size_pos
  obtain ⟨rfl, offset⟩ := SegClass.segmentBase_inj (Nat.mod_lt _ size) (Nat.mod_lt _ size) he
  obtain ⟨inside, -⟩ := List.getElem?_eq_some_iff.1 hm
  have segment : x / p.cls.size = y / p.cls.size := (List.getElem?_inj inside hn).1 (hm.trans hn'.symm)
  rw [← Nat.div_add_mod x p.cls.size, ← Nat.div_add_mod y p.cls.size, segment, offset]

/-- A run of bytes within the chain is written, reads back, and leaves every other byte of parcel memory as it is. -/
theorem writeRun_spec (hn : p.chain.Nodup) : ∀ (bs : List Byte) (m : List Host.Cell) (pos : Nat),
    p.headOffset + pos + bs.length ≤ p.chain.length * p.cls.size →
    ∃ w, writeRun p m pos bs = some w ∧ readRun p w pos bs.length = some bs ∧
      ∀ a, (∀ j, j < bs.length → p.byteAddr (p.headOffset + (pos + j)) ≠ some a) → Memory.read w a = Memory.read m a
  | [], m, pos, _ => ⟨m, rfl, rfl, fun _ _ => rfl⟩
  | b :: bs, m, pos, hfit => by
    rw [List.length_cons] at hfit
    obtain ⟨first, hfirst⟩ := Parcel.byteAddr_isSome (p := p) (x := p.headOffset + pos) (by omega)
    obtain ⟨w, write, read, frame⟩ := writeRun_spec hn bs (Memory.write m first b) (pos + 1) (by omega)
    -- No later byte of the run lies on the first one.
    have head : Memory.read w first = b := by
      rw [frame first fun j _ hj => by have := Parcel.byteAddr_inj hn hfirst hj; omega, Memory.read_write_same]
    refine ⟨w, by simp only [writeRun, hfirst, write], ?_, fun a ha => ?_⟩
    · simp only [List.length_cons, readRun, hfirst, read, head]
    · have apart : a ≠ first := fun e => ha 0 (Nat.zero_lt_succ _) (e ▸ hfirst)
      rw [frame a fun j hj => ?_, Memory.read_write_other m apart]
      rw [Nat.add_right_comm pos 1 j]
      exact ha (j + 1) (Nat.succ_lt_succ hj)

end Bytes

/-! ### The end of a gather (R18, R95, R107) -/

section Gather
variable {s : State} {x : Txn} {i : SlotId} {c : ClientId} {r : PostRecord} {m : Movement} {g : GrowthClaim} {p : Piece}
  {rest : List Piece} {bs : List Byte} {w : List Host.Cell}

/-- A piece with its bytes and no abort requested is written (R145). -/
theorem exec_gatherPiece_data (hlive : s.carriesLive x = true) (hop : x.op = .gather i) (hperf : s.performing i = some (c, r))
    (hab : (s.slot i).abortRequested = false) (hprog : (s.slot i).progress = .moving m) (hpieces : m.pieces = p :: rest)
    (hundo : (s.slot i).undo = some g) (hlen : bs.length = p.len)
    (hw : writeRun (s.store.parcel (handleIndex m.handle)) s.store.memory (m.base + p.run) bs = some w) :
    exec (.gatherPieceComplete (.data bs)) s = .next
      (if rest.isEmpty then (s.clearBus.setStore { s.store with memory := w }).gathered i r m g
       else (s.clearBus.setStore { s.store with memory := w }).setProgress i (.moving { m with pieces := rest })) := by
  have hbus : s.onBus TxnOp.gatherOf = .live i x := State.onBus_live hlive (by rw [hop]; rfl)
  simp only [exec, execGatherPieceComplete, hbus, hperf, hprog, hundo, hpieces, hab, Bool.false_and, Bool.false_eq_true, if_false,
    hlen, if_true, State.gatherData, State.clearBus_store, hw]
  split <;> rfl

/-- The commit of an APPEND ends its command with the new length (R95). -/
theorem State.gathered_append (hs : g.isSend = false) (hc : (s.slot i).client = some c) (hd : (s.client c).state ≠ .draining) :
    (s.gathered i r m g).store = s.store.commit g.index false ∧
      s.ends (s.gathered i r m g) i { r.completion .ok 0 with handle := m.handle, length := m.length + m.total } ∧
      s.sameRest (s.gathered i r m g) ∧ (s.gathered i r m g).dir = s.dir ∧ (s.gathered i r m g).clients = s.clients := by
  unfold State.gathered
  simp only [hs, Bool.false_eq_true, if_false]
  -- The slot without its undo information, in which the completion forms.
  have hc' : (((s.commitGrowth g.index false).setSlot i { s.slot i with undo := none }).slot i).client = some c := by
    rw [State.setSlot_slot_same]
    exact hc
  obtain ⟨⟨slot, others, ahead⟩, rest, store, dir, clients⟩ := State.endParcel_ends hc' hd r m.handle (m.length + m.total)
  rw [State.setSlot_slot_same] at slot ahead
  refine ⟨store, ⟨slot, fun j hj => (others j hj).trans (State.setSlot_slot_other _ hj _), ahead⟩, rest, dir, clients⟩

/-- The commit of a SEND goes on to its lookup (R107). -/
theorem State.gathered_send (hs : g.isSend = true) (hab : (s.slot i).abortRequested = false) :
    s.gathered i r m g = (s.setStore (s.store.commit g.index true)).setSlot i
      { s.slot i with undo := none, progress := .toLookup m.handle m.total } := by
  unfold State.gathered State.setProgress
  simp only [hs, hab, Bool.false_eq_true, if_true, if_false, State.setSlot_slot_same]
  exact congrArg (fun v => { s.setStore (s.store.commit g.index true) with slots := v }) (Vector.set_set ..)

end Gather

/-- Settles O25: the piece is written by `writeRun_spec`, and the last one leads to the commit. -/
theorem gatherWritesItsBytes : Obligations.GatherWritesItsBytes := by
  intro s x i c r m p rest g bs q hlive hop hworks hprog hpieces hundo hlen hq hnodup hfit
  subst hq
  obtain ⟨hperf, hab, hd⟩ := State.works_iff.1 hworks
  obtain ⟨-, -, hc, -⟩ := State.performing_iff.1 hperf
  rw [← hlen] at hfit ⊢
  obtain ⟨w, write, read, frame⟩ := writeRun_spec hnodup bs s.store.memory (m.base + p.run) (by omega)
  have hx := exec_gatherPiece_data hlive hop hperf hab hprog hpieces hundo hlen write
  have commit : ∀ close j, (Store.commit { s.store with memory := w } g.index close).parcel j =
      if j = g.index then { s.store.parcel j with
        length := (s.store.parcel j).length + (s.store.parcel j).growth.getD 0, growth := none,
        state := if close then .closed else (s.store.parcel j).state }
      else s.store.parcel j := by
    intro close j
    rw [Store.commit_parcel]
    refine ite_congr rfl (fun e => ?_) fun _ => rfl
    rw [e]
    rfl
  cases rest with
  | cons next later =>
    refine ⟨_, hx, read, frame, rfl, rfl, rfl, rfl, rfl, ⟨rfl, rfl, rfl, rfl, rfl, rfl⟩, fun _ => ⟨rfl, ?_⟩, nofun⟩
    exact (State.setProgress_goesOn (s.clearBus.setStore { s.store with memory := w }) i _).1
  | nil =>
    refine ⟨_, hx, ?_⟩
    rw [if_pos List.isEmpty_nil]
    cases hs : g.isSend with
    | false =>
      obtain ⟨store, ends, same, dir, clients⟩ := State.gathered_append (s := s.clearBus.setStore { s.store with memory := w })
        (r := r) (m := m) hs hc hd
      rw [store]
      exact ⟨read, frame, rfl, rfl, rfl, dir, clients, same, fun h => absurd rfl h,
        fun _ => ⟨commit false, fun _ => ends, nofun⟩⟩
    | true =>
      rw [State.gathered_send (s := s.clearBus.setStore { s.store with memory := w }) hs hab]
      exact ⟨read, frame, rfl, rfl, rfl, rfl, rfl, ⟨rfl, rfl, rfl, rfl, rfl, rfl⟩, fun h => absurd rfl h,
        fun _ => ⟨commit true, nofun, fun _ => ⟨State.setSlot_slot_same _ _ _, fun j hj => State.setSlot_slot_other _ hj _⟩⟩⟩

end Sys2Proof.Machine

/-!
PROOF. O34: the hand-over of a routing command at the store, and the end of the command or its wait for the settlement.
-/

namespace Sys2Proof.Machine

-- Elaborated one after the other: side by side, each declaration holds a thread with memory of its own.
set_option Elab.async false

section HandOver
variable {s : State} {i : SlotId} {c : ClientId} {r : PostRecord} {q : Routing}

/-! ### The hand-over at the store (R100) -/

/-- It is a request of the store alone. -/
theorem State.handOverStep_eq (s : State) (c : ClientId) (r : PostRecord) (q : Routing) :
    s.handOverStep c r q = s.setStore (s.handOverStep c r q).store := by
  unfold State.handOverStep
  split <;> rfl

theorem State.handOverStep_reopens (hk : r.kind = 4) (hst : q.status ≠ .ok) :
    (s.handOverStep c r q).store = s.store.setParcelState (handleIndex q.handle) .building := by
  unfold State.handOverStep
  rw [if_pos ⟨(r.kind_eq_iff 4).1 hk, hst⟩]
  rfl

theorem State.handOverStep_drops (h : ¬ (r.kind = 4 ∧ q.status ≠ .ok)) :
    (s.handOverStep c r q).store = (s.store.drop (handleIndex q.handle) c 1).1 := by
  unfold State.handOverStep
  rw [if_neg fun e => h ⟨(r.kind_eq_iff 4).2 e.1, e.2⟩]
  rfl

theorem exec_handOver_nothing (hperf : s.performing i = some (c, r)) (hprog : (s.slot i).progress = .settling q)
    (h : q.handsNothing r = true) : exec (.handOver i) s = .next s := by
  simp only [exec, execHandOver, hperf, hprog, h, if_true]

theorem exec_handOver_hands (hperf : s.performing i = some (c, r)) (hprog : (s.slot i).progress = .settling q)
    (h : ¬ q.handsNothing r = true) (hno : q.handedOver = false) :
    exec (.handOver i) s = .next ((s.handOverStep c r q).routingAnswered i c r { q with handedOver := true }) := by
  simp only [exec, execHandOver, hperf, hprog, h, hno, Bool.false_eq_true, if_false]

/-! ### The end of the command of a DRAINING sender (R87, R103) -/

/-- The command of a DRAINING sender with all its answers stops with a clear flag: its completion is discarded, and only its sent
counter may have advanced. -/
theorem State.routingAnswered_stops (h : (q.settled && (q.handedOver || q.handsNothing r)) = true)
    (hc : (s.slot i).client = some c) (hd : (s.client c).state = .draining) :
    s.stops (s.routingAnswered i c r q) i c false ∧ (s.routingAnswered i c r q).unit = s.unit ∧
      ∀ d, (s.routingAnswered i c r q).client d =
        if d = c ∧ q.status = .ok then { s.client c with sent := (s.client c).sent + 1 } else s.client d := by
  have answered : s.routingAnswered i c r q = (s.sentCounted c q.status).formCompletion i (q.completion r) := by
    unfold State.routingAnswered
    rw [if_pos h]
    rfl
  have hc' : ((s.sentCounted c q.status).slot i).client = some c := by
    simpa only [State.slot, State.sentCounted_slots] using hc
  have hd' : ((s.sentCounted c q.status).client c).state = .draining := by rwa [State.sentCounted_state]
  obtain ⟨stops, unit⟩ := State.formCompletion_stops (q.completion r) hc' hd'
  have counted : ∀ d, ((s.sentCounted c q.status).client d).state = .draining → (s.client d).state = .draining := by
    intro d hdd
    rw [State.sentCounted_client] at hdd
    split at hdd
    · rename_i e
      rw [e.1]
      exact hd
    · exact hdd
  rw [answered]
  refine ⟨State.stops_congr (State.sentCounted_slots _) ?_ counted stops, unit.trans (State.sentCounted_unit _), fun d => ?_⟩
  · unfold State.sentCounted
    split <;> rfl
  · rw [State.formCompletion_client, State.sentCounted_client]

end HandOver

/-- Settles O34: the drop or the reopening, then the end of a command that has the settlement's answer or its wait for it. -/
theorem handOverEndsTheRouting : Obligations.HandOverEndsTheRouting := by
  intro s i c r q st hperf hprog hst
  have hst : st = q.status := hst
  subst hst
  obtain ⟨-, -, hc, -⟩ := State.performing_iff.1 hperf
  refine ⟨fun hk hno => exec_handOver_nothing hperf hprog (Routing.handsNothing_iff.2 ⟨hk, hno⟩), fun hands hno => ?_⟩
  have hx := exec_handOver_hands hperf hprog (Routing.handsNothing_iff.not.2 hands) hno
  refine ⟨fun hk hbad => ⟨_, hx, ?_⟩, fun hdrop hholds href => ⟨_, hx, ?_⟩, _, hx, ?_⟩
  · rw [State.routingAnswered_store, State.handOverStep_reopens hk hbad]
    refine ⟨fun j => (s.store.setParcelState_parcel _ _ j).trans (ite_congr rfl (fun e => ?_) fun _ => rfl), rfl, rfl⟩
    rw [e]
  · rw [State.routingAnswered_store, State.handOverStep_drops hdrop]
    exact (s.store.drop_dropsTo hholds href).1
  · rw [State.handOverStep_eq]
    generalize (s.handOverStep c r q).store = w
    refine ⟨congrArg Prod.fst ((s.setStore w).routingAnswered_channels i c r { q with handedOver := true }), fun hset => ?_,
      fun hset => ?_⟩
    · rw [State.routingAnswered_waits (by simp [hset])]
      obtain ⟨goes, same⟩ := State.setProgress_goesOn (s.setStore w) i (.settling { q with handedOver := true })
      exact ⟨goes, same.1, rfl⟩
    · have all : (q.settled && (true || Routing.handsNothing { q with handedOver := true } r)) = true := by
        rw [hset, Bool.true_and, Bool.true_or]
      by_cases hd : (s.client c).state = .draining
      · obtain ⟨stops, unit, sent⟩ := State.routingAnswered_stops (s := s.setStore w) (q := { q with handedOver := true }) all hc hd
        exact ⟨sent, fun h => absurd hd h, fun _ => ⟨State.stops_congr rfl rfl (fun _ h => h) stops, unit⟩⟩
      · obtain ⟨ends, same, sent⟩ := State.routingAnswered_ends (s := s.setStore w) (q := { q with handedOver := true }) all hc hd
        exact ⟨sent, fun _ => ⟨State.ends_congr (u := s.setStore w) rfl rfl ends, same⟩, fun h => absurd h hd⟩

end Sys2Proof.Machine

/-!
PROOF. Taking delivery, and what fills and empties a pending list: ADMISSION (O32), the delivery claim (O42), linger expiry and the
purge (O47), FETCH's check (O35), RELEASE and the release-after drop (O36).
-/

namespace Sys2Proof.Machine

-- Elaborated one after the other: side by side, each declaration holds a thread with memory of its own.
set_option Elab.async false

/-! ### One context or one pending list replaced -/

section Replaced
variable (s : State) (c d : ClientId)

theorem State.setClient_client (v : Client) : (s.setClient c v).client d = if d = c then v else s.client d := by
  split
  · rename_i e
    rw [e, State.setClient_client_same]
  · exact State.setClient_client_other s ‹_› v

theorem State.setList_list (v : List PendingEntry) : (s.setList c v).list d = if d = c then v else s.list d := by
  split
  · rename_i e
    rw [e, State.setList_list_same]
  · exact State.setList_list_other s ‹_› v

end Replaced

/-! ### ADMISSION (R115 to R117) -/

section Admission
variable {s : State} {i : SlotId} {c m : ClientId} {r : PostRecord} {q : Routing} {rest : List ClientId}

theorem exec_admission_offers (hperf : s.performing i = some (c, r)) (hprog : (s.slot i).progress = .offering q)
    (hmem : q.toOffer = m :: rest) : exec (.admission i) s = .next (s.offerStep i c r q m rest) := by
  simp only [exec, execAdmission, hperf, hprog, hmem]

/-- With its last offer decided a routing command goes on to its settlement (R97, R101). -/
theorem Routing.stage_eq (q : Routing) : q.stage = if q.toOffer = [] then .settling q else .offering q := by
  unfold Routing.stage
  simp only [List.isEmpty_iff]

/-- An accepted offer is a reference at the store and an entry at the end of the target's list (R116). -/
theorem State.offerStep_accepted (h : s.admits q.handle m = true) : s.offerStep i c r q m rest =
    ((s.setStore (s.store.createRef (handleIndex q.handle) m)).setList m (s.list m ++ [s.offerEntry c r q.handle])).setProgress i
      { q with toOffer := rest, routed := withClient q.routed m }.stage := if_pos h

/-- The state with a refused offer counted, which a target that is ABSENT does not do (R117). -/
def State.refusalCounted (s : State) (m : ClientId) : State :=
  if (s.client m).state = .absent then s else s.setClient m { s.client m with refused := (s.client m).refused + 1 }

theorem State.offerStep_refused (h : ¬ s.admits q.handle m = true) : s.offerStep i c r q m rest =
    (s.refusalCounted m).setProgress i { q with toOffer := rest, refused := withClient q.refused m }.stage := if_neg h

/-- The counting of a refused offer changes nothing but that counter of its target. -/
theorem State.refusalCounted_eq (s : State) (m : ClientId) :
    s.refusalCounted m = { s with clients := (s.refusalCounted m).clients } := by
  unfold State.refusalCounted
  split <;> rfl

theorem State.refusalCounted_client (s : State) (m d : ClientId) : (s.refusalCounted m).client d =
    if d = m ∧ (s.client m).state ≠ .absent then { s.client m with refused := (s.client m).refused + 1 } else s.client d := by
  unfold State.refusalCounted
  by_cases habsent : (s.client m).state = .absent
  · rw [if_pos habsent, if_neg fun h => h.2 habsent]
  · rw [if_neg habsent, State.setClient_client]
    exact if_congr (and_iff_left habsent).symm rfl rfl

end Admission

/-- Settles O32: the four checks are those of `State.admits`, and each way of deciding the offer changes one block and the slot. -/
theorem admissionAcceptsOrRefuses : Obligations.AdmissionAcceptsOrRefuses := by
  intro s i c r q m rest p hperf hprog hmem hp
  subst hp
  have hx := exec_admission_offers hperf hprog hmem
  refine ⟨fun ha hholder hheld hroom => ?_, fun hfails => ?_⟩
  · rw [State.offerStep_accepted (State.admits_iff.2 ⟨ha, hholder, hheld, hroom⟩), Routing.stage_eq] at hx
    refine ⟨_, hx, s.store.createRef_parcel _ m, s.store.createRef_account _ m, rfl, rfl, rfl, (s.setList_list m · _), rfl,
      State.goesOn_congr rfl rfl (State.setProgress_goesOn _ i _).1, rfl, rfl, rfl, rfl, rfl⟩
  · have refused : ¬ s.admits q.handle m = true := by
      rw [State.admits_iff]
      rintro ⟨ha, hholder, hheld, hroom⟩
      rcases hfails with h | h | h | h
      · exact h ha
      all_goals omega
    rw [State.offerStep_refused refused, Routing.stage_eq, State.refusalCounted_eq] at hx
    obtain ⟨goes, same, -⟩ := State.setProgress_goesOn { s with clients := (s.refusalCounted m).clients } i
      (if rest = [] then .settling { q with toOffer := rest, refused := withClient q.refused m }
       else .offering { q with toOffer := rest, refused := withClient q.refused m })
    exact ⟨_, hx, rfl, rfl, same, s.refusalCounted_client m, State.goesOn_congr rfl rfl goes⟩

/-! ### The delivery claim (R121, R122, R69) -/

section Claim
variable {entries : List PendingEntry} {e : PendingEntry} {k : Nat} {s : State} {c d : ClientId}

theorem topClass_eq (he : e ∈ entries) (top : ∀ f ∈ entries, f.cls.toNat ≤ e.cls.toNat) : topClass entries = e.cls.toNat := by
  have highest : (0 :: entries.map (fun f => f.cls.toNat)).max? = some e.cls.toNat :=
    List.max?_eq_some_iff.2 ⟨List.mem_cons_of_mem _ (List.mem_map_of_mem he), by simpa using top⟩
  exact Option.some.inj highest

/-- The place of the first entry of the highest class (R121). -/
theorem claimPlace_eq (hk : entries[k]? = some e) (top : ∀ f ∈ entries, f.cls.toNat ≤ e.cls.toNat)
    (first : ∀ j f, j < k → entries[j]? = some f → f.cls.toNat < e.cls.toNat) : claimPlace entries = some k := by
  obtain ⟨hlt, rfl⟩ := List.getElem?_eq_some_iff.1 hk
  unfold claimPlace
  rw [topClass_eq (List.getElem_mem hlt) top, List.findIdx?_eq_some_iff_getElem]
  refine ⟨hlt, beq_self_eq_true _, fun j hj => ?_⟩
  rw [beq_iff_eq]
  exact (first j _ hj (List.getElem?_eq_getElem (hj.trans hlt))).ne

theorem execDeliveryClaim_next (hc : s.canClaim c .del = true) (hplace : claimPlace (s.list c) = some k)
    (hk : (s.list c)[k]? = some e) : exec (.deliveryClaim c) s = .next (s.claimDelivery c k e).readChoice := by
  simp only [exec, execDeliveryClaim, hc, if_true, hplace, hk]

/-- The context of the claim's client has its delivery ring claimed once more, and the sequence has advanced; no other changes. -/
theorem State.claimDelivery_client (s : State) (c : ClientId) (k : Nat) (e : PendingEntry) (d : ClientId) :
    (s.claimDelivery c k e).client d = if d = c then { s.client c with
        sequence := (s.client c).sequence + 1,
        del := { (s.client c).del with claimed := (s.client c).del.claimed + 1, inFlight := true } } else s.client d := by
  unfold State.claimDelivery
  rw [State.setClient_client, State.claimRing_client]
  exact ite_congr rfl (fun _ => rfl) fun h => State.claimRing_client_other h

/-- The Delivery Unit after the claim: the list without its entry, and the record behind those made ready before it. -/
theorem State.claimDelivery_unit (s : State) (c : ClientId) (k : Nat) (e : PendingEntry) : (s.claimDelivery c k e).unit =
    { (s.setList c ((s.list c).eraseIdx k)).unit with writer := s.unit.writer ++ [{
        op := .record c .del .delivery,
        addr := ringAddr (s.client c).del.base (s.client c).del.size 32 (s.client c).del.claimed, len := 32,
        data := e.bytes (lapFlag (s.client c).del.size (s.client c).del.claimed)
          (s.store.parcel (handleIndex e.handle)).length (s.client c).sequence s.port.tickCount }] } :=
  State.claimRing_unit _ _ _ _ _

theorem State.claimDelivery_list (s : State) (c : ClientId) (k : Nat) (e : PendingEntry) (d : ClientId) :
    (s.claimDelivery c k e).list d = if d = c then (s.list c).eraseIdx k else s.list d := by
  rw [State.list, State.claimDelivery_unit]
  exact s.setList_list c d _

end Claim

/-- Settles O42: the place is that of `claimPlace`, and the claim of the ring is the one of `State.claimRing`. -/
theorem deliveryClaimTakesTheHighestClass : Obligations.DeliveryClaimTakesTheHighestClass := by
  intro s c k e hactive ha room idle hk top first
  have can : s.canClaim c .del = true := State.canClaim_iff.2 ⟨hactive, ha, room, idle⟩
  refine ⟨s.claimDelivery c k e, execDeliveryClaim_next can (claimPlace_eq hk top first) hk, s.claimDelivery_list c k e,
    s.claimDelivery_client c k e, ?_, ?_, State.claimRing_intake (s := s.setList c _) ha, ?_⟩
  · rw [State.claimDelivery_unit]
    rfl
  · rw [State.claimDelivery_unit]
    rfl
  · unfold State.claimDelivery
    simp

/-! ### Linger expiry and the purge (R126, R135, R163) -/

section Emptied
variable {s : State} {i : SlotId} {c : ClientId} {r : PostRecord} {d : Teardown}

theorem exec_lingerExpiry_due (ht : s.ticking = true) (hdue : has s.unit.expiryDue c = true) :
    exec (.lingerExpiry c) s = .next ((s.setUnit { s.unit with expiryDue := without s.unit.expiryDue c }).expire c) := by
  simp only [exec, execLingerExpiry, ht, hdue, Bool.and_self, if_true]

theorem exec_pendingPurge_due (htd : s.teardownOf i = some (r, d)) (hst : d.stage = .pending) :
    exec (.pendingPurge i) s = .next (((s.setStore (s.store.dropEach d.subject (s.list d.subject)).1).setList d.subject
      []).setProgress i (.teardown { d with
        stage := .walk 0, entries := (s.list d.subject).length,
        purgeFreed := (s.store.dropEach d.subject (s.list d.subject)).2 })) := by
  simp only [exec, execPendingPurge, htd, hst, if_true, Store.dropEntries_eq]

/-- An expiry keeps the entries whose age is below the linger limit (R126). -/
theorem PendingEntry.not_aged (limit : Nat) (now : Tally) :
    (fun e : PendingEntry => !e.aged limit now) = fun e => decide ((now - e.tick).toNat < limit) := by
  funext e
  rw [PendingEntry.aged, ← decide_not]
  exact decide_eq_decide.2 Nat.not_le

/-- An expiry, with its removed entries counted and dropped as the statements say it. -/
theorem State.expire_eq (s : State) (c : ClientId) {n : Nat}
    (hn : n = (s.list c).countP (fun e => e.aged s.unit.lingerLimit s.port.tickCount)) : s.expire c =
    ((s.setStore (s.store.dropEach c ((s.list c).filter (fun e => e.aged s.unit.lingerLimit s.port.tickCount))).1).setList c
      ((s.list c).filter (fun e => decide ((s.port.tickCount - e.tick).toNat < s.unit.lingerLimit)))).setClient c
      { s.client c with expired := (s.client c).expired + BitVec.ofNat 32 n,
                        sequence := (s.client c).sequence + BitVec.ofNat 32 n } := by
  unfold State.expire
  dsimp only
  rw [hn, List.countP_eq_length_filter, Store.dropEntries_eq, PendingEntry.not_aged]

end Emptied

/-- Settles O47: both drop the references of the entries they remove by `Store.dropEach`, one in the list's order after the other. -/
theorem expiryAndPurgeEmptyTheList : Obligations.ExpiryAndPurgeEmptyTheList := by
  refine ⟨fun s c n ht hdue hn => ?_, fun s i r d htd hst => ?_⟩
  · have hx := exec_lingerExpiry_due ht hdue
    rw [State.expire_eq (s.setUnit { s.unit with expiryDue := without s.unit.expiryDue c }) c hn] at hx
    exact ⟨_, hx, (s.setList_list c · _), (s.setClient_client c · _), rfl, rfl, rfl, rfl, rfl, rfl, rfl, rfl⟩
  · exact ⟨_, exec_pendingPurge_due htd hst, (s.setList_list d.subject · _), rfl, rfl, rfl,
      State.goesOn_congr rfl rfl (State.setProgress_goesOn _ i _).1, rfl, rfl, rfl, rfl⟩

/-! ### FETCH's check (R130, R132) -/

section Fetch
variable {s : State} {i : SlotId} {c : ClientId} {r : PostRecord} {fr : List Accepted}

/-- The references that the entries of the client's list stand on are not free (R120). -/
theorem State.freeRefs_lt_iff {y : Handle} {n : Nat} (hn : 1 ≤ n) :
    s.freeRefs c y < n ↔ (s.store.parcel (handleIndex y)).holder c < n + naming (s.list c) y := by
  rw [← not_iff_not, State.freeRefs_iff hn, Nat.not_lt, Nat.add_comm]

/-- The checks of a FETCH that resolves, in their order (R130). -/
theorem State.fetchCheck_resolved (hres : s.store.resolve r.handle c = none) : s.fetchCheck i c r fr =
    if (s.store.parcel (handleIndex r.handle)).holder c ≤ naming (s.list c) r.handle then s.endWith i r .notHeld 0
    else if (s.store.parcel (handleIndex r.handle)).length < r.auxA.toNat + r.totalLength then s.endWith i r .badRange 0
    else if r.totalLength = 0 then s.scattered i r r.handle (s.store.parcel (handleIndex r.handle)).length 0
    else s.setProgress i (.moving
      { handle := r.handle, base := r.auxA.toNat, pieces := runPieces fr 0,
        length := (s.store.parcel (handleIndex r.handle)).length, total := r.totalLength }) := by
  simp only [State.fetchCheck, hres, State.freeRefs_lt_iff (Nat.le_refl 1), Nat.one_add, Nat.lt_succ_iff]

/-- With no byte left to copy a FETCH goes on to its release-after drop or ends (R132). -/
theorem State.scattered_spec (hc : (s.slot i).client = some c) (hd : (s.client c).state ≠ .draining) (r : PostRecord) (h : Handle)
    (length copied : Nat) : s.sameBlocks (s.scattered i r h length copied) ∧
      if r.flags.getLsbD 1 then s.goesOn (s.scattered i r h length copied) i (.dropAfter h length copied)
      else s.ends (s.scattered i r h length copied) i
        { r.completion .ok 0 with handle := h, length := length, copied := copied } := by
  unfold State.scattered State.endFetched PostRecord.releaseAfter
  split
  · exact (State.setProgress_goesOn s i _).symm
  · exact ⟨State.formCompletion_sameBlocks _ hc hd, State.formCompletion_ends _ hc hd⟩

end Fetch

/-- Settles O35: by the check that fails first, and for the passed ones by the bytes left to copy. -/
theorem fetchChecksBeforeItScatters : Obligations.FetchChecksBeforeItScatters := by
  intro s i c r fr p h hfr hp hres
  subst hp
  obtain ⟨hc, hd⟩ := State.serves_client h
  refine ⟨_, exec_fetch_served h hfr, ?_⟩
  rw [State.fetchCheck_resolved hres, naming]
  by_cases hnone : (s.store.parcel (handleIndex r.handle)).holder c ≤ (s.list c).countP (fun e => e.handle == r.handle)
  · rw [if_pos hnone, if_pos hnone]
    exact (State.endWith_ends r .notHeld 0 hc hd).symm
  rw [if_neg hnone, if_neg hnone]
  by_cases hrange : (s.store.parcel (handleIndex r.handle)).length < r.auxA.toNat + r.totalLength
  · rw [if_pos hrange, if_pos hrange]
    exact (State.endWith_ends r .badRange 0 hc hd).symm
  rw [if_neg hrange, if_neg hrange]
  by_cases hzero : r.totalLength = 0
  · rw [if_pos hzero, if_neg (Nat.not_lt.2 hzero.le)]
    exact State.scattered_spec hc hd r _ _ 0
  · rw [if_neg hzero, if_pos (Nat.pos_of_ne_zero hzero)]
    exact (State.setProgress_goesOn s i _).symm

/-! ### RELEASE and the release-after drop (R132 to R134) -/

section Release
variable {s : State} {i : SlotId} {c : ClientId} {r : PostRecord}

theorem exec_release_badRange (h : s.serves i 8 c r = true) (hn : r.auxA.toNat = 0 ∨ 15 < r.auxA.toNat) :
    exec (.release i) s = .next (s.endWith i r .badRange 0) := by
  obtain ⟨ht, -, -⟩ := State.serves_iff.1 h
  have hbad : r.auxA.toNat < 1 ∨ Config.maxHolder < r.auxA.toNat := by unfold Config.maxHolder; omega
  simp only [exec, execRelease, ht, hbad, if_true]

theorem exec_releaseAfterDrop_due {h : Handle} {length copied : Nat} (hw : s.works i c r = true)
    (hprog : (s.slot i).progress = .dropAfter h length copied) : exec (.releaseAfterDrop i) s =
      .next ((s.setStore (s.store.drop (handleIndex h) c 1).1).endFetched i r h length copied) := by
  obtain ⟨hperf, hab, -⟩ := State.works_iff.1 hw
  simp only [exec, execReleaseAfterDrop, hperf, hprog, hab, Bool.false_eq_true, if_false]

/-- A RELEASE that resolves drops its references when that many are free (R133). -/
theorem State.releaseStep_resolved (hres : s.store.resolve r.handle c = none) : s.releaseStep i c r =
    if s.freeRefs c r.handle < r.auxA.toNat then s.endWith i r .notHeld 0
    else (s.setStore (s.store.drop (handleIndex r.handle) c r.auxA.toNat).1).formCompletion i { r.completion .ok 0 with
      handle := r.handle, holderAfter := (s.store.parcel (handleIndex r.handle)).holder c - r.auxA.toNat,
      freed := (s.store.drop (handleIndex r.handle) c r.auxA.toNat).2 } := by
  simp only [State.releaseStep, hres]

/-- A command that ends after a drop at the store changes its slot and the store alone. -/
theorem State.drop_formCompletion {k n : Nat} (hc : (s.slot i).client = some c) (hd : (s.client c).state ≠ .draining)
    (hholds : n ≤ (s.store.parcel k).holder c) (href : n ≤ (s.store.parcel k).refCount) (x : Completion) :
    s.store.dropsTo ((s.setStore (s.store.drop k c n).1).formCompletion i x).store k c n ∧
      s.ends ((s.setStore (s.store.drop k c n).1).formCompletion i x) i x ∧
      s.sameRest ((s.setStore (s.store.drop k c n).1).formCompletion i x) ∧
      ((s.setStore (s.store.drop k c n).1).formCompletion i x).dir = s.dir ∧
      ((s.setStore (s.store.drop k c n).1).formCompletion i x).clients = s.clients := by
  obtain ⟨rest, store, dir, clients⟩ := State.formCompletion_sameBlocks (s := s.setStore (s.store.drop k c n).1) x hc hd
  refine ⟨?_, State.ends_congr (u := s.setStore (s.store.drop k c n).1) rfl rfl (State.formCompletion_ends x hc hd), rest, dir,
    clients⟩
  rw [store]
  exact (s.store.drop_dropsTo hholds href).1

end Release

/-- Settles O36: both commands end after the drop of `Store.drop_dropsTo`. -/
theorem releaseDropsReferences : Obligations.ReleaseDropsReferences := by
  refine ⟨fun s i c r p h hp => ⟨fun hn => State.serves_refused h (exec_release_badRange h hn), fun h1 h2 hres => ?_⟩,
    fun s i c r h length copied hw hprog hholds href => ?_⟩
  · subst hp
    obtain ⟨hc, hd⟩ := State.serves_client h
    have hx := exec_release_served h h1 h2
    rw [State.releaseStep_resolved hres] at hx
    refine ⟨fun hfew => ?_, fun hfree href => ?_⟩
    · rw [if_pos ((State.freeRefs_lt_iff h1).2 hfew)] at hx
      exact State.serves_refused h hx
    · have holds : r.auxA.toNat ≤ (s.store.parcel (handleIndex r.handle)).holder c := by omega
      rw [if_neg fun hfew => absurd ((State.freeRefs_lt_iff h1).1 hfew) (Nat.not_lt.2 hfree),
        (s.store.drop_dropsTo holds href).2] at hx
      exact ⟨_, hx, State.drop_formCompletion hc hd holds href _⟩
  · obtain ⟨hperf, -, hd⟩ := State.works_iff.1 hw
    obtain ⟨-, -, hc, -⟩ := State.performing_iff.1 hperf
    exact ⟨_, exec_releaseAfterDrop_due hw hprog, State.drop_formCompletion hc hd hholds href _⟩

end Sys2Proof.Machine

/-!
PROOF. O28, O29 and O30: which aperture serves a range, which fragment is the first refused, and how a range is cut into pieces.
-/

namespace Sys2Proof.Machine

-- Elaborated one after the other: side by side, each declaration holds a thread with memory of its own.
set_option Elab.async false

/-! ### The serving aperture (R139, R141) -/

section Apertures
variable {apertures : List Aperture} {right : Right} {a n : Nat}

/-- An aperture accepts a range that it contains, reckoned without wrapping, and for which it carries the right (R139). -/
theorem Aperture.accepts_iff {w : Aperture} : (w.contains a n && w.carries right) = true ↔
    w.base.toNat ≤ a ∧ a + n ≤ w.base.toNat + w.length.toNat ∧ a + n ≤ 2 ^ 48 ∧
      (right = .read → w.readRight = true) ∧ (right = .write → w.writeRight = true) := by
  have carries : w.carries right = true ↔ (right = .read → w.readRight = true) ∧ (right = .write → w.writeRight = true) := by
    cases right <;> simp [Aperture.carries]
  simp only [Aperture.contains, Bool.and_eq_true, decide_eq_true_eq, carries, and_assoc]

/-- A range is translated by the first aperture that accepts it (R141). -/
theorem translate_of_first {k : Nat} (h : k < apertures.length)
    (accepts : (apertures[k].contains a n && apertures[k].carries right) = true)
    (first : ∀ j (hj : j < k), ¬ (apertures[j].contains a n && apertures[j].carries right) = true) :
    translate apertures right a n = some (apertures[k].system + BitVec.ofNat 64 (a - apertures[k].base.toNat)) := by
  have found : apertures.find? (fun w => w.contains a n && w.carries right) = some apertures[k] :=
    List.find?_eq_some_iff_getElem.2 ⟨accepts, k, h, rfl, fun j hj => by
      rw [Bool.not_eq_true']
      exact Bool.eq_false_iff.2 (first j hj)⟩
  simp only [translate, found]

theorem translate_of_none (h : ∀ w ∈ apertures, ¬ (w.contains a n && w.carries right) = true) :
    translate apertures right a n = none := by
  simp only [translate, List.find?_eq_none.2 h]

end Apertures

/-- Settles O29: the search takes the first aperture that accepts the range. -/
theorem servingApertureIsTheLowest : Obligations.ServingApertureIsTheLowest := by
  intro apertures right a n
  refine ⟨fun k h accepts lower => ?_, fun refuse => ?_⟩
  · exact translate_of_first h (Aperture.accepts_iff.2 accepts) fun j hj => mt Aperture.accepts_iff.1 (lower j hj)
  · exact translate_of_none fun w hw => mt Aperture.accepts_iff.1 (refuse w hw)

/-! ### The aperture check of fragments (R142) -/

section Fragments
variable {apertures : List Aperture} {right : Right} {k : Nat} {f : Fragment} {rest : List (Nat × Fragment)}

theorem Fragment.len_toNat_eq_zero : f.len.toNat = 0 ↔ f.len = 0 := BitVec.toNat_inj (y := 0)

theorem checkFragments_empty (hlen : f.len = 0) :
    checkFragments apertures right ((k, f) :: rest) = checkFragments apertures right rest := by
  rw [checkFragments, if_pos (Fragment.len_toNat_eq_zero.2 hlen)]

theorem checkFragments_refused (hlen : f.len ≠ 0) (htr : translate apertures right f.addr.toNat f.len.toNat = none) :
    checkFragments apertures right ((k, f) :: rest) = .error k := by
  rw [checkFragments, if_neg (mt Fragment.len_toNat_eq_zero.1 hlen), htr]

theorem checkFragments_served {a : Addr} (hlen : f.len ≠ 0)
    (htr : translate apertures right f.addr.toNat f.len.toNat = some a) :
    checkFragments apertures right ((k, f) :: rest) =
      (checkFragments apertures right rest).map ({ fragment := k, addr := a, len := f.len.toNat } :: ·) := by
  rw [checkFragments, if_neg (mt Fragment.len_toNat_eq_zero.1 hlen), htr]
  cases checkFragments apertures right rest <;> rfl

/-- The check answers the index of the first refused fragment. -/
theorem checkFragments_first_refused (post : List (Nat × Fragment)) (hlen : f.len ≠ 0)
    (htr : translate apertures right f.addr.toNat f.len.toNat = none) (pre : List (Nat × Fragment))
    (hpre : ∀ g ∈ pre, g.2.len = 0 ∨ (translate apertures right g.2.addr.toNat g.2.len.toNat).isSome) :
    checkFragments apertures right (pre ++ (k, f) :: post) = .error k := by
  induction pre with
  | nil => exact checkFragments_refused hlen htr
  | cons g pre ih =>
    obtain ⟨hg, hpre⟩ := List.forall_mem_cons.1 hpre
    rw [List.cons_append]
    by_cases empty : g.2.len = 0
    · rw [checkFragments_empty empty, ih hpre]
    · obtain ⟨a, ha⟩ := Option.isSome_iff_exists.1 (hg.resolve_left empty)
      rw [checkFragments_served empty ha, ih hpre]
      rfl

/-- What the check of one fragment answers: its index, its system address if an aperture serves it, and its length. -/
def checkedFragment (apertures : List Aperture) (right : Right) (x : Nat × Fragment) : Nat × Option Addr × Nat :=
  (x.1, translate apertures right x.2.addr.toNat x.2.len.toNat, x.2.len.toNat)

/-- An accepted fragment as its check answered it. -/
def Accepted.answer (a : Accepted) : Nat × Option Addr × Nat := (a.fragment, some a.addr, a.len)

/-- The check passes with the fragments of nonzero length, all of them served, in order. -/
theorem checkFragments_ok_iff {l : List (Nat × Fragment)} {fr : List Accepted} : checkFragments apertures right l = .ok fr ↔
    fr.map Accepted.answer = (l.filter (fun x => x.2.len != 0)).map (checkedFragment apertures right) := by
  induction l generalizing fr with
  | nil => simp [checkFragments, eq_comm]
  | cons x rest ih =>
    obtain ⟨k, f⟩ := x
    by_cases empty : f.len = 0
    · rw [checkFragments_empty empty, ih, List.filter_cons_of_neg (by simpa using empty)]
    · rw [List.filter_cons_of_pos (by simpa using empty), List.map_cons, List.map_eq_cons_iff]
      cases htr : translate apertures right f.addr.toNat f.len.toNat with
      | none =>
        rw [checkFragments_refused empty htr]
        simp [Accepted.answer, checkedFragment, htr]
      | some a =>
        have head : ∀ b : Accepted, b.answer = checkedFragment apertures right (k, f) ↔
            b = { fragment := k, addr := a, len := f.len.toNat } := by
          rintro ⟨_, _, _⟩
          simp [Accepted.answer, checkedFragment, htr]
        rw [checkFragments_served empty htr]
        simp only [head, ← ih]
        cases checkFragments apertures right rest <;> simp [Except.map, eq_comm]

end Fragments

/-! ### The commands whose fragments are refused (R142) -/

section Refused
variable {s : State} {i : SlotId} {c : ClientId} {r : PostRecord} {k : Nat}

/-- A taken command whose step answers a failed check ends with its status, and nothing else changes. -/
theorem State.taken_refused {kind d : Nat} {x : Instr} {st : Status} (ht : s.takenCommand i kind = some (c, r))
    (hd : (s.client c).state ≠ .draining) (hx : exec x s = .next (s.endWith i r st d)) :
    ∃ t, exec x s = .next t ∧ s.ends t i (r.completion st d) ∧ s.sameBlocks t := by
  obtain ⟨-, -, -, hc, -⟩ := State.takenCommand_iff.1 ht
  exact ⟨_, hx, State.endWith_ends r st d hc hd⟩

theorem exec_append_aperture (ht : s.takenCommand i 2 = some (c, r))
    (hf : checkFragments (s.client c).apertures .read r.fragments = .error k) :
    exec (.append i) s = .next (s.endWith i r .aperture k) := by
  simp only [exec, execAppend, ht, hf]

theorem exec_send_aperture (ht : s.takenCommand i 5 = some (c, r))
    (hf : checkFragments (s.client c).apertures .read r.fragments = .error k) :
    exec (.send i) s = .next (s.endWith i r .aperture k) := by
  simp only [exec, execSend, ht, hf]

theorem exec_fetch_aperture (ht : s.takenCommand i 7 = some (c, r))
    (hf : checkFragments (s.client c).apertures .write r.fragments = .error k) :
    exec (.fetch i) s = .next (s.endWith i r .aperture k) := by
  simp only [exec, execFetch, ht, hf]

/-- The fixed region of ATTACH or QUERY is refused when fragment 0 is missing or no aperture serves it. -/
theorem checkRegion_refused {apertures : List Aperture} {right : Right} {n : Nat}
    (h : r.count = 0 ∨ translate apertures right r.frag0.addr.toNat n = none) : checkRegion apertures right r n = none := by
  unfold checkRegion
  rcases h with h | h
  · exact if_pos (BitVec.toNat_eq.1 h)
  · rw [h, ite_self]

theorem checkRegion_served {apertures : List Aperture} {right : Right} {n : Nat} (h : r.count ≠ 0) :
    checkRegion apertures right r n = translate apertures right r.frag0.addr.toNat n :=
  if_neg (BitVec.toNat_ne.1 h)

theorem clientOf_eq_some_iff {b : Byte} {d : ClientId} : clientOf b = some d ↔ b.toNat = d.val := by
  unfold clientOf
  split
  · rw [Option.some.injEq, Fin.ext_iff]
  · exact iff_of_false nofun (by omega)

/-- The subject of an ATTACH is a client 1 to 7 that is ABSENT (R155). -/
theorem State.attachable_eq_some_iff {d : ClientId} :
    s.attachable r = some d ↔ r.subject.toNat = d.val ∧ d ≠ 0 ∧ (s.client d).state = .absent := by
  rw [← clientOf_eq_some_iff]
  unfold State.attachable
  cases clientOf r.subject with
  | none => exact iff_of_false nofun nofun
  | some e =>
    simp only [Option.ite_none_right_eq_some, Option.some.injEq]
    exact ⟨fun ⟨h, he⟩ => he ▸ ⟨rfl, h⟩, fun ⟨he, h⟩ => ⟨he ▸ h, he⟩⟩

theorem exec_attach_aperture {d : ClientId} (ht : s.takenCommand i 16 = some (c, r)) (hs : s.attachable r = some d)
    (hf : checkRegion (s.client c).apertures .read r 192 = none) :
    exec (.attach i) s = .next (s.endWith i r .aperture 0) := by
  simp only [exec, execAttach, ht, hs, Config.descriptorBytes, hf]

theorem exec_query_aperture (ht : s.takenCommand i 20 = some (c, r)) (hcode : r.auxA.toNat ≤ 3)
    (hsubject : r.auxA.toNat = 1 → r.subject.toNat ≤ 7) (hf : checkRegion (s.client c).apertures .write r 64 = none) :
    exec (.query i) s = .next (s.endWith i r .aperture 0) := by
  have client : ¬ (r.auxA.toNat = 1 ∧ 7 < r.subject.toNat) := fun ⟨h1, h7⟩ => absurd (hsubject h1) (Nat.not_le.2 h7)
  simp only [exec, execQuery, ht, Nat.not_lt.2 hcode, client, if_false, Config.reportBytes, hf]

end Refused

/-- Settles O28: the check answers the first refused fragment (`checkFragments_first_refused`), and it is the first check of APPEND,
SEND and FETCH; ATTACH and QUERY make theirs of fragment 0 after those of their subject. -/
theorem apertureRefusalsComeFirst : Obligations.ApertureRefusalsComeFirst := by
  refine ⟨fun s i c r right x k f pre post hcmd hd hfr hpre hlen htr => ?_,
    fun s i c r hd => ⟨fun ht => ?_, fun ht h3 h7 hf => ?_⟩⟩
  · have refused := checkFragments_first_refused (k := k) post hlen htr pre hpre
    rw [← hfr] at refused
    rcases hcmd with ⟨rfl, rfl, ht⟩ | ⟨rfl, rfl, ht⟩ | ⟨rfl, rfl, ht⟩
    · exact State.taken_refused ht hd (exec_append_aperture ht refused)
    · exact State.taken_refused ht hd (exec_send_aperture ht refused)
    · exact State.taken_refused ht hd (exec_fetch_aperture ht refused)
  · rintro ⟨d, subject⟩ hf
    exact State.taken_refused ht hd
      (exec_attach_aperture ht (State.attachable_eq_some_iff.2 subject) (checkRegion_refused hf))
  · exact State.taken_refused ht hd (exec_query_aperture ht h3 h7 (checkRegion_refused hf))

/-! ### Pieces (R143) -/

section Pieces
variable {fuel f n run : Nat} {addr : Addr}

/-- The length of the first piece of a range: to the next multiple of 256, or to the end of the range. -/
def firstLen (addr : Addr) (n : Nat) : Nat := min n (Config.busBlock - addr.toNat % Config.busBlock)

theorem cutRange_nil : cutRange fuel f addr 0 run = [] := by
  cases fuel <;> simp [cutRange]

theorem cutRange_cons (hn : n ≠ 0) : cutRange (fuel + 1) f addr n run =
    { fragment := f, addr := addr, len := firstLen addr n, run := run } ::
      cutRange fuel f (addr + BitVec.ofNat 64 (firstLen addr n)) (n - firstLen addr n) (run + firstLen addr n) := if_neg hn

theorem firstLen_le (addr : Addr) (n : Nat) : firstLen addr n ≤ n := Nat.min_le_left _ _

/-- A first piece is not empty and crosses no multiple of 256. -/
theorem firstLen_within (addr : Addr) (hn : n ≠ 0) : 1 ≤ firstLen addr n ∧ addr.toNat % 256 + firstLen addr n ≤ 256 := by
  unfold firstLen Config.busBlock
  omega

/-- What a first piece leaves of the range starts on a multiple of 256. -/
theorem firstLen_next (h : n - firstLen addr n ≠ 0) :
    (addr + BitVec.ofNat 64 (firstLen addr n)).toNat % 256 = 0 ∧ addr.toNat % 256 + firstLen addr n = 256 := by
  rw [BitVec.toNat_add, BitVec.toNat_ofNat]
  unfold firstLen Config.busBlock at *
  omega

/-- The bound on the number of pieces suffices for a range: it is empty, or ends within that many blocks of 256. -/
def enoughPieces (fuel : Nat) (addr : Addr) (n : Nat) : Prop := n = 0 ∨ addr.toNat % 256 + n ≤ 256 * fuel

theorem enoughPieces_next (h : enoughPieces (fuel + 1) addr n) :
    enoughPieces fuel (addr + BitVec.ofNat 64 (firstLen addr n)) (n - firstLen addr n) := by
  by_cases done : n - firstLen addr n = 0
  · exact .inl done
  · obtain ⟨start, full⟩ := firstLen_next done
    refine .inr ?_
    rw [start]
    unfold enoughPieces at h
    omega

theorem enoughPieces_cutPieces (addr : Addr) (n : Nat) : enoughPieces (n / Config.busBlock + 2) addr n := by
  unfold enoughPieces Config.busBlock
  omega

/-- Nothing of the range is left out. -/
theorem cutRange_sum (h : enoughPieces fuel addr n) : ((cutRange fuel f addr n run).map Piece.len).sum = n := by
  induction fuel generalizing addr n run with
  | zero =>
    obtain rfl : n = 0 := by unfold enoughPieces at h; omega
    rw [cutRange_nil, List.map_nil, List.sum_nil]
  | succ fuel ih =>
    by_cases hn : n = 0
    · subst hn
      rw [cutRange_nil, List.map_nil, List.sum_nil]
    · rw [cutRange_cons hn, List.map_cons, List.sum_cons, ih (enoughPieces_next h)]
      exact Nat.add_sub_cancel' (firstLen_le addr n)

/-- Each piece lies within one block of 256, starts where those before it end, and each but the first starts a block. -/
theorem cutRange_piece {k : Nat} {p : Piece} (hp : (cutRange fuel f addr n run)[k]? = some p) :
    p.fragment = f ∧ 1 ≤ p.len ∧ p.addr.toNat % 256 + p.len ≤ 256 ∧ (0 < k → p.addr.toNat % 256 = 0) ∧
      p.addr = addr + BitVec.ofNat 64 (((cutRange fuel f addr n run).take k).map Piece.len).sum ∧
      p.run = run + (((cutRange fuel f addr n run).take k).map Piece.len).sum := by
  induction fuel generalizing addr n run k with
  | zero => cases hp
  | succ fuel ih =>
    by_cases hn : n = 0
    · subst hn
      rw [cutRange_nil] at hp
      cases hp
    rw [cutRange_cons hn] at hp ⊢
    cases k with
    | zero =>
      cases hp
      obtain ⟨positive, within⟩ := firstLen_within addr hn
      exact ⟨rfl, positive, within, nofun, (BitVec.add_zero addr).symm, rfl⟩
    | succ k =>
      rw [List.getElem?_cons_succ] at hp
      obtain ⟨fragment, positive, within, start, place, runs⟩ := ih hp
      rw [List.take_succ_cons, List.map_cons, List.sum_cons, BitVec.ofNat_add, ← BitVec.add_assoc, ← Nat.add_assoc]
      refine ⟨fragment, positive, within, fun _ => ?_, place, runs⟩
      -- A piece after the first one has something left to cover.
      have more : n - firstLen addr n ≠ 0 := fun e => by
        rw [e, cutRange_nil] at hp
        cases hp
      cases k with
      | zero =>
        have first : p.addr = addr + BitVec.ofNat 64 (firstLen addr n) := place.trans (BitVec.add_zero _)
        rw [first]
        exact (firstLen_next more).1
      | succ k => exact start (Nat.zero_lt_succ k)

/-- The pieces of a run are those of its fragments, each where the fragments before it end. -/
theorem runPieces_eq (fr : List Accepted) (run : Nat) : runPieces fr run =
    fr.zipIdx.flatMap (fun x => cutPieces x.1.fragment x.1.addr x.1.len (run + ((fr.take x.2).map Accepted.len).sum)) := by
  induction fr generalizing run with
  | nil => rfl
  | cons a rest ih =>
    rw [runPieces, ih, List.zipIdx_cons', List.flatMap_cons, List.flatMap_map]
    simp [Nat.add_assoc]

end Pieces

/-- Settles O30: the check by `checkFragments_ok_iff`, the run by `runPieces_eq`, a range by induction on its pieces. -/
theorem piecesCoverTheRange : Obligations.PiecesCoverTheRange := by
  refine ⟨fun apertures right r within hw => ?_, fun fr => ?_, fun f addr n run _ => ?_⟩
  · subst hw
    exact ⟨rfl, rfl, fun fr => checkFragments_ok_iff⟩
  · simpa only [Nat.zero_add] using runPieces_eq fr 0
  · exact ⟨cutRange_sum (enoughPieces_cutPieces addr n), fun k p hp => cutRange_piece hp⟩

end Sys2Proof.Machine

/-!
PROOF. O27 and O50: the pieces of a FETCH, and the stages of ATTACH.
-/

namespace Sys2Proof.Machine

-- Elaborated one after the other: side by side, each declaration holds a thread with memory of its own.
set_option Elab.async false

/-! ### A command whose transaction has completed -/

section Completed
variable {s : State} {i : SlotId} {c : ClientId} {r : PostRecord}

/-- A command at work that goes on after its transaction frees the bus and changes its own slot alone. -/
theorem State.clearBus_setProgress (s : State) (i : SlotId) (p : Progress) :
    ({ s with arb := { s.arb with bus := none } } : State).sameBlocks (s.clearBus.setProgress i p) ∧
      s.goesOn (s.clearBus.setProgress i p) i p :=
  (State.setProgress_goesOn s.clearBus i p).symm

/-- A command at work that ends after its transaction frees the bus and changes its own slot alone. -/
theorem State.clearBus_formCompletion (hw : s.works i c r = true) (x : Completion) :
    ({ s with arb := { s.arb with bus := none } } : State).sameBlocks (s.clearBus.formCompletion i x) ∧
      s.ends (s.clearBus.formCompletion i x) i x := by
  obtain ⟨hperf, -, hd⟩ := State.works_iff.1 hw
  obtain ⟨-, -, hc, -⟩ := State.performing_iff.1 hperf
  exact ⟨State.formCompletion_sameBlocks (s := s.clearBus) x hc hd, State.formCompletion_ends (s := s.clearBus) x hc hd⟩

/-- A command at work that a failed transaction ends has the status for its completion. -/
theorem State.works_failed {x : Instr} {st : Status} {d : Nat} (hw : s.works i c r = true)
    (hx : exec x s = .next (s.clearBus.endWith i r st d)) :
    ∃ t, exec x s = .next t ∧ ({ s with arb := { s.arb with bus := none } } : State).sameBlocks t ∧
      s.ends t i (r.completion st d) :=
  ⟨_, hx, State.clearBus_formCompletion hw _⟩

end Completed

/-! ### The pieces of a FETCH (R146, R148, R132) -/

section Scatter
variable {s : State} {x : Txn} {i : SlotId} {c : ClientId} {r : PostRecord} {m : Movement} {p : Piece} {rest : List Piece}

theorem exec_scatterPiece_done (hlive : s.carriesLive x = true) (hop : x.op = .scatter i) (hw : s.works i c r = true)
    (hprog : (s.slot i).progress = .moving m) (hpieces : m.pieces = p :: rest) :
    exec (.scatterPieceComplete .done) s = .next (if rest.isEmpty then s.clearBus.scattered i r m.handle m.length m.total
      else s.clearBus.setProgress i (.moving { m with pieces := rest })) := by
  obtain ⟨hperf, hab, -⟩ := State.works_iff.1 hw
  have hbus : s.onBus TxnOp.scatterOf = .live i x := State.onBus_live hlive (by rw [hop]; rfl)
  simp only [exec, execScatterPieceComplete, hbus, hperf, hprog, hpieces, hab, Bool.false_and, Bool.false_eq_true, if_false,
    State.scatterDone, State.clearBus_slot, Bool.and_false]
  split <;> rfl

theorem exec_scatterPiece_busError (hlive : s.carriesLive x = true) (hop : x.op = .scatter i) (hw : s.works i c r = true)
    (hprog : (s.slot i).progress = .moving m) (hpieces : m.pieces = p :: rest) :
    exec (.scatterPieceComplete .busError) s = .next (s.clearBus.endWith i r .busError p.fragment) := by
  obtain ⟨hperf, hab, -⟩ := State.works_iff.1 hw
  have hbus : s.onBus TxnOp.scatterOf = .live i x := State.onBus_live hlive (by rw [hop]; rfl)
  simp only [exec, execScatterPieceComplete, hbus, hperf, hprog, hpieces, hab, Bool.false_and, Bool.false_eq_true, if_false]

end Scatter

/-- Settles O27: by the pieces left, and after the last one by the release-after flag. -/
theorem scatterEndsTheFetch : Obligations.ScatterEndsTheFetch := by
  intro s x i c r m p rest hlive hop hw hprog hpieces
  have hx := exec_scatterPiece_done hlive hop hw hprog hpieces
  refine ⟨?_, State.works_failed hw (exec_scatterPiece_busError hlive hop hw hprog hpieces)⟩
  cases rest with
  | cons next later =>
    obtain ⟨blocks, goes⟩ := s.clearBus_setProgress i (.moving { m with pieces := next :: later })
    exact ⟨_, hx, blocks, fun _ => goes, nofun, nofun⟩
  | nil =>
    rw [if_pos List.isEmpty_nil, State.scattered, PostRecord.releaseAfter] at hx
    cases hflag : r.flags.getLsbD 1 with
    | true =>
      rw [hflag, if_pos rfl] at hx
      obtain ⟨blocks, goes⟩ := s.clearBus_setProgress i (.dropAfter m.handle m.length m.total)
      exact ⟨_, hx, blocks, fun h => absurd rfl h, fun _ _ => goes, nofun⟩
    | false =>
      rw [hflag, if_neg Bool.false_ne_true] at hx
      obtain ⟨blocks, ends⟩ := State.clearBus_formCompletion hw
        { r.completion .ok 0 with handle := m.handle, length := m.length, copied := m.total }
      exact ⟨_, hx, blocks, fun h => absurd rfl h, nofun, fun _ _ => ends⟩

/-! ### The stages of ATTACH (R155 to R158) -/

section Attach
variable {s : State} {x : Txn} {i : SlotId} {c : ClientId} {r : PostRecord} {d : Descriptor} {h : ClientHalf}

theorem exec_attach_badState (ht : s.takenCommand i 16 = some (c, r)) (hs : s.attachable r = none) :
    exec (.attach i) s = .next (s.endWith i r .badState 0) := by
  simp only [exec, execAttach, ht, hs]

theorem exec_attach_served {e : ClientId} {a : Addr} (ht : s.takenCommand i 16 = some (c, r)) (hs : s.attachable r = some e)
    (hf : checkRegion (s.client c).apertures .read r 192 = some a) :
    exec (.attach i) s = .next (s.setProgress i (.attachDescriptor (cutPieces 0 a 192 0) [])) := by
  simp only [exec, execAttach, ht, hs, Config.descriptorBytes, hf]

section Descriptor
variable {p : Piece} {rest : List Piece} {bytes : List Byte}

theorem exec_attachDescriptorPiece_data {bs : List Byte} (hlive : s.carriesLive x = true) (hop : x.op = .attachDescriptor i)
    (hw : s.works i c r = true) (hprog : (s.slot i).progress = .attachDescriptor (p :: rest) bytes) (hlen : bs.length = p.len) :
    exec (.attachDescriptorPieceComplete (.data bs)) s = .next (s.clearBus.descriptorRead i r rest (bytes ++ bs)) := by
  obtain ⟨hperf, -, -⟩ := State.works_iff.1 hw
  have hbus : s.onBus TxnOp.attachDescriptorOf = .live i x := State.onBus_live hlive (by rw [hop]; rfl)
  simp only [exec, execAttachDescriptorPieceComplete, hbus, hperf, hprog, hlen, if_true]

theorem exec_attachDescriptorPiece_busError (hlive : s.carriesLive x = true) (hop : x.op = .attachDescriptor i)
    (hw : s.works i c r = true) (hprog : (s.slot i).progress = .attachDescriptor (p :: rest) bytes) :
    exec (.attachDescriptorPieceComplete .busError) s = .next (s.clearBus.endWith i r .busError 0) := by
  obtain ⟨hperf, -, -⟩ := State.works_iff.1 hw
  have hbus : s.onBus TxnOp.attachDescriptorOf = .live i x := State.onBus_live hlive (by rw [hop]; rfl)
  simp only [exec, execAttachDescriptorPieceComplete, hbus, hperf, hprog]

theorem State.descriptorRead_next {next : Piece} : s.descriptorRead i r (next :: rest) bytes =
    s.setProgress i (.attachDescriptor (next :: rest) bytes) := rfl

/-- After the last piece the descriptor is judged (R156). -/
theorem State.descriptorRead_valid (hd : readDescriptor bytes = some d) :
    s.descriptorRead i r [] bytes = s.setProgress i (.attachHalf d) := by
  rw [State.descriptorRead, if_pos List.isEmpty_nil, hd]

theorem State.descriptorRead_invalid (hd : readDescriptor bytes = none) :
    s.descriptorRead i r [] bytes = s.endWith i r .badDescriptor 0 := by
  rw [State.descriptorRead, if_pos List.isEmpty_nil, hd]

end Descriptor

theorem exec_attachCxbRead_data {bs : List Byte} (hlive : s.carriesLive x = true) (hop : x.op = .attachHalf i)
    (hw : s.works i c r = true) (hprog : (s.slot i).progress = .attachHalf d) (hlen : bs.length = 32) :
    exec (.attachCxbReadComplete (.data bs)) s = .next (s.clearBus.attachHalfRead i r d (readHalf bs)) := by
  obtain ⟨hperf, -, -⟩ := State.works_iff.1 hw
  have hbus : s.onBus TxnOp.attachHalfOf = .live i x := State.onBus_live hlive (by rw [hop]; rfl)
  simp only [exec, execAttachCxbReadComplete, hbus, hperf, hprog, hlen, if_true]

theorem exec_attachCxbRead_busError (hlive : s.carriesLive x = true) (hop : x.op = .attachHalf i) (hw : s.works i c r = true)
    (hprog : (s.slot i).progress = .attachHalf d) :
    exec (.attachCxbReadComplete .busError) s = .next (s.clearBus.endWith i r .busError 4) := by
  obtain ⟨hperf, -, -⟩ := State.works_iff.1 hw
  have hbus : s.onBus TxnOp.attachHalfOf = .live i x := State.onBus_live hlive (by rw [hop]; rfl)
  simp only [exec, execAttachCxbReadComplete, hbus, hperf, hprog]

/-- The tally check of an attach: every tally of the part is 0 (R157). -/
theorem attachTallyCheck_iff : attachTallyCheck h d = true ↔
    h.postTally.toNat ≤ d.postSize ∧ (0 - h.retTaken).toNat ≤ d.retSize ∧ (0 - h.delTaken).toNat ≤ d.delSize := by
  have from_zero : h.postTally - 0 = h.postTally := BitVec.sub_zero _
  simp only [attachTallyCheck, tallyCheck, Bool.and_eq_true, decide_eq_true_eq, and_assoc, from_zero]

/-- A passed tally check asks for the attach write-back (R158). -/
theorem State.attachHalfRead_passed (hp : attachTallyCheck h d = true) : s.attachHalfRead i r d h =
    (s.setProgress i (.attachWriteBack d h)).enqueue
      { op := .attachWriteBack i, addr := d.cxb + 32, len := 32, data := partHalf 0 0 0 .attached none } := if_pos hp

theorem State.attachHalfRead_refused (hp : ¬ attachTallyCheck h d = true) :
    s.attachHalfRead i r d h = s.endWith i r .badDescriptor 0 := if_neg hp

theorem exec_attachWriteBack_done (hlive : s.carriesLive x = true) (hop : x.op = .attachWriteBack i) (hw : s.works i c r = true)
    (hprog : (s.slot i).progress = .attachWriteBack d h) :
    exec (.attachWriteBackComplete .done) s = .next (s.clearBus.attachDone i r d h) := by
  obtain ⟨hperf, -, -⟩ := State.works_iff.1 hw
  have hbus : s.onBus TxnOp.attachWriteBackOf = .live i x := State.onBus_live hlive (by rw [hop]; rfl)
  simp only [exec, execAttachWriteBackComplete, hbus, hperf, hprog]

theorem exec_attachWriteBack_busError (hlive : s.carriesLive x = true) (hop : x.op = .attachWriteBack i)
    (hw : s.works i c r = true) (hprog : (s.slot i).progress = .attachWriteBack d h) :
    exec (.attachWriteBackComplete .busError) s = .next (s.clearBus.endWith i r .busError 4) := by
  obtain ⟨hperf, -, -⟩ := State.works_iff.1 hw
  have hbus : s.onBus TxnOp.attachWriteBackOf = .live i x := State.onBus_live hlive (by rw [hop]; rfl)
  simp only [exec, execAttachWriteBackComplete, hbus, hperf, hprog]

/-- The state after the attach commit and its completion, before the Intake chooses (R158). -/
def State.withAttached (s : State) (e : ClientId) (i : SlotId) (r : PostRecord) (d : Descriptor) (h : ClientHalf) : State :=
  (s.attachCommit e d h).endWith i r .ok 0

theorem State.attachDone_eq {e : ClientId} (he : r.subject.toNat = e.val) :
    s.attachDone i r d h = (s.withAttached e i r d h).readChoice := by
  simp only [State.attachDone, clientOf_eq_some_iff.2 he]
  rfl

/-- The attach commit makes no client DRAINING: the command's completion is held. -/
theorem State.attachCommit_not_draining {e : ClientId} (hd : (s.client c).state ≠ .draining) :
    ((s.attachCommit e d h).client c).state ≠ .draining := by
  unfold State.attachCommit
  by_cases same : c = e
  · subst same
    rw [s.setClient_client_same]
    exact nofun
  · rwa [s.setClient_client_other same]

/-- The attach commit installs the context, and its command ends with OK (R54, R158). -/
theorem State.withAttached_spec (e : ClientId) (d : Descriptor) (h : ClientHalf) (hc : (s.slot i).client = some c)
    (hd : (s.client c).state ≠ .draining) : s.ends (s.withAttached e i r d h) i (r.completion .ok 0) ∧
      (∀ f, f ≠ e → (s.withAttached e i r d h).client f = s.client f) ∧
      (s.withAttached e i r d h).client e = attachedContext d h ∧
      (s.withAttached e i r d h).store = s.store ∧ (s.withAttached e i r d h).dir = s.dir := by
  have ends := State.formCompletion_ends (s := s.attachCommit e d h) (r.completion .ok 0) hc (State.attachCommit_not_draining hd)
  refine ⟨State.ends_congr (u := s.attachCommit e d h) rfl rfl ends, fun f hf => ?_, ?_,
    State.formCompletion_store .., State.formCompletion_dir ..⟩
  · exact (State.formCompletion_client ..).trans (s.setClient_client_other hf _)
  · exact (State.formCompletion_client ..).trans (s.setClient_client_same ..)

end Attach

/-- Settles O50: each stage by the outcome of its transaction; the commit installs `attachedContext`. -/
theorem attachGoesThroughItsStages : Obligations.AttachGoesThroughItsStages := by
  refine ⟨fun s i c r ht hd => ⟨fun bad => ?_, fun d a he h0 habsent hcount hf => ?_⟩,
    fun s x i c r p rest bytes bs hlive hop hw hprog => ⟨fun hlen => ?_, ?_⟩,
    fun s x i c r d bs hlive hop hw hprog => ⟨fun hlen => ?_, ?_⟩,
    fun s x i c e r d h hlive hop hw hprog he => ⟨?_, ?_⟩⟩
  · have refused : s.attachable r = none := Option.eq_none_iff_forall_ne_some.2 fun d hs => by
      obtain ⟨he, h0, habsent⟩ := State.attachable_eq_some_iff.1 hs
      exact (bad d he).elim h0 fun h => h habsent
    exact State.taken_refused ht hd (exec_attach_badState ht refused)
  · exact ⟨_, exec_attach_served ht (State.attachable_eq_some_iff.2 ⟨he, h0, habsent⟩) ((checkRegion_served hcount).trans hf),
      State.setProgress_goesOn s i _⟩
  · have hx := exec_attachDescriptorPiece_data hlive hop hw hprog hlen
    cases rest with
    | cons next later =>
      rw [State.descriptorRead_next] at hx
      exact ⟨_, hx, s.clearBus_setProgress i _⟩
    | nil =>
      cases hread : readDescriptor (bytes ++ bs) with
      | some d =>
        rw [State.descriptorRead_valid hread] at hx
        exact ⟨_, hx, s.clearBus_setProgress i _⟩
      | none =>
        rw [State.descriptorRead_invalid hread] at hx
        exact State.works_failed hw hx
  · exact State.works_failed hw (exec_attachDescriptorPiece_busError hlive hop hw hprog)
  · have hx := exec_attachCxbRead_data hlive hop hw hprog hlen
    simp only [← attachTallyCheck_iff]
    by_cases passed : attachTallyCheck (readHalf bs) d = true
    · rw [State.attachHalfRead_passed passed] at hx
      refine ⟨_, hx, rfl, rfl, rfl, rfl, rfl, ?_⟩
      rw [if_pos passed]
      exact ⟨(s.clearBus_setProgress i _).2, rfl⟩
    · rw [State.attachHalfRead_refused passed] at hx
      obtain ⟨⟨⟨port, -, -, intake, -⟩, store, dir, clients⟩, ends⟩ :=
        State.clearBus_formCompletion hw (r.completion .badDescriptor 0)
      refine ⟨_, hx, clients, store, dir, intake, port, ?_⟩
      rw [if_neg passed]
      exact ends
  · exact State.works_failed hw (exec_attachCxbRead_busError hlive hop hw hprog)
  · obtain ⟨hperf, -, hd⟩ := State.works_iff.1 hw
    obtain ⟨-, -, hc, -⟩ := State.performing_iff.1 hperf
    have hx := exec_attachWriteBack_done hlive hop hw hprog
    rw [State.attachDone_eq he] at hx
    exact ⟨_, hx, State.withAttached_spec (s := s.clearBus) e d h hc hd⟩
  · exact State.works_failed hw (exec_attachWriteBack_busError hlive hop hw hprog)

end Sys2Proof.Machine

/-!
PROOF. O49 and O52: the completion stage of a teardown, and the reads and writes of QUERY.
-/

namespace Sys2Proof.Machine

-- Elaborated one after the other: side by side, each declaration holds a thread with memory of its own.
set_option Elab.async false

/-! ### The completion stage of a teardown (R165) -/

section Completion
variable {s : State} {i : SlotId} {c d : ClientId} {r : PostRecord} {t : Teardown}

/-- No older transaction on a client's memory is in flight. -/
theorem State.oldInFlight_eq_false (h : ∀ b, s.arb.bus = some b → b.stale = true ∨
    (b.txn.op ≠ .clientHalf d ∧ b.txn.op ≠ .finalWriteBack d ∧ ∀ n, (∀ what, b.txn.op ≠ .record d n what) ∧
      b.txn.op ≠ .writeBack d n ∧ b.txn.op ≠ .signal d n)) : s.oldInFlight d = false := by
  unfold State.oldInFlight State.carries
  cases hb : s.arb.bus with
  | none => rfl
  | some b =>
    rcases h b hb with stale | ⟨half, final, rings⟩
    · simp [stale]
    · dsimp only
      cases hop : b.txn.op with
      | clientHalf e => simpa [TxnOp.isWriteOf, hop] using fun _ => half
      | finalWriteBack e => simpa [TxnOp.isWriteOf, hop] using fun _ => final
      | record e n what => simpa [TxnOp.isWriteOf, hop] using fun _ => (rings n).1 what
      | writeBack e n => simpa [TxnOp.isWriteOf, hop] using fun _ => (rings n).2.1
      | signal e n => simpa [TxnOp.isWriteOf, hop] using fun _ => (rings n).2.2
      | _ => simp [TxnOp.isWriteOf]

theorem exec_teardownCompletion_due (ht : s.teardownOf i = some (r, t)) (hst : t.stage = .complete)
    (hold : s.oldInFlight t.subject = false) : exec (.teardownCompletion i) s =
      .next ((s.setClient t.subject Client.initial).formCompletion i (t.completion r)) := by
  simp only [exec, execTeardownCompletion, ht, hst, hold, and_self, if_true]

end Completion

/-- Settles O49: the context is replaced and the completion forms, in one step. -/
theorem teardownMakesTheClientAbsent : Obligations.TeardownMakesTheClientAbsent := by
  intro s i c r d hw hprog hst hne hbus
  obtain ⟨hperf, -, hd⟩ := State.works_iff.1 hw
  obtain ⟨-, -, hc, -⟩ := State.performing_iff.1 hperf
  have hd' : ((s.setClient d.subject Client.initial).client c).state ≠ .draining := by rwa [s.setClient_client_other hne]
  have ends := State.formCompletion_ends (s := s.setClient d.subject Client.initial) (d.completion r) hc hd'
  have same := State.formCompletion_sameRest (s := s.setClient d.subject Client.initial) (d.completion r) hc hd'
  refine ⟨_, exec_teardownCompletion_due (State.teardownOf_iff.2 ⟨c, hperf, hprog⟩) hst (State.oldInFlight_eq_false hbus),
    ?_, fun e he => ?_, State.formCompletion_store .., State.formCompletion_dir .., same, State.ends_congr rfl rfl ends⟩
  · exact (State.formCompletion_client ..).trans (s.setClient_client_same ..)
  · exact (State.formCompletion_client ..).trans (s.setClient_client_other he _)

/-! ### QUERY's checks and its first read (R167, R169) -/

section Query
variable {s : State} {x : Txn} {i : SlotId} {c d : ClientId} {r : PostRecord} {a : Addr} {q : QueryStage}

theorem exec_query_badRange (ht : s.takenCommand i 20 = some (c, r))
    (hbad : 3 < r.auxA.toNat ∨ (r.auxA.toNat = 1 ∧ 7 < r.subject.toNat)) :
    exec (.query i) s = .next (s.endWith i r .badRange 0) := by
  rcases hbad with code | subject
  · simp only [exec, execQuery, ht, code, if_true]
  · simp only [exec, execQuery, ht, subject, and_self, if_true, ite_self]

theorem exec_query_served (ht : s.takenCommand i 20 = some (c, r)) (hcode : r.auxA.toNat ≤ 3)
    (hsubject : r.auxA.toNat = 1 → r.subject.toNat ≤ 7) (hf : checkRegion (s.client c).apertures .write r 64 = some a) :
    exec (.query i) s = .next (s.setProgress i (.query a (s.queryStage r))) := by
  have client : ¬ (r.auxA.toNat = 1 ∧ 7 < r.subject.toNat) := fun ⟨h1, h7⟩ => absurd (hsubject h1) (Nat.not_le.2 h7)
  simp only [exec, execQuery, ht, Nat.not_lt.2 hcode, client, if_false, Config.reportBytes, hf]

theorem State.queryStage_pool (h : r.auxA.toNat = 0) : s.queryStage r = .pool := if_pos h

/-- The first read of a CLIENT report is made in QUERY's own event (log entry 8). -/
theorem State.queryStage_client (h : r.auxA.toNat = 1) (hd : r.subject.toNat = d.val) :
    s.queryStage r = .clientStore d (s.client d).report := by
  simp only [State.queryStage, h, Nat.one_ne_zero, if_false, if_true, clientOf_eq_some_iff.2 hd]

theorem State.queryStage_directory (h : 2 ≤ r.auxA.toNat) : s.queryStage r = .directory := by
  rw [State.queryStage, if_neg (by omega), if_neg (by omega)]

/-! ### The reads that form a report (R168 to R170, R52) -/

/-- The read of a report at each stage of COUNT_READ: the stage or the report that follows. -/
def State.countReadStage (s : State) (a : Addr) : QueryStage → Progress
  | .pool => .reporting (cutPieces 0 a 64 0)
      (poolReport (s.store.freeCount .short) (s.store.freeCount .long) s.store.liveCount s.store.reserves s.store.arms)
  | .clientStore d ctx => .query a (.clientUnit d ctx (s.store.account d))
  | .clientUnit d ctx acc => .reporting (cutPieces 0 a 64 0) (clientReport d ctx acc (s.list d).length)
  | .directory => .query a .directory

theorem exec_countRead (hperf : s.performing i = some (c, r)) (hprog : (s.slot i).progress = .query a q)
    (hq : q ≠ .directory) : exec (.countRead i) s = .next (s.setProgress i (s.countReadStage a q)) := by
  cases q with
  | directory => exact absurd rfl hq
  | _ => simp only [exec, execCountRead, hperf, hprog]; rfl

theorem exec_reportRead (hperf : s.performing i = some (c, r)) (hprog : (s.slot i).progress = .query a .directory) :
    exec (.reportRead i) s = .next (s.setProgress i (.reporting (cutPieces 0 a 64 0)
      (if r.auxA.toNat = 2 then s.dir.reportKey r.key else s.dir.reportAll))) := by
  simp only [exec, execReportRead, hperf, hprog]
  rfl

/-- The live parcels are counted once each (R168). -/
theorem Store.liveCount_eq {t : Store} (hw : t.recordsWf = true) {live : List Nat} (hn : live.Nodup)
    (hl : ∀ k, k ∈ live ↔ (t.parcel k).state ≠ .free) : t.liveCount = live.length := by
  have rise := Store.recordsWf_rise hw
  have listed : ((t.records.filter (fun x => x.2.state != .free)).map Prod.fst).Nodup :=
    (keysRise_nodup rise).sublist (List.filter_sublist.map _)
  have same : ∀ k, k ∈ (t.records.filter (fun x => x.2.state != .free)).map Prod.fst ↔ k ∈ live := by
    intro k
    rw [hl]
    constructor
    · intro hk
      obtain ⟨x, hx, rfl⟩ := List.mem_map.1 hk
      obtain ⟨mem, occupied⟩ := List.mem_filter.1 hx
      rw [Store.parcel_of_mem rise mem]
      simpa using occupied
    · intro occupied
      cases hg : sparseGet t.records k with
      | none => simp [Store.parcel, hg, Parcel.initial] at occupied
      | some p =>
        refine List.mem_map.2 ⟨(k, p), List.mem_filter.2 ⟨mem_of_sparseGet hg, ?_⟩, rfl⟩
        simpa [Store.parcel, hg] using occupied
  rw [Store.liveCount, List.countP_eq_length_filter, ← List.length_map (f := Prod.fst)]
  exact ((List.perm_ext_iff_of_nodup listed hn).2 same).length_eq

/-- A KEY report holds what the exact entry of the key holds, and the set of a lookup that removes no client (R52). -/
theorem Directory.reportKey_eq {d : Directory} {k : Key} {code life : Nat} {set route : ClientSet} {once : Bool}
    (hentry : match d.entry k with
      | none => code = 0 ∧ set = 0 ∧ life = 0 ∧ once = false
      | some { kind := .pinned x, .. } => code = 1 ∧ set = x ∧ life = 0 ∧ once = false
      | some { kind := .joined x, .. } => code = 2 ∧ set = x ∧ life = 0 ∧ once = false
      | some { kind := .ret e n o, .. } => code = 3 ∧ set = only e ∧ life = n ∧ once = o)
    (hroute : ∀ e, has route e = true ↔
      has set e = true ∨ ∃ p ∈ d.patterns, k &&& p.mask = p.key ∧ has p.set e = true) :
    d.reportKey k = keyReport k code set life once route := by
  -- The entry's set is the first part of the union.
  have union : (∀ e, (∃ y, d.entry k = some y ∧ has y.kind.set e = true) ↔ has set e = true) → d.union k = route := by
    intro h
    refine clientSet_ext fun e => Bool.eq_iff_iff.2 ?_
    rw [Directory.has_union, hroute, h]
  unfold Directory.reportKey
  cases he : d.entry k with
  | none =>
    rw [he] at hentry union
    obtain ⟨rfl, rfl, rfl, rfl⟩ := hentry
    rw [union fun e => by simp]
  | some y =>
    obtain ⟨key, kind⟩ := y
    rw [he] at hentry union
    cases kind <;> obtain ⟨rfl, rfl, rfl, rfl⟩ := hentry <;>
      rw [union fun e => by simp [ExactKind.set]] <;> rfl

/-- A DIRECTORY report counts the exact entries of each kind (R52). -/
theorem Directory.reportAll_eq (d : Directory) : d.reportAll = directoryReport
    (d.exact.countP (fun x => match x.2.kind with | .pinned _ => true | _ => false))
    (d.exact.countP (fun x => match x.2.kind with | .joined _ => true | _ => false))
    (d.exact.countP (fun x => match x.2.kind with | .ret .. => true | _ => false))
    d.patterns.length d.learned d.learnSkipped d.agedOut d.consumed := by
  unfold Directory.reportAll
  congr 1 <;> congr 1 <;> funext x <;> cases x.2.kind <;> rfl

/-! ### The writing of the report and the clear (R171, R169) -/

section Report
variable {p : Piece} {rest : List Piece} {bytes : List Byte}

theorem exec_reportPiece_done (hlive : s.carriesLive x = true) (hop : x.op = .report i) (hw : s.works i c r = true)
    (hprog : (s.slot i).progress = .reporting (p :: rest) bytes) : exec (.reportWritePieceComplete .done) s =
      .next (if rest.isEmpty then s.clearBus.reported i r else s.clearBus.setProgress i (.reporting rest bytes)) := by
  obtain ⟨hperf, -, -⟩ := State.works_iff.1 hw
  have hbus : s.onBus TxnOp.reportOf = .live i x := State.onBus_live hlive (by rw [hop]; rfl)
  simp only [exec, execReportWritePieceComplete, hbus, hperf, hprog]
  split <;> rfl

theorem exec_reportPiece_busError (hlive : s.carriesLive x = true) (hop : x.op = .report i) (hw : s.works i c r = true)
    (hprog : (s.slot i).progress = .reporting (p :: rest) bytes) :
    exec (.reportWritePieceComplete .busError) s = .next (s.clearBus.endWith i r .busError 0) := by
  obtain ⟨hperf, -, -⟩ := State.works_iff.1 hw
  have hbus : s.onBus TxnOp.reportOf = .live i x := State.onBus_live hlive (by rw [hop]; rfl)
  simp only [exec, execReportWritePieceComplete, hbus, hperf, hprog]

end Report

/-- The state in which QUERY's completion forms: with a clear due the subject's four counters are 0 (R169). -/
def State.cleared (s : State) (r : PostRecord) : State := if r.clearDue then s.clearCounters r else s

theorem State.reported_eq (s : State) (i : SlotId) (r : PostRecord) : s.reported i r = (s.cleared r).formCompletion i
    { r.completion .ok 0 with subject := BitVec.ofNat 8 r.auxA.toNat, cleared := r.clearDue } := rfl

/-- A clear is at the Client Table alone. -/
theorem State.cleared_eq (s : State) (r : PostRecord) : ∃ v, s.cleared r = { s with clients := v } := by
  unfold State.cleared State.clearCounters
  split
  · split <;> exact ⟨_, rfl⟩
  · exact ⟨_, rfl⟩

theorem State.cleared_client (hs : r.clearDue = true → r.subject.toNat ≤ 7) (d : ClientId) :
    (s.cleared r).client d = if r.clearDue = true ∧ r.subject.toNat = d.val then
      { s.client d with sent := 0, placed := 0, refused := 0, expired := 0 } else s.client d := by
  unfold State.cleared State.clearCounters
  by_cases due : r.clearDue = true
  · obtain ⟨k, hk⟩ : ∃ k : ClientId, r.subject.toNat = k.val := ⟨⟨_, Nat.lt_succ_of_le (hs due)⟩, rfl⟩
    simp only [due, if_true, clientOf_eq_some_iff.2 hk, true_and, State.setClient_client]
    by_cases hd : d = k
    · rw [if_pos hd, if_pos (hd ▸ hk), hd]
    · rw [if_neg hd, if_neg fun e => hd (Fin.ext (e.symm.trans hk))]
  · rw [if_neg due, if_neg fun h => due h.1]

theorem State.cleared_state (hs : r.clearDue = true → r.subject.toNat ≤ 7) (d : ClientId) :
    ((s.cleared r).client d).state = (s.client d).state := by
  rw [State.cleared_client hs]
  split <;> rfl

end Query

/-- Settles O52: each step of QUERY by its stage, the reports by `Directory.reportKey_eq`, `Directory.reportAll_eq` and
`Store.liveCount_eq`. -/
theorem queryFormsAndWritesItsReport : Obligations.QueryFormsAndWritesItsReport := by
  refine ⟨fun s i c r ht hd => ⟨fun bad => ?_, fun a hcode hsubject hcount htr => ?_⟩,
    fun s i c r a q hw hprog => ⟨fun hq => ?_, fun hq => ?_⟩,
    fun s x i c r p rest bytes clear hlive hop hw hprog hclear hsubject => ⟨?_, ?_⟩⟩
  · exact State.taken_refused ht hd (exec_query_badRange ht bad)
  · obtain ⟨goes, blocks⟩ := State.setProgress_goesOn s i (.query a (s.queryStage r))
    exact ⟨_, _, exec_query_served ht hcode hsubject ((checkRegion_served hcount).trans htr), goes, blocks,
      State.queryStage_pool, State.queryStage_directory, fun d => State.queryStage_client⟩
  · obtain ⟨hperf, -, -⟩ := State.works_iff.1 hw
    obtain ⟨goes, blocks⟩ := State.setProgress_goesOn s i (s.countReadStage a q)
    refine ⟨_, exec_countRead hperf hprog hq, blocks, fun wf live => Store.liveCount_eq wf, ?_, ?_, ?_⟩
    · rintro rfl
      exact goes
    · rintro d ctx rfl
      exact goes
    · rintro d ctx acc rfl
      exact goes
  · subst hq
    obtain ⟨hperf, -, -⟩ := State.works_iff.1 hw
    obtain ⟨goes, blocks⟩ := State.setProgress_goesOn s i (.reporting (cutPieces 0 a 64 0)
      (if r.auxA.toNat = 2 then s.dir.reportKey r.key else s.dir.reportAll))
    refine ⟨_, exec_reportRead hperf hprog, blocks, fun hkey code life set route once hentry hroute => ?_, fun hall => ?_⟩
    · rw [if_pos hkey] at goes ⊢
      rwa [Directory.reportKey_eq hentry hroute] at goes ⊢
    · have other : ¬ r.auxA.toNat = 2 := by omega
      rw [if_neg other] at goes ⊢
      rwa [Directory.reportAll_eq] at goes ⊢
  · have due : r.clearDue = clear := hclear.symm
    subst due
    obtain ⟨hperf, -, hd⟩ := State.works_iff.1 hw
    obtain ⟨-, -, hc, -⟩ := State.performing_iff.1 hperf
    have hx := exec_reportPiece_done hlive hop hw hprog
    cases rest with
    | cons next later =>
      obtain ⟨⟨same, store, dir, clients⟩, goes⟩ := s.clearBus_setProgress i (.reporting (next :: later) bytes)
      exact ⟨_, hx, store, dir, same, fun _ => ⟨goes, clients⟩, nofun⟩
    | nil =>
      rw [if_pos List.isEmpty_nil, State.reported_eq] at hx
      have counters := State.cleared_client (s := s.clearBus) hsubject
      obtain ⟨v, hv⟩ := s.clearBus.cleared_eq r
      have hd' : ((s.clearBus.cleared r).client c).state ≠ .draining := by rwa [State.cleared_state hsubject]
      rw [hv] at hx counters hd'
      obtain ⟨same, store, dir, -⟩ := State.formCompletion_sameBlocks (s := { s.clearBus with clients := v })
        { r.completion .ok 0 with subject := BitVec.ofNat 8 r.auxA.toNat, cleared := r.clearDue } hc hd'
      refine ⟨_, hx, store, dir, same, fun h => absurd rfl h, fun _ => ⟨?_, fun d => ?_⟩⟩
      · exact State.ends_congr (u := { s.clearBus with clients := v }) rfl rfl (State.formCompletion_ends _ hc hd')
      · exact (State.formCompletion_client ..).trans (counters d)
  · exact State.works_failed hw (exec_reportPiece_busError hlive hop hw hprog)

end Sys2Proof.Machine

/-!
PROOF. O54: a client descriptor is read when its bytes are its layout. A field that reads as a value is a run of bytes that holds it,
so the layout is compared with the bytes run by run.
-/

namespace Sys2Proof.Machine

-- Elaborated one after the other: side by side, each declaration holds a thread with memory of its own.
set_option Elab.async false

/-! ### Fields as runs of bytes (0.6) -/

section Runs
variable {bs x y : List Byte} {off n m v : Nat}

theorem length_leBytes (n v : Nat) : (leBytes n v).length = n := by
  induction n generalizing v with
  | zero => rfl
  | succ n ih => rw [leBytes, List.length_cons, ih]

theorem leNat_lt (bs : List Byte) : leNat bs < 256 ^ bs.length := by
  induction bs with
  | nil => exact Nat.one_pos
  | cons b rest ih =>
    have := b.isLt
    rw [leNat, List.length_cons, Nat.pow_succ]
    omega

theorem leBytes_leNat (bs : List Byte) : leBytes bs.length (leNat bs) = bs := by
  induction bs with
  | nil => rfl
  | cons b rest ih =>
    have := b.isLt
    have low : BitVec.ofNat 8 (b.toNat + 256 * leNat rest) = b := by
      apply BitVec.eq_of_toNat_eq
      rw [BitVec.toNat_ofNat]
      omega
    have high : (b.toNat + 256 * leNat rest) / 256 = leNat rest := by omega
    rw [List.length_cons, leNat, leBytes, low, high, ih]

theorem leNat_leBytes (hv : v < 256 ^ n) : leNat (leBytes n v) = v := by
  induction n generalizing v with
  | zero =>
    rw [Nat.pow_zero, Nat.lt_one_iff] at hv
    rw [hv]
    rfl
  | succ n ih =>
    rw [Nat.pow_succ] at hv
    rw [leBytes, leNat, ih (by omega), BitVec.toNat_ofNat]
    omega

/-- The n bytes at an offset. -/
def bytesAt (bs : List Byte) (off n : Nat) : List Byte := (bs.drop off).take n

theorem field_eq (bs : List Byte) (off n : Nat) : field bs off n = leNat (bytesAt bs off n) := rfl

theorem length_bytesAt (hl : off + n ≤ bs.length) : (bytesAt bs off n).length = n := by
  rw [bytesAt, List.length_take, List.length_drop]
  omega

theorem bytesAt_zero (bs : List Byte) (n : Nat) : bytesAt bs 0 n = bs.take n := rfl

/-- A field reads as a value exactly when its bytes are that value's. -/
theorem field_eq_iff (hl : off + n ≤ bs.length) (hv : v < 256 ^ n) : field bs off n = v ↔ bytesAt bs off n = leBytes n v := by
  rw [field_eq]
  constructor
  · intro h
    have whole := leBytes_leNat (bytesAt bs off n)
    rw [length_bytesAt hl, h] at whole
    exact whole.symm
  · intro h
    rw [h, leNat_leBytes hv]

theorem field_lt (bs : List Byte) (off n : Nat) : field bs off n < 256 ^ n :=
  (leNat_lt _).trans_le (Nat.pow_le_pow_right (by norm_num) (List.length_take_le ..))

/-- A field as wide as a word reads as that word exactly when it holds the word's number. -/
theorem ofNat_field_eq_iff {w : Nat} {u : BitVec w} (hw : 256 ^ n = 2 ^ w) :
    BitVec.ofNat w (field bs off n) = u ↔ field bs off n = u.toNat := by
  rw [← BitVec.toNat_inj, BitVec.toNat_ofNat, Nat.mod_eq_of_lt (hw ▸ field_lt bs off n)]

theorem zeroBytes_iff (hl : off + n ≤ bs.length) : zeroBytes bs off n = true ↔ bytesAt bs off n = leBytes n 0 := by
  rw [leBytes_zero, List.eq_replicate_iff, and_iff_right (length_bytesAt hl)]
  simp [zeroBytes, bytesAt]

theorem bytesAt_append_iff (hl : off + n ≤ bs.length) (hx : x.length = n) :
    bytesAt bs off (n + m) = x ++ y ↔ bytesAt bs off n = x ∧ bytesAt bs (off + n) m = y := by
  have split : bytesAt bs off (n + m) = bytesAt bs off n ++ bytesAt bs (off + n) m := by
    simp only [bytesAt, List.take_add, List.drop_drop]
  rw [split]
  refine ⟨fun h => List.append_inj h ((length_bytesAt hl).trans hx.symm), ?_⟩
  rintro ⟨rfl, rfl⟩
  rfl

/-- A run that begins with a field holds the field's value there, and the rest of the run behind it. -/
theorem bytesAt_field_iff (hl : off + m ≤ bs.length) (hn : n ≤ m) (hv : v < 256 ^ n) :
    bytesAt bs off m = leBytes n v ++ y ↔ field bs off n = v ∧ bytesAt bs (off + n) (m - n) = y := by
  obtain ⟨k, rfl⟩ := Nat.exists_eq_add_of_le hn
  rw [bytesAt_append_iff (by omega) (length_leBytes n v), field_eq_iff (by omega) hv, Nat.add_sub_cancel_left]

end Runs

/-! ### Aperture entries (R137, R194) -/

section Apertures
variable {bs : List Byte} {k : Nat} {a : Aperture} {l : List Aperture}

/-- The rights byte of an entry is at most 3 and its reserved bytes are zero (R194). -/
def entryTidy (bs : List Byte) (k : Nat) : Bool := decide (field bs (64 + 32 * k + 24) 1 ≤ 3) && zeroBytes bs (64 + 32 * k + 25) 7

theorem apertureValid_eq (bs : List Byte) (k : Nat) : apertureValid bs k = ((readAperture bs k).valid && entryTidy bs k) :=
  Bool.and_assoc ..

theorem rights_eq_iff {v : Nat} {x y : Bool} :
    v = flagBit x + 2 * flagBit y ↔ v.testBit 0 = x ∧ v.testBit 1 = y ∧ v ≤ 3 := by
  constructor
  · rintro rfl
    cases x <;> cases y <;> decide
  · rintro ⟨rfl, rfl, hv⟩
    interval_cases v <;> rfl

theorem Aperture.rights_lt (a : Aperture) : a.rights < 256 ^ 1 := by
  unfold Aperture.rights flagBit
  split <;> split <;> omega

/-- An entry's bytes are an aperture's exactly when the aperture is read there from a tidy entry. -/
theorem bytesAt_aperture_iff (hl : 64 + 32 * k + 32 ≤ bs.length) :
    bytesAt bs (64 + 32 * k) 32 = writeAperture a ↔ readAperture bs k = a ∧ entryTidy bs k = true := by
  have rights : ∀ v, v = a.rights ↔ v.testBit 0 = a.readRight ∧ v.testBit 1 = a.writeRight ∧ v ≤ 3 := fun v => rights_eq_iff
  have wide : 256 ^ 8 = 2 ^ 64 := by norm_num
  unfold writeAperture
  simp only [List.append_assoc]
  rw [bytesAt_field_iff hl (by omega) (wide ▸ a.base.isLt), bytesAt_field_iff (by omega) (by omega) (wide ▸ a.length.isLt),
    bytesAt_field_iff (by omega) (by omega) (wide ▸ a.system.isLt), bytesAt_field_iff (by omega) (by omega) a.rights_lt,
    ← zeroBytes_iff (by omega), rights]
  obtain ⟨base, length, system, readRight, writeRight⟩ := a
  simp only [readAperture, Aperture.mk.injEq, ofNat_field_eq_iff wide, entryTidy, Bool.and_eq_true, decide_eq_true_eq,
    Nat.add_assoc, Nat.reduceAdd]
  tauto

/-- The entries from one on are a list of apertures exactly when each is read in its place from a tidy entry. -/
theorem bytesAt_apertures_iff (hl : 64 + 32 * k + 32 * l.length ≤ bs.length) :
    bytesAt bs (64 + 32 * k) (32 * l.length) = l.flatMap writeAperture ↔
      (List.range' k l.length).map (readAperture bs) = l ∧ (List.range' k l.length).all (entryTidy bs) = true := by
  induction l generalizing k with
  | nil => simp [bytesAt]
  | cons a rest ih =>
    rw [List.length_cons, Nat.mul_succ] at hl
    have length : (writeAperture a).length = 32 := by simp [writeAperture, length_leBytes]
    rw [List.flatMap_cons, List.length_cons, Nat.mul_succ, Nat.add_comm (32 * _),
      bytesAt_append_iff (by omega) length, bytesAt_aperture_iff (by omega), Nat.add_assoc, ← Nat.mul_succ,
      ih (by omega), List.range'_succ, List.map_cons, List.all_cons, List.cons.injEq, Bool.and_eq_true]
    tauto

end Apertures

/-! ### The descriptor (R156, R194) -/

section Descriptor
variable {bs : List Byte} {d : Descriptor}

/-- The first 64 bytes of a descriptor, before its aperture entries. -/
def descriptorHeader (d : Descriptor) : List Byte :=
  leBytes 8 d.postBase.toNat ++ (leBytes 8 d.retBase.toNat ++ (leBytes 8 d.delBase.toNat ++ (leBytes 2 d.postSize ++
    (leBytes 2 d.retSize ++ (leBytes 2 d.delSize ++ (leBytes 1 (flagBit d.learning) ++ (leBytes 1 d.apertures.length ++
    (leBytes 8 d.cxb.toNat ++ (leBytes 8 d.signalAddr.toNat ++ (leBytes 4 d.signalValue.toNat ++ (leBytes 2 d.refLimit ++
    (leBytes 2 d.segLimit.short ++ (leBytes 2 d.segLimit.long ++ leBytes 6 0)))))))))))))

theorem writeDescriptor_eq (d : Descriptor) : writeDescriptor d = descriptorHeader d ++ writeApertures 4 d.apertures := by
  simp only [writeDescriptor, descriptorHeader, List.append_assoc]

theorem length_descriptorHeader (d : Descriptor) : (descriptorHeader d).length = 64 := by
  simp [descriptorHeader, length_leBytes]

/-- The fields that a descriptor's first 64 bytes hold, reserved bytes zero. -/
def Descriptor.inHeader (d : Descriptor) (bs : List Byte) : Prop :=
  field bs 0 8 = d.postBase.toNat ∧ field bs 8 8 = d.retBase.toNat ∧ field bs 16 8 = d.delBase.toNat ∧
    field bs 24 2 = d.postSize ∧ field bs 26 2 = d.retSize ∧ field bs 28 2 = d.delSize ∧
    field bs 30 1 = flagBit d.learning ∧ field bs 31 1 = d.apertures.length ∧ field bs 32 8 = d.cxb.toNat ∧
    field bs 40 8 = d.signalAddr.toNat ∧ field bs 48 4 = d.signalValue.toNat ∧ field bs 52 2 = d.refLimit ∧
    field bs 54 2 = d.segLimit.short ∧ field bs 56 2 = d.segLimit.long ∧ zeroBytes bs 58 6 = true

/-- The fields of a descriptor that are numbers fit their bytes. -/
structure Descriptor.Fits (d : Descriptor) : Prop where
  postSize : d.postSize < 256 ^ 2
  retSize : d.retSize < 256 ^ 2
  delSize : d.delSize < 256 ^ 2
  refLimit : d.refLimit < 256 ^ 2
  short : d.segLimit.short < 256 ^ 2
  long : d.segLimit.long < 256 ^ 2
  count : d.apertures.length ≤ 4

theorem bytesAt_header_iff (hl : 64 ≤ bs.length) (hd : d.Fits) :
    bytesAt bs 0 64 = descriptorHeader d ↔ d.inHeader bs := by
  have wide : 256 ^ 8 = 2 ^ 64 := by norm_num
  have word : 256 ^ 4 = 2 ^ 32 := by norm_num
  have flag : flagBit d.learning < 256 ^ 1 := by unfold flagBit; split <;> omega
  have count : d.apertures.length < 256 ^ 1 := by have := hd.count; omega
  unfold descriptorHeader Descriptor.inHeader
  rw [bytesAt_field_iff (by omega) (by omega) (wide ▸ d.postBase.isLt),
    bytesAt_field_iff (by omega) (by omega) (wide ▸ d.retBase.isLt),
    bytesAt_field_iff (by omega) (by omega) (wide ▸ d.delBase.isLt),
    bytesAt_field_iff (by omega) (by omega) hd.postSize, bytesAt_field_iff (by omega) (by omega) hd.retSize,
    bytesAt_field_iff (by omega) (by omega) hd.delSize, bytesAt_field_iff (by omega) (by omega) flag,
    bytesAt_field_iff (by omega) (by omega) count, bytesAt_field_iff (by omega) (by omega) (wide ▸ d.cxb.isLt),
    bytesAt_field_iff (by omega) (by omega) (wide ▸ d.signalAddr.isLt),
    bytesAt_field_iff (by omega) (by omega) (word ▸ d.signalValue.isLt),
    bytesAt_field_iff (by omega) (by omega) hd.refLimit, bytesAt_field_iff (by omega) (by omega) hd.short,
    bytesAt_field_iff (by omega) (by omega) hd.long, ← zeroBytes_iff (by omega)]

theorem ringSize_iff {n : Nat} : ringSize n = true ↔ ∃ k, 4 ≤ k ∧ k ≤ 12 ∧ n = 2 ^ k := by
  constructor
  · intro h
    simp only [ringSize, List.contains_eq_mem, List.mem_cons, List.not_mem_nil, or_false, decide_eq_true_eq] at h
    rcases h with rfl | rfl | rfl | rfl | rfl | rfl | rfl | rfl | rfl
    exacts [⟨4, by decide⟩, ⟨5, by decide⟩, ⟨6, by decide⟩, ⟨7, by decide⟩, ⟨8, by decide⟩, ⟨9, by decide⟩, ⟨10, by decide⟩,
      ⟨11, by decide⟩, ⟨12, by decide⟩]
  · rintro ⟨k, h4, h12, rfl⟩
    interval_cases k <;> rfl

theorem ringSize_lt {n : Nat} (h : ringSize n = true) : n < 256 ^ 2 := by
  obtain ⟨k, -, h12, rfl⟩ := ringSize_iff.1 h
  have := Nat.pow_le_pow_right (n := 2) (by norm_num) h12
  omega

theorem Descriptor.valid_iff : d.valid = true ↔
    d.fieldsValid = true ∧ d.apertures.length ≤ 4 ∧ ∀ a ∈ d.apertures, a.valid = true := by
  simp [Descriptor.valid, and_assoc]

/-- The tests of R156 on the fields, one by one. -/
theorem Descriptor.fieldsValid_iff : d.fieldsValid = true ↔
    ringSize d.postSize = true ∧ ringSize d.retSize = true ∧ ringSize d.delSize = true ∧ d.postBase.toNat % 64 = 0 ∧
      d.retBase.toNat % 64 = 0 ∧ d.delBase.toNat % 64 = 0 ∧ d.cxb.toNat % 64 = 0 ∧ d.signalAddr.toNat % 4 = 0 ∧
      1 ≤ d.refLimit ∧ d.refLimit ≤ 1024 ∧ d.segLimit.short ≤ 2048 ∧ d.segLimit.long ≤ 192 := by
  simp [Descriptor.fieldsValid, and_assoc]

theorem Descriptor.fits_of_valid (h : d.valid = true) : d.Fits := by
  obtain ⟨fields, count, -⟩ := Descriptor.valid_iff.1 h
  obtain ⟨post, ret, del, -, -, -, -, -, -, ref, short, long⟩ := Descriptor.fieldsValid_iff.1 fields
  exact ⟨ringSize_lt post, ringSize_lt ret, ringSize_lt del, by omega, by omega, by omega, count⟩

theorem learning_eq_iff {v : Nat} {x : Bool} : v = flagBit x ↔ (v == 1) = x ∧ v ≤ 1 := by
  constructor
  · rintro rfl
    cases x <;> decide
  · rintro ⟨rfl, hv⟩
    interval_cases v <;> rfl

/-- The fields of the bytes are a descriptor's, its flag and its reserved bytes tidy, exactly when they are in its header. -/
theorem rawDescriptor_eq_iff : (rawDescriptor bs = d ∧ field bs 30 1 ≤ 1 ∧ zeroBytes bs 58 6 = true) ↔
    d.inHeader bs ∧ (List.range' 0 d.apertures.length).map (readAperture bs) = d.apertures := by
  have wide : 256 ^ 8 = 2 ^ 64 := by norm_num
  have word : 256 ^ 4 = 2 ^ 32 := by norm_num
  obtain ⟨postBase, retBase, delBase, postSize, retSize, delSize, learning, cxb, signalAddr, signalValue, refLimit,
    ⟨short, long⟩, apertures⟩ := d
  -- The count of entries is the length of the list that they give.
  have entries : (List.range (field bs 31 1)).map (readAperture bs) = apertures ↔ field bs 31 1 = apertures.length ∧
      (List.range' 0 apertures.length).map (readAperture bs) = apertures := by
    rw [← List.range_eq_range']
    constructor
    · intro h
      have length : field bs 31 1 = apertures.length := by rw [← h, List.length_map, List.length_range]
      exact ⟨length, length ▸ h⟩
    · rintro ⟨length, h⟩
      rwa [length]
  simp only [rawDescriptor, Descriptor.inHeader, Descriptor.mk.injEq, PerClass.mk.injEq, ofNat_field_eq_iff wide,
    ofNat_field_eq_iff word, learning_eq_iff, entries]
  tauto

/-- A descriptor is read exactly when it is valid, its fields are in the header and its apertures are read from tidy entries. -/
theorem readDescriptor_eq_some_iff : readDescriptor bs = some d ↔ d.valid = true ∧ d.inHeader bs ∧
    (List.range' 0 d.apertures.length).map (readAperture bs) = d.apertures ∧
    (List.range' 0 d.apertures.length).all (entryTidy bs) = true := by
  have accepted : readDescriptor bs = some d ↔ (rawDescriptor bs = d ∧ field bs 30 1 ≤ 1 ∧ zeroBytes bs 58 6 = true) ∧
      d.fieldsValid = true ∧ field bs 31 1 ≤ 4 ∧ (List.range (field bs 31 1)).all (apertureValid bs) = true := by
    simp only [readDescriptor, Option.ite_none_right_eq_some, Bool.and_eq_true, decide_eq_true_eq, Option.some.injEq]
    constructor
    · rintro ⟨⟨⟨⟨⟨fields, flag⟩, count⟩, zero⟩, valid⟩, rfl⟩
      exact ⟨⟨rfl, flag, zero⟩, fields, count, valid⟩
    · rintro ⟨⟨rfl, flag, zero⟩, fields, count, valid⟩
      exact ⟨⟨⟨⟨⟨fields, flag⟩, count⟩, zero⟩, valid⟩, rfl⟩
  rw [accepted, rawDescriptor_eq_iff, Descriptor.valid_iff]
  -- With the entries read in their places, an entry is valid when its aperture is and it is tidy.
  have entries : d.inHeader bs → (List.range' 0 d.apertures.length).map (readAperture bs) = d.apertures →
      (field bs 31 1 ≤ 4 ↔ d.apertures.length ≤ 4) ∧ ((List.range (field bs 31 1)).all (apertureValid bs) = true ↔
        (∀ a ∈ d.apertures, a.valid = true) ∧ (List.range' 0 d.apertures.length).all (entryTidy bs) = true) := by
    rintro ⟨-, -, -, -, -, -, -, count, -⟩ read
    rw [count]
    refine ⟨Iff.rfl, ?_⟩
    have valid : (∀ a ∈ d.apertures, a.valid = true) ↔ ∀ k ∈ List.range' 0 d.apertures.length, (readAperture bs k).valid = true := by
      conv_lhs => rw [← read]
      exact List.forall_mem_map
    rw [valid, List.range_eq_range']
    simp only [List.all_eq_true, apertureValid_eq, Bool.and_eq_true]
    exact forall₂_and
  constructor
  · rintro ⟨⟨header, read⟩, fields, count, valid⟩
    obtain ⟨counts, valids⟩ := entries header read
    exact ⟨⟨fields, counts.1 count, (valids.1 valid).1⟩, header, read, (valids.1 valid).2⟩
  · rintro ⟨⟨fields, count, valid⟩, header, read, tidy⟩
    obtain ⟨counts, valids⟩ := entries header read
    exact ⟨⟨header, read⟩, fields, counts.2 count, valids.2 ⟨valid, tidy⟩⟩

theorem Aperture.length_layout (a : Aperture) : a.layout.length = 32 := rfl

theorem length_flatMap_layout (l : List Aperture) : (l.flatMap Aperture.layout).length = 32 * l.length := by
  simp [List.length_flatMap, Aperture.length_layout, Nat.mul_comm]

theorem length_writeDescriptor (h : d.apertures.length ≤ 4) : (writeDescriptor d).length = 192 := by
  rw [writeDescriptor_eq, List.length_append, length_descriptorHeader, writeApertures_eq 4 _ h, List.length_append,
    length_flatMap_layout, List.length_replicate]
  omega

/-- The bytes of a descriptor up to the end of its last aperture. -/
theorem take_writeDescriptor (h : d.apertures.length ≤ 4) : (writeDescriptor d).take (64 + 32 * d.apertures.length) =
    descriptorHeader d ++ d.apertures.flatMap writeAperture := by
  have entries : d.apertures.flatMap writeAperture = d.apertures.flatMap Aperture.layout :=
    congrArg (List.flatMap · d.apertures) (funext writeAperture_eq)
  rw [entries, writeDescriptor_eq, writeApertures_eq 4 _ h, ← List.append_assoc]
  refine List.take_left' ?_
  rw [List.length_append, length_descriptorHeader, length_flatMap_layout]

/-- A descriptor is read exactly when it is valid and the bytes are its own, those beyond its apertures apart. -/
theorem readDescriptor_iff (hl : bs.length = 192) : readDescriptor bs = some d ↔ d.valid = true ∧
    bs.take (64 + 32 * d.apertures.length) = (writeDescriptor d).take (64 + 32 * d.apertures.length) := by
  rw [readDescriptor_eq_some_iff]
  refine and_congr_right fun valid => ?_
  have fits := Descriptor.fits_of_valid valid
  have count := fits.count
  rw [take_writeDescriptor count, ← bytesAt_zero, bytesAt_append_iff (by omega) (length_descriptorHeader d),
    bytesAt_header_iff (by omega) fits]
  exact and_congr_right fun _ => (bytesAt_apertures_iff (k := 0) (by omega)).symm

theorem writeDescriptor_layout (h : d.apertures.length ≤ 4) : writeDescriptor d =
    quadBytes d.postBase ++ quadBytes d.retBase ++ quadBytes d.delBase ++ pairBytes d.postSize ++ pairBytes d.retSize ++
      pairBytes d.delSize ++ [if d.learning then 1 else 0, BitVec.ofNat 8 d.apertures.length] ++ quadBytes d.cxb ++
      quadBytes d.signalAddr ++ wordBytes d.signalValue ++ pairBytes d.refLimit ++ pairBytes d.segLimit.short ++
      pairBytes d.segLimit.long ++ List.replicate 6 0 ++ d.apertures.flatMap Aperture.layout ++
      List.replicate (128 - 32 * d.apertures.length) 0 := by
  have flag : leBytes 1 (flagBit d.learning) = [if d.learning then 1 else 0] := by cases d.learning <;> rfl
  have count : leBytes 1 d.apertures.length = [BitVec.ofNat 8 d.apertures.length] := rfl
  simp only [writeDescriptor, writeApertures_eq 4 _ h, leBytes_quad, leBytes_pair, leBytes_word, leBytes_zero, flag, count,
    List.append_assoc, List.cons_append, List.nil_append, Nat.reduceMul]

theorem Aperture.valid_iff {a : Aperture} : a.valid = true ↔ 1 ≤ a.length.toNat ∧ a.base.toNat + a.length.toNat ≤ 2 ^ 48 ∧
    a.system.toNat + a.length.toNat ≤ 2 ^ 64 ∧ (a.readRight = true ∨ a.writeRight = true) := by
  simp only [Aperture.valid, Bool.and_eq_true, decide_eq_true_eq, Bool.or_eq_true, and_assoc]

end Descriptor

/-- Settles O54: by `readDescriptor_iff`, which a descriptor's own bytes meet, and the tests one by one. -/
theorem validDescriptorsReadBack : Obligations.ValidDescriptorsReadBack := by
  refine ⟨fun d valid => ?_, fun bs d hl => readDescriptor_iff hl, fun d => ?_⟩
  · have count := (Descriptor.fits_of_valid valid).count
    have length := length_writeDescriptor count
    exact ⟨length, (readDescriptor_iff length).2 ⟨valid, rfl⟩, writeDescriptor_layout count⟩
  · simp only [Descriptor.valid_iff, Descriptor.fieldsValid_iff, Aperture.valid_iff, ringSize_iff, forall_eq_or_imp, forall_eq,
      and_assoc]

end Sys2Proof.Machine

/-!
PROOF. O51: DETACH by what its state stage leaves of each block, then the ways in which the slot of a torn-down client stops.
-/

namespace Sys2Proof.Machine

-- Elaborated one after the other: side by side, each declaration holds a thread with memory of its own.
set_option Elab.async false

/-! ### What waits for its grant (R188) -/

section Waiting
variable {s : State} {c : ClientId} {j : SlotId}

/-- The read of a client's memory: its client half or one of its posts. -/
theorem TxnOp.isReadOf_iff {o : TxnOp} : o.isReadOf c = true ↔ o = .clientHalf c ∨ ∃ k, o = .postRead c k := by
  cases o <;> simp [TxnOp.isReadOf]

theorem State.carries_iff {p : TxnOp → Bool} : s.carries p = true ↔ s.granted (fun o => p o = true) := by
  unfold State.carries State.granted
  cases s.arb.bus <;> simp

theorem State.fetchWaits_iff : s.fetchWaits c = true ↔
    (∃ x, s.intake.fetch = some x ∧ (x.op = .clientHalf c ∨ ∃ k, x.op = .postRead c k)) ∧
      ¬ s.granted (fun o => o = .clientHalf c ∨ ∃ k, o = .postRead c k) := by
  have carried : s.carries (TxnOp.isReadOf c) = true ↔ s.granted (fun o => o = .clientHalf c ∨ ∃ k, o = .postRead c k) := by
    simp only [State.carries_iff, TxnOp.isReadOf_iff]
  rw [← carried]
  unfold State.fetchWaits
  cases s.intake.fetch <;> simp [TxnOp.isReadOf_iff]

theorem State.recordWaits_iff : s.recordWaits c j = true ↔ ∃ x ∈ s.unit.writer, x.op = .record c .ret (.completion j) := by
  simp [State.recordWaits]

theorem State.pieceWaits_iff : s.pieceWaits j = true ↔
    (∃ m, (s.slot j).progress = .moving m) ∧ ¬ s.granted (fun o => o = .gather j ∨ o = .scatter j) := by
  have carried : s.carries (fun o => o == .gather j || o == .scatter j) = true ↔
      s.granted (fun o => o = .gather j ∨ o = .scatter j) := by
    simp only [State.carries_iff, Bool.or_eq_true, beq_iff_eq]
  rw [← carried]
  unfold State.pieceWaits
  cases (s.slot j).progress <;> simp

/-- The slot of a client stops in the event of its DETACH: its completion is held, or its transaction was withdrawn (R161, R188). -/
def State.stopsNow (s : State) (c : ClientId) (j : SlotId) : Prop :=
  (s.slot j).state = .held ∨ ((s.slot j).state = .bound ∧ s.fetchWaits c = true) ∨
    ((s.slot j).state = .writing ∧ s.recordWaits c j = true) ∨ ((s.slot j).state = .performing ∧ s.pieceWaits j = true)

theorem State.stopsNow_iff : s.stopsNow c j ↔ (s.slot j).state = .held ∨
    ((s.slot j).state = .bound ∧ (∃ x, s.intake.fetch = some x ∧ (x.op = .clientHalf c ∨ ∃ k, x.op = .postRead c k)) ∧
      ¬ s.granted (fun o => o = .clientHalf c ∨ ∃ k, o = .postRead c k)) ∨
    ((s.slot j).state = .writing ∧ ∃ x ∈ s.unit.writer, x.op = .record c .ret (.completion j)) ∨
    ((s.slot j).state = .performing ∧ (∃ m, (s.slot j).progress = .moving m) ∧
      ¬ s.granted (fun o => o = .gather j ∨ o = .scatter j)) := by
  simp only [State.stopsNow, State.fetchWaits_iff, State.recordWaits_iff, State.pieceWaits_iff]

end Waiting

/-! ### The withdrawals (R161, R188) -/

section Withdrawn
variable (s : State) (c : ClientId)

/-- The end of a ring's waiting write changes nothing of a context but that ring. -/
theorem State.endWaiting_context (n : OutRingName) : ((s.endWaiting c n).client c).reason = (s.client c).reason ∧
    ((s.endWaiting c n).client c).finalDue = (s.client c).finalDue ∧
    ∀ d, d ≠ c → (s.endWaiting c n).client d = s.client d := by
  unfold State.endWaiting
  split
  · rw [State.endRing_client]
    exact ⟨Client.setRing_reason .., Client.setRing_finalDue .., fun d hd => State.endRing_client_other s n hd⟩
  · exact ⟨rfl, rfl, fun _ _ => rfl⟩

theorem State.endWaiting_intake (n : OutRingName) : (s.endWaiting c n).intake = s.intake := by
  unfold State.endWaiting
  split <;> rfl

theorem State.withdrawRead_eq : s.withdrawRead c =
    s.setIntake { s.intake with fetch := if s.fetchWaits c then none else s.intake.fetch } := by
  unfold State.withdrawRead
  split <;> rfl

/-- `State.withdrawn_same`, said of `State.withdrawn`. -/
theorem State.withdrawn_frame : (s.withdrawn c).slots = s.slots ∧ (s.withdrawn c).arb = s.arb ∧ (s.withdrawn c).port = s.port ∧
    ((s.withdrawn c).client c).state = .draining := s.withdrawn_same c

theorem State.withdrawn_context : ((s.withdrawn c).client c).reason = (s.client c).reason ∧
    ((s.withdrawn c).client c).finalDue = false ∧ ∀ d, d ≠ c → (s.withdrawn c).client d = s.client d := by
  have marked : (s.startDraining c).client c = { s.client c with state := .draining, finalDue := false } :=
    s.setClient_client_same c _
  obtain ⟨reason, due, others⟩ := (s.startDraining c).endWaiting_context c .ret
  obtain ⟨reason', due', others'⟩ := ((s.startDraining c).endWaiting c .ret).endWaiting_context c .del
  rw [marked] at reason due
  rw [State.withdrawn, State.withdrawRead_eq]
  exact ⟨reason'.trans reason, due'.trans due,
    fun d hd => (others' d hd).trans ((others d hd).trans (s.setClient_client_other hd _))⟩

theorem State.withdrawn_unit :
    (s.withdrawn c).unit = { s.unit with writer := s.unit.writer.filter (fun x => !(x.op.isWriteOf c)) } := by
  rw [State.withdrawn, State.withdrawRead_eq]
  rfl

theorem State.withdrawn_intake : (s.withdrawn c).intake =
    { attendSet := without s.intake.attendSet c, refreshSet := without s.intake.refreshSet c, pointer := s.intake.pointer,
      fetch := if s.fetchWaits c then none else s.intake.fetch } := by
  have intake : ((s.startDraining c).withdrawWrites c).intake = (s.startDraining c).intake :=
    (State.endWaiting_intake _ c .del).trans (State.endWaiting_intake _ c .ret)
  have arb : ((s.startDraining c).withdrawWrites c).arb = s.arb :=
    (State.endWaiting_same _ c .del).2.2.1.trans (State.endWaiting_same _ c .ret).2.2.1
  have waits : ((s.startDraining c).withdrawWrites c).fetchWaits c = s.fetchWaits c := by
    unfold State.fetchWaits State.carries
    rw [intake, arb]
    rfl
  rw [State.withdrawn, State.withdrawRead_eq, waits, intake]
  rfl

theorem State.withdrawn_store : (s.withdrawn c).store = s.store := by
  rw [State.withdrawn, State.withdrawRead_store, State.withdrawWrites_store]
  rfl

theorem State.withdrawn_dir : (s.withdrawn c).dir = s.dir := congrArg Prod.fst (State.withdrawn_channels (s := s) (c := c))

end Withdrawn

/-! ### What freed slots and the Intake's choices leave alone -/

/-- A state that differs by slots freed and marked, the store's undo and the Intake's choices: the sets only lose members, and a
read that is new is of an ATTACHED client. -/
structure State.ReadsOn (s t : State) : Prop where
  clients : t.clients = s.clients
  unit : t.unit = s.unit
  dir : t.dir = s.dir
  attend : ∀ d, has t.intake.attendSet d = true → has s.intake.attendSet d = true
  refresh : ∀ d, has t.intake.refreshSet d = true → has s.intake.refreshSet d = true
  fetch : ∀ x, t.intake.fetch = some x →
    s.intake.fetch = some x ∨ ∃ d, (s.client d).state = .attached ∧ (x.op = .clientHalf d ∨ ∃ k, x.op = .postRead d k)

section ReadsOn
variable {s t u : State} {c : ClientId} {i j : SlotId}

/-- A state with the same clients, unit, directory and Intake. -/
theorem State.ReadsOn.of_same (hc : t.clients = s.clients) (hu : t.unit = s.unit) (hd : t.dir = s.dir) (hi : t.intake = s.intake) :
    s.ReadsOn t :=
  ⟨hc, hu, hd, fun _ => by rw [hi]; exact id, fun _ => by rw [hi]; exact id, fun _ => by rw [hi]; exact .inl⟩

theorem State.ReadsOn.trans (h : s.ReadsOn t) (g : t.ReadsOn u) : s.ReadsOn u where
  clients := g.clients.trans h.clients
  unit := g.unit.trans h.unit
  dir := g.dir.trans h.dir
  attend d := h.attend d ∘ g.attend d
  refresh d := h.refresh d ∘ g.refresh d
  fetch x hx := (g.fetch x hx).elim (h.fetch x) (by simp only [State.client, h.clients]; exact .inr)

theorem State.readsOn_readChoice (s : State) : s.ReadsOn s.readChoice := by
  rcases s.readChoice_cases with e | ⟨d, -, -, heligible, e⟩ | ⟨d, k, -, -, heligible, -, e⟩
  · rw [e]
    exact .of_same rfl rfl rfl rfl
  · rw [e]
    simp only [State.halfEligible, Bool.and_eq_true, beq_iff_eq] at heligible
    refine ⟨rfl, rfl, rfl, fun f hf => (has_without.1 hf).1, fun f hf => (has_without.1 hf).1, ?_⟩
    rintro x ⟨⟩
    exact .inr ⟨d, heligible.1, .inl rfl⟩
  · rw [e]
    simp only [State.postEligible, Bool.and_eq_true, beq_iff_eq] at heligible
    obtain ⟨⟨⟨⟨-, attached⟩, -⟩, -⟩, -⟩ := heligible
    refine ⟨rfl, rfl, rfl, fun _ => id, fun _ => id, ?_⟩
    rintro x ⟨⟩
    exact .inr ⟨d, attached, .inr ⟨k, rfl⟩⟩

theorem State.readsOn_freeSlot (s : State) (j : SlotId) (b : Bool) : s.ReadsOn (s.freeSlot j b) := by
  have chosen : ∀ v : State, s.ReadsOn v → s.ReadsOn v.settleHalt.readChoice := fun v hv =>
    hv.trans (.trans (.of_same v.settleHalt_clients v.settleHalt_unit v.settleHalt_dir v.settleHalt_intake) (readsOn_readChoice _))
  unfold State.freeSlot
  refine chosen _ ?_
  split
  · split <;> exact .of_same rfl rfl rfl rfl
  · exact .of_same rfl rfl rfl rfl

theorem State.readsOn_abortSlot (s : State) (j : SlotId) : s.ReadsOn (s.abortSlot j) := by
  refine .trans (t := s.sendUndo j) ?_ (readsOn_freeSlot _ j true)
  unfold State.sendUndo
  split <;> exact .of_same rfl rfl rfl rfl

theorem State.readsOn_drainSlot (s before : State) (c : ClientId) (j : SlotId) : s.ReadsOn (s.drainSlot before c j) := by
  have marked : s.ReadsOn (s.requestAbort j) := .of_same rfl rfl rfl rfl
  unfold State.drainSlot
  split
  · exact s.readsOn_freeSlot j false
  · exact iteInduction (fun _ => s.readsOn_freeSlot j false) fun _ => marked
  · exact iteInduction (fun _ => s.readsOn_freeSlot j false) fun _ => marked
  · exact iteInduction (fun _ => s.readsOn_abortSlot j) fun _ => marked
  · exact .of_same rfl rfl rfl rfl

/-- The state stage with a slot of the client, and without one (R161, R162). -/
theorem State.stateStage_some (h : s.slotOf c = some j) :
    s.stateStage c = ((s.withdrawn c).drainSlot s c j).readChoice := by
  unfold State.stateStage
  simp only [h]
  rfl

theorem State.stateStage_none (h : s.slotOf c = none) :
    s.stateStage c = ((s.withdrawn c).reportFreed c false).readChoice := by
  unfold State.stateStage
  simp only [h]
  rfl

theorem State.readsOn_stateStage (s : State) (c : ClientId) : (s.withdrawn c).ReadsOn (s.stateStage c) := by
  cases h : s.slotOf c with
  | some j =>
    rw [State.stateStage_some h]
    exact .trans (State.readsOn_drainSlot _ s c j) (State.readsOn_readChoice _)
  | none =>
    rw [State.stateStage_none h]
    have told : (s.withdrawn c).ReadsOn ((s.withdrawn c).reportFreed c false) := .of_same rfl rfl rfl rfl
    exact told.trans (State.readsOn_readChoice _)

end ReadsOn

/-! ### The state stage by the slot of its client (R161, R162, R188) -/

section StateStage
variable {s w : State} {c : ClientId} {i j k : SlotId}

/-- The slot of a DRAINING client that stops at once is freed, its growth undone if it performs, and the flag says whether it
performed. -/
theorem State.drainSlot_stops (hslots : w.slots = s.slots) (hc : (s.slot j).client = some c)
    (hd : (w.client c).state = .draining) (h : s.stopsNow c j) :
    w.stops (w.drainSlot s c j) j c ((s.slot j).state == .performing) ∧
      (w.drainSlot s c j).store = (match (s.slot j).state, (s.slot j).undo with
        | .performing, some g => w.store.undo g
        | _, _ => w.store) := by
  have slot := State.slot_of_slots hslots j
  have hc' : (w.slot j).client = some c := by rwa [slot]
  have freed : w.stops (w.freeSlot j false) j c false ∧ (w.freeSlot j false).store = w.store :=
    ⟨State.freeSlot_stops false hc' hd, State.freeSlot_store ..⟩
  unfold State.drainSlot
  rcases h with hs | ⟨hs, waits⟩ | ⟨hs, waits⟩ | ⟨hs, waits⟩ <;> rw [hs]
  · exact freed
  · rw [if_pos waits]
    exact freed
  · rw [if_pos waits]
    exact freed
  · obtain ⟨stops, -, -, -, store⟩ := State.abortSlot_stops hc' hd
    rw [if_pos waits, store, slot]
    refine ⟨stops, ?_⟩
    cases (s.slot j).undo <;> rfl

/-- Any other slot has its abort requested. -/
theorem State.drainSlot_asks (hn : (s.slot j).state ≠ .free) (h : ¬ s.stopsNow c j) : w.drainSlot s c j = w.requestAbort j := by
  unfold State.stopsNow at h
  unfold State.drainSlot
  cases hs : (s.slot j).state with
  | free => exact absurd hs hn
  | held => exact absurd (.inl hs) h
  | bound => exact if_neg fun waits => h (.inr (.inl ⟨hs, waits⟩))
  | writing => exact if_neg fun waits => h (.inr (.inr (.inl ⟨hs, waits⟩)))
  | performing => exact if_neg fun waits => h (.inr (.inr (.inr ⟨hs, waits⟩)))

/-- The state stage of a client whose slot stops at once. -/
theorem State.stateStage_stops (hj : s.slotOf c = some j) (h : s.stopsNow c j) :
    (s.withdrawn c).stops (s.stateStage c) j c ((s.slot j).state == .performing) ∧
      (s.stateStage c).store = (match (s.slot j).state, (s.slot j).undo with
        | .performing, some g => s.store.undo g
        | _, _ => s.store) := by
  obtain ⟨slots, -, -, draining⟩ := s.withdrawn_frame c
  obtain ⟨stops, store⟩ := State.drainSlot_stops slots (State.slotOf_some hj).2 draining h
  rw [s.withdrawn_store] at store
  have still : (((s.withdrawn c).drainSlot s c j).client c).state = .draining := by
    rw [State.client, (State.readsOn_drainSlot _ s c j).clients]
    exact draining
  rw [State.stateStage_some hj, State.readChoice_store]
  exact ⟨State.stops_readChoice (by rw [still]; decide) stops, store⟩

/-- The state stage of a client whose slot goes on to its next abort point: it marks the slot and no other. -/
theorem State.stateStage_asks (hj : s.slotOf c = some j) (h : ¬ s.stopsNow c j) :
    (s.stateStage c).store = s.store ∧ (s.stateStage c).port = s.port ∧
      (s.stateStage c).slot j = { s.slot j with abortRequested := true } ∧
      ∀ k, k ≠ j → (s.slot k).state ≠ .free → (s.stateStage c).slot k = s.slot k := by
  have occupied := (State.slotOf_some hj).1
  have slot := s.withdrawn_slot c
  rw [State.stateStage_some hj, State.drainSlot_asks occupied h]
  have marked : ((s.withdrawn c).requestAbort j).slot j = { s.slot j with abortRequested := true } := by
    rw [State.requestAbort, State.setSlot_slot_same, slot]
  have others : ∀ k, k ≠ j → ((s.withdrawn c).requestAbort j).slot k = s.slot k := fun k hk =>
    (State.setSlot_slot_other _ hk _).trans (slot k)
  refine ⟨?_, ?_, ?_, fun k hk hn => ?_⟩
  · exact (State.readChoice_store _).trans (s.withdrawn_store c)
  · exact (State.readChoice_port _).trans (s.withdrawn_frame c).2.2.1
  · rw [State.readChoice_slot _ (by rw [marked]; exact occupied), marked]
  · rw [State.readChoice_slot _ (by rw [others k hk]; exact hn), others k hk]

/-- The state stage of a client without a slot ends the abort stage of its teardown with a clear flag (R162). -/
theorem State.stateStage_unslotted (hj : s.slotOf c = none) : (s.stateStage c).store = s.store ∧ (s.stateStage c).port = s.port ∧
    ∀ k, (s.slot k).state ≠ .free → (s.stateStage c).slot k = endAbort c false (s.slot k) := by
  have told : ∀ k, ((s.withdrawn c).reportFreed c false).slot k = endAbort c false (s.slot k) := fun k => by
    rw [State.reportFreed_slot, s.withdrawn_slot]
  rw [State.stateStage_none hj]
  refine ⟨?_, ?_, fun k hn => ?_⟩
  · exact (State.readChoice_store _).trans (s.withdrawn_store c)
  · exact (State.readChoice_port _).trans (s.withdrawn_frame c).2.2.1
  · rw [State.readChoice_slot _ (by rw [told, endAbort_state]; exact hn), told]

theorem endAbort_of_no_teardown {b : Bool} {sl : Slot} (h : ∀ d, sl.progress ≠ .teardown d) : endAbort c b sl = sl := by
  unfold endAbort
  split
  · exact absurd ‹_› (h _)
  · rfl

/-- The state stage leaves the slots of other clients that hold no teardown. -/
theorem State.stateStage_others (hn : (s.slot k).state ≠ .free) (hc : (s.slot k).client ≠ some c)
    (ht : ∀ d, (s.slot k).progress ≠ .teardown d) : (s.stateStage c).slot k = s.slot k := by
  cases hj : s.slotOf c with
  | none => rw [(State.stateStage_unslotted hj).2.2 k hn, endAbort_of_no_teardown ht]
  | some j =>
    have hk : k ≠ j := fun e => hc (e ▸ (State.slotOf_some hj).2)
    by_cases h : s.stopsNow c j
    · obtain ⟨⟨-, -, -, others⟩, -⟩ := State.stateStage_stops hj h
      simp only [s.withdrawn_slot] at others
      exact (others k hk hn).2 fun d hd => absurd hd (ht d)
    · exact (State.stateStage_asks hj h).2.2.2 k hk hn

/-- With another slot occupied the state stage leaves the port. -/
theorem State.stateStage_port (hn : (s.slot k).state ≠ .free) (hc : (s.slot k).client ≠ some c) :
    (s.stateStage c).port = s.port := by
  cases hj : s.slotOf c with
  | none => exact (State.stateStage_unslotted hj).2.1
  | some j =>
    have hk : k ≠ j := fun e => hc (e ▸ (State.slotOf_some hj).2)
    by_cases h : s.stopsNow c j
    · obtain ⟨⟨-, -, ⟨-, port, -⟩, -⟩, -⟩ := State.stateStage_stops hj h
      rw [port, State.portFreeing, if_neg, (s.withdrawn_frame c).2.2.1]
      rintro ⟨-, free⟩
      exact hn (s.withdrawn_slot c k ▸ free k hk)
    · exact (State.stateStage_asks hj h).2.1

end StateStage

/-! ### DETACH (R160, R161) -/

section Detach
variable {s : State} {i j : SlotId} {c e : ClientId} {r : PostRecord}

theorem exec_detach_refused {st : Status} (ht : s.takenCommand i 17 = some (e, r))
    (h : s.detachStep i r = s.endWith i r st 0) : exec (.detach i) s = .next (s.endWith i r st 0) := by
  simp only [exec, execDetach, ht, h]

theorem State.detachStep_supervisor (h : r.subject = 0) : s.detachStep i r = s.endWith i r .notPermitted 0 := by
  have subject : clientOf r.subject = some 0 := clientOf_eq_some_iff.2 (by rw [h]; rfl)
  simp only [State.detachStep, subject, if_true]

theorem State.detachStep_badState (h : ∀ c : ClientId, r.subject.toNat = c.val →
    c ≠ 0 ∧ (s.client c).state ≠ .attached ∧ (s.client c).state ≠ .faulted) :
    s.detachStep i r = s.endWith i r .badState 0 := by
  unfold State.detachStep
  cases subject : clientOf r.subject with
  | none => rfl
  | some c =>
    obtain ⟨h0, attached, faulted⟩ := h c (clientOf_eq_some_iff.1 subject)
    dsimp only
    rw [if_neg h0, if_neg (not_or.2 ⟨attached, faulted⟩)]

/-- The state in which the state stage begins: the slot of the command holds the teardown. -/
def State.tearing (s : State) (i : SlotId) (c : ClientId) : State := s.setProgress i (.teardown (Teardown.start c))

/-- The state after the state stage of a DETACH (R161). -/
def State.detached (s : State) (i : SlotId) (c : ClientId) : State := (s.tearing i c).stateStage c

theorem exec_detach_begins (ht : s.takenCommand i 17 = some (e, r)) (hs : r.subject.toNat = c.val) (h0 : c ≠ 0)
    (hc : (s.client c).state = .attached ∨ (s.client c).state = .faulted) :
    exec (.detach i) s = .next (s.detached i c) := by
  simp only [exec, execDetach, ht, State.detachStep, clientOf_eq_some_iff.2 hs, h0, if_false, hc, if_true]
  rfl

theorem State.tearing_slot_same : (s.tearing i c).slot i = { s.slot i with progress := .teardown (Teardown.start c) } :=
  State.setProgress_slot_same ..

theorem State.tearing_slot_other (hj : j ≠ i) : (s.tearing i c).slot j = s.slot j := State.setProgress_slot_other s hj _

/-- Whether the client's slot stops at once does not depend on the slot of the DETACH. -/
theorem State.tearing_stopsNow (hj : j ≠ i) : (s.tearing i c).stopsNow c j ↔ s.stopsNow c j := by
  unfold State.stopsNow State.pieceWaits
  rw [State.tearing_slot_other hj]
  rfl

/-- What waits for its grant on the client's memory has left the fetcher, and what the Intake chose since is another client's. -/
theorem State.stateStage_fetch {x : Txn} (hx : (s.stateStage c).intake.fetch = some x) :
    s.granted (fun o => o = .clientHalf c ∨ ∃ k, o = .postRead c k) ∨
      (x.op ≠ .clientHalf c ∧ ∀ k, x.op ≠ .postRead c k) := by
  rcases (s.readsOn_stateStage c).fetch x hx with hx | ⟨d, attached, hop⟩
  · rw [s.withdrawn_intake] at hx
    have waits : s.fetchWaits c = false := by
      by_contra h
      rw [Bool.not_eq_false] at h
      rw [if_pos h] at hx
      cases hx
    rw [if_neg (by rw [waits]; decide)] at hx
    by_contra h
    rw [not_or, not_and_or, not_not, not_forall] at h
    obtain ⟨ungranted, reads⟩ := h
    refine Bool.false_ne_true (waits.symm.trans (State.fetchWaits_iff.2 ⟨⟨x, hx, ?_⟩, ungranted⟩))
    simpa only [not_not] using reads
  · -- The withdrawals leave the client DRAINING, so a new read is another's.
    have other : d ≠ c := by
      rintro rfl
      have draining := (s.withdrawn_frame d).2.2.2
      rw [attached] at draining
      cases draining
    refine .inr ⟨fun h => ?_, fun k h => ?_⟩ <;> rcases hop with hop | ⟨l, hop⟩ <;> rw [hop] at h <;> cases h <;> exact other rfl

theorem filter_isWriteOf (l : List Txn) (c : ClientId) : l.filter (fun x => !(x.op.isWriteOf c)) =
    l.filter (fun x => match x.op with
      | .record d _ _ | .writeBack d _ | .finalWriteBack d | .signal d _ => d != c
      | _ => true) := by
  refine congrArg (List.filter · l) (funext fun x => ?_)
  cases x.op <;> rfl

/-- DETACH of a client 1 to 7 that is ATTACHED or FAULTED, for each block of the part. -/
theorem State.detach_begins (he : (s.slot i).client = some e) (hp : (s.slot i).state = .performing) (hne : e ≠ c) :
    ((s.detached i c).client c).state = .draining ∧
      ((s.detached i c).client c).reason = (s.client c).reason ∧
      ((s.detached i c).client c).finalDue = false ∧
      (∀ d, d ≠ c → (s.detached i c).client d = s.client d) ∧
      has (s.detached i c).intake.attendSet c = false ∧
      has (s.detached i c).intake.refreshSet c = false ∧
      (s.detached i c).dir = s.dir ∧ (s.detached i c).port = s.port ∧
      (s.detached i c).unit =
        { s.unit with writer := s.unit.writer.filter (fun x => !(x.op.isWriteOf c)) } := by
  unfold State.detached
  have reads := (s.tearing i c).readsOn_stateStage c
  obtain ⟨reason, due, others⟩ := (s.tearing i c).withdrawn_context c
  have client : ∀ d, ((s.tearing i c).stateStage c).client d = ((s.tearing i c).withdrawn c).client d := fun d => by
    rw [State.client, reads.clients, ← State.client]
  -- A member that the sets keep after the withdrawals is another client.
  have without_client : ∀ x : ClientSet, has (without x c) c = false := fun x => by
    rw [Bool.eq_false_iff]
    exact fun h => (has_without.1 h).2 rfl
  have attend := mt (reads.attend c)
  have refresh := mt (reads.refresh c)
  rw [(s.tearing i c).withdrawn_intake, Bool.not_eq_true, Bool.not_eq_true] at attend refresh
  have occupied : ((s.tearing i c).slot i).state ≠ .free := by
    rw [State.tearing_slot_same, hp]
    decide
  have other : ((s.tearing i c).slot i).client ≠ some c := by
    rw [State.tearing_slot_same, he, ne_eq, Option.some.injEq]
    exact hne
  simp only [client]
  exact ⟨((s.tearing i c).withdrawn_frame c).2.2.2, reason, due, others, attend (without_client _), refresh (without_client _),
    reads.dir.trans ((s.tearing i c).withdrawn_dir c), State.stateStage_port occupied other,
    reads.unit.trans ((s.tearing i c).withdrawn_unit c)⟩

/-- DETACH of a client that occupies no slot ends the abort stage at once (R162). -/
theorem State.detach_unslotted (he : (s.slot i).client = some e) (hp : (s.slot i).state = .performing) (hne : e ≠ c)
    (hn : ∀ j, (s.slot j).state = .free ∨ (s.slot j).client ≠ some c) :
    (s.detached i c).store = s.store ∧
      ((s.detached i c).slot i).progress = .teardown { Teardown.start c with stage := .directory } := by
  unfold State.detached
  have unslotted : (s.tearing i c).slotOf c = none := by
    refine Option.isNone_iff_eq_none.1 (State.slotOf_none.2 fun j => ?_)
    by_cases hj : j = i
    · rw [hj, State.tearing_slot_same, he, ne_eq, Option.some.injEq]
      exact .inr hne
    · rw [State.tearing_slot_other hj]
      exact hn j
  obtain ⟨store, -, slots⟩ := State.stateStage_unslotted unslotted
  refine ⟨store, ?_⟩
  rw [slots i (by rw [State.tearing_slot_same, hp]; decide), State.tearing_slot_same]
  simp [endAbort, Teardown.start]

/-- DETACH of a client with a slot, the only one it occupies: the slot is freed at once, or its abort is requested. -/
theorem State.detach_slotted (he : (s.slot i).client = some e) (hp : (s.slot i).state = .performing) (hne : e ≠ c)
    (hj : (s.slot j).client = some c) (hone : ∀ k, k ≠ j → (s.slot k).state = .free ∨ (s.slot k).client ≠ some c) (hji : j ≠ i)
    (hn : (s.slot j).state ≠ .free) :
    (s.stopsNow c j →
      ((s.detached i c).slot j).client ≠ some c ∧ ((s.detached i c).slot j).completion = none ∧
        ((s.detached i c).slot i).progress = .teardown { Teardown.start c with
          stage := .directory, aborted := (s.slot j).state == .performing } ∧
        (s.detached i c).store = (match (s.slot j).state, (s.slot j).undo with
          | .performing, some g => s.store.undo g
          | _, _ => s.store)) ∧
    (¬ s.stopsNow c j →
      (s.detached i c).store = s.store ∧
        (s.detached i c).slot j = { s.slot j with abortRequested := true } ∧
        ((s.detached i c).slot i).progress = .teardown (Teardown.start c)) := by
  unfold State.detached
  have slot_j : (s.tearing i c).slot j = s.slot j := State.tearing_slot_other hji
  have slot_i : (s.tearing i c).slot i = { s.slot i with progress := .teardown (Teardown.start c) } := State.tearing_slot_same
  have slotted : (s.tearing i c).slotOf c = some j := by
    refine State.slotOf_first (by rwa [slot_j]) (by rwa [slot_j]) fun k hk => ?_
    by_cases hki : k = i
    · rw [hki, slot_i, he, ne_eq, Option.some.injEq]
      exact .inr hne
    · rw [State.tearing_slot_other hki]
      exact hone k (Fin.ne_of_lt hk)
  have occupied : ((s.tearing i c).slot i).state ≠ .free := by
    rw [slot_i, hp]
    decide
  rw [← State.tearing_stopsNow (i := i) hji]
  refine ⟨fun h => ?_, fun h => ?_⟩
  · obtain ⟨⟨freed, silent, -, told⟩, store⟩ := State.stateStage_stops slotted h
    simp only [(s.tearing i c).withdrawn_slot] at told
    rw [slot_j] at told store
    refine ⟨freed, silent, ?_, store⟩
    rw [(told i hji.symm occupied).1 (Teardown.start c) (by rw [slot_i]) rfl rfl]
  · obtain ⟨store, -, marked, others⟩ := State.stateStage_asks slotted h
    rw [slot_j] at marked
    exact ⟨store, marked, by rw [others i hji.symm occupied, slot_i]⟩

end Detach

end Sys2Proof.Machine

/-!
PROOF. O51, the end of the slot of a torn-down client: at an abort point, or with a completion that is discarded.
-/

namespace Sys2Proof.Machine

-- Elaborated one after the other: side by side, each declaration holds a thread with memory of its own.
set_option Elab.async false

/-! ### Abort points (R88, R113, R132, R134, R149) -/

section AbortPoints
variable {s : State} {x : Instr} {y : Txn} {i : SlotId} {c : ClientId} {r : PostRecord} {m : Movement} {p q : Piece}
  {rest : List Piece} {fr : List Accepted}

/-- A step that stops its slot at an abort point, its transaction completed or none in flight. -/
def State.abortsBy (s : State) (x : Instr) (i : SlotId) : Prop :=
  exec x s = .next (s.abortSlot i) ∨ exec x s = .next (s.clearBus.abortSlot i)

/-- The slot of a DRAINING client that stops at an abort point sends its undo and reports the aborted flag. -/
theorem State.abortsBy_stops (h : s.abortsBy x i) (hc : (s.slot i).client = some c) (hd : (s.client c).state = .draining) :
    ∃ t, exec x s = .next t ∧ s.stops t i c true ∧ t.unit = s.unit ∧ t.dir = s.dir ∧ t.clients = s.clients ∧
      t.store = (match (s.slot i).undo with | some g => s.store.undo g | none => s.store) := by
  rcases h with hx | hx
  · exact ⟨_, hx, State.abortSlot_stops hc hd⟩
  · obtain ⟨stops, rest⟩ := State.abortSlot_stops (s := s.clearBus) hc hd
    exact ⟨_, hx, State.stops_congr rfl rfl (fun _ h => h) stops, rest⟩

theorem exec_openParcel_aborts (ht : s.takenCommand i 1 = some (c, r)) (ha : (s.slot i).abortRequested = true) :
    s.abortsBy (.openParcel i) i := .inl (by simp only [exec, execOpen, ht, ha, if_true])

theorem exec_cut_aborts (ht : s.takenCommand i 3 = some (c, r)) (ha : (s.slot i).abortRequested = true) :
    s.abortsBy (.cut i) i := .inl (by simp only [exec, execCut, ht, ha, if_true])

theorem exec_dispatch_aborts (ht : s.takenCommand i 4 = some (c, r)) (ha : (s.slot i).abortRequested = true) :
    s.abortsBy (.dispatch i) i := .inl (by simp only [exec, execDispatch, ht, ha, if_true])

theorem exec_forward_aborts (ht : s.takenCommand i 6 = some (c, r)) (ha : (s.slot i).abortRequested = true) :
    s.abortsBy (.forward i) i := .inl (by simp only [exec, execForward, ht, ha, if_true])

theorem exec_append_aborts (ht : s.takenCommand i 2 = some (c, r)) (ha : (s.slot i).abortRequested = true)
    (hf : checkFragments (s.client c).apertures .read r.fragments = .ok fr) : s.abortsBy (.append i) i :=
  .inl (by simp only [exec, execAppend, ht, hf, ha, if_true])

theorem exec_send_aborts (ht : s.takenCommand i 5 = some (c, r)) (ha : (s.slot i).abortRequested = true)
    (hf : checkFragments (s.client c).apertures .read r.fragments = .ok fr) : s.abortsBy (.send i) i :=
  .inl (by simp only [exec, execSend, ht, hf, ha, if_true])

theorem exec_fetch_aborts (ht : s.takenCommand i 7 = some (c, r)) (ha : (s.slot i).abortRequested = true)
    (hf : checkFragments (s.client c).apertures .write r.fragments = .ok fr) : s.abortsBy (.fetch i) i :=
  .inl (by simp only [exec, execFetch, ht, hf, ha, if_true])

theorem exec_release_aborts (ht : s.takenCommand i 8 = some (c, r)) (ha : (s.slot i).abortRequested = true)
    (h1 : 1 ≤ r.auxA.toNat) (h15 : r.auxA.toNat ≤ 15) : s.abortsBy (.release i) i := by
  have within : ¬ (r.auxA.toNat < 1 ∨ Config.maxHolder < r.auxA.toNat) := by unfold Config.maxHolder; omega
  exact .inl (by simp only [exec, execRelease, ht, within, ha, if_false, if_true])

theorem exec_lookup_aborts {h : Handle} {n : Nat} (hperf : s.performing i = some (c, r)) (ha : (s.slot i).abortRequested = true)
    (hprog : (s.slot i).progress = .toLookup h n) : s.abortsBy (.lookup i) i :=
  .inl (by simp only [exec, execLookup, hperf, hprog, ha, if_true])

theorem exec_releaseAfterDrop_aborts {h : Handle} {n k : Nat} (hperf : s.performing i = some (c, r))
    (ha : (s.slot i).abortRequested = true) (hprog : (s.slot i).progress = .dropAfter h n k) :
    s.abortsBy (.releaseAfterDrop i) i :=
  .inl (by simp only [exec, execReleaseAfterDrop, hperf, hprog, ha, if_true])

/-- Between two pieces of a gather, whatever the completed one brought (R149). -/
theorem exec_gatherPiece_aborts {o : ReadOutcome} (hlive : s.carriesLive y = true) (hop : y.op = .gather i)
    (hperf : s.performing i = some (c, r)) (ha : (s.slot i).abortRequested = true) (hprog : (s.slot i).progress = .moving m)
    (hpieces : m.pieces = p :: q :: rest) (hundo : (s.slot i).undo ≠ none) : s.abortsBy (.gatherPieceComplete o) i := by
  have hbus : s.onBus TxnOp.gatherOf = .live i y := State.onBus_live hlive (by rw [hop]; rfl)
  obtain ⟨g, hg⟩ := Option.ne_none_iff_exists'.1 hundo
  exact .inr (by simp only [exec, execGatherPieceComplete, hbus, hperf, hprog, hg, hpieces, ha, List.isEmpty_cons, Bool.not_false,
    Bool.and_self, if_true])

/-- Between two pieces of a scatter (R149). -/
theorem exec_scatterPiece_aborts {w : WriteOutcome} (hlive : s.carriesLive y = true) (hop : y.op = .scatter i)
    (hperf : s.performing i = some (c, r)) (ha : (s.slot i).abortRequested = true) (hprog : (s.slot i).progress = .moving m)
    (hpieces : m.pieces = p :: q :: rest) : s.abortsBy (.scatterPieceComplete w) i := by
  have hbus : s.onBus TxnOp.scatterOf = .live i y := State.onBus_live hlive (by rw [hop]; rfl)
  exact .inr (by simp only [exec, execScatterPieceComplete, hbus, hperf, hprog, hpieces, ha, List.isEmpty_cons, Bool.not_false,
    Bool.and_self, if_true])

/-- The last piece of a scatter done: the abort point before the release-after drop comes in its event, and without one the FETCH
ends (R132). -/
theorem exec_lastScatterPiece_done (hlive : s.carriesLive y = true) (hop : y.op = .scatter i)
    (hperf : s.performing i = some (c, r)) (hprog : (s.slot i).progress = .moving m) (hpieces : m.pieces = [p]) :
    exec (.scatterPieceComplete .done) s = .next (s.clearBus.scatterDone i r m) := by
  have hbus : s.onBus TxnOp.scatterOf = .live i y := State.onBus_live hlive (by rw [hop]; rfl)
  simp only [exec, execScatterPieceComplete, hbus, hperf, hprog, hpieces, List.isEmpty_nil, Bool.not_true, Bool.and_false,
    Bool.false_eq_true, if_false, if_true]

theorem exec_lastScatterPiece_aborts (hlive : s.carriesLive y = true) (hop : y.op = .scatter i)
    (hperf : s.performing i = some (c, r)) (ha : (s.slot i).abortRequested = true) (hprog : (s.slot i).progress = .moving m)
    (hpieces : m.pieces = [p]) (hflag : r.flags.getLsbD 1 = true) : s.abortsBy (.scatterPieceComplete .done) i := by
  have asked : (r.releaseAfter && (s.clearBus.slot i).abortRequested) = true := Bool.and_eq_true_iff.2 ⟨hflag, ha⟩
  have hx := exec_lastScatterPiece_done hlive hop hperf hprog hpieces
  rw [State.scatterDone, if_pos asked] at hx
  exact .inr hx

end AbortPoints

/-! ### Commands that end first (R87) -/

section Unreported
variable {s u : State} {x : Instr} {y : Txn} {i : SlotId} {c : ClientId} {r : PostRecord} {m : Movement} {p : Piece} {q : Routing}

/-- The state in which the client is ATTACHED instead. -/
def State.asAttached (s : State) (c : ClientId) : State := s.setClient c { s.client c with state := .attached }

theorem State.asAttached_apertures : ((s.asAttached c).client c).apertures = (s.client c).apertures := by
  rw [State.asAttached, s.setClient_client_same]

theorem State.asAttached_learning : ((s.asAttached c).client c).learning = (s.client c).learning := by
  rw [State.asAttached, s.setClient_client_same]

/-- The sent counter advances alike. -/
theorem State.asAttached_sentCounted (st : Status) :
    (s.asAttached c).sentCounted c st = (s.sentCounted c st).asAttached c := by
  unfold State.sentCounted
  split
  · simp only [State.asAttached, State.setClient_client_same]
    exact congrArg (fun v => { s with clients := v }) ((Vector.set_set ..).trans (Vector.set_set ..).symm)
  · rfl

/-- A step that forms a completion in a state with the same slots, port and unit, and with its client ATTACHED forms one in that
state with its client ATTACHED. -/
structure State.EndsIn (s : State) (x : Instr) (i : SlotId) (c : ClientId) (u : State) : Prop where
  slots : u.slots = s.slots
  port : u.port = s.port
  unit : u.unit = s.unit
  state : ∀ d, (u.client d).state = (s.client d).state
  forms : ∃ z, exec x s = .next (u.formCompletion i z)
  attached : ∃ z, exec x (s.asAttached c) = .next ((u.asAttached c).formCompletion i z)

/-- The completion of a DRAINING client is discarded, and the rest is what the step does for a client that is ATTACHED. -/
theorem State.EndsIn.unreported (h : s.EndsIn x i c u) (hc : (s.slot i).client = some c) (hd : (s.client c).state = .draining) :
    ∃ t v, exec x s = .next t ∧ s.stops t i c false ∧ t.unit = s.unit ∧
      exec x { s with clients := s.clients.set c.val { s.client c with state := .attached } } = .next v ∧
      t.store = v.store ∧ t.dir = v.dir ∧
      ∀ d, t.client d = if d = c then { v.client c with state := .draining } else v.client d := by
  obtain ⟨z, hx⟩ := h.forms
  obtain ⟨z', hx'⟩ := h.attached
  obtain ⟨stops, unit⟩ := State.formCompletion_stops (s := u) z (by rwa [State.slot_of_slots h.slots]) ((h.state c).trans hd)
  refine ⟨_, _, hx, State.stops_congr h.slots h.port (fun d hdd => (h.state d).symm.trans hdd) stops, unit.trans h.unit, hx',
    ?_, ?_, fun d => ?_⟩
  · rw [State.formCompletion_store, State.formCompletion_store]
    rfl
  · rw [State.formCompletion_dir, State.formCompletion_dir]
    rfl
  · simp only [State.formCompletion_client, State.asAttached, State.setClient_client, if_true]
    by_cases hdc : d = c
    · rw [if_pos hdc, hdc, ← hd, ← h.state c]
    · rw [if_neg hdc, if_neg hdc]

theorem State.EndsIn.subscribe (ht : s.takenCommand i 9 = some (c, r)) : ∃ u, s.EndsIn (.subscribe i) i c u :=
  ⟨s.setDir (if r.maskPresent then s.dir.subscribePattern c r.auxA r.key else s.dir.subscribeExact c r.key).dir,
    rfl, rfl, rfl, fun _ => rfl, ⟨_, exec_subscribe_taken ht⟩, _, exec_subscribe_taken (s := s.asAttached c) ht⟩

theorem State.EndsIn.unsubscribe (ht : s.takenCommand i 10 = some (c, r)) : ∃ u, s.EndsIn (.unsubscribe i) i c u :=
  ⟨s.setDir (if r.maskPresent then s.dir.unsubscribePattern c r.auxA r.key else s.dir.unsubscribeExact c r.key).dir,
    rfl, rfl, rfl, fun _ => rfl, ⟨_, exec_unsubscribe_taken ht⟩, _, exec_unsubscribe_taken (s := s.asAttached c) ht⟩

/-- A command refused by a check that does not ask for its client's state. -/
theorem State.EndsIn.refused {st : Status} {k : Nat} (hx : exec x s = .next (s.endWith i r st k))
    (hx' : exec x (s.asAttached c) = .next ((s.asAttached c).endWith i r st k)) : s.EndsIn x i c s :=
  ⟨rfl, rfl, rfl, fun _ => rfl, ⟨_, hx⟩, _, hx'⟩

theorem State.EndsIn.aperture {k : Nat} {right : Right} (hx : (x = .append i ∧ s.takenCommand i 2 = some (c, r) ∧ right = .read) ∨
      (x = .send i ∧ s.takenCommand i 5 = some (c, r) ∧ right = .read) ∨
      (x = .fetch i ∧ s.takenCommand i 7 = some (c, r) ∧ right = .write))
    (hf : checkFragments (s.client c).apertures right r.fragments = .error k) : s.EndsIn x i c s := by
  have hf' := hf
  rw [← State.asAttached_apertures] at hf'
  rcases hx with ⟨rfl, ht, rfl⟩ | ⟨rfl, ht, rfl⟩ | ⟨rfl, ht, rfl⟩
  · exact .refused (exec_append_aperture ht hf) (exec_append_aperture (s := s.asAttached c) ht hf')
  · exact .refused (exec_send_aperture ht hf) (exec_send_aperture (s := s.asAttached c) ht hf')
  · exact .refused (exec_fetch_aperture ht hf) (exec_fetch_aperture (s := s.asAttached c) ht hf')

/-- The range of a RELEASE is checked before its abort point (R133, R134). -/
theorem exec_release_outOfRange (ht : s.takenCommand i 8 = some (c, r)) (hn : r.auxA.toNat = 0 ∨ 15 < r.auxA.toNat) :
    exec (.release i) s = .next (s.endWith i r .badRange 0) := by
  have bad : r.auxA.toNat < 1 ∨ Config.maxHolder < r.auxA.toNat := by unfold Config.maxHolder; omega
  simp only [exec, execRelease, ht, bad, if_true]

theorem State.EndsIn.release (ht : s.takenCommand i 8 = some (c, r)) (hn : r.auxA.toNat = 0 ∨ 15 < r.auxA.toNat) :
    s.EndsIn (.release i) i c s :=
  .refused (exec_release_outOfRange ht hn) (exec_release_outOfRange (s := s.asAttached c) ht hn)

/-- A routing command has queued nothing exactly when its status is not OK (R99). -/
theorem Routing.status_ne_ok_iff : q.status ≠ .ok ↔ q.routeSet = 0 ∨ q.routed = 0 := by
  unfold Routing.status
  split
  next h => exact iff_of_true (by decide) (.inl h)
  next hset =>
    split
    next h => exact iff_of_true (by decide) (.inr h)
    next hrouted => exact iff_of_false (fun h => h rfl) (not_or.2 ⟨hset, hrouted⟩)

/-- A routing command with its last answer forms its completion, its sender's sent counter advanced if it is OK (R100, R114). -/
theorem State.routingAnswered_all (h : (q.settled && (q.handedOver || q.handsNothing r)) = true) :
    s.routingAnswered i c r q = (s.sentCounted c q.status).formCompletion i (q.completion r) := by
  unfold State.routingAnswered
  rw [if_pos h]
  rfl

/-- A routing command whose last answer is that of a request which changes the store or the directory alone. -/
theorem State.EndsIn.answered {v : State} (hslots : v.slots = s.slots) (hport : v.port = s.port) (hunit : v.unit = s.unit)
    (hclients : v.clients = s.clients) (h : (q.settled && (q.handedOver || q.handsNothing r)) = true)
    (hx : exec x s = .next (v.routingAnswered i c r q))
    (hx' : exec x (s.asAttached c) = .next ((v.asAttached c).routingAnswered i c r q)) :
    s.EndsIn x i c (v.sentCounted c q.status) := by
  rw [State.routingAnswered_all h] at hx
  rw [State.routingAnswered_all h, State.asAttached_sentCounted] at hx'
  have state : ∀ d, ((v.sentCounted c q.status).client d).state = (s.client d).state := by
    intro d
    have same : v.client d = s.client d := by rw [State.client, hclients, ← State.client]
    rw [State.sentCounted_client, ← same]
    split
    · rename_i e
      rw [e.1]
    · rfl
  refine ⟨(State.sentCounted_slots _).trans hslots, ?_, (State.sentCounted_unit _).trans hunit, state, ⟨_, hx⟩, _, hx'⟩
  rw [← hport]
  unfold State.sentCounted
  split <;> rfl

theorem exec_settlement_due (hperf : s.performing i = some (c, r)) (hprog : (s.slot i).progress = .settling q)
    (hset : q.settled = false) : exec (.settlement i) s = .next
      ((s.setDir (s.dir.settle r.key q.accepted c r.replyKey r.replyOnce (s.client c).learning)).routingAnswered i c r
        { q with settled := true }) := by
  simp only [exec, execSettlement, hperf, hprog, hset, Bool.false_eq_true, if_false]

theorem State.EndsIn.settlement (hperf : s.performing i = some (c, r)) (hprog : (s.slot i).progress = .settling q)
    (hset : q.settled = false) (hall : q.handedOver = true ∨ (r.kind = 6 ∧ (q.routeSet = 0 ∨ q.routed = 0))) :
    ∃ u, s.EndsIn (.settlement i) i c u := by
  have last : (true && (q.handedOver || Routing.handsNothing { q with settled := true } r)) = true := by
    rw [Bool.true_and, Bool.or_eq_true, Routing.handsNothing_iff]
    exact hall.imp_right fun ⟨kind, empty⟩ => ⟨kind, Routing.status_ne_ok_iff.2 empty⟩
  have hx' := exec_settlement_due (s := s.asAttached c) hperf hprog hset
  rw [State.asAttached_learning] at hx'
  exact ⟨_, .answered (q := { q with settled := true })
    (v := s.setDir (s.dir.settle r.key q.accepted c r.replyKey r.replyOnce (s.client c).learning)) rfl rfl rfl rfl last
    (exec_settlement_due hperf hprog hset) hx'⟩

theorem State.EndsIn.handOver (hperf : s.performing i = some (c, r)) (hprog : (s.slot i).progress = .settling q)
    (hset : q.settled = true) (hno : q.handedOver = false) (hands : ¬ (r.kind = 6 ∧ (q.routeSet = 0 ∨ q.routed = 0))) :
    ∃ u, s.EndsIn (.handOver i) i c u := by
  have last : (q.settled && (true || Routing.handsNothing { q with handedOver := true } r)) = true := by
    rw [hset, Bool.true_and, Bool.true_or]
  have something : ¬ q.handsNothing r = true := by
    rw [Routing.handsNothing_iff, Routing.status_ne_ok_iff]
    exact hands
  have hx := exec_handOver_hands hperf hprog something hno
  have hx' := exec_handOver_hands (s := s.asAttached c) hperf hprog something hno
  have request : ((s.asAttached c).handOverStep c r q).store = (s.handOverStep c r q).store := by
    unfold State.handOverStep
    split <;> rfl
  rw [State.handOverStep_eq] at hx hx'
  rw [request] at hx'
  exact ⟨_, .answered (q := { q with handedOver := true }) (v := s.setStore (s.handOverStep c r q).store) rfl rfl rfl rfl last
    hx hx'⟩

theorem State.EndsIn.lastScatterPiece (hlive : s.carriesLive y = true) (hop : y.op = .scatter i)
    (hperf : s.performing i = some (c, r)) (hprog : (s.slot i).progress = .moving m) (hpieces : m.pieces = [p])
    (hflag : r.flags.getLsbD 1 = false) : s.EndsIn (.scatterPieceComplete .done) i c s.clearBus := by
  have ends : ∀ v : State, v.scatterDone i r m = v.endFetched i r m.handle m.length m.total := fun v => by
    have keeps : r.releaseAfter = false := hflag
    simp only [State.scatterDone, State.scattered, keeps, Bool.false_and, Bool.false_eq_true, if_false]
  have hx := exec_lastScatterPiece_done hlive hop hperf hprog hpieces
  have hx' := exec_lastScatterPiece_done (s := s.asAttached c) hlive hop hperf hprog hpieces
  rw [ends] at hx hx'
  exact ⟨rfl, rfl, rfl, fun _ => rfl, ⟨_, hx⟩, _, hx'⟩

end Unreported

/-! ### The last piece of a movement is no abort point (R150) -/

section LastPiece
variable {s : State} {x : Txn} {i : SlotId} {c : ClientId} {r : PostRecord} {m : Movement} {p : Piece} {g : GrowthClaim}
  {w : List Host.Cell} {bs : List Byte}

/-- What a slot holds is nothing to its freeing but for its client. -/
theorem State.freeSlot_setSlot {v : Slot} (hv : v.client = (s.slot i).client) (b : Bool) :
    (s.setSlot i v).freeSlot i b = s.freeSlot i b := by
  have again : (s.setSlot i v).setSlot i Slot.initial = s.setSlot i Slot.initial :=
    congrArg (fun l => { s with slots := l }) (Vector.set_set ..)
  unfold State.freeSlot
  rw [State.setSlot_slot_same, again, hv]
  rfl

/-- The commit at the end of a gather, for a DRAINING client: an APPEND ends unreported, and a SEND stops before its lookup. -/
theorem State.gathered_draining (hc : (s.slot i).client = some c) (hd : (s.client c).state = .draining)
    (ha : g.isSend = true → (s.slot i).abortRequested = true) :
    s.gathered i r m g = (s.commitGrowth g.index g.isSend).freeSlot i g.isSend := by
  have freed := State.freeSlot_setSlot (s := s.commitGrowth g.index g.isSend) (i := i) (v := { s.slot i with undo := none }) rfl
  unfold State.gathered
  cases hs : g.isSend with
  | true =>
    rw [hs] at freed
    rw [if_pos rfl, if_pos (ha hs), ← freed, State.abortSlot, State.sendUndo, State.setSlot_slot_same]
  | false =>
    rw [hs] at freed
    rw [if_neg Bool.false_ne_true]
    refine Eq.trans (State.formCompletion_draining _ _ (c := c) ?_ ?_) (freed false)
    · rw [State.setSlot_slot_same]
      exact hc
    · exact hd

theorem exec_lastGatherPiece_data (hlive : s.carriesLive x = true) (hop : x.op = .gather i) (hperf : s.performing i = some (c, r))
    (hprog : (s.slot i).progress = .moving m) (hpieces : m.pieces = [p]) (hundo : (s.slot i).undo = some g)
    (hlen : bs.length = p.len)
    (hw : writeRun (s.store.parcel (handleIndex m.handle)) s.store.memory (m.base + p.run) bs = some w) :
    exec (.gatherPieceComplete (.data bs)) s =
      .next ((s.clearBus.setStore { s.store with memory := w }).gathered i r m g) := by
  have hbus : s.onBus TxnOp.gatherOf = .live i x := State.onBus_live hlive (by rw [hop]; rfl)
  simp only [exec, execGatherPieceComplete, hbus, hperf, hprog, hundo, hpieces, List.isEmpty_nil, Bool.not_true, Bool.and_false,
    Bool.false_eq_true, if_false, if_true, hlen, State.gatherData, State.clearBus_store, hw]

/-- The bytes of the last piece are written and the growth commits, though an abort is requested. -/
theorem lastGatherPiece_commits (hlive : s.carriesLive x = true) (hop : x.op = .gather i) (hperf : s.performing i = some (c, r))
    (hd : (s.client c).state = .draining) (hprog : (s.slot i).progress = .moving m) (hpieces : m.pieces = [p])
    (hundo : (s.slot i).undo = some g) (hlen : bs.length = p.len) (hnodup : (s.store.parcel (handleIndex m.handle)).chain.Nodup)
    (hfit : (s.store.parcel (handleIndex m.handle)).headOffset + m.base + p.run + p.len ≤
      (s.store.parcel (handleIndex m.handle)).chain.length * (s.store.parcel (handleIndex m.handle)).cls.size)
    (ha : g.isSend = true → (s.slot i).abortRequested = true) :
    ∃ t, exec (.gatherPieceComplete (.data bs)) s = .next t ∧ s.stops t i c g.isSend ∧
      readRun (s.store.parcel (handleIndex m.handle)) t.store.memory (m.base + p.run) p.len = some bs ∧
      (∀ j, t.store.parcel j = if j = g.index then { s.store.parcel j with
          length := (s.store.parcel j).length + (s.store.parcel j).growth.getD 0, growth := none,
          state := if g.isSend then .closed else (s.store.parcel j).state }
        else s.store.parcel j) ∧
      t.store.pools = s.store.pools ∧ t.store.accounts = s.store.accounts ∧ t.unit = s.unit ∧ t.dir = s.dir ∧
      t.clients = s.clients := by
  obtain ⟨-, -, hc, -⟩ := State.performing_iff.1 hperf
  rw [← hlen] at hfit ⊢
  obtain ⟨w, write, read, -⟩ := writeRun_spec hnodup bs s.store.memory (m.base + p.run) (by omega)
  have hx := exec_lastGatherPiece_data hlive hop hperf hprog hpieces hundo hlen write
  rw [State.gathered_draining (s := s.clearBus.setStore { s.store with memory := w }) hc hd ha] at hx
  -- The committed state, in which the slot is freed.
  have stops := State.freeSlot_stops
    (s := (s.clearBus.setStore { s.store with memory := w }).commitGrowth g.index g.isSend) g.isSend hc hd
  refine ⟨_, hx, State.stops_congr rfl rfl (fun _ h => h) stops, ?_, fun j => ?_, ?_, ?_, ?_, ?_, ?_⟩
  · rw [State.freeSlot_store]
    exact read
  · rw [State.freeSlot_store]
    refine (Store.commit_parcel _ _ _ j).trans (ite_congr rfl (fun e => ?_) fun _ => rfl)
    rw [e]
    rfl
  · rw [State.freeSlot_store]; rfl
  · rw [State.freeSlot_store]; rfl
  · exact State.freeSlot_unit ..
  · exact State.freeSlot_dir ..
  · exact State.freeSlot_clients ..

/-- A bus error on the last piece of a gather undoes the growth, and the completion is discarded (R147). -/
theorem lastGatherPiece_fails (hlive : s.carriesLive x = true) (hop : x.op = .gather i) (hperf : s.performing i = some (c, r))
    (hd : (s.client c).state = .draining) (hprog : (s.slot i).progress = .moving m) (hpieces : m.pieces = [p])
    (hundo : (s.slot i).undo = some g) :
    ∃ t, exec (.gatherPieceComplete .busError) s = .next t ∧ s.stops t i c false ∧ t.store = s.store.undo g ∧
      t.unit = s.unit ∧ t.dir = s.dir ∧ t.clients = s.clients := by
  obtain ⟨-, -, hc, -⟩ := State.performing_iff.1 hperf
  have hbus : s.onBus TxnOp.gatherOf = .live i x := State.onBus_live hlive (by rw [hop]; rfl)
  have hx : exec (.gatherPieceComplete .busError) s =
      .next ((s.clearBus.setStore (s.store.undo g)).endWith i r .busError p.fragment) := by
    simp only [exec, execGatherPieceComplete, hbus, hperf, hprog, hundo, hpieces, List.isEmpty_nil, Bool.not_true, Bool.and_false,
      Bool.false_eq_true, if_false, State.gatherFailed, State.sendUndo, State.clearBus_slot, State.clearBus_store]
  obtain ⟨stops, unit⟩ := State.formCompletion_stops (s := s.clearBus.setStore (s.store.undo g))
    (r.completion .busError p.fragment) hc hd
  exact ⟨_, hx, State.stops_congr rfl rfl (fun _ h => h) stops, State.formCompletion_store .., unit,
    State.formCompletion_dir .., State.formCompletion_clients ..⟩

/-- A bus error on the last piece of a scatter ends the FETCH, and the completion is discarded (R148). -/
theorem lastScatterPiece_fails (hlive : s.carriesLive x = true) (hop : x.op = .scatter i) (hperf : s.performing i = some (c, r))
    (hd : (s.client c).state = .draining) (hprog : (s.slot i).progress = .moving m) (hpieces : m.pieces = [p]) :
    ∃ t, exec (.scatterPieceComplete .busError) s = .next t ∧ s.stops t i c false ∧ t.store = s.store ∧ t.unit = s.unit ∧
      t.dir = s.dir ∧ t.clients = s.clients := by
  obtain ⟨-, -, hc, -⟩ := State.performing_iff.1 hperf
  have hbus : s.onBus TxnOp.scatterOf = .live i x := State.onBus_live hlive (by rw [hop]; rfl)
  have hx : exec (.scatterPieceComplete .busError) s = .next (s.clearBus.endWith i r .busError p.fragment) := by
    simp only [exec, execScatterPieceComplete, hbus, hperf, hprog, hpieces, List.isEmpty_nil, Bool.not_true, Bool.and_false,
      Bool.false_eq_true, if_false]
  obtain ⟨stops, unit⟩ := State.formCompletion_stops (s := s.clearBus) (r.completion .busError p.fragment) hc hd
  exact ⟨_, hx, State.stops_congr rfl rfl (fun _ h => h) stops, State.formCompletion_store .., unit,
    State.formCompletion_dir .., State.formCompletion_clients ..⟩

end LastPiece

/-- Settles O51: DETACH by what it leaves of each block and by the slot of its subject, then each abort point, each command that ends
first, and the last piece of a movement. -/
theorem detachBeginsTheTeardown : Obligations.DetachBeginsTheTeardown := by
  refine ⟨fun s i e r ht hd => ⟨fun hsup => ?_, fun hbad => ?_, fun c hs h0 hstate he => ?_⟩,
    fun s i c r x hperf ha hd hcmd => ?_, fun s i c r x hperf hd hcmd => ?_,
    fun s x i c r m p hlive hperf hd hprog hpieces => ⟨fun g hop hundo => ⟨?_, ?_⟩, fun hop => ?_⟩⟩
  · exact State.taken_refused ht hd (exec_detach_refused ht (State.detachStep_supervisor hsup))
  · exact State.taken_refused ht hd (exec_detach_refused ht (State.detachStep_badState hbad))
  · have slot := State.takenCommand_client ht
    have performs := State.takenCommand_performing ht
    have hne : e ≠ c := fun h => h0 (h ▸ he)
    obtain ⟨state, reason, due, others, attend, refresh, dir, port, unit⟩ := State.detach_begins slot performs hne
    refine ⟨_, exec_detach_begins ht hs h0 hstate, state, reason, due, others, attend, refresh, dir, port, ?_,
      fun x => State.stateStage_fetch, ?_, ?_, fun k hk hn hc hno => ?_, State.detach_unslotted slot performs hne,
      fun j hj hone hji stops hstops => ?_⟩
    · rw [unit]
      exact filter_isWriteOf _ c
    · rw [unit]
    · rw [unit]
    · have same : (s.tearing i c).slot k = s.slot k := State.tearing_slot_other hk
      exact (State.stateStage_others (by rwa [same]) (by rwa [same]) (by rwa [same])).trans same
    · rw [← State.stopsNow_iff] at hstops
      have slotted := State.detach_slotted slot performs hne hj hone hji
      rw [hstops]
      refine ⟨fun h => (slotted ?_).1 h, fun h hn => (slotted hn).2 h⟩
      rcases h with h | ⟨h, -⟩ | ⟨h, -⟩ | ⟨h, -⟩ <;> rw [h] <;> decide
  · obtain ⟨-, -, hc, -⟩ := State.performing_iff.1 hperf
    refine State.abortsBy_stops ?_ hc hd
    rcases hcmd with ⟨rfl, ht⟩ | ⟨rfl, ht⟩ | ⟨rfl, ht⟩ | ⟨rfl, ht⟩ | ⟨rfl, ht, fr, hf⟩ | ⟨rfl, ht, fr, hf⟩ | ⟨rfl, ht, fr, hf⟩ |
      ⟨rfl, ht, h1, h15⟩ | ⟨rfl, h, n, hprog⟩ | ⟨rfl, h, n, k, hprog⟩ | ⟨o, y, m, p, q, rest, rfl, hlive, hop, hprog, hpieces, hundo⟩ |
      ⟨w, y, m, p, q, rest, rfl, hlive, hop, hprog, hpieces⟩ | ⟨y, m, p, rfl, hlive, hop, hprog, hpieces, hflag⟩
    · exact exec_openParcel_aborts ht ha
    · exact exec_cut_aborts ht ha
    · exact exec_dispatch_aborts ht ha
    · exact exec_forward_aborts ht ha
    · exact exec_append_aborts ht ha hf
    · exact exec_send_aborts ht ha hf
    · exact exec_fetch_aborts ht ha hf
    · exact exec_release_aborts ht ha h1 h15
    · exact exec_lookup_aborts hperf ha hprog
    · exact exec_releaseAfterDrop_aborts hperf ha hprog
    · exact exec_gatherPiece_aborts hlive hop hperf ha hprog hpieces hundo
    · exact exec_scatterPiece_aborts hlive hop hperf ha hprog hpieces
    · exact exec_lastScatterPiece_aborts hlive hop hperf ha hprog hpieces hflag
  · obtain ⟨-, -, hc, -⟩ := State.performing_iff.1 hperf
    have ends : ∃ u, s.EndsIn x i c u := by
      rcases hcmd with ⟨rfl, ht⟩ | ⟨rfl, ht⟩ | ⟨k, right, hx, hf⟩ | ⟨rfl, ht, hn⟩ | ⟨q, rfl, hprog, hset, hall⟩ |
        ⟨q, rfl, hprog, hset, hno, hands⟩ | ⟨y, m, p, rfl, hlive, hop, hprog, hpieces, hflag⟩
      · exact State.EndsIn.subscribe ht
      · exact State.EndsIn.unsubscribe ht
      · exact ⟨s, .aperture hx hf⟩
      · exact ⟨s, .release ht hn⟩
      · exact State.EndsIn.settlement hperf hprog hset hall
      · exact State.EndsIn.handOver hperf hprog hset hno hands
      · exact ⟨_, .lastScatterPiece hlive hop hperf hprog hpieces hflag⟩
    obtain ⟨u, hu⟩ := ends
    exact hu.unreported hc hd
  · rintro bs q hlen rfl hnodup hfit hab
    exact lastGatherPiece_commits hlive hop hperf hd hprog hpieces hundo hlen hnodup hfit hab
  · exact lastGatherPiece_fails hlive hop hperf hd hprog hpieces hundo
  · exact lastScatterPiece_fails hlive hop hperf hd hprog hpieces

end Sys2Proof.Machine

/-!
PROOF. The register window: RESTART (O4), the reset pin (O5), GO and HALT (O7), CONTROL (O8), the setup address (O10) and the
answers of the window (O11).
-/

namespace Sys2Proof.Machine

-- Elaborated one after the other: side by side, each declaration holds a thread with memory of its own.
set_option Elab.async false

section Window
variable {s : State} {o : BitVec 5} {v : BitVec 32}

/-! ### Writes taken and ignored (R175) -/

theorem State.windowWrite_taken (hr : s.port.resetAsserted = false) (f : State → State) :
    s.windowWrite f = (f s).answered .written := by
  rw [State.windowWrite, hr]
  rfl

theorem State.windowWrite_ignored (hr : s.port.resetAsserted = true) (f : State → State) :
    s.windowWrite f = s.answered .written := if_pos hr

theorem exec_go_taken (hr : s.port.resetAsserted = false) : exec .go s = .next (s.goEvent.answered .written) :=
  congrArg _ (State.windowWrite_taken hr _)

theorem exec_halt_taken (hr : s.port.resetAsserted = false) : exec .halt s = .next (s.haltEvent.answered .written) :=
  congrArg _ (State.windowWrite_taken hr _)

theorem exec_restart_taken (hr : s.port.resetAsserted = false) :
    exec .restart s = .next (s.restartEvent.answered .written) := congrArg _ (State.windowWrite_taken hr _)

theorem exec_setupAddressWrite_taken (hr : s.port.resetAsserted = false) (high : Bool) (v : BitVec 32) :
    exec (.setupAddressWrite high v) s = .next ((s.setupEvent high v).answered .written) :=
  congrArg _ (State.windowWrite_taken hr _)

/-! ### Accesses of the window (R175) -/

theorem State.access_refused {a : PortAccess} (hr : s.port.resetAsserted = false)
    (h : a.width ≠ .word ∨ a.offset.toNat % 4 ≠ 0) : s.access a = s.answered .busError := by
  rw [State.access, hr, if_neg Bool.false_ne_true, if_pos h]

/-- An aligned word is not refused. -/
theorem aligned_word (ho : o.toNat % 4 = 0) : ¬ (AccessWidth.word ≠ .word ∨ o.toNat % 4 ≠ 0) :=
  not_or.2 ⟨not_not_intro rfl, not_not_intro ho⟩

theorem exec_read_aligned (hr : s.port.resetAsserted = false) (ho : o.toNat % 4 = 0) :
    exec (.registerWrite { offset := o, width := .word, kind := .read }) s =
      .next (s.answered (.value (s.port.readWord o.toNat))) := by
  rw [exec, execRegisterWrite, State.access, hr, if_neg Bool.false_ne_true, if_neg (aligned_word ho)]

theorem exec_write_aligned (hr : s.port.resetAsserted = false) (ho : o.toNat % 4 = 0) :
    exec (.registerWrite { offset := o, width := .word, kind := .write v }) s =
      .next ((s.writeWord o.toNat v).answered .written) := by
  rw [exec, execRegisterWrite, State.access, hr, if_neg Bool.false_ne_true, if_neg (aligned_word ho)]

/-- The offsets without a readable register read as 0. -/
theorem Port.readWord_unused {p : Port} {n : Nat} (h : n = 0x04 ∨ n = 0x0C ∨ n = 0x18 ∨ n = 0x1C) : p.readWord n = 0 := by
  rcases h with rfl | rfl | rfl | rfl <;> exact ite_self _

theorem Port.readWord_released {p : Port} {n : Nat} (hr : p.resetAsserted = false) : p.readWord n =
    if n = 0x00 then Config.ident else if n = 0x08 then p.stateWord else if n = 0x10 then p.setupLo
    else if n = 0x14 then p.setupHi else 0 := by
  rw [Port.readWord, hr, if_neg Bool.false_ne_true]

theorem State.writeWord_ignored {n : Nat} (h : n = 0x00 ∨ n = 0x08 ∨ n = 0x18 ∨ n = 0x1C) : s.writeWord n v = s := by
  rcases h with rfl | rfl | rfl | rfl <;> rfl

/-! ### STATE (R176) -/

theorem DeviceState.code_lt (d : DeviceState) : d.code < 2 ^ 8 := by cases d <;> decide

theorem DeviceFault.code_lt (f : DeviceFault) : f.code < 2 ^ 8 := by cases f <;> decide

/-- The three fields of STATE lie apart, so their sum is their union. -/
theorem Port.stateWord_eq (p : Port) : p.stateWord =
    BitVec.ofNat 32 (p.device.code ||| p.faultCode.code <<< 8 ||| reasonCode p.client0Reason <<< 16) := by
  have device := p.device.code_lt
  have fault := p.faultCode.code_lt
  have low : p.device.code ||| p.faultCode.code <<< 8 = p.device.code + 256 * p.faultCode.code := by
    rw [Nat.lor_comm, ← Nat.shiftLeft_add_eq_or_of_lt device, Nat.shiftLeft_eq, Nat.mul_comm, Nat.add_comm]
  have below : p.device.code + 256 * p.faultCode.code < 2 ^ 16 := by omega
  rw [low, Nat.lor_comm, ← Nat.shiftLeft_add_eq_or_of_lt below, Nat.shiftLeft_eq, Nat.mul_comm, Nat.add_comm]
  rfl

end Window

/-- Settles O4: every block of `State.restartEvent` but the four that are kept is that of `State.reset`. -/
theorem restartReturnsEveryBlock : Obligations.RestartReturnsEveryBlock := by
  intro s hr
  refine ⟨_, exec_restart_taken hr, rfl, rfl, rfl, rfl, fun b hb => ?_, fun hb => ?_, rfl, rfl, rfl, rfl, rfl, rfl, rfl⟩
  · exact congrArg (Option.map fun b => { b with stale := true }) hb
  · exact congrArg (Option.map fun b => { b with stale := true }) hb

/-- Settles O5: the assertion, the release, and what the window does between them. -/
theorem resetPinReturnsEveryBlock : Obligations.ResetPinReturnsEveryBlock := by
  refine ⟨fun s => rfl, fun s hr => ?_, fun s a hr => ?_, fun s v h hr => ?_⟩
  · exact congrArg Host.Outcome.next (if_pos hr)
  · obtain ⟨offset, width, kind⟩ := a
    rw [exec, execRegisterWrite, State.access, if_pos hr]
    cases kind <;> rfl
  · have ignored := State.windowWrite_ignored hr
    exact ⟨congrArg _ (ignored _), congrArg _ (ignored _), congrArg _ (ignored _), congrArg _ (ignored _),
      congrArg _ (ignored _)⟩

/-- Settles O7: each command by the device state. -/
theorem goAndHaltFollowTheTable : Obligations.GoAndHaltFollowTheTable := by
  intro s hr
  refine ⟨⟨s.goEvent, exec_go_taken hr, fun off => ?_, fun halt => ?_, fun other => ?_⟩,
    ⟨s.haltEvent, exec_halt_taken hr, fun run => ?_, fun other => ?_⟩⟩
  · rw [State.goEvent, off]
    split
    · exact if_pos ‹_›
    · exact if_neg ‹_›
  · rcases halt with h | h <;> rw [State.goEvent, h] <;> rfl
  · rcases other with h | h | h <;> rw [State.goEvent, h]
  · rw [State.haltEvent, run]
    simp only [← State.allFree_iff]
    split <;> rfl
  · unfold State.haltEvent
    split
    · exact absurd ‹_› other
    · rfl

/-- Settles O8: CONTROL by its three low bits, RESTART first. -/
theorem controlWritesActByTheirBits : Obligations.ControlWritesActByTheirBits := by
  intro s v hr
  rw [exec_write_aligned hr rfl, exec_restart_taken hr, exec_go_taken hr, exec_halt_taken hr]
  change Host.Outcome.next ((s.controlEvent v).answered .written) = _
  unfold State.controlEvent
  cases v.getLsbD 2 with
  | true => rfl
  | false => cases v.getLsbD 0 <;> cases v.getLsbD 1 <;> rfl

/-- Settles O10: a half is replaced, read back, kept by RESTART and cleared by the reset pin. -/
theorem setupAddressIsReplacedByHalves : Obligations.SetupAddressIsReplacedByHalves := by
  refine ⟨fun s high v hr => ?_, fun s hr => ⟨?_, ?_, _, exec_restart_taken hr, rfl, rfl⟩, fun s hr => ?_⟩
  · rw [exec_setupAddressWrite_taken hr]
    cases high <;> exact ⟨rfl, exec_write_aligned hr rfl⟩
  · rw [exec_read_aligned hr rfl, Port.readWord_released hr]
    rfl
  · rw [exec_read_aligned hr rfl, Port.readWord_released hr]
    rfl
  · exact ⟨_, congrArg Host.Outcome.next (if_pos hr), rfl, rfl⟩

/-- Settles O11: aligned words by their offset, and every other access refused. -/
theorem windowAnswersAlignedWords : Obligations.WindowAnswersAlignedWords := by
  refine ⟨fun s a hr h => congrArg _ (State.access_refused hr h), fun s hr => ⟨?_, ?_, fun o ho => ?_, fun o v ho => ?_⟩⟩
  · rw [exec_read_aligned hr rfl, Port.readWord_released hr]
    rfl
  · rw [exec_read_aligned hr rfl, Port.readWord_released hr, ← s.port.stateWord_eq]
    rfl
  · have aligned : o.toNat % 4 = 0 := by rcases ho with rfl | rfl | rfl | rfl <;> rfl
    rw [exec_read_aligned hr aligned, Port.readWord_unused (by rcases ho with rfl | rfl | rfl | rfl <;> simp)]
  · have aligned : o.toNat % 4 = 0 := by rcases ho with rfl | rfl | rfl | rfl <;> rfl
    rw [exec_write_aligned hr aligned, State.writeWord_ignored (by rcases ho with rfl | rfl | rfl | rfl <;> simp)]

end Sys2Proof.Machine

/-!
PROOF. The tick (O2), and the setup load: its reads (O12) and the attach of client 0 (O13).
-/

namespace Sys2Proof.Machine

-- Elaborated one after the other: side by side, each declaration holds a thread with memory of its own.
set_option Elab.async false

/-! ### The tick (R190) -/

section Tick
variable {s : State} {c : ClientId}

theorem State.tickOn_iff : s.tickOn = true ↔ s.port.tickRuns = true ∧ s.port.resetAsserted = false := by
  rw [State.tickOn, Bool.and_eq_true, Bool.not_eq_true']

theorem State.tickOn_stopped (h : s.port.tickRuns = false ∨ s.port.resetAsserted = true) : s.tickOn = false := by
  rcases h with h | h <;> simp [State.tickOn, h]

theorem exec_tick_on (h : s.tickOn = true) : exec .tick s = .next s.tickEvent := congrArg Host.Outcome.next (if_pos h)

theorem step_idle (h : s.pending = []) : step s = .next s.idlePeriod := by rw [step, h]

theorem has_clientsWhere (f : ClientId → Bool) : has (clientsWhere f) c = f c := by
  rw [clientsWhere, has_foldl_withClient (fun c => f c = true)]
  simp [has]

theorem State.has_agedLists : has s.agedLists c = (s.unit.lingerLimit != 0 &&
    (s.list c).any (fun e => decide (s.unit.lingerLimit ≤ (s.port.tickCount - e.tick).toNat))) := by
  unfold State.agedLists
  split
  · rename_i h
    simp [has, h]
  · rename_i h
    rw [has_clientsWhere, bne_iff_ne.2 h]
    rfl

/-- The directory's timer counts the periods of its sweeps (R39). -/
theorem Directory.tick_eq (d : Directory) : d.tick = { d with
    timer := if d.agingPeriod = 0 then d.timer else if d.timer + 1 = d.agingPeriod then 0 else d.timer + 1,
    sweepsDue := if d.agingPeriod ≠ 0 ∧ d.timer + 1 = d.agingPeriod then d.sweepsDue + 1 else d.sweepsDue } := by
  unfold Directory.tick
  by_cases off : d.agingPeriod = 0
  · rw [if_pos off, if_pos off, if_neg fun h => h.1 off]
  · by_cases due : d.timer + 1 = d.agingPeriod <;> simp [off, due]

/-- A tick event before the Intake's choice: the port counts, and the tick reaches the three blocks. -/
def State.ticked (s : State) : State := { s with
  port := { s.port with tickDivider := 0, tickCount := s.port.tickCount + 1 },
  dir := s.dir.tick,
  unit := { s.unit with expiryDue := s.unit.expiryDue |||
    (s.setPort { s.port with tickDivider := 0, tickCount := s.port.tickCount + 1 }).agedLists },
  intake := { s.intake with refreshSet := s.intake.refreshSet ||| s.outputWaiters } }

theorem State.tickEvent_eq (s : State) : s.tickEvent = s.ticked.readChoice := rfl

theorem State.has_ticked_expiryDue : has s.ticked.unit.expiryDue c = (has s.unit.expiryDue c ||
    (s.unit.lingerLimit != 0 && (s.list c).any (fun e =>
      decide (s.unit.lingerLimit ≤ (s.port.tickCount + 1 - e.tick).toNat)))) := by
  rw [State.ticked, has_or, State.has_agedLists]
  rfl

theorem State.has_ticked_refreshSet : has s.ticked.intake.refreshSet c = (has s.intake.refreshSet c ||
    ((s.client c).state == .attached && s.waitingOutput c)) := by
  rw [State.ticked, has_or, State.outputWaiters, has_clientsWhere]

end Tick

/-- Settles O2: a tick event block by block, the period that makes one, and the stopped tick. -/
theorem tickReachesThreeBlocks : Obligations.TickReachesThreeBlocks := by
  refine ⟨fun s runs released => ?_, fun s idle runs released => ?_, fun s stopped => ?_⟩
  · have event := exec_tick_on (State.tickOn_iff.2 ⟨runs, released⟩)
    rw [s.tickEvent_eq] at event
    exact ⟨s.ticked, event, rfl, s.dir.tick_eq, rfl,
      fun c => State.has_ticked_expiryDue, rfl, fun c => State.has_ticked_refreshSet, rfl, rfl, rfl, rfl, rfl, rfl⟩
  · have on : s.tickOn = true := State.tickOn_iff.2 ⟨runs, released⟩
    rw [step_idle idle, exec_tick_on on, State.idlePeriod, if_pos on]
    exact apply_ite Host.Outcome.next ..
  · have off := State.tickOn_stopped stopped
    refine ⟨?_, fun idle => ?_⟩
    · rw [exec, execTick, off]
      rfl
    · rw [step_idle idle, State.idlePeriod, off]
      rfl

/-! ### The reads of a setup load (R183 to R185) -/

section SetupReads
variable {s : State} {x : Txn} {bs bytes : List Byte} {g : Settings} {d : Descriptor} {p : Piece} {rest : List Piece}

theorem exec_setupRead_data (hx : s.carriesLive x = true) (hop : x.op = .setupRead) (hlen : bs.length = 64) :
    exec (.setupReadComplete (.data bs)) s = .next (s.endFetch.setupRead bs) := by
  have hbus : s.onBus TxnOp.setupReadOf = .live () x := State.onBus_live hx (by rw [hop]; rfl)
  simp only [exec, execSetupReadComplete, hbus, hlen, if_true]

theorem exec_setupRead_busError (hx : s.carriesLive x = true) (hop : x.op = .setupRead) :
    exec (.setupReadComplete .busError) s = .next (s.endFetch.failLoad .setupRead none) := by
  have hbus : s.onBus TxnOp.setupReadOf = .live () x := State.onBus_live hx (by rw [hop]; rfl)
  simp only [exec, execSetupReadComplete, hbus]

theorem exec_setupPiece_data (hx : s.carriesLive x = true) (hop : x.op = .setupDescriptor)
    (hload : s.load = .descriptor g (p :: rest) bytes) (hlen : bs.length = p.len) :
    exec (.setupDescriptorPieceComplete (.data bs)) s = .next (s.endFetch.setupPiece g rest (bytes ++ bs)) := by
  have hbus : s.onBus TxnOp.setupDescriptorOf = .live () x := State.onBus_live hx (by rw [hop]; rfl)
  simp only [exec, execSetupDescriptorPieceComplete, hbus, hload, hlen, if_true]

theorem exec_setupPiece_busError (hx : s.carriesLive x = true) (hop : x.op = .setupDescriptor)
    (hload : s.load = .descriptor g (p :: rest) bytes) :
    exec (.setupDescriptorPieceComplete .busError) s = .next (s.endFetch.failLoad .setupRead none) := by
  have hbus : s.onBus TxnOp.setupDescriptorOf = .live () x := State.onBus_live hx (by rw [hop]; rfl)
  simp only [exec, execSetupDescriptorPieceComplete, hbus, hload]

/-- The first piece of client 0's descriptor ends at a multiple of 256 or at the descriptor's end (R143). -/
theorem cutPieces_descriptor (a : Addr) : ∃ rest, cutPieces 0 a 192 0 =
    { fragment := 0, addr := a, len := min 192 (256 - a.toNat % 256), run := 0 } :: rest :=
  ⟨_, cutRange_cons (by decide)⟩

/-- A valid setup block leads to the first piece of client 0's descriptor. -/
theorem State.setupRead_valid (hg : readSettings bs = some g) : s.setupRead bs =
    (s.setLoad (.descriptor g (cutPieces 0 g.descriptor 192 0) [])).fetchSetup .setupDescriptor g.descriptor
      (min 192 (256 - g.descriptor.toNat % 256)) := by
  obtain ⟨rest, pieces⟩ := cutPieces_descriptor g.descriptor
  rw [State.setupRead, hg]
  change s.fetchPiece g (cutPieces 0 g.descriptor 192 0) [] = _
  rw [pieces]
  rfl

theorem State.setupRead_invalid (hg : readSettings bs = none) : s.setupRead bs = s.failLoad .setupInvalid none := by
  rw [State.setupRead, hg]

theorem State.setupPiece_next : s.setupPiece g (p :: rest) bytes =
    (s.setLoad (.descriptor g (p :: rest) bytes)).fetchSetup .setupDescriptor p.addr p.len := rfl

/-- After the last piece the descriptor is judged (R185). -/
theorem State.setupPiece_valid (hd : readDescriptor bytes = some d) : s.setupPiece g [] bytes =
    ((s.loadSettings g).setLoad (.half d)).fetchSetup .setupHalf d.cxb 32 := by
  rw [State.setupPiece, if_pos List.isEmpty_nil, hd]

theorem State.setupPiece_invalid (hd : readDescriptor bytes = none) :
    s.setupPiece g [] bytes = s.failLoad .setupInvalid none := by
  rw [State.setupPiece, if_pos List.isEmpty_nil, hd]

end SetupReads

/-- Settles O12: each read by its bytes, and the bus errors. -/
theorem setupReadsLeadToTheSettings : Obligations.SetupReadsLeadToTheSettings := by
  refine ⟨fun s x bs hx hop hlen => ?_, fun s x bs bytes g p rest hx hop hload hlen => ?_, fun s x hx =>
    ⟨fun hop => exec_setupRead_busError hx hop, fun g p rest bytes hop hload => exec_setupPiece_busError hx hop hload⟩⟩
  · refine ⟨_, exec_setupRead_data hx hop hlen, ?_⟩
    cases hg : readSettings bs with
    | some g =>
      rw [State.setupRead_valid hg]
      exact ⟨rfl, rfl, rfl, rfl, rfl, rfl, rfl, rfl, rfl⟩
    | none =>
      rw [State.setupRead_invalid hg]
      exact ⟨rfl, rfl, rfl, rfl, rfl, rfl, rfl, rfl⟩
  · refine ⟨_, exec_setupPiece_data hx hop hload hlen, ?_⟩
    cases rest with
    | cons q rest =>
      rw [State.setupPiece_next]
      exact ⟨rfl, rfl, rfl, rfl, rfl, rfl, rfl, rfl, rfl⟩
    | nil =>
      cases hd : readDescriptor (bytes ++ bs) with
      | some d =>
        rw [State.setupPiece_valid hd]
        exact ⟨rfl, rfl, rfl, rfl, rfl, rfl, rfl, rfl, rfl⟩
      | none =>
        rw [State.setupPiece_invalid hd]
        exact ⟨rfl, rfl, rfl, rfl, rfl, rfl, rfl, rfl⟩

/-! ### The attach of client 0 (R186) -/

section SetupAttach
variable {s : State} {x : Txn} {d : Descriptor} {h : ClientHalf}

theorem exec_setupHalf_data {bs : List Byte} (hx : s.carriesLive x = true) (hop : x.op = .setupHalf) (hload : s.load = .half d)
    (hlen : bs.length = 32) :
    exec (.setupCxbReadComplete (.data bs)) s = .next (s.endFetch.setupHalfRead d (readHalf bs)) := by
  have hbus : s.onBus TxnOp.setupHalfOf = .live () x := State.onBus_live hx (by rw [hop]; rfl)
  simp only [exec, execSetupCxbReadComplete, hbus, hload, hlen, if_true]

theorem exec_setupHalf_busError (hx : s.carriesLive x = true) (hop : x.op = .setupHalf) (hload : s.load = .half d) :
    exec (.setupCxbReadComplete .busError) s = .next (s.endFetch.failLoad .supervisorFault (some .cxbRead)) := by
  have hbus : s.onBus TxnOp.setupHalfOf = .live () x := State.onBus_live hx (by rw [hop]; rfl)
  simp only [exec, execSetupCxbReadComplete, hbus, hload]

theorem exec_setupWriteBack_done (hx : s.carriesLive x = true) (hop : x.op = .setupWriteBack) (hload : s.load = .writeBack d h) :
    exec (.setupWriteBackComplete .done) s = .next (s.clearBus.loadDone d h) := by
  have hbus : s.onBus TxnOp.setupWriteBackOf = .live () x := State.onBus_live hx (by rw [hop]; rfl)
  simp only [exec, execSetupWriteBackComplete, hbus, hload]

theorem exec_setupWriteBack_busError (hx : s.carriesLive x = true) (hop : x.op = .setupWriteBack)
    (hload : s.load = .writeBack d h) :
    exec (.setupWriteBackComplete .busError) s = .next (s.clearBus.failLoad .supervisorFault (some .recordWrite)) := by
  have hbus : s.onBus TxnOp.setupWriteBackOf = .live () x := State.onBus_live hx (by rw [hop]; rfl)
  simp only [exec, execSetupWriteBackComplete, hbus, hload]

end SetupAttach

/-- Settles O13: the client half by its tally check (`attachTallyCheck_iff`), and the two ends of the write-back. -/
theorem setupAttachMakesTheDeviceRun : Obligations.SetupAttachMakesTheDeviceRun := by
  refine ⟨fun s x bs d hx hop hload hlen => ?_, fun s x d hx hop hload => exec_setupHalf_busError hx hop hload,
    fun s x d h hx hop hload => ⟨exec_setupWriteBack_done hx hop hload, exec_setupWriteBack_busError hx hop hload⟩⟩
  refine ⟨_, exec_setupHalf_data hx hop hload hlen, ?_⟩
  rw [State.setupHalfRead]
  by_cases ok : attachTallyCheck (readHalf bs) d = true
  · rw [if_pos ok, if_pos (attachTallyCheck_iff.1 ok)]
    exact ⟨rfl, rfl, rfl, rfl, rfl, rfl, rfl, rfl, rfl⟩
  · rw [if_neg ok, if_neg (mt attachTallyCheck_iff.2 ok)]
    exact ⟨rfl, rfl, rfl, rfl, rfl, rfl, rfl, rfl, rfl⟩

end Sys2Proof.Machine

/-!
PROOF. O46: what a slot presents to the arbiter, and the order of a grant.
-/

namespace Sys2Proof.Machine

-- Elaborated one after the other: side by side, each declaration holds a thread with memory of its own.
set_option Elab.async false

/-! ### What a slot presents (R144, R188) -/

section Presents
variable {s : State} {i : SlotId} {m : Movement} {p : Piece} {rest : List Piece} {bytes : List Byte} {d : Descriptor}

/-- A run reads as the bytes at its places of the chain. -/
theorem readRun_eq {q : Parcel} {mem : List Host.Cell} {bs : List Byte} {pos : Nat}
    (h : ∀ j, j < bs.length → ∃ a, q.byteAddr (q.headOffset + (pos + j)) = some a ∧ bs[j]? = some (Memory.read mem a)) :
    readRun q mem pos bs.length = some bs := by
  induction bs generalizing pos with
  | nil => rfl
  | cons b rest ih =>
    obtain ⟨a, place, byte⟩ := h 0 (Nat.zero_lt_succ _)
    obtain rfl : b = Memory.read mem a := Option.some.inj byte
    have later : readRun q mem (pos + 1) rest.length = some rest := ih fun j hj => by
      rw [Nat.add_right_comm pos 1 j]
      exact h (j + 1) (Nat.succ_lt_succ hj)
    rw [Nat.add_zero] at place
    simp only [List.length_cons, readRun, place, later]

theorem State.presents_performing (h : s.presents i ≠ .nothing) : (s.slot i).state = .performing := by
  by_contra hn
  exact h (if_neg hn)

theorem State.presents_gather (hs : (s.slot i).state = .performing) (hp : (s.slot i).progress = .moving m)
    (hm : m.pieces = p :: rest) (hu : (s.slot i).undo ≠ none) : s.presents i = .txn (pieceTxn (.gather i) p []) := by
  simp only [State.presents, if_pos hs, hp, hm]
  exact if_pos (Option.isSome_iff_ne_none.2 hu)

theorem State.presents_scatterPiece {bs : List Byte} (hs : (s.slot i).state = .performing)
    (hp : (s.slot i).progress = .moving m) (hm : m.pieces = p :: rest) (hu : (s.slot i).undo = none)
    (hr : readRun (s.store.parcel (handleIndex m.handle)) s.store.memory (m.base + p.run) p.len = some bs) :
    s.presents i = .txn (pieceTxn (.scatter i) p bs) := by
  simp only [State.presents, if_pos hs, hp, hm, hu, hr]
  rfl

theorem State.presents_attachDescriptor (hs : (s.slot i).state = .performing)
    (hp : (s.slot i).progress = .attachDescriptor (p :: rest) bytes) :
    s.presents i = .txn (pieceTxn (.attachDescriptor i) p []) := by
  simp only [State.presents, if_pos hs, hp]

theorem State.presents_attachHalf (hs : (s.slot i).state = .performing) (hp : (s.slot i).progress = .attachHalf d) :
    s.presents i = .txn { op := .attachHalf i, addr := d.cxb, len := 32, data := [] } := by
  simp only [State.presents, if_pos hs, hp]

theorem State.presents_report (hs : (s.slot i).state = .performing)
    (hp : (s.slot i).progress = .reporting (p :: rest) bytes) :
    s.presents i = .txn (pieceTxn (.report i) p ((bytes.drop p.run).take p.len)) := by
  simp only [State.presents, if_pos hs, hp]

/-- The stages of a command that present a transaction. -/
theorem State.presents_stage (h : s.presents i ≠ .nothing) :
    (∃ m p rest, (s.slot i).progress = .moving m ∧ m.pieces = p :: rest) ∨
      (∃ p rest bytes, (s.slot i).progress = .attachDescriptor (p :: rest) bytes) ∨
      (∃ d, (s.slot i).progress = .attachHalf d) ∨
      ∃ p rest bytes, (s.slot i).progress = .reporting (p :: rest) bytes := by
  simp only [State.presents, if_pos (State.presents_performing h)] at h
  split at h
  · rename_i m hp
    split at h
    · exact .inl ⟨m, _, _, hp, ‹_›⟩
    · exact absurd rfl h
  · exact .inr (.inl ⟨_, _, _, ‹_›⟩)
  · exact .inr (.inr (.inl ⟨_, ‹_›⟩))
  · exact .inr (.inr (.inr ⟨_, _, _, ‹_›⟩))
  · exact absurd rfl h

end Presents

/-! ### The order of a grant (R189) -/

section Order
variable {s : State} {t : Txn}

/-- The rotation reaches first the presenting slot that is the fewest places past the pointer. -/
theorem State.firstPresenting_eq {k : Fin 4} (hk : s.presents (s.arb.slotPointer + 1 + k) ≠ .nothing)
    (hfirst : ∀ j, j < k → s.presents (s.arb.slotPointer + 1 + j) = .nothing) :
    s.firstPresenting = some (s.arb.slotPointer + 1 + k) := by
  have found := find?_finRange (p := s.isPresenting ∘ fun j => s.arb.slotPointer + 1 + j) (bne_iff_ne.2 hk)
    fun j hj => bne_eq_false_iff_eq.2 (hfirst j hj)
  rw [State.firstPresenting, slotRotation, List.find?_map, found]
  rfl

theorem State.firstPresenting_none (h : ∀ i, s.presents i = .nothing) : s.firstPresenting = none :=
  List.find?_eq_none.2 fun i _ => by simp [State.isPresenting, h i]

theorem exec_grant_fetcher (hg : s.mayGrant = true) (hf : s.intake.fetch = some t) (hw : s.arb.waitCount = 4) :
    exec .grant s = .next (s.grantFetcher t) := by
  simp only [exec, execGrant, hg, if_true, hf]
  exact if_pos hw

/-- A fetcher that has not waited for four grants is passed over (R189, points 2 to 4). -/
theorem exec_grant_other (hg : s.mayGrant = true) (h : s.intake.fetch = none ∨ s.arb.waitCount ≠ 4) :
    exec .grant s = s.grantOther := by
  simp only [exec, execGrant, hg, if_true]
  cases hf : s.intake.fetch with
  | none => rfl
  | some t => exact if_neg (h.resolve_left fun e => Option.some_ne_none t (hf.symm.trans e))

theorem State.grantOther_writer {rest : List Txn} (hw : s.unit.writer = t :: rest) :
    s.grantOther = .next (s.grantWriter t rest) := by rw [State.grantOther, hw]

theorem State.grantOther_rest (hw : s.unit.writer = []) : s.grantOther = s.grantRest := by rw [State.grantOther, hw]

theorem State.grantRest_slot {i : SlotId} (hi : s.firstPresenting = some i) (ht : s.presents i = .txn t) :
    s.grantRest = .next (s.grantSlot i t) := by simp only [State.grantRest, hi, ht]

theorem State.grantRest_fetcher (hn : s.firstPresenting = none) (hf : s.intake.fetch = some t) :
    s.grantRest = .next (s.grantFetcher t) := by simp only [State.grantRest, hn, hf]

/-- A write-back is issued with the part half of its client, and every other transaction as it waits (R68). -/
theorem State.grantWriter_issued {rest : List Txn} {u : Txn} (hu : u = s.issued t) : s.grantWriter t rest = { s with
    arb := { s.arb with waitCount := if s.intake.fetch.isSome then s.arb.waitCount + 1 else s.arb.waitCount,
                        bus := some { txn := u, stale := false } },
    unit := { s.unit with writer := rest } } := by
  rw [hu]
  rfl

end Order

/-- Settles O46: what each stage presents, and a grant by the first of R189's points that applies. -/
theorem grantChoosesInOrder : Obligations.GrantChoosesInOrder := by
  refine ⟨fun s i h => ⟨State.presents_performing h, State.presents_stage h⟩, fun s i hs => ⟨?_, ?_, ?_, ?_⟩,
    fun s hbus hr hd => ?_⟩
  · rintro m p rest q hp hm rfl
    refine ⟨State.presents_gather hs hp hm, fun bs hu hlen hbytes => State.presents_scatterPiece hs hp hm hu ?_⟩
    rw [← hlen]
    refine readRun_eq fun j hj => ?_
    obtain ⟨seg, hseg, byte⟩ := hbytes j _ (hlen ▸ hj) rfl
    exact ⟨_, Parcel.byteAddr_some_iff.2 ⟨seg, hseg, rfl⟩, byte⟩
  · exact fun p rest bytes hp => State.presents_attachDescriptor hs hp
  · exact fun d hp => State.presents_attachHalf hs hp
  · exact fun p rest bytes hp => State.presents_report hs hp
  · have hg : s.mayGrant = true := by simp [State.mayGrant, hbus, hr, hd]
    refine ⟨fun t hf hw => exec_grant_fetcher hg hf hw, fun passed => ⟨fun t rest issued hw hissued => ?_, fun hw =>
      ⟨fun k t ht hfirst => ?_, fun t hn hf => ?_⟩⟩⟩
    · rw [exec_grant_other hg passed, State.grantOther_writer hw, State.grantWriter_issued hissued]
    · have first := State.firstPresenting_eq (k := k) (by rw [ht]; nofun) hfirst
      rw [exec_grant_other hg passed, State.grantOther_rest hw, State.grantRest_slot first ht]
      rfl
    · rw [exec_grant_other hg passed, State.grantOther_rest hw, State.grantRest_fetcher (State.firstPresenting_none hn) hf]
      rfl

end Sys2Proof.Machine

/-!
PROOF. O55: the setup block and the client half as they are read, and the records that the part writes, byte by byte.
-/

namespace Sys2Proof.Machine

-- Elaborated one after the other: side by side, each declaration holds a thread with memory of its own.
set_option Elab.async false

/-! ### Runs of one and of four bytes -/

theorem leBytes_one (n : Nat) : leBytes 1 n = [BitVec.ofNat 8 n] := rfl

/-- Four bytes are the word of a count's low 32 bits. -/
theorem leBytes_four (n : Nat) : leBytes 4 n = wordBytes (BitVec.ofNat 32 n) := by
  rw [← leBytes_word, BitVec.toNat_ofNat, two_pow_32, leBytes_mod 4 n 4 (le_refl 4)]

theorem ofNat_flagBit (b : Bool) : BitVec.ofNat 8 (flagBit b) = if b then 1 else 0 := by cases b <;> rfl

/-- Two flags as a byte. -/
theorem ofNat_two_flags (a b : Bool) : BitVec.ofNat 8 (flagBit a + 2 * flagBit b) =
    (if a then 1 else 0) ||| (if b then 2 else 0) := by cases a <;> cases b <;> rfl

/-- Three flags as a byte. -/
theorem ofNat_three_flags (a b c : Bool) : BitVec.ofNat 8 (flagBit a + 2 * flagBit b + 4 * flagBit c) =
    (if a then 1 else 0) ||| (if b then 2 else 0) ||| (if c then 4 else 0) := by cases a <;> cases b <;> cases c <;> rfl

/-- A delivery class lies below the reply flag of its byte. -/
theorem ofNat_delivery_class (k : BitVec 2) (reply : Option Key) : BitVec.ofNat 8 (k.toNat + 16 * flagBit reply.isSome) =
    k.setWidth 8 ||| (if reply = none then 0 else 16) := by
  cases reply with
  | none => revert k; decide
  | some key => revert k; simp only [reduceCtorEq, if_false, Option.isSome_some]; decide

/-! ### The setup block (R184, section 10.7) -/

section Settings
variable {bs : List Byte} {g : Settings}

/-- The numbers of a setup block that fit their bytes (R184). -/
structure Settings.Fits (g : Settings) : Prop where
  agingPeriod : g.agingPeriod < 256 ^ 2
  agingLimit : g.agingLimit < 256 ^ 1
  linger : g.linger < 256 ^ 2
  short : g.reserves.short < 256 ^ 2
  long : g.reserves.long < 256 ^ 1

theorem Settings.valid_iff : g.valid = true ↔ g.agingPeriod ≤ 65535 ∧ 1 ≤ g.agingLimit ∧ g.agingLimit ≤ 255 ∧
    g.linger ≤ 65535 ∧ g.reserves.short ≤ 512 ∧ g.reserves.long ≤ 48 ∧ g.descriptor.toNat + 192 ≤ 2 ^ 64 := by
  simp only [Settings.valid, Bool.and_eq_true, decide_eq_true_eq, and_assoc]
  rfl

theorem Settings.fits_of_valid (h : g.valid = true) : g.Fits := by
  obtain ⟨period, -, limit, linger, short, long, -⟩ := Settings.valid_iff.1 h
  exact ⟨by omega, by omega, by omega, by omega, by omega⟩

theorem length_writeSettings (g : Settings) : (writeSettings g).length = 64 := by
  simp only [writeSettings, List.length_append, length_leBytes]

/-- The fields that the bytes of a setup block hold, signature and version right and reserved bytes zero. -/
theorem eq_writeSettings_iff (hl : bs.length = 64) (hg : g.Fits) : bs = writeSettings g ↔
    field bs 0 4 = 0x38324847 ∧ field bs 4 2 = 1 ∧ field bs 6 2 = g.agingPeriod ∧ field bs 8 1 = g.agingLimit ∧
      zeroBytes bs 9 1 = true ∧ field bs 10 2 = g.linger ∧ field bs 12 2 = g.reserves.short ∧
      field bs 14 1 = g.reserves.long ∧ zeroBytes bs 15 1 = true ∧ field bs 16 8 = g.descriptor.toNat ∧
      zeroBytes bs 24 40 = true := by
  have wide : 256 ^ 8 = 2 ^ 64 := by norm_num
  have whole : bytesAt bs 0 64 = bs := List.take_of_length_le hl.le
  conv_lhs => rw [← whole]
  simp only [writeSettings, List.append_assoc]
  rw [bytesAt_field_iff (by omega) (by omega) (by norm_num), bytesAt_field_iff (by omega) (by omega) (by norm_num),
    bytesAt_field_iff (by omega) (by omega) hg.agingPeriod, bytesAt_field_iff (by omega) (by omega) hg.agingLimit,
    bytesAt_append_iff (m := 54) (by omega) (length_leBytes 1 0), ← zeroBytes_iff (by omega),
    bytesAt_field_iff (by omega) (by omega) hg.linger, bytesAt_field_iff (by omega) (by omega) hg.short,
    bytesAt_field_iff (by omega) (by omega) hg.long,
    bytesAt_append_iff (m := 48) (by omega) (length_leBytes 1 0), ← zeroBytes_iff (by omega),
    bytesAt_field_iff (by omega) (by omega) (wide ▸ g.descriptor.isLt), ← zeroBytes_iff (by omega)]

theorem rawSettings_eq_iff : rawSettings bs = g ↔ field bs 6 2 = g.agingPeriod ∧ field bs 8 1 = g.agingLimit ∧
    field bs 10 2 = g.linger ∧ field bs 12 2 = g.reserves.short ∧ field bs 14 1 = g.reserves.long ∧
    field bs 16 8 = g.descriptor.toNat := by
  have wide : 256 ^ 8 = 2 ^ 64 := by norm_num
  obtain ⟨period, limit, linger, ⟨short, long⟩, descriptor⟩ := g
  simp only [rawSettings, Settings.mk.injEq, PerClass.mk.injEq, ofNat_field_eq_iff wide, and_assoc]

/-- A setup block is read exactly when its settings are valid and the bytes are their layout. -/
theorem readSettings_iff (hl : bs.length = 64) : readSettings bs = some g ↔ g.valid = true ∧ bs = writeSettings g := by
  have accepted : readSettings bs = some g ↔ rawSettings bs = g ∧ g.valid = true ∧ field bs 0 4 = 0x38324847 ∧
      field bs 4 2 = 1 ∧ zeroBytes bs 9 1 = true ∧ zeroBytes bs 15 1 = true ∧ zeroBytes bs 24 40 = true := by
    simp only [readSettings, Option.ite_none_right_eq_some, Bool.and_eq_true, beq_iff_eq, Option.some.injEq]
    constructor
    · rintro ⟨⟨⟨⟨⟨⟨signature, version⟩, valid⟩, zero9⟩, zero15⟩, zero24⟩, rfl⟩
      exact ⟨rfl, valid, signature, version, zero9, zero15, zero24⟩
    · rintro ⟨rfl, valid, signature, version, zero9, zero15, zero24⟩
      exact ⟨⟨⟨⟨⟨⟨signature, version⟩, valid⟩, zero9⟩, zero15⟩, zero24⟩, rfl⟩
  rw [accepted, rawSettings_eq_iff, and_left_comm]
  refine and_congr_right fun valid => ?_
  rw [eq_writeSettings_iff hl (Settings.fits_of_valid valid)]
  tauto

theorem writeSettings_layout (g : Settings) : writeSettings g = [0x47, 0x48, 0x32, 0x38, 1, 0] ++ pairBytes g.agingPeriod ++
    [BitVec.ofNat 8 g.agingLimit, 0] ++ pairBytes g.linger ++ pairBytes g.reserves.short ++
    [BitVec.ofNat 8 g.reserves.long, 0] ++ quadBytes g.descriptor ++ List.replicate 40 0 := by
  have signature : leBytes 4 0x38324847 = [0x47, 0x48, 0x32, 0x38] := by decide
  have version : leBytes 2 1 = [1, 0] := by decide
  simp only [writeSettings, signature, version, leBytes_pair, leBytes_quad, leBytes_zero, leBytes_one]
  rfl

end Settings

/-! ### The client half (R193, section 10.5) -/

theorem length_writeHalf (h : ClientHalf) : (writeHalf h).length = 20 := by
  simp only [writeHalf, List.length_append, length_leBytes]

/-- A client half is read from its first 20 bytes. -/
theorem readHalf_eq_iff {bs : List Byte} {h : ClientHalf} (hl : 20 ≤ bs.length) :
    readHalf bs = h ↔ bytesAt bs 0 20 = writeHalf h := by
  have word : 256 ^ 4 = 2 ^ 32 := by norm_num
  unfold writeHalf
  simp only [List.append_assoc]
  rw [bytesAt_field_iff (by omega) (by omega) (word ▸ h.postTally.isLt),
    bytesAt_field_iff (by omega) (by omega) (word ▸ h.retTaken.isLt),
    bytesAt_field_iff (by omega) (by omega) (word ▸ h.delTaken.isLt),
    bytesAt_field_iff (by omega) (by omega) (word ▸ h.retWake.isLt), ← field_eq_iff (by omega) (word ▸ h.delWake.isLt)]
  obtain ⟨post, ret, del, retWake, delWake⟩ := h
  simp only [readHalf, ClientHalf.mk.injEq, ofNat_field_eq_iff word]

theorem readHalf_writeHalf (h : ClientHalf) (own : List Byte) : readHalf (writeHalf h ++ own) = h := by
  refine (readHalf_eq_iff ?_).2 (List.take_left' (length_writeHalf h))
  rw [List.length_append, length_writeHalf]
  omega

theorem writeHalf_layout (h : ClientHalf) : writeHalf h = wordBytes h.postTally ++ wordBytes h.retTaken ++
    wordBytes h.delTaken ++ wordBytes h.retWake ++ wordBytes h.delWake := by simp only [writeHalf, leBytes_word]

/-! ### What the part writes (sections 10.3 to 10.5 and 10.8) -/

theorem PostRecord.completion_eq (r : PostRecord) (st : Status) (detail : Nat) : r.completion st detail = {
    kind := r.kind, status := st, tag := r.tag, detail := detail, handle := 0, length := 0, routed := 0, refused := 0, copied := 0,
    subject := if r.kind = 16 ∨ r.kind = 17 then r.subject else 0, subscribers := 0, holderAfter := 0, freed := false,
    aborted := false, cleared := false, refsDropped := 0, parcelsFreed := 0, pendingDropped := 0 } := by
  have code : ∀ k : Byte, r.kind.toNat = k.toNat ↔ r.kind = k := fun _ => BitVec.toNat_inj
  have supervised : (r.kind.toNat = 16 ∨ r.kind.toNat = 17) = (r.kind = 16 ∨ r.kind = 17) :=
    propext (or_congr (code 16) (code 17))
  simp only [PostRecord.completion, supervised]

theorem Completion.bytes_layout (x : Completion) (lap : Byte) : x.bytes lap =
    [1, lap, x.kind, BitVec.ofNat 8 x.status.code] ++ wordBytes x.tag ++ [BitVec.ofNat 8 x.detail, 0] ++
      pairBytes x.handle.toNat ++ pairBytes x.length ++ [x.routed, x.refused] ++ wordBytes (BitVec.ofNat 32 x.copied) ++
      [x.subject, x.subscribers, BitVec.ofNat 8 x.holderAfter,
        (if x.freed then 1 else 0) ||| (if x.aborted then 2 else 0) ||| (if x.cleared then 4 else 0)] ++
      pairBytes x.refsDropped ++ pairBytes x.parcelsFreed ++ [BitVec.ofNat 8 x.pendingDropped, 0, 0, 0] := by
  unfold Completion.bytes Completion.resultFlags
  simp only [leBytes_one, leBytes_pair, leBytes_four, leBytes_zero, BitVec.ofNat_toNat, BitVec.setWidth_eq, ofNat_three_flags,
    List.append_assoc]
  rfl

theorem QueuedNotice.bytes_clientFault (c : ClientId) (reason : FaultReason) (tick : Tally) (lap : Byte) (lost : Nat) :
    QueuedNotice.bytes { notice := .clientFault c reason, tick := tick } lap lost =
      [2, lap, 1, 0] ++ wordBytes tick ++ [BitVec.ofNat 8 c.val, BitVec.ofNat 8 (reasonCode (some reason)), 0, 0] ++
        pairBytes lost ++ List.replicate 18 0 := by
  simp only [QueuedNotice.bytes, leBytes_one, leBytes_pair, leBytes_word, leBytes_zero, List.append_assoc]
  rfl

theorem QueuedNotice.bytes_poolLow (k : SegClass) (free : Nat) (tick : Tally) (lap : Byte) (lost : Nat) :
    QueuedNotice.bytes { notice := .poolLow k free, tick := tick } lap lost =
      [2, lap, 2, 0] ++ wordBytes tick ++ [if k = .short then 0 else 1, 0] ++ pairBytes free ++ pairBytes lost ++
        List.replicate 18 0 := by
  simp only [QueuedNotice.bytes, leBytes_one, leBytes_pair, leBytes_word, leBytes_zero, List.append_assoc]
  cases k <;> rfl

theorem PendingEntry.bytes_layout (e : PendingEntry) (lap : Byte) (length : Nat) (sequence now : Tally) :
    e.bytes lap length sequence now =
      [3, lap, BitVec.ofNat 8 e.sender.val, e.cls.setWidth 8 ||| (if e.reply = none then 0 else 16)] ++
        pairBytes e.handle.toNat ++ pairBytes length ++ wordBytes e.key ++ wordBytes (e.reply.getD 0) ++ wordBytes sequence ++
        pairBytes (min (now - e.tick).toNat 65535) ++ List.replicate 10 0 := by
  simp only [PendingEntry.bytes, waitField, leBytes_one, leBytes_pair, leBytes_word, leBytes_zero, ofNat_delivery_class,
    List.append_assoc]
  rfl

theorem partHalf_layout (taken ret del : Tally) (state : ClientState) (reason : Option FaultReason) :
    partHalf taken ret del state reason = wordBytes taken ++ wordBytes ret ++ wordBytes del ++
      [BitVec.ofNat 8 state.code, BitVec.ofNat 8 (reasonCode reason)] ++ List.replicate 18 0 := by
  simp only [partHalf, leBytes_one, leBytes_word, leBytes_zero, List.append_assoc, List.cons_append, List.nil_append]

theorem poolReport_layout (short long live : Nat) (reserves : PerClass Nat) (arms : PerClass Bool) :
    poolReport short long live reserves arms =
      [0, 0, 0, 0] ++ pairBytes short ++ pairBytes long ++ pairBytes live ++ pairBytes reserves.short ++
        [BitVec.ofNat 8 reserves.long, (if arms.short then 1 else 0) ||| (if arms.long then 2 else 0)] ++
        List.replicate 50 0 := by
  simp only [poolReport, leBytes_one, leBytes_pair, leBytes_zero, ofNat_two_flags, List.append_assoc]
  rfl

theorem clientReport_layout (c : ClientId) (x : ContextReport) (a : Account) (n : Nat) : clientReport c x a n =
    [1, BitVec.ofNat 8 c.val, BitVec.ofNat 8 x.state.code, BitVec.ofNat 8 (reasonCode x.reason)] ++ pairBytes a.held ++
      pairBytes a.charged.short ++ [BitVec.ofNat 8 a.charged.long, BitVec.ofNat 8 n] ++ pairBytes x.refLimit ++
      pairBytes x.segLimit.short ++ [BitVec.ofNat 8 x.segLimit.long, 0] ++ wordBytes x.sent ++ wordBytes x.placed ++
      wordBytes x.refused ++ wordBytes x.expired ++ List.replicate 32 0 := by
  simp only [clientReport, leBytes_one, leBytes_pair, leBytes_word, leBytes_zero, List.append_assoc]
  rfl

theorem keyReport_layout (key : Key) (kind : Nat) (set : ClientSet) (life : Nat) (once : Bool) (route : ClientSet) :
    keyReport key kind set life once route =
      [2, 0, 0, 0] ++ wordBytes key ++ [BitVec.ofNat 8 kind, set, BitVec.ofNat 8 life, if once then 1 else 0, route] ++
        List.replicate 51 0 := by
  simp only [keyReport, leBytes_one, leBytes_word, leBytes_zero, BitVec.ofNat_toNat, BitVec.setWidth_eq, ofNat_flagBit,
    List.append_assoc]
  rfl

theorem directoryReport_layout (pinned joined ret patterns : Nat) (learned skipped aged consumed : Tally) :
    directoryReport pinned joined ret patterns learned skipped aged consumed =
      [3, 0, 0, 0] ++ pairBytes pinned ++ pairBytes joined ++ pairBytes ret ++ [BitVec.ofNat 8 patterns, 0] ++
        wordBytes learned ++ wordBytes skipped ++ wordBytes aged ++ wordBytes consumed ++ List.replicate 36 0 := by
  simp only [directoryReport, leBytes_one, leBytes_pair, leBytes_word, leBytes_zero, List.append_assoc]
  rfl

/-- Settles O55: the setup block by `readSettings_iff`, the client half by `readHalf_eq_iff`, and the layout of each record. -/
theorem setupBlocksAndHalvesReadBack : Obligations.SetupBlocksAndHalvesReadBack := by
  refine ⟨fun g valid => ⟨length_writeSettings g, (readSettings_iff (length_writeSettings g)).2 ⟨valid, rfl⟩⟩,
    writeSettings_layout, fun bs g hl => readSettings_iff hl, fun g => Settings.valid_iff,
    fun h own => ⟨readHalf_writeHalf h own, writeHalf_layout h⟩, PostRecord.completion_eq, Completion.bytes_layout,
    QueuedNotice.bytes_clientFault, QueuedNotice.bytes_poolLow, PendingEntry.bytes_layout, partHalf_layout, poolReport_layout,
    clientReport_layout, keyReport_layout, directoryReport_layout, ?_⟩
  exact ⟨rfl, rfl, rfl, rfl, rfl, fun _ _ _ _ => rfl⟩

end Sys2Proof.Machine

/-!
PROOF. O53: a post record is read back field by field from the 64 bytes that section 10.2 gives it. Each field reads as its value
exactly when its run of bytes is that value's, so a record is read exactly from its own bytes.
-/

namespace Sys2Proof.Machine

-- Elaborated one after the other: side by side, each declaration holds a thread with memory of its own.
set_option Elab.async false

section Post
variable {bs : List Byte} {k : Nat} {f : Fragment} {r : PostRecord}

/-! ### Fragment entries (section 10.2) -/

theorem length_writeFragment (f : Fragment) : (writeFragment f).length = 8 := by
  rw [writeFragment, List.length_append, length_leBytes, length_leBytes]

/-- A fragment is read from its own entry's 8 bytes and no others. -/
theorem bytesAt_fragment_iff (hl : 32 + 8 * k + 8 ≤ bs.length) :
    bytesAt bs (32 + 8 * k) 8 = writeFragment f ↔ readFragment bs k = f := by
  have addr : 256 ^ 6 = 2 ^ 48 := by norm_num
  have len : 256 ^ 2 = 2 ^ 16 := by norm_num
  unfold writeFragment
  rw [bytesAt_field_iff hl (by omega) (addr ▸ f.addr.isLt), ← field_eq_iff (by omega) (len ▸ f.len.isLt)]
  obtain ⟨a, n⟩ := f
  simp only [readFragment, Fragment.mk.injEq, ofNat_field_eq_iff addr, ofNat_field_eq_iff len]

/-! ### The post record (R192) -/

theorem length_writePost (r : PostRecord) : (writePost r).length = 64 := by
  simp only [writePost, List.length_append, length_leBytes, length_writeFragment]

/-- A post record is read from its own 64 bytes and no others. -/
theorem readPost_eq_iff (hl : 64 ≤ bs.length) : readPost bs = r ↔ bytesAt bs 0 64 = writePost r := by
  have byte : 256 ^ 1 = 2 ^ 8 := by norm_num
  have pair : 256 ^ 2 = 2 ^ 16 := by norm_num
  have word : 256 ^ 4 = 2 ^ 32 := by norm_num
  have wide : 256 ^ 8 = 2 ^ 64 := by norm_num
  unfold writePost
  simp only [List.append_assoc]
  -- The run is taken apart field by field in the order of the table, then fragment by fragment from offset 32.
  rw [bytesAt_field_iff hl (by omega) (byte ▸ r.kind.isLt), bytesAt_field_iff (by omega) (by omega) (byte ▸ r.flags.isLt),
    bytesAt_field_iff (by omega) (by omega) (byte ▸ r.cls.isLt), bytesAt_field_iff (by omega) (by omega) (byte ▸ r.count.isLt),
    bytesAt_field_iff (by omega) (by omega) (word ▸ r.tag.isLt), bytesAt_field_iff (by omega) (by omega) (pair ▸ r.handle.isLt),
    bytesAt_field_iff (by omega) (by omega) (byte ▸ r.subject.isLt),
    bytesAt_field_iff (by omega) (by omega) (byte ▸ r.reserved.isLt),
    bytesAt_field_iff (by omega) (by omega) (word ▸ r.key.isLt), bytesAt_field_iff (by omega) (by omega) (word ▸ r.auxA.isLt),
    bytesAt_field_iff (by omega) (by omega) (word ▸ r.auxB.isLt),
    bytesAt_field_iff (by omega) (by omega) (wide ▸ r.reserved2.isLt),
    bytesAt_append_iff (m := 24) (by omega) (length_writeFragment r.frag0), bytesAt_fragment_iff (k := 0) (by omega),
    bytesAt_append_iff (m := 16) (by omega) (length_writeFragment r.frag1), bytesAt_fragment_iff (k := 1) (by omega),
    bytesAt_append_iff (m := 8) (by omega) (length_writeFragment r.frag2), bytesAt_fragment_iff (k := 2) (by omega),
    bytesAt_fragment_iff (k := 3) (by omega)]
  cases r
  simp only [readPost, PostRecord.mk.injEq, ofNat_field_eq_iff byte, ofNat_field_eq_iff pair, ofNat_field_eq_iff word,
    ofNat_field_eq_iff wide]

theorem readPost_writePost (r : PostRecord) : readPost (writePost r) = r :=
  (readPost_eq_iff (length_writePost r).ge).2 (List.take_of_length_le (length_writePost r).le)

theorem writePost_layout (r : PostRecord) : writePost r =
    [r.kind, r.flags, r.cls, r.count] ++ wordBytes r.tag ++ pairBytes r.handle.toNat ++ [r.subject, r.reserved] ++
      wordBytes r.key ++ wordBytes r.auxA ++ wordBytes r.auxB ++ quadBytes r.reserved2 ++ r.frag0.layout ++ r.frag1.layout ++
      r.frag2.layout ++ r.frag3.layout := by
  simp only [writePost, leBytes_byte, leBytes_word, leBytes_pair, leBytes_quad, writeFragment_eq, List.append_assoc]
  rfl

end Post

/-- Settles O53: the length of the bytes, their reading by `readPost_eq_iff`, and their layout. -/
theorem postRecordsReadBack : Obligations.PostRecordsReadBack :=
  fun r => ⟨length_writePost r, readPost_writePost r, writePost_layout r⟩

end Sys2Proof.Machine

/-!
PROOF. A step with a command at the front of the queue (O1).
-/

namespace Sys2Proof.Machine

section Front
variable {s : State} {c : Instr} {rest : List Instr}

@[simp] theorem State.setPending_setPending (s : State) (p q : List Instr) :
    (s.setPending p).setPending q = s.setPending q := rfl

@[simp] theorem State.setPending_self (s : State) : s.setPending s.pending = s := rfl

theorem step_front (h : s.pending = c :: rest) : step s = exec c (s.setPending rest) := by rw [step, h]

end Front

/-- Settles O1: the front command runs with the queue's rest (`step_front`), and that queue is the one the state had before. -/
theorem stepTakesTheFrontCommand : Obligations.StepTakesTheFrontCommand := fun c s =>
  calc step (s.setPending (c :: s.pending))
    _ = exec c ((s.setPending (c :: s.pending)).setPending s.pending) :=
      step_front (State.setPending_pending s (c :: s.pending))
    _ = exec c s := by rw [State.setPending_setPending, State.setPending_self]

end Sys2Proof.Machine
